-- ==== Sys2Proof/Word.lean ====
section
/-! DEFINITION. The word types of the N264 and the plain data types its commands carry.

A word is 32 bits in four byte lanes, lane 0 the least significant; a word address is 22 bits (spec/00_scope.md,
Conventions). The payload structures hold the fields of a management request as the frame codes them (R183, R185),
before any range check. -/

namespace Sys2Proof

/-- A byte of a frame or of a lane. -/
abbrev Byte := BitVec 8
/-- A word: four byte lanes, lane 0 the least significant byte. -/
abbrev Word := BitVec 32
/-- A word address, 0 to 4,194,303 (R16). -/
abbrev Addr := BitVec 22
/-- A set of lanes: bit n set means lane n is in the set. -/
abbrev Lanes := BitVec 4
/-- A value of the tick counter (R150). -/
abbrev Tick := BitVec 32
/-- A 16-bit count: commit number, seal count, periods, monitor count, limits. -/
abbrev Count := BitVec 16

/-- A sync domain, 0 to 3. -/
abbrev DomainId := Fin 4
/-- A record of the window table, 0 to 15. -/
abbrev WindowId := Fin 16
/-- A batch slot of a domain, 0 to 3. -/
abbrev SlotId := Fin 4
/-- A staging entry, 0 to 63. -/
abbrev EntryId := Fin 64
/-- A safe entry, 0 to 31. -/
abbrev SafeId := Fin 32
/-- A snapshot context of a port, 0 or 1. -/
abbrev ContextId := Fin 2
/-- A sync line SYNC0 to SYNC3. -/
abbrev SyncLine := Fin 4
/-- A fault line FAULT0 or FAULT1. -/
abbrev FaultLine := Fin 2

/-- The two host ports. -/
inductive Port where
  | a
  | b
  deriving DecidableEq, Repr

/-- The port that is not this one. -/
def Port.other : Port → Port
  | .a => .b
  | .b => .a

/-- What a master presents at a host port (R16): a read has no lane enables and no data. -/
inductive Access where
  | read (addr : Addr)
  | write (addr : Addr) (lanes : Lanes) (data : Word)
  deriving DecidableEq, Repr

/-- A change of a sync line's level: RISING from low to high, FALLING from high to low (R70). -/
inductive Edge where
  | rising
  | falling
  deriving DecidableEq, Repr

/-- The window record of a SET_WINDOW request, as coded in its frame (R185). -/
structure WindowPayload where
  enabled : Byte
  kind : Byte
  base : BitVec 24
  length : BitVec 16
  domain : Byte
  sealOffset : BitVec 16
  writerPort : Byte
  holdLimit : BitVec 16
  autoRelease : Byte
  deriving DecidableEq, Repr

/-- The domain record of a SET_DOMAIN request, as coded in its frame (R185). -/
structure DomainPayload where
  writerPort : Byte
  syncLine : Byte
  syncEdge : Byte
  maxInterval : BitVec 16
  lossPolicy : Byte
  exhaustionPolicy : Byte
  faultBinding : Byte
  sequenceWord : BitVec 24
  notifyCommits : Byte
  deriving DecidableEq, Repr

/-- The safe entry of a SET_SAFE request, as coded in its frame (R185). -/
structure SafePayload where
  enabled : Byte
  domain : Byte
  addr : BitVec 24
  data : Word
  lanes : Byte
  deriving DecidableEq, Repr

/-- The global settings of a SET_GLOBAL request, as coded in its frame (R185). -/
structure GlobalPayload where
  mask : BitVec 16
  irqEnable : Byte
  stallLimit : BitVec 16
  deriving DecidableEq, Repr

end Sys2Proof
end

