-- ==== Sys2Proof/Syntax.lean ====
section
/-! DEFINITION. The commands of the N264: one constructor for each row of spec/opcode_table.json. -/

namespace Sys2Proof

/-- The commands. Each is one whole, indivisible step of the part (spec/95_what_each_step_holds.md).

The memory completions name no requester: the M-port carries one access at a time and names its holder (R141).
A time-driven event names the port, domain or context it touches. A management command is a whole frame, from the
fall of MCS to its rise; `tail` is the number of bits sampled beyond its request, in further bytes and a partial byte
(R161, R163), which only clock out further reply bits. A frame that is not carried out holds its bytes (R164), and `rest`
is the number of bits of its partial byte, 0 where it is left out. -/
inductive Instr where
  | transactionAccept (port : Port) (access : Access)
  | portWriteComplete
  | portReadComplete
  | commitWriteComplete
  | sequenceWriteComplete
  | fillWriteComplete
  | captureReadComplete
  | stallTimeout (port : Port)
  | tick
  | syncMonitorExpiry (domain : DomainId)
  | holdLimitExpiry (port : Port) (context : ContextId)
  | syncEdge (line : SyncLine) (edge : Edge)
  | faultEdge (line : FaultLine)
  | resetFall
  | resetRise (syncLevels : Vector Bool 4) (faultLevels : Vector Bool 2) (mcs : Bool)
  | emptyFrame (rest : Fin 8 := 0)
  | unknownCommand (frame : List Byte) (rest : Fin 8 := 0)
  | nop (tail : Nat)
  | getGlobal (tail : Nat)
  | setGlobal (settings : GlobalPayload) (tail : Nat)
  | popEvent (tail : Nat)
  | resetPart (tail : Nat)
  | getWindow (index : Byte) (tail : Nat)
  | setWindow (index : Byte) (record : WindowPayload) (tail : Nat)
  | getDomain (domain : Byte) (tail : Nat)
  | setDomain (domain : Byte) (record : DomainPayload) (tail : Nat)
  | start (domain : Byte) (tail : Nat)
  | stop (domain : Byte) (tail : Nat)
  | sealBatch (domain : Byte) (tail : Nat)
  | sync (domain : Byte) (tail : Nat)
  | getSafe (index : Byte) (tail : Nat)
  | setSafe (index : Byte) (entry : SafePayload) (tail : Nat)
  | arm (domain : Byte) (tail : Nat)
  | getBatch (domain : Byte) (slot : Byte) (tail : Nat)
  | peekStaging (index : Byte) (tail : Nat)
  | shortFrame (frame : List Byte) (rest : Fin 8 := 0)
  | badCheck (frame : List Byte) (rest : Fin 8 := 0)
  | ignoredFrameEnd
  | faultLineRelease (line : FaultLine)
  deriving DecidableEq, Repr

end Sys2Proof
end

