-- ==== Sys2Proof/Machine/State.lean ====
section
/-! DEFINITION. The state of the N264 as plain data, block by block, and the state right after reset. -/

namespace Sys2Proof.Machine

/-! ## Window table (chapter 1) -/

/-- What a window is for (R1). -/
inductive WindowKind where
  | staged
  | snapshot
  deriving DecidableEq, Repr

/-- A window record (R1). The zero values of R1 are the defaults. -/
structure WindowRecord where
  enabled : Bool := false
  kind : WindowKind := .staged
  base : Addr := 0
  length : BitVec 9 := 0
  domain : DomainId := 0
  sealOffset : Option Byte := none
  writer : Port := .a
  holdLimit : Count := 0
  autoRelease : Bool := false
  deriving DecidableEq, Repr

/-! ## Ports (chapter 2) and snapshot contexts (chapter 7) -/

/-- The phases of a transaction record (R18). -/
inductive TxnPhase where
  | idle
  | request
  | memory
  | held
  | leadWait
  deriving DecidableEq, Repr

/-- The causes of a hold (R25). -/
inductive HoldCause where
  | exhausted
  | stopping
  | capture
  | safeFill
  deriving DecidableEq, Repr

/-- A port's transaction record (R18). `access` is the kind, word address, lane mask and data as accepted. In phase
IDLE the other fields hold nothing meaningful; the model keeps them at these defaults. -/
structure Txn where
  phase : TxnPhase := .idle
  access : Access := .read 0
  cause : Option HoldCause := none
  startTick : Option Tick := none
  deriving DecidableEq, Repr

/-- A response (R19) as the outputs at the rise of READY show it (R187): ERR, high for ERROR and low for OKAY, and the
data word on RDATA, which a write response does not carry. -/
structure Response where
  err : Bool
  rdata : Option Word
  deriving DecidableEq, Repr

/-- Where a capture stands (R121). -/
inductive CapturePhase where
  | writerWait
  | readRequest
  | read
  deriving DecidableEq, Repr

/-- A snapshot context (R121). The copy lists the words filled so far by offset from the lead word, so the next
offset of a capture is the copy's length. -/
inductive Context where
  | idle
  | capturing (window : WindowId) (copy : List Word) (phase : CapturePhase)
  | held (window : WindowId) (copy : List Word) (heldTick : Tick)
  deriving DecidableEq, Repr

/-- What the part keeps for one host port: its transaction record, its READY output, the response last given (the ERR
and RDATA outputs at the rise of READY, R187; none before the first response and while a transaction is in progress),
its two snapshot contexts and which of them is the less recently used (R123). -/
structure PortUnit where
  txn : Txn := {}
  ready : Bool := true
  response : Option Response := none
  contexts : Vector Context 2 := Vector.replicate 2 .idle
  lru : ContextId := 0
  deriving DecidableEq, Repr

/-! ## Staging pool (chapter 3) -/

/-- An IN_USE staging entry (R33); a FREE entry is `none`. -/
structure StagingEntry where
  addr : Addr
  data : Word
  lanes : Lanes
  domain : DomainId
  slot : SlotId
  position : Nat
  deriving DecidableEq, Repr

/-- The states of a batch slot (R35). -/
inductive SlotState where
  | free
  | opened
  | sealed
  | committing
  deriving DecidableEq, Repr

/-- A batch slot (R35): the entry count is the length of the entry list. -/
structure BatchSlot where
  state : SlotState := .free
  entries : List EntryId := []
  rank : Option Count := none
  deriving DecidableEq, Repr

/-- A write on the staging waiting list (R47); its lanes and data stay in its port's record. -/
structure Waiter where
  port : Port
  domain : DomainId
  addr : Addr
  seals : Bool
  deriving DecidableEq, Repr

/-! ## Domain controllers (chapter 4), commit engine (chapter 5), fault unit (chapter 6) -/

/-- Loss policies (R61). -/
inductive LossPolicy where
  | hold
  | commit
  | safe
  deriving DecidableEq, Repr

/-- Exhaustion policies (R61). -/
inductive ExhaustionPolicy where
  | stall
  | refuse
  deriving DecidableEq, Repr

/-- Fault bindings (R61). -/
inductive FaultBinding where
  | none
  | fault0
  | fault1
  | both
  deriving DecidableEq, Repr

/-- A domain record (R61); the defaults are its power-on values. -/
structure DomainRecord where
  writer : Port := .a
  syncLine : Option SyncLine := none
  syncEdge : Edge := .rising
  maxInterval : Count := 0
  lossPolicy : LossPolicy := .hold
  exhaustion : ExhaustionPolicy := .stall
  binding : FaultBinding := .none
  sequenceWord : Option Addr := none
  notify : Bool := false
  deriving DecidableEq, Repr

/-- The states of a domain (R63). -/
inductive DomainState where
  | disabled
  | run
  | stopping
  | safing
  | safed
  deriving DecidableEq, Repr

/-- The phases of a sync monitor (R62). -/
inductive MonitorPhase where
  | stopped
  | counting
  | lapsed
  deriving DecidableEq, Repr

/-- The phases of a commit record (R86). -/
inductive CommitPhase where
  | idle
  | entryRequest
  | entryWrite
  | sequenceRequest
  | sequenceWrite
  deriving DecidableEq, Repr

/-- A commit record (R86); the fields hold nothing meaningful in IDLE. -/
structure CommitRecord where
  phase : CommitPhase := .idle
  slot : SlotId := 0
  entryCount : Nat := 0
  next : Nat := 0
  deriving DecidableEq, Repr

/-- The phases of a fill record (R110). -/
inductive FillPhase where
  | idle
  | pending
  | fillRequest
  | fillWrite
  deriving DecidableEq, Repr

/-- A fill record (R110); the next index holds nothing meaningful in IDLE and PENDING. -/
structure FillRecord where
  phase : FillPhase := .idle
  next : SafeId := 0
  deriving DecidableEq, Repr

/-- Everything the part keeps for one domain: its record (R61), its runtime state (R62), the batch slots and seal
count that the staging pool keeps for it (R35, R38), its commit record (R86) and its fill record (R110). -/
structure Domain where
  cfg : DomainRecord := {}
  state : DomainState := .disabled
  slots : Vector BatchSlot 4 := Vector.replicate 4 {}
  sealCount : Count := 0
  commitNumber : Count := 0
  lastPeriod : Count := 0
  longestPeriod : Count := 0
  periodCount : Count := 0
  monitorCount : Count := 0
  monitorPhase : MonitorPhase := .stopped
  commit : CommitRecord := {}
  fill : FillRecord := {}
  deriving DecidableEq, Repr

/-- A safe entry (R107). -/
structure SafeEntry where
  enabled : Bool := false
  domain : DomainId := 0
  addr : Addr := 0
  data : Word := 0
  lanes : Lanes := 0
  deriving DecidableEq, Repr

/-! ## Memory port and arbiter (chapter 8) -/

/-- The requesters of the M-port (R142). -/
inductive Requester where
  | fill (domain : DomainId)
  | commit (domain : DomainId)
  | capture (port : Port)
  | port (port : Port)
  deriving DecidableEq, Repr

/-- A granted access and the requester that holds it (R140, R141). -/
structure Grant where
  holder : Requester
  access : Access
  deriving DecidableEq, Repr

/-! ## Events (chapter 9) -/

/-- The twelve event kinds (R153). -/
inductive EventKind where
  | stallTimeout
  | refusedFull
  | foreignWrite
  | faultLock
  | faultTaken
  | safeDone
  | syncOverrun
  | syncLost
  | commitDone
  | stopDone
  | snapExpired
  | snapEvicted
  deriving DecidableEq, Repr

/-- The causes an event carries (R152). -/
inductive EventCause where
  | exhausted
  | stopping
  | capture
  | safeFill
  | fault0
  | fault1
  | syncLoss
  deriving DecidableEq, Repr

/-- An event record (R152). The index is a domain or a window, as the kind gives. -/
structure EventRecord where
  kind : EventKind
  tick : Tick
  index : Option WindowId
  port : Option Port
  addr : Option Addr
  cause : Option EventCause
  lost : Bool
  deriving DecidableEq, Repr

/-! ## Management port (chapter 10) -/

/-- The receiver of the management port (R162). -/
inductive Receiver where
  | idle
  | receiving
  | ignoring
  deriving DecidableEq, Repr

/-- The thirteen results of a reply (R169). -/
inductive Result where
  | ok
  | accepted
  | busy
  | state
  | badIndex
  | badValue
  | overlap
  | faultActive
  | empty
  | badCheck
  | shortFrame
  | unknown
  | none
  deriving DecidableEq, Repr

/-- A reply (R166) without its checksum byte, which is computed from the rest. -/
structure Reply where
  result : Result
  report : List Byte := []
  deriving DecidableEq, Repr

/-! ## The whole part -/

/-- The state of the part and of the SRAM behind it, with the queue of waiting commands. -/
structure State where
  /-- RESET is low (R188). -/
  resetLow : Bool
  /-- The tick counter (R150). -/
  tick : Tick
  /-- Port A and Port B (R18, R121, R123). -/
  portA : PortUnit
  portB : PortUnit
  /-- The window table (R1). -/
  windows : Vector WindowRecord 16
  /-- The staging entries; `none` is FREE (R33). -/
  entries : Vector (Option StagingEntry) 64
  /-- The staging waiting list, oldest first (R47). -/
  waiting : List Waiter
  /-- The four domains. -/
  domains : Vector Domain 4
  /-- The commit engine's start-order list (R89). -/
  startOrder : List DomainId
  /-- The model's own: domains of the start-order list that joined it by a COMMIT expiry at the present tick (R89). -/
  expiryStarts : List DomainId
  /-- The safe table (R107). -/
  safe : Vector SafeEntry 32
  /-- The fault unit's fill-order list (R111). -/
  fillOrder : List DomainId
  /-- The snapshot unit's capture-order list, by the port that captures (R126). -/
  captureOrder : List Port
  /-- The M-port: FREE (`none`) or BUSY with a granted access (R141). -/
  mport : Option Grant
  /-- The last-granted port (R141). -/
  lastPort : Port
  /-- The event queue, oldest record first (R155). -/
  queue : List EventRecord
  /-- IRQ is asserted, that is, driven low (R158). -/
  irq : Bool
  /-- The global event mask, bit n for the kind with code n (R154, R185). -/
  mask : BitVec 12
  /-- The IRQ enable (R158). -/
  irqEnable : Bool
  /-- The stall limit (R27, R173). -/
  stallLimit : BitVec 12
  /-- The levels taken of SYNC0 to SYNC3, true for high (R70). -/
  syncLevels : Vector Bool 4
  /-- The levels taken of FAULT0 and FAULT1, true for high; a line is asserted while low (R102). -/
  faultLevels : Vector Bool 2
  /-- The receiver of the management port (R162). -/
  receiver : Receiver
  /-- The pending reply; `none` while RESET is low (R167, R168). -/
  reply : Option Reply
  /-- The bits shifted out on MSDO during the last frame, one for each rising edge of MSCK, in their order (R161, R167). -/
  msdo : List Bool
  /-- The SRAM behind the M-port: the bytes the part has written, strictly rising by cell (R140). -/
  mem : List Host.Cell
  /-- The model's own: how many free values have been taken. -/
  freeCount : Nat
  /-- The commands that wait, first in, first out. -/
  pending : List Instr
  deriving DecidableEq, Repr

/-- No command of this part stops with a fault: the spec gives every event an effect, or says that it has none. The type
is closed and has no constructor; nobody raises it, which is safe. -/
inductive Fault where
  deriving DecidableEq, Repr

/-- The refusals. -/
inductive Refusal where
  /-- Raised by `exec` alone, for a command that has no meaning yet; safe, since nothing is claimed of it. -/
  | notModelled (mnemonic : String)
  deriving DecidableEq, Repr

/-- The part right after power-on reset, once RESET has risen: the power-on values of every block (R1, R18, R33, R35,
R38, R61, R62, R86, R107, R110, R121, R123, R141, R150, R160, R168, R173), READY high, the NONE reply pending. The levels
taken at the rise are the world's: here the sync lines are low, the fault lines and MCS high (log entry 5); other levels
follow from RESET_FALL and RESET_RISE. -/
def State.reset : State where
  resetLow := false
  tick := 0
  portA := {}
  portB := {}
  windows := Vector.replicate 16 {}
  entries := Vector.replicate 64 none
  waiting := []
  domains := Vector.replicate 4 {}
  startOrder := []
  expiryStarts := []
  safe := Vector.replicate 32 {}
  fillOrder := []
  captureOrder := []
  mport := none
  lastPort := .b
  queue := []
  irq := false
  mask := 0xFFF
  irqEnable := false
  stallLimit := 100
  syncLevels := Vector.replicate 4 false
  faultLevels := Vector.replicate 2 true
  receiver := .idle
  reply := some { result := .none }
  msdo := []
  mem := []
  freeCount := 0
  pending := []

end Sys2Proof.Machine
end

