-- ==== Sys2Proof/Machine/Operands.lean ====
section
/-! DEFINITION. Byte lanes, the coding of fields in management frames (R183), what SET_WINDOW, SET_DOMAIN and SET_SAFE
check and store (R10, R14, R81, R108), and the layouts of the reports (R185). -/

namespace Sys2Proof.Machine

/-! ## Lanes -/

/-- Byte lane `l` of a word; lane 0 is the least significant byte (spec/00_scope.md, Conventions). -/
def lane (w : Word) (l : Fin 4) : Byte := w.extractLsb' (8 * l.val) 8

/-- The word with the four given lanes. -/
def wordOfLanes (l0 l1 l2 l3 : Byte) : Word := l3 ++ l2 ++ l1 ++ l0

/-- Lane `l` of `old` replaced by that of `new` where the mask names it (R40, R56, R114, R133, R140). -/
def mergedLane (old new : Word) (m : Lanes) (l : Fin 4) : Byte :=
  if m.getLsbD l.val then lane new l else lane old l

/-- `old` with the lanes of the mask replaced by those of `new`. -/
def mergeLanes (old new : Word) (m : Lanes) : Word :=
  wordOfLanes (mergedLane old new m 0) (mergedLane old new m 1) (mergedLane old new m 2) (mergedLane old new m 3)

/-- Data with 0 in the lanes outside the mask (R41, R108). -/
def maskedData (data : Word) (m : Lanes) : Word := mergeLanes 0 data m

/-! ## Numbers in a frame, most significant byte first (R183) -/

/-- A 16-bit value as two bytes. -/
def bytes16 (v : BitVec 16) : List Byte := [v.extractLsb' 8 8, v.extractLsb' 0 8]

/-- A 24-bit value as three bytes. -/
def bytes24 (v : BitVec 24) : List Byte := [v.extractLsb' 16 8, v.extractLsb' 8 8, v.extractLsb' 0 8]

/-- A 32-bit value as four bytes; for a data word these are lane 3, lane 2, lane 1, lane 0. -/
def bytes32 (v : BitVec 32) : List Byte :=
  [v.extractLsb' 24 8, v.extractLsb' 16 8, v.extractLsb' 8 8, v.extractLsb' 0 8]

/-- A word address as three bytes, its upper two bits 0. -/
def bytesAddr (a : Addr) : List Byte := bytes24 (a.setWidth 24)

/-! ## Codes of fields (R183) -/

/-- A yes/no field of a request: 0x00 is no, any other value yes. -/
def yesOfByte (b : Byte) : Bool := b != 0

/-- A yes/no field of a report. -/
def byteOfYes (y : Bool) : Byte := if y then 1 else 0

def WindowKind.code : WindowKind → Byte
  | .staged => 0
  | .snapshot => 1

def windowKindOfCode (b : Byte) : Option WindowKind :=
  if b = 0 then some .staged else if b = 1 then some .snapshot else none

def portCode : Port → Byte
  | .a => 0
  | .b => 1

def portOfCode (b : Byte) : Option Port :=
  if b = 0 then some .a else if b = 1 then some .b else none

def syncLineCode : Option SyncLine → Byte
  | some l => BitVec.ofNat 8 l.val
  | none => 4

/-- A sync line code: the outer `none` is a code outside the table, the inner one is NONE. -/
def syncLineOfCode (b : Byte) : Option (Option SyncLine) :=
  if h : b.toNat < 4 then some (some ⟨b.toNat, h⟩) else if b = 4 then some none else none

def edgeCode : Edge → Byte
  | .rising => 0
  | .falling => 1

def edgeOfCode (b : Byte) : Option Edge :=
  if b = 0 then some .rising else if b = 1 then some .falling else none

def LossPolicy.code : LossPolicy → Byte
  | .hold => 0
  | .commit => 1
  | .safe => 2

def lossPolicyOfCode (b : Byte) : Option LossPolicy :=
  if b = 0 then some .hold else if b = 1 then some .commit else if b = 2 then some .safe else none

def ExhaustionPolicy.code : ExhaustionPolicy → Byte
  | .stall => 0
  | .refuse => 1

def exhaustionOfCode (b : Byte) : Option ExhaustionPolicy :=
  if b = 0 then some .stall else if b = 1 then some .refuse else none

def FaultBinding.code : FaultBinding → Byte
  | .none => 0
  | .fault0 => 1
  | .fault1 => 2
  | .both => 3

def bindingOfCode (b : Byte) : Option FaultBinding :=
  if b = 0 then some .none else if b = 1 then some .fault0 else if b = 2 then some .fault1
  else if b = 3 then some .both else none

def irqEnableOfCode (b : Byte) : Option Bool :=
  if b = 0 then some false else if b = 1 then some true else none

def DomainState.code : DomainState → Byte
  | .disabled => 0
  | .run => 1
  | .stopping => 2
  | .safing => 3
  | .safed => 4

def SlotState.code : SlotState → Byte
  | .free => 0
  | .opened => 1
  | .sealed => 2
  | .committing => 3

def EventCause.code : EventCause → Byte
  | .exhausted => 0
  | .stopping => 1
  | .capture => 2
  | .safeFill => 3
  | .fault0 => 4
  | .fault1 => 5
  | .syncLoss => 6

/-- The codes of the results (R184). -/
def Result.code : Result → Byte
  | .ok => 0x00
  | .accepted => 0x01
  | .busy => 0x02
  | .state => 0x03
  | .badIndex => 0x04
  | .badValue => 0x05
  | .overlap => 0x06
  | .faultActive => 0x07
  | .empty => 0x08
  | .badCheck => 0x09
  | .shortFrame => 0x0A
  | .unknown => 0x0B
  | .none => 0x0C

/-- The codes of the event kinds, which are also their bits in the event mask (R185). -/
def EventKind.code : EventKind → Nat
  | .stallTimeout => 0
  | .refusedFull => 1
  | .foreignWrite => 2
  | .faultLock => 3
  | .faultTaken => 4
  | .safeDone => 5
  | .syncOverrun => 6
  | .syncLost => 7
  | .commitDone => 8
  | .stopDone => 9
  | .snapExpired => 10
  | .snapEvicted => 11

/-- The cause an event carries for a hold cause (R27, R153). -/
def HoldCause.toEvent : HoldCause → EventCause
  | .exhausted => .exhausted
  | .stopping => .stopping
  | .capture => .capture
  | .safeFill => .safeFill

/-! ## Index and number bytes, taken whole (R184) -/

def domainOfByte (b : Byte) : Option DomainId := if h : b.toNat < 4 then some ⟨b.toNat, h⟩ else none

def slotOfByte (b : Byte) : Option SlotId := if h : b.toNat < 4 then some ⟨b.toNat, h⟩ else none

def windowOfByte (b : Byte) : Option WindowId := if h : b.toNat < 16 then some ⟨b.toNat, h⟩ else none

def safeOfByte (b : Byte) : Option SafeId := if h : b.toNat < 32 then some ⟨b.toNat, h⟩ else none

def entryOfByte (b : Byte) : Option EntryId := if h : b.toNat < 64 then some ⟨b.toNat, h⟩ else none

/-- The low two bits of a domain byte (R183, a disabled window record). -/
def domainLowBits (b : Byte) : DomainId := ⟨b.toNat % 4, Nat.mod_lt _ (by decide)⟩

end Sys2Proof.Machine

namespace Sys2Proof

open Machine

/-! ## What SET_WINDOW checks and stores -/

/-- The seal offset field: 0xFFFF is absent (R183). -/
def WindowPayload.sealField (w : WindowPayload) : Option (BitVec 16) :=
  if w.sealOffset = 0xFFFF then none else some w.sealOffset

/-- The word addresses from base to base + length − 1 do not all lie in 0–4,194,303 (R10, check 2). -/
def WindowPayload.leavesAddresses (w : WindowPayload) : Bool :=
  decide (w.base.toNat + w.length.toNat - 1 > 4194303)

/-- Check 2 of SET_WINDOW fails (R10): a field of an enabled record is out of range. -/
def WindowPayload.badValue (w : WindowPayload) : Bool :=
  yesOfByte w.enabled &&
    match windowKindOfCode w.kind with
    | none => true
    | some .staged =>
      decide (w.length.toNat < 1 ∨ 256 < w.length.toNat) || w.leavesAddresses || decide (3 < w.domain.toNat) ||
        (match w.sealField with
         | none => false
         | some o => decide (w.length.toNat ≤ o.toNat))
    | some .snapshot =>
      decide (w.length.toNat < 2 ∨ 16 < w.length.toNat) || w.leavesAddresses || (portOfCode w.writerPort).isNone

/-- The record a successful SET_WINDOW stores (R14, R183): the fields of the record's kind as given, within the ranges of
R1, and the fields of the other kind at their zero values. -/
def WindowPayload.stored (w : WindowPayload) : WindowRecord :=
  if w.kind = 1 then
    { enabled := yesOfByte w.enabled
      kind := .snapshot
      base := w.base.setWidth 22
      length := w.length.setWidth 9
      writer := if w.writerPort = 1 then .b else .a
      holdLimit := w.holdLimit
      autoRelease := yesOfByte w.autoRelease }
  else
    { enabled := yesOfByte w.enabled
      kind := .staged
      base := w.base.setWidth 22
      length := w.length.setWidth 9
      domain := domainLowBits w.domain
      sealOffset := w.sealField.map (·.setWidth 8) }

/-! ## What SET_DOMAIN and SET_SAFE check and store -/

/-- The sequence word field: the outer `none` is a present address above 4,194,303, the inner one is absence (R81,
R183). -/
def sequenceOfField (v : BitVec 24) : Option (Option Addr) :=
  if v = 0xFFFFFF then some none else if v.toNat ≤ 4194303 then some (some (v.setWidth 22)) else none

/-- The record SET_DOMAIN writes, or `none` where check 2 fails: a field is out of range (R81, R82). -/
def DomainPayload.stored (d : DomainPayload) : Option DomainRecord :=
  match portOfCode d.writerPort, syncLineOfCode d.syncLine, edgeOfCode d.syncEdge, lossPolicyOfCode d.lossPolicy,
    exhaustionOfCode d.exhaustionPolicy, bindingOfCode d.faultBinding, sequenceOfField d.sequenceWord with
  | some writer, some line, some edge, some loss, some exhaustion, some binding, some seqWord =>
    some { writer := writer, syncLine := line, syncEdge := edge, maxInterval := d.maxInterval, lossPolicy := loss,
           exhaustion := exhaustion, binding := binding, sequenceWord := seqWord, notify := yesOfByte d.notifyCommits }
  | _, _, _, _, _, _, _ => none

/-- The lane mask of a SET_SAFE: bits 4–7 are ignored (R183). -/
def SafePayload.mask (p : SafePayload) : Lanes := p.lanes.setWidth 4

/-- The entry SET_SAFE writes, or `none` where check 2 fails (R108). -/
def SafePayload.stored (p : SafePayload) : Option SafeEntry :=
  match domainOfByte p.domain with
  | none => none
  | some d =>
    if 4194303 < p.addr.toNat ∨ (yesOfByte p.enabled = true ∧ p.mask = 0) then none
    else some { enabled := yesOfByte p.enabled, domain := d, addr := p.addr.setWidth 22,
                data := maskedData p.data p.mask, lanes := p.mask }

end Sys2Proof

namespace Sys2Proof.Machine

/-! ## Reports (R185, R186) -/

/-- The window record, 14 bytes. -/
def WindowRecord.report (w : WindowRecord) : List Byte :=
  [byteOfYes w.enabled, w.kind.code] ++ bytesAddr w.base ++ bytes16 (w.length.setWidth 16) ++
    [BitVec.ofNat 8 w.domain.val] ++
    bytes16 (match w.sealOffset with
      | none => 0xFFFF
      | some o => o.setWidth 16) ++
    [portCode w.writer] ++ bytes16 w.holdLimit ++ [byteOfYes w.autoRelease]

/-- The domain record, 12 bytes. -/
def DomainRecord.report (d : DomainRecord) : List Byte :=
  [portCode d.writer, syncLineCode d.syncLine, edgeCode d.syncEdge] ++ bytes16 d.maxInterval ++
    [d.lossPolicy.code, d.exhaustion.code, d.binding.code] ++
    (match d.sequenceWord with
      | none => bytes24 0xFFFFFF
      | some a => bytesAddr a) ++
    [byteOfYes d.notify]

/-- A slot in the GET_DOMAIN report: its state and its entry count. -/
def BatchSlot.stateAndCount (b : BatchSlot) : List Byte := [b.state.code, BitVec.ofNat 8 b.entries.length]

/-- The GET_DOMAIN report, 29 bytes (R83). -/
def Domain.report (d : Domain) : List Byte :=
  d.cfg.report ++ [d.state.code] ++ d.slots.toList.flatMap BatchSlot.stateAndCount ++ bytes16 d.commitNumber ++
    bytes16 d.lastPeriod ++ bytes16 d.longestPeriod ++ bytes16 d.monitorCount

/-- The safe entry, 10 bytes. -/
def SafeEntry.report (e : SafeEntry) : List Byte :=
  [byteOfYes e.enabled, BitVec.ofNat 8 e.domain.val] ++ bytesAddr e.addr ++ bytes32 e.data ++ [e.lanes.setWidth 8]

/-- The GET_BATCH report, 5 bytes (R60). -/
def BatchSlot.report (b : BatchSlot) : List Byte :=
  b.stateAndCount ++
    match b.rank with
    | none => [0, 0, 0]
    | some r => [1] ++ bytes16 r

/-- The PEEK_STAGING report, 12 bytes: every byte 0 for a FREE entry (R59). -/
def stagingReport : Option StagingEntry → List Byte
  | none => List.replicate 12 0
  | some e =>
    [1] ++ bytesAddr e.addr ++ bytes32 e.data ++
      [e.lanes.setWidth 8, BitVec.ofNat 8 e.domain.val, BitVec.ofNat 8 e.slot.val, BitVec.ofNat 8 e.position]

/-- Byte 1 of an event record: which fields are present, and the lost marker in bit 7. -/
def EventRecord.presence (e : EventRecord) : Byte :=
  (if e.index.isSome then 1 else 0) + (if e.port.isSome then 2 else 0) + (if e.addr.isSome then 4 else 0) +
    (if e.cause.isSome then 8 else 0) + (if e.lost then 128 else 0)

/-- The event record, 12 bytes: an absent field reads 0. -/
def EventRecord.report (e : EventRecord) : List Byte :=
  [BitVec.ofNat 8 e.kind.code, e.presence] ++ bytes32 e.tick ++
    [(e.index.map fun i => BitVec.ofNat 8 i.val).getD 0, (e.port.map portCode).getD 0] ++
    bytesAddr (e.addr.getD 0) ++ [(e.cause.map EventCause.code).getD 0]

/-! ## The bytes of a reply (R166, R167) -/

/-- The sum of bytes modulo 256. -/
def byteSum (l : List Byte) : Byte := l.foldl (· + ·) 0

/-- The bytes followed by the checksum byte that makes them sum to 0 (R163, R166). -/
def withChecksum (l : List Byte) : List Byte := l ++ [0 - byteSum l]

/-- A reply: result byte, report, checksum byte. -/
def Reply.bytes (r : Reply) : List Byte := withChecksum (r.result.code :: r.report)

/-- The bits of a byte, most significant bit first (R161). -/
def bitsOfByte (b : Byte) : List Bool :=
  [b.getLsbD 7, b.getLsbD 6, b.getLsbD 5, b.getLsbD 4, b.getLsbD 3, b.getLsbD 2, b.getLsbD 1, b.getLsbD 0]

/-- The bits of bytes, in the order they travel (R161). -/
def bitsOfBytes (l : List Byte) : List Bool := l.flatMap bitsOfByte

/-- The bits shifted out during a frame of `n` bits: those of the pending reply from its byte 0, then those of bytes 0x00
(R161, R167). A frame that breaks off within a byte has shifted out the byte's leading bits. -/
def shiftOut (r : Option Reply) (n : Nat) : List Bool :=
  (bitsOfBytes ((r.map Reply.bytes).getD []) ++ List.replicate n false).take n

end Sys2Proof.Machine
end

