-- ==== Sys2Proof/Decode.lean ====
section
/-! DEFINITION. How the bits of a management frame spell a command (R161, R163, R164, R183 to R185), total on any bits,
and an encoder written from the same layouts. The opcode table gives no row any bits, so no table word spells a command. -/

namespace Sys2Proof

open Machine

/-! ## Bits and bytes (R161) -/

/-- A byte from its bits, most significant bit first. -/
def byteOfBits (b7 b6 b5 b4 b3 b2 b1 b0 : Bool) : Byte :=
  BitVec.ofBoolListBE [b7, b6, b5, b4, b3, b2, b1, b0]

/-- The complete bytes of a frame from the bits sampled; a partial byte at the end is discarded. -/
def bytesOfBits : List Bool → List Byte
  | b7 :: b6 :: b5 :: b4 :: b3 :: b2 :: b1 :: b0 :: rest => byteOfBits b7 b6 b5 b4 b3 b2 b1 b0 :: bytesOfBits rest
  | _ => []

/-- A 16-bit number from two bytes, most significant first. -/
def word16 (b1 b0 : Byte) : BitVec 16 := b1 ++ b0

/-- A 24-bit number from three bytes, most significant first. -/
def word24 (b2 b1 b0 : Byte) : BitVec 24 := b2 ++ b1 ++ b0

/-- A 32-bit number from four bytes, most significant first. -/
def word32 (b3 b2 b1 b0 : Byte) : BitVec 32 := b3 ++ b2 ++ b1 ++ b0

/-! ## The command table (R170, R184) -/

/-- The payload length of a command code; `none` for a byte that is no command code. -/
def payloadLength (code : Byte) : Option Nat :=
  match code.toNat with
  | 0x01 => some 0
  | 0x02 => some 0
  | 0x03 => some 5
  | 0x04 => some 0
  | 0x05 => some 0
  | 0x10 => some 1
  | 0x11 => some 15
  | 0x20 => some 1
  | 0x21 => some 13
  | 0x22 => some 1
  | 0x23 => some 1
  | 0x24 => some 1
  | 0x25 => some 1
  | 0x30 => some 1
  | 0x31 => some 11
  | 0x32 => some 1
  | 0x40 => some 2
  | 0x41 => some 1
  | _ => none

/-- The request length L: the payload length plus two (R163). -/
def requestLength (code : Byte) : Option Nat := (payloadLength code).map (· + 2)

/-- What R164 finds of a frame. -/
inductive FrameVerdict where
  | empty
  | unknown
  | short
  | badCheck
  | carriedOut
  deriving DecidableEq, Repr

/-- The tests of R164, in their order. -/
def frameVerdict : List Byte → FrameVerdict
  | [] => .empty
  | code :: rest =>
    match requestLength code with
    | none => .unknown
    | some n =>
      if (code :: rest).length < n then .short
      else if byteSum ((code :: rest).take n) ≠ 0 then .badCheck
      else .carriedOut

/-! ## Requests (R184, R185) -/

/-- The command of a code and its payload; `none` where the payload has not the command's length. -/
def decodeRequest (code : Byte) (payload : List Byte) (tail : Nat) : Option Instr :=
  match code.toNat, payload with
  | 0x01, [] => some (.nop tail)
  | 0x02, [] => some (.getGlobal tail)
  | 0x03, [m1, m0, e, l1, l0] =>
    some (.setGlobal { mask := word16 m1 m0, irqEnable := e, stallLimit := word16 l1 l0 } tail)
  | 0x04, [] => some (.popEvent tail)
  | 0x05, [] => some (.resetPart tail)
  | 0x10, [i] => some (.getWindow i tail)
  | 0x11, [i, en, k, b2, b1, b0, l1, l0, d, s1, s0, w, h1, h0, a] =>
    some (.setWindow i
      { enabled := en, kind := k, base := word24 b2 b1 b0, length := word16 l1 l0, domain := d,
        sealOffset := word16 s1 s0, writerPort := w, holdLimit := word16 h1 h0, autoRelease := a } tail)
  | 0x20, [d] => some (.getDomain d tail)
  | 0x21, [d, w, l, e, m1, m0, lp, ep, fb, s2, s1, s0, n] =>
    some (.setDomain d
      { writerPort := w, syncLine := l, syncEdge := e, maxInterval := word16 m1 m0, lossPolicy := lp,
        exhaustionPolicy := ep, faultBinding := fb, sequenceWord := word24 s2 s1 s0, notifyCommits := n } tail)
  | 0x22, [d] => some (.start d tail)
  | 0x23, [d] => some (.stop d tail)
  | 0x24, [d] => some (.sealBatch d tail)
  | 0x25, [d] => some (.sync d tail)
  | 0x30, [i] => some (.getSafe i tail)
  | 0x31, [i, en, d, a2, a1, a0, d3, d2, d1, d0, m] =>
    some (.setSafe i { enabled := en, domain := d, addr := word24 a2 a1 a0, data := word32 d3 d2 d1 d0, lanes := m } tail)
  | 0x32, [d] => some (.arm d tail)
  | 0x40, [d, k] => some (.getBatch d k tail)
  | 0x41, [i] => some (.peekStaging i tail)
  | _, _ => none

/-- The command a frame's complete bytes spell (R164), with the number of bits of the partial byte after them: what
follows the request is ignored but for its number of bits. -/
def decodeFrame (frame : List Byte) (rest : Fin 8) : Instr :=
  match frameVerdict frame with
  | .empty => .emptyFrame rest
  | .unknown => .unknownCommand frame rest
  | .short => .shortFrame frame rest
  | .badCheck => .badCheck frame rest
  | .carriedOut =>
    match frame with
    | [] => .emptyFrame rest
    | code :: after =>
      let n := (payloadLength code).getD 0
      (decodeRequest code (after.take n) (8 * (after.length - (n + 1)) + rest.val)).getD (.unknownCommand frame rest)

/-- The command the bits sampled in a frame spell (R161, R164). -/
def decodeBits (bits : List Bool) : Instr := decodeFrame (bytesOfBits bits) (Fin.ofNat 8 bits.length)

/-! ## The encoder -/

/-- The payload of a window record, 14 bytes (R185). -/
def WindowPayload.bytes (w : WindowPayload) : List Byte :=
  [w.enabled, w.kind] ++ bytes24 w.base ++ bytes16 w.length ++ [w.domain] ++ bytes16 w.sealOffset ++ [w.writerPort] ++
    bytes16 w.holdLimit ++ [w.autoRelease]

/-- The payload of a domain record, 12 bytes (R185). -/
def DomainPayload.bytes (d : DomainPayload) : List Byte :=
  [d.writerPort, d.syncLine, d.syncEdge] ++ bytes16 d.maxInterval ++
    [d.lossPolicy, d.exhaustionPolicy, d.faultBinding] ++ bytes24 d.sequenceWord ++ [d.notifyCommits]

/-- The payload of a safe entry, 10 bytes (R185). -/
def SafePayload.bytes (e : SafePayload) : List Byte :=
  [e.enabled, e.domain] ++ bytes24 e.addr ++ bytes32 e.data ++ [e.lanes]

/-- The payload of the global settings, 5 bytes (R185). -/
def GlobalPayload.bytes (g : GlobalPayload) : List Byte := bytes16 g.mask ++ [g.irqEnable] ++ bytes16 g.stallLimit

/-- The bits of a frame: its complete bytes, then `n` further bits, each 0. -/
def frameBits (l : List Byte) (n : Nat) : List Bool := bitsOfBytes l ++ List.replicate n false

/-- A request frame: code, payload, checksum, and bits beyond the request. -/
def requestFrame (code : Byte) (payload : List Byte) (tail : Nat) : List Bool :=
  frameBits (withChecksum (code :: payload)) tail

/-- The bits of the frame of a command that is one; `none` for a command that is no frame, and for the end of an ignored
frame, whose bytes are not taken. -/
def encodeFrame : Instr → Option (List Bool)
  | .emptyFrame rest => some (frameBits [] rest.val)
  | .unknownCommand frame rest => some (frameBits frame rest.val)
  | .shortFrame frame rest => some (frameBits frame rest.val)
  | .badCheck frame rest => some (frameBits frame rest.val)
  | .nop tail => some (requestFrame 0x01 [] tail)
  | .getGlobal tail => some (requestFrame 0x02 [] tail)
  | .setGlobal g tail => some (requestFrame 0x03 g.bytes tail)
  | .popEvent tail => some (requestFrame 0x04 [] tail)
  | .resetPart tail => some (requestFrame 0x05 [] tail)
  | .getWindow i tail => some (requestFrame 0x10 [i] tail)
  | .setWindow i w tail => some (requestFrame 0x11 (i :: w.bytes) tail)
  | .getDomain d tail => some (requestFrame 0x20 [d] tail)
  | .setDomain d r tail => some (requestFrame 0x21 (d :: r.bytes) tail)
  | .start d tail => some (requestFrame 0x22 [d] tail)
  | .stop d tail => some (requestFrame 0x23 [d] tail)
  | .sealBatch d tail => some (requestFrame 0x24 [d] tail)
  | .sync d tail => some (requestFrame 0x25 [d] tail)
  | .getSafe i tail => some (requestFrame 0x30 [i] tail)
  | .setSafe i e tail => some (requestFrame 0x31 (i :: e.bytes) tail)
  | .arm d tail => some (requestFrame 0x32 [d] tail)
  | .getBatch d k tail => some (requestFrame 0x40 [d, k] tail)
  | .peekStaging i tail => some (requestFrame 0x41 [i] tail)
  | .transactionAccept _ _ => none
  | .portWriteComplete => none
  | .portReadComplete => none
  | .commitWriteComplete => none
  | .sequenceWriteComplete => none
  | .fillWriteComplete => none
  | .captureReadComplete => none
  | .stallTimeout _ => none
  | .tick => none
  | .syncMonitorExpiry _ => none
  | .holdLimitExpiry _ _ => none
  | .syncEdge _ _ => none
  | .faultEdge _ => none
  | .resetFall => none
  | .resetRise _ _ _ => none
  | .ignoredFrameEnd => none
  | .faultLineRelease _ => none

/-! ## Words of the opcode table -/

/-- The command a word of spec/opcode_table.json spells: none, for no row of the table gives bits. -/
def decodeTableWord (_nbits _w : Nat) : Option Instr := none

end Sys2Proof
end

