-- ==== Sys2Proof/Config.lean ====
section
/-! DEFINITION. What the spec leaves open. Each is an opaque constant with no body: nothing can be proved of its value,
so a claim holds whatever it is. -/

namespace Sys2Proof.Config

/-- The byte a cell of the SRAM holds before the part has written it. The part does not alter memory at a reset, and
software treats the contents as unknown until it has written them (spec/00_scope.md, last note). Log entry 2. -/
opaque powerOnByte : Nat → BitVec 8

/-- The order in which events of one step are taken where the spec says "in either order" or "in any order"
(R29, R70, R103, R112, R155). Applied to `State.freeCount`; log entry 3. -/
opaque pick : Nat → Nat

/-- Whether a write granted and not yet completed at the fall of RESET reaches the SRAM: it "may or may not be in
memory" (R149, R101, R120). Applied to `State.freeCount`; log entry 4. -/
opaque abandonedWriteLands : Nat → Bool

end Sys2Proof.Config
end

