-- ==== Sys2Proof/Machine/Ops.lean ====
section
/-! DEFINITION. The named reads and writes of State: ports, domains, slots, the SRAM, and the order in which events of
one step are taken where the spec leaves it open. -/

namespace Sys2Proof.Machine

/-! ## The SRAM (R140) -/

/-- The cell of lane `l` of word `a`. Log entry 6. -/
def cell (a : Addr) (l : Fin 4) : Nat := 4 * a.toNat + l.val

/-- The byte the part has written to a cell, if it has written one. -/
def Memory.read? : List Host.Cell → Nat → Option Byte
  | [], _ => none
  | (k, b) :: m, i => if i = k then some b else Memory.read? m i

/-- One cell written; the list stays strictly rising. -/
def Memory.write : List Host.Cell → Nat → Byte → List Host.Cell
  | [], i, x => [(i, x)]
  | (k, b) :: m, i, x =>
    if i < k then (i, x) :: (k, b) :: m else if i = k then (i, x) :: m else (k, b) :: Memory.write m i x

/-- Every cell of the list lies above `i`. -/
def Memory.above (i : Nat) : List Host.Cell → Bool
  | [] => true
  | (k, _) :: _ => decide (i < k)

/-- The canonical form: cells strictly rising, each inside the 24-bit byte-address space. An unlisted cell reads as no
written value, and no entry equals that. -/
def Memory.wf : List Host.Cell → Bool
  | [] => true
  | (k, _) :: m => decide (k < 2 ^ 24) && Memory.above k m && Memory.wf m

/-- What lane `l` of word `a` reads as: the byte written last, or the power-on byte of the cell, which is free (log
entry 2). -/
def Memory.readLane (m : List Host.Cell) (a : Addr) (l : Fin 4) : Byte :=
  (Memory.read? m (cell a l)).getD (Config.powerOnByte (cell a l))

/-- A read takes all four lanes (R140). -/
def Memory.readWord (m : List Host.Cell) (a : Addr) : Word :=
  wordOfLanes (Memory.readLane m a 0) (Memory.readLane m a 1) (Memory.readLane m a 2) (Memory.readLane m a 3)

/-- One lane of a write: taken when the mask names it, left as it was otherwise (R140). -/
def Memory.writeLane (m : List Host.Cell) (a : Addr) (mask : Lanes) (data : Word) (l : Fin 4) : List Host.Cell :=
  if mask.getLsbD l.val then Memory.write m (cell a l) (lane data l) else m

/-- A write with a lane mask (R140). -/
def Memory.writeWord (m : List Host.Cell) (a : Addr) (mask : Lanes) (data : Word) : List Host.Cell :=
  (List.finRange 4).foldl (fun m l => Memory.writeLane m a mask data l) m

/-- What an access does to the SRAM at its completion. -/
def Memory.complete (m : List Host.Cell) : Access → List Host.Cell
  | .read _ => m
  | .write a mask data => Memory.writeWord m a mask data

/-! ## Accesses -/

/-- The word address of an access. -/
def accessAddr : Access → Addr
  | .read a => a
  | .write a _ _ => a

/-- The access is a write. -/
def accessWrites : Access → Bool
  | .read _ => false
  | .write _ _ _ => true

/-- The lane mask of a write; a read has none. -/
def accessLanes : Access → Lanes
  | .read _ => 0
  | .write _ m _ => m

/-- The data word of a write; a read has none. -/
def accessData : Access → Word
  | .read _ => 0
  | .write _ _ d => d

/-! ## Ports, domains, slots -/

/-- A port's unit. -/
def State.port (s : State) : Port → PortUnit
  | .a => s.portA
  | .b => s.portB

/-- A port's unit replaced. -/
def State.setPort (s : State) (p : Port) (u : PortUnit) : State :=
  match p with
  | .a => { s with portA := u }
  | .b => { s with portB := u }

/-- A port's transaction record replaced. -/
def State.setTxn (s : State) (p : Port) (t : Txn) : State := s.setPort p { s.port p with txn := t }

/-- A context of a port. -/
def State.context (s : State) (p : Port) (c : ContextId) : Context := (s.port p).contexts[c]

/-- A context of a port replaced. -/
def State.setContext (s : State) (p : Port) (c : ContextId) (x : Context) : State :=
  s.setPort p { s.port p with contexts := (s.port p).contexts.set c x }

/-- A context is used: the port's other context becomes the less recently used (R123). -/
def State.useContext (s : State) (p : Port) (c : ContextId) : State :=
  s.setPort p { s.port p with lru := 1 - c }

/-- A domain. -/
def State.domain (s : State) (d : DomainId) : Domain := s.domains[d]

/-- A domain replaced. -/
def State.setDomain (s : State) (d : DomainId) (x : Domain) : State := { s with domains := s.domains.set d x }

/-- A batch slot of a domain. -/
def State.slot (s : State) (d : DomainId) (k : SlotId) : BatchSlot := (s.domain d).slots[k]

/-- A batch slot of a domain replaced. -/
def State.setSlot (s : State) (d : DomainId) (k : SlotId) (b : BatchSlot) : State :=
  s.setDomain d { s.domain d with slots := (s.domain d).slots.set k b }

/-- A staging entry replaced. -/
def State.setEntry (s : State) (i : EntryId) (e : Option StagingEntry) : State :=
  { s with entries := s.entries.set i e }

/-- A window record. -/
def State.window (s : State) (w : WindowId) : WindowRecord := s.windows[w]

/-- A safe entry. -/
def State.safeEntry (s : State) (i : SafeId) : SafeEntry := s.safe[i]

/-! ## Orders the spec leaves open -/

/-- Items taken one at a time, each chosen by a free value among those left; `fuel` is the number of items. -/
def freeOrderAux {α : Type} : Nat → List α → Nat → List α × Nat
  | 0, l, n => (l, n)
  | _ + 1, [], n => ([], n)
  | _ + 1, [x], n => ([x], n)
  | fuel + 1, x :: y :: l, n =>
    let i := Config.pick n % (x :: y :: l).length
    let rest := freeOrderAux fuel ((x :: y :: l).eraseIdx i) (n + 1)
    ((x :: y :: l).getD i x :: rest.1, rest.2)

/-- The items in an order the spec leaves open, with the count of free values after it. One item or none takes no free
value. Log entry 3. -/
def freeOrder {α : Type} (l : List α) (n : Nat) : List α × Nat := freeOrderAux l.length l n

/-- The items handled one after another in an order the spec leaves open. -/
def State.inFreeOrder {α : Type} (s : State) (l : List α) (f : State → α → State) : State :=
  (freeOrder l s.freeCount).1.foldl f { s with freeCount := (freeOrder l s.freeCount).2 }

/-- The domains' items in one list, each domain's in its own order: a free value chooses, at each place, the domain whose
next item stands there among those with items left; `fuel` is the number of items. -/
def freeMergeAux {α : Type} : Nat → List DomainId → (DomainId → List α) → Nat → List (DomainId × α) × Nat
  | 0, _, _, n => ([], n)
  | fuel + 1, ds, items, n =>
    match ds.filter fun d => !(items d).isEmpty with
    | [] => ([], n)
    | [d] => ((items d).map fun x => (d, x), n)
    | d :: e :: l =>
      let c := (d :: e :: l).getD (Config.pick n % (d :: e :: l).length) d
      let rest := freeMergeAux fuel (d :: e :: l) (fun g => if g = c then (items g).tail else items g) (n + 1)
      (((items c).take 1).map (fun x => (c, x)) ++ rest.1, rest.2)

/-- The domains' items interleaved in an order the spec leaves open, each with its domain, and the count of free values
after it. Items of one domain take no free value. Log entry 3. -/
def freeMerge {α : Type} (ds : List DomainId) (items : DomainId → List α) (n : Nat) : List (DomainId × α) × Nat :=
  freeMergeAux (ds.map fun d => (items d).length).sum ds items n

/-- The list with the part beyond its first `n` items put in ascending order: domains that join an order list at one
event join it in ascending order of domain number (R89, R111). -/
def ascendTail (n : Nat) (l : List DomainId) : List DomainId :=
  l.take n ++ (List.finRange 4).filter fun d => d ∈ l.drop n

/-- `d` joins the start-order list by an expiry: behind every domain but those of a higher number that joined it by an
expiry at the same tick (R89). -/
def joinExpiry (joined : List DomainId) (d : DomainId) : List DomainId → List DomainId
  | [] => [d]
  | x :: l => if x ∈ joined ∧ d < x then d :: x :: l else x :: joinExpiry joined d l

end Sys2Proof.Machine
end

