-- ==== Sys2Proof/Machine/Flags.lean ====
section
/-! DEFINITION. The event queue, its lost markers, the event mask and the IRQ output (chapter 9). -/

namespace Sys2Proof.Machine

/-- What a block raises (R153); the queue adds the tick stamp and the lost marker. -/
structure Event where
  kind : EventKind
  index : Option WindowId := none
  port : Option Port := none
  addr : Option Addr := none
  cause : Option EventCause := none
  deriving DecidableEq, Repr

/-- A domain as the index of an event. -/
def domainIndex (d : DomainId) : WindowId := d.castLE (by decide)

/-- The record of an event (R152): stamped with the counter's value, its lost marker clear. -/
def Event.record (e : Event) (tick : Tick) : EventRecord :=
  { kind := e.kind, tick := tick, index := e.index, port := e.port, addr := e.addr, cause := e.cause, lost := false }

/-- The lost marker of the record at the tail is set (R156). -/
def markTail : List EventRecord → List EventRecord
  | [] => []
  | [r] => [{ r with lost := true }]
  | r :: l => r :: markTail l

/-- The queue replaced, and IRQ with it: asserted exactly when the queue is not empty and the IRQ enable is on (R158). -/
def State.setQueue (s : State) (q : List EventRecord) : State :=
  { s with queue := q, irq := s.irqEnable && !q.isEmpty }

/-- The mask enables a kind (R154). -/
def State.kindEnabled (s : State) (k : EventKind) : Bool := s.mask.getLsbD k.code

/-- The queue after an event of an enabled kind is offered to it (R155, R156). -/
def offered (q : List EventRecord) (r : EventRecord) : List EventRecord :=
  if q.length < 16 then q ++ [r] else markTail q

/-- An event is raised: discarded when its kind is disabled, offered to the queue otherwise (R154). -/
def State.raise (s : State) (e : Event) : State :=
  if s.kindEnabled e.kind then s.setQueue (offered s.queue (e.record s.tick)) else s

/-- Several domains raise events at one event of the world: each domain's are appended in its own order, those of different
domains in an order left open (R155). -/
def State.raiseMerged (s : State) (ds : List DomainId) (events : DomainId → List Event) : State :=
  let m := freeMerge ds events s.freeCount
  (m.1.map Prod.snd).foldl State.raise { s with freeCount := m.2 }

/-! ## The events of R153 -/

def Event.stallTimeout (p : Port) (a : Addr) (c : Option HoldCause) : Event :=
  { kind := .stallTimeout, port := some p, addr := some a, cause := c.map HoldCause.toEvent }

def Event.refusedFull (d : DomainId) (p : Port) (a : Addr) : Event :=
  { kind := .refusedFull, index := some (domainIndex d), port := some p, addr := some a }

def Event.foreignWrite (w : WindowId) (p : Port) (a : Addr) : Event :=
  { kind := .foreignWrite, index := some w, port := some p, addr := some a }

def Event.faultLock (d : DomainId) (p : Port) (a : Addr) : Event :=
  { kind := .faultLock, index := some (domainIndex d), port := some p, addr := some a }

def Event.faultTaken (d : DomainId) (c : EventCause) : Event :=
  { kind := .faultTaken, index := some (domainIndex d), cause := some c }

def Event.safeDone (d : DomainId) : Event := { kind := .safeDone, index := some (domainIndex d) }

def Event.syncOverrun (d : DomainId) : Event := { kind := .syncOverrun, index := some (domainIndex d) }

def Event.syncLost (d : DomainId) : Event := { kind := .syncLost, index := some (domainIndex d) }

/-- The word-address field carries the new commit number in its low 16 bits (R95). -/
def Event.commitDone (d : DomainId) (number : Count) : Event :=
  { kind := .commitDone, index := some (domainIndex d), addr := some (number.setWidth 22) }

def Event.stopDone (d : DomainId) : Event := { kind := .stopDone, index := some (domainIndex d) }

def Event.snapExpired (w : WindowId) (p : Port) : Event :=
  { kind := .snapExpired, index := some w, port := some p }

def Event.snapEvicted (w : WindowId) (p : Port) : Event :=
  { kind := .snapEvicted, index := some w, port := some p }

end Sys2Proof.Machine
end

