-- ==== Sys2Proof/Machine/Holds.lean ====
section
/-! DEFINITION. Responses, holds, expiry and termination of a port's transaction (chapter 2). -/

namespace Sys2Proof.Machine

/-- A response (R19): READY high, the record IDLE with no hold cause and no wait start tick. -/
def State.respond (s : State) (p : Port) (r : Response) : State :=
  s.setPort p { s.port p with txn := {}, ready := true, response := some r }

/-- The OKAY response of a write: it carries no data (R19). -/
def Response.okayWrite : Response := { err := false, rdata := none }

/-- The OKAY response of a read, with the word formed for it (R19). -/
def Response.okayRead (data : Word) : Response := { err := false, rdata := some data }

/-- The ERROR response of a write: it carries no data (R19). -/
def Response.errorWrite : Response := { err := true, rdata := none }

/-- The ERROR response of a read: it carries the data word 0 (R19, R187). -/
def Response.errorRead : Response := { err := true, rdata := some 0 }

/-- The ERROR response of a transaction, by its direction (R19). -/
def errorFor (t : Txn) : Response := if accessWrites t.access then .errorWrite else .errorRead

/-- A port's write leaves the staging waiting list, if it is on it (R27, R30). -/
def State.leaveWaiting (s : State) (p : Port) : State :=
  { s with waiting := s.waiting.filter fun w => w.port ≠ p }

/-- The waiting time of a write: the counter minus its wait start tick, modulo 2^32 (R27). -/
def State.waitingTime (s : State) (t : Txn) : Nat :=
  match t.startTick with
  | none => 0
  | some t0 => (s.tick - t0).toNat

/-- The port holds a held write whose waiting time has reached the stall limit (R27). -/
def State.stallDue (s : State) (p : Port) : Bool :=
  decide ((s.port p).txn.phase = .held ∧ s.stallLimit.toNat ≤ s.waitingTime (s.port p).txn)

/-- The expiry of a held write (R27): it leaves the waiting list, STALL_TIMEOUT is raised with the record's cause, the
port answers ERROR and the record returns to IDLE. -/
def State.expireHeld (s : State) (p : Port) : State :=
  let t := (s.port p).txn
  ((s.leaveWaiting p).raise (.stallTimeout p (accessAddr t.access) t.cause)).respond p .errorWrite

/-- A write enters HELD under a cause, or stays in it with a new one; the wait start tick is set if there is none yet
(R25, R26). One whose waiting time already reaches the stall limit expires at once (R27). -/
def State.hold (s : State) (p : Port) (c : HoldCause) : State :=
  let t := (s.port p).txn
  let s' := s.setTxn p { t with phase := .held, cause := some c, startTick := some (t.startTick.getD s.tick) }
  if s'.stallDue p then s'.expireHeld p else s'

/-- The FAULT_LOCK of a port's write that a fault accepted by `d` terminates (R30, R104). -/
def State.lockEvent (s : State) (d : DomainId) (p : Port) : Event := .faultLock d p (accessAddr (s.port p).txn.access)

/-- A write is terminated (R30): it leaves the waiting list and the port answers ERROR. Its FAULT_LOCK stands among the
records of the acceptance that terminates it (R104). -/
def State.terminate (s : State) (p : Port) : State := (s.leaveWaiting p).respond p .errorWrite

end Sys2Proof.Machine
end

