-- ==== Sys2Proof/Machine/Pool.lean ====
section
/-! DEFINITION. The staging pool: entries, batch slots, staging, sealing, discarding, the waiting list (chapter 3). -/

namespace Sys2Proof.Machine

/-! ## Finding entries and slots -/

/-- The lowest-numbered slot of a domain in a state. -/
def State.slotIn (s : State) (d : DomainId) (st : SlotState) : Option SlotId :=
  (List.finRange 4).find? fun k => (s.slot d k).state = st

/-- The lowest-numbered FREE entry (R34). -/
def State.freeEntry (s : State) : Option EntryId :=
  (List.finRange 64).find? fun i => s.entries[i].isNone

/-- An entry is IN_USE for word `a`. -/
def State.entryNames (s : State) (a : Addr) (i : EntryId) : Bool :=
  match s.entries[i] with
  | none => false
  | some e => decide (e.addr = a)

/-- The entry for word `a` in a slot's batch, if it has one. -/
def State.entryFor (s : State) (d : DomainId) (k : SlotId) (a : Addr) : Option EntryId :=
  (s.slot d k).entries.find? (s.entryNames a)

/-- The number of IN_USE entries (R34). -/
def State.entriesInUse (s : State) : Nat := s.entries.toList.countP Option.isSome

/-- Every need of a staged write for word `a` of domain `d` is met (R39). -/
def State.canStage (s : State) (d : DomainId) (a : Addr) : Bool :=
  match s.slotIn d .opened with
  | some k => (s.entryFor d k a).isSome || s.freeEntry.isSome
  | none => s.freeEntry.isSome && (s.slotIn d .free).isSome

/-! ## Staging and sealing -/

/-- A write merges into an entry (R40). -/
def State.mergeEntry (s : State) (i : EntryId) (m : Lanes) (data : Word) : State :=
  match s.entries[i] with
  | none => s
  | some e => s.setEntry i (some { e with data := mergeLanes e.data data m, lanes := e.lanes ||| m })

/-- A write takes a new entry at the tail of a slot's list (R41). -/
def State.newEntry (s : State) (d : DomainId) (k : SlotId) (i : EntryId) (a : Addr) (m : Lanes) (data : Word) : State :=
  let b := s.slot d k
  (s.setEntry i (some { addr := a, data := maskedData data m, lanes := m, domain := d, slot := k,
                        position := b.entries.length })).setSlot d k { b with entries := b.entries ++ [i] }

/-- A write whose needs are met is staged: it merges, or takes the lowest FREE entry, opening the lowest FREE slot when
the domain has no OPEN batch (R40, R41). -/
def State.stage (s : State) (d : DomainId) (a : Addr) (m : Lanes) (data : Word) : State :=
  match s.slotIn d .opened with
  | some k =>
    match s.entryFor d k a with
    | some i => s.mergeEntry i m data
    | none =>
      match s.freeEntry with
      | some i => s.newEntry d k i a m data
      | none => s
  | none =>
    match s.freeEntry, s.slotIn d .free with
    | some i, some k => (s.setSlot d k { state := .opened }).newEntry d k i a m data
    | _, _ => s

/-- The domain's OPEN batch, if it has one, is sealed and takes the next seal rank (R38, R43, R44). -/
def State.sealOpen (s : State) (d : DomainId) : State :=
  match s.slotIn d .opened with
  | none => s
  | some k =>
    let n := (s.domain d).sealCount + 1
    let s := s.setSlot d k { s.slot d k with state := .sealed, rank := some n }
    s.setDomain d { s.domain d with sealCount := n }

/-- A staged write: staging, and then the seal when it is a seal write (R43). -/
def State.stageWrite (s : State) (d : DomainId) (acc : Access) (seals : Bool) : State :=
  let s := s.stage d (accessAddr acc) (accessLanes acc) (accessData acc)
  if seals then s.sealOpen d else s

/-! ## Freeing and the waiting list -/

/-- A batch's slot and all its entries become FREE (R51, R52). -/
def State.freeSlot (s : State) (d : DomainId) (k : SlotId) : State :=
  ((s.slot d k).entries.foldl (fun s i => s.setEntry i none) s).setSlot d k {}

/-- Every batch of the domain in the given slot state is freed. -/
def State.freeSlotsIn (s : State) (d : DomainId) (st : SlotState) : State :=
  (List.finRange 4).foldl (fun s k => if (s.slot d k).state = st then s.freeSlot d k else s) s

/-- A waiter is examined: granted when its needs are met, and kept otherwise (R48). -/
def State.examineWaiter (s : State) (w : Waiter) : State :=
  if s.canStage w.domain w.addr then
    ((s.leaveWaiting w.port).stageWrite w.domain (s.port w.port).txn.access w.seals).respond w.port .okayWrite
  else s

/-- The waiting list is examined, oldest first (R48). -/
def State.examineWaiting (s : State) : State := s.waiting.foldl State.examineWaiter s

/-- The domain's waiter (R47: the waiters of a full list belong to different domains). -/
def State.waiterOf (s : State) (d : DomainId) : Option Waiter := s.waiting.find? fun w => w.domain = d

/-! ## Arrival of a staged write -/

/-- A write joins the tail of the waiting list (R47). -/
def State.joinWaiting (s : State) (w : Waiter) : State := { s with waiting := s.waiting ++ [w] }

/-- A staged write arrives (R39): staged and answered OKAY when its needs are met (R42); otherwise refused with
REFUSED_FULL (R46) or put at the tail of the waiting list (R47) by the domain's exhaustion policy. -/
def State.arriveStaged (s : State) (p : Port) (d : DomainId) (seals : Bool) : State :=
  let acc := (s.port p).txn.access
  if s.canStage d (accessAddr acc) then (s.stageWrite d acc seals).respond p .okayWrite
  else
    match (s.domain d).cfg.exhaustion with
    | .refuse => (s.raise (.refusedFull d p (accessAddr acc))).respond p .errorWrite
    | .stall =>
      (s.joinWaiting { port := p, domain := d, addr := accessAddr acc, seals := seals }).hold p .exhausted

end Sys2Proof.Machine
end

