-- ==== Sys2Proof/Machine/Windows.lean ====
section
/-! DEFINITION. Classification of host-port accesses by the window table (chapter 1). -/

namespace Sys2Proof.Machine

/-- An enabled record covers the addresses from base to base + length − 1 (R2). -/
def WindowRecord.covers (w : WindowRecord) (a : Addr) : Bool :=
  w.enabled && decide (w.base.toNat ≤ a.toNat ∧ a.toNat < w.base.toNat + w.length.toNat)

/-- The word is the window's seal word (R2). -/
def WindowRecord.sealsAt (w : WindowRecord) (a : Addr) : Bool :=
  match w.sealOffset with
  | none => false
  | some o => decide (a.toNat = w.base.toNat + o.toNat)

/-- The enabled record that covers a word (R3; by R13 there is at most one). -/
def State.covering (s : State) (a : Addr) : Option WindowId :=
  (List.finRange 16).find? fun i => (s.window i).covers a

/-- An enabled safe entry of the domain names the word (R107). -/
def State.named (s : State) (d : DomainId) (a : Addr) : Bool :=
  (List.finRange 32).any fun i =>
    (s.safeEntry i).enabled && decide ((s.safeEntry i).domain = d ∧ (s.safeEntry i).addr = a)

/-- The domain is in SAFING and an enabled safe entry of it names the word (R6). -/
def State.safingNames (s : State) (a : Addr) (d : DomainId) : Bool :=
  decide ((s.domain d).state = .safing) && s.named d a

/-- A context is CAPTURING for a window. -/
def Context.captures (w : WindowId) : Context → Bool
  | .capturing w' _ _ => decide (w' = w)
  | _ => false

/-- A context is HELD for a window. -/
def Context.holds (w : WindowId) : Context → Bool
  | .held w' _ _ => decide (w' = w)
  | _ => false

/-- A capture of the window is in progress at a port, in any capture phase (R4, R129). -/
def State.captureAt (s : State) (p : Port) (w : WindowId) : Bool :=
  (s.port p).contexts.toList.any (Context.captures w)

/-- What a write's classification decides (R4). -/
inductive WriteOutcome where
  | plain
  | stage (domain : DomainId) (seals : Bool)
  | hold (cause : HoldCause)
  | faultLock (domain : DomainId)
  | foreignWrite (window : WindowId)
  deriving DecidableEq, Repr

/-- The write table (R4) for a writer-port write to a STAGED window of a domain. -/
def stagedOutcome (st : DomainState) (d : DomainId) (seals : Bool) : WriteOutcome :=
  match st with
  | .disabled => .plain
  | .run => .stage d seals
  | .stopping => .hold .stopping
  | .safing => .faultLock d
  | .safed => .faultLock d

/-- The write table (R4). -/
def State.writeTable (s : State) (p : Port) (a : Addr) : WriteOutcome :=
  match s.covering a with
  | none => .plain
  | some i =>
    match (s.window i).kind with
    | .staged =>
      if (s.domain (s.window i).domain).cfg.writer = p then
        stagedOutcome (s.domain (s.window i).domain).state (s.window i).domain ((s.window i).sealsAt a)
      else .foreignWrite i
    | .snapshot =>
      if (s.window i).writer = p ∧ s.captureAt p.other i = true then .hold .capture else .plain

/-- The word lies in an enabled STAGED window of a SAFING domain that names it, and the write is on that domain's writer
port (R6, first case). -/
def State.lockedNaming (s : State) (p : Port) (a : Addr) : Option DomainId :=
  match s.covering a with
  | none => none
  | some i =>
    if (s.window i).kind = .staged ∧ s.safingNames a (s.window i).domain = true ∧
        (s.domain (s.window i).domain).cfg.writer = p then
      some (s.window i).domain
    else none

/-- The classification of a write that enables a lane (R4, R6). DESIGN CHOICE (log entry 25): a domain that entered SAFING
from DISABLED passed no START check, so its sequence word may lie in an enabled window; a host write to it takes the
window's outcome of R4 there, where R182 calls it plain. -/
def State.classifyWrite (s : State) (p : Port) (a : Addr) : WriteOutcome :=
  if (List.finRange 4).any (s.safingNames a) then
    match s.lockedNaming p a with
    | some d => .faultLock d
    | none => .hold .safeFill
  else s.writeTable p a

/-- The write takes its outcome (R4, R7): a plain write requests the M-port, a refusal raises its event before the ERROR
response (R8). -/
def State.applyWrite (s : State) (p : Port) (o : WriteOutcome) : State :=
  let t := (s.port p).txn
  match o with
  | .plain => s.setTxn p { t with phase := .request, cause := none }
  | .stage d seals => s.arriveStaged p d seals
  | .hold c => s.hold p c
  | .faultLock d => (s.raise (.faultLock d p (accessAddr t.access))).respond p .errorWrite
  | .foreignWrite w => (s.raise (.foreignWrite w p (accessAddr t.access))).respond p .errorWrite

/-- The write of a port is classified with the table and states in force now, at its acceptance or at the release of a
hold (R3, R26). -/
def State.reclassify (s : State) (p : Port) : State :=
  s.applyWrite p (s.classifyWrite p (accessAddr (s.port p).txn.access))

/-- How a read is answered (R5). -/
inductive ReadPath where
  | memory
  | serve (window : WindowId) (context : ContextId)
  | capture (window : WindowId)
  deriving DecidableEq, Repr

/-- The context of a port that is HELD for a window. -/
def State.heldContext (s : State) (p : Port) (w : WindowId) : Option ContextId :=
  (List.finRange 2).find? fun c => (s.context p c).holds w

/-- The path of a read (R5). -/
def State.classifyRead (s : State) (p : Port) (a : Addr) : ReadPath :=
  match s.covering a with
  | none => .memory
  | some i =>
    if (s.window i).kind = .staged ∨ (s.window i).writer = p then .memory
    else if a = (s.window i).base then .capture i
    else
      match s.heldContext p i with
      | some c => .serve i c
      | none => .memory

end Sys2Proof.Machine
end

