-- ==== Sys2Proof/Machine/Snapshot.lean ====
section
/-! DEFINITION. The snapshot unit: choosing a context, capturing, serving, patching, expiring (chapter 7). -/

namespace Sys2Proof.Machine

/-- The word at an address lies in the window's range. -/
def State.windowOffset (s : State) (w : WindowId) (a : Addr) : Nat := a.toNat - (s.window w).base.toNat

/-- The context of a port that is CAPTURING (R122: at most one). -/
def State.capturing (s : State) (p : Port) : Option ContextId :=
  (List.finRange 2).find? fun c =>
    match s.context p c with
    | .capturing _ _ _ => true
    | _ => false

/-- The context a lead-word read chooses (R124): the one HELD for the window, an IDLE one, or the less recently used. -/
def State.chooseContext (s : State) (p : Port) (w : WindowId) : ContextId :=
  match s.heldContext p w with
  | some c => c
  | none =>
    match (List.finRange 2).find? (fun c => s.context p c = .idle) with
    | some c => c
    | none => (s.port p).lru

/-- Choosing a context HELD for another window evicts it with SNAP_EVICTED (R125). -/
def State.evict (s : State) (p : Port) (c : ContextId) (w : WindowId) : State :=
  match s.context p c with
  | .held v _ _ => if v = w then s else s.raise (.snapEvicted v p)
  | _ => s

/-- The port holds a write to a word of the window in phase REQUEST or MEMORY (R126). -/
def State.writeOnItsWay (s : State) (q : Port) (w : WindowId) : Bool :=
  let t := (s.port q).txn
  accessWrites t.access && (s.window w).covers (accessAddr t.access) &&
    decide (t.phase = .request ∨ t.phase = .memory)

/-- A capture begins at a lead-word read (R124, R126): the chosen context becomes CAPTURING with an empty copy, the capture
joins the tail of the capture-order list and waits for a writer-port write on its way to memory or requests offset 0; the
read enters LEAD_WAIT. -/
def State.beginCapture (s : State) (p : Port) (w : WindowId) : State :=
  let c := s.chooseContext p w
  let phase := if s.writeOnItsWay (s.window w).writer w then CapturePhase.writerWait else CapturePhase.readRequest
  let s := (s.evict p c w).setContext p c (.capturing w [] phase)
  let s := s.setTxn p { (s.port p).txn with phase := .leadWait }
  { s with captureOrder := s.captureOrder ++ [p] }

/-- A word of a copy by its offset. -/
def copyWord (copy : List Word) (offset : Nat) : Word := copy.getD offset 0

/-- A read served from a context (R131): answered OKAY with the copy's word, the context used; a read of the last word
under auto-release then makes it IDLE (R132). -/
def State.serve (s : State) (p : Port) (w : WindowId) (c : ContextId) : State :=
  match s.context p c with
  | .held _ copy _ =>
    let offset := s.windowOffset w (accessAddr (s.port p).txn.access)
    let s := (s.useContext p c).respond p (.okayRead (copyWord copy offset))
    if (s.window w).autoRelease ∧ offset + 1 = (s.window w).length.toNat then s.setContext p c .idle else s
  | _ => s

/-- A read takes its path (R5). -/
def State.applyRead (s : State) (p : Port) (path : ReadPath) : State :=
  match path with
  | .memory => s.setTxn p { (s.port p).txn with phase := .request }
  | .serve w c => s.serve p w c
  | .capture w => s.beginCapture p w

/-- A context after a write of its port completes (R133): the enabled lanes of a HELD copy take the write's bytes. -/
def State.patched (s : State) (a : Addr) (m : Lanes) (data : Word) : Context → Context
  | .held w copy t =>
    if (s.window w).covers a then
      .held w (copy.modify (s.windowOffset w a) fun old => mergeLanes old data m) t
    else .held w copy t
  | x => x

/-- Both contexts of the writing port are patched (R133). -/
def State.patchCopies (s : State) (p : Port) (acc : Access) : State :=
  s.setPort p { s.port p with
    contexts := (s.port p).contexts.map (s.patched (accessAddr acc) (accessLanes acc) (accessData acc)) }

/-- A capture in WRITER_WAIT, once the write it waited for has completed, requests the read of offset 0 (R126). -/
def Context.writerDone : Context → Context
  | .capturing w copy .writerWait => .capturing w copy .readRequest
  | x => x

/-- The captures of a port that waited for the other port's write go on (R126). -/
def State.endWriterWait (s : State) (q : Port) : State :=
  s.setPort q { s.port q with contexts := (s.port q).contexts.map Context.writerDone }

/-- The port's write is held under CAPTURE for a word of the window (R129). -/
def State.heldForCapture (s : State) (q : Port) (w : WindowId) : Bool :=
  let t := (s.port q).txn
  decide (t.phase = .held ∧ t.cause = some .capture) && (s.window w).covers (accessAddr t.access)

/-- A capture completes (R128): the context HELD and used, the capture off the list, the lead-word read answered, the write
held under CAPTURE released. -/
def State.completeCapture (s : State) (p : Port) (c : ContextId) (w : WindowId) (copy : List Word) : State :=
  let s := (s.setContext p c (.held w copy s.tick)).useContext p c
  let s := { s with captureOrder := s.captureOrder.filter (· ≠ p) }
  let s := s.respond p (.okayRead (copyWord copy 0))
  if s.heldForCapture (s.window w).writer w then s.reclassify (s.window w).writer else s

/-- The word a capture read returned is stored; the next offset is requested, or the capture completes (R127). A port whose
capture a soft reset ended has no context in phase READ, and nothing is stored (R138). -/
def State.storeCapture (s : State) (p : Port) (x : Word) : State :=
  match s.capturing p with
  | none => s
  | some c =>
    match s.context p c with
    | .capturing w copy .read =>
      if copy.length + 1 < (s.window w).length.toNat then
        s.setContext p c (.capturing w (copy ++ [x]) .readRequest)
      else s.completeCapture p c w (copy ++ [x])
    | _ => s

/-- The held time of a context has reached its window's hold limit (R134). -/
def State.holdLimitDue (s : State) (p : Port) (c : ContextId) : Bool :=
  match s.context p c with
  | .held w _ t0 => decide ((s.window w).holdLimit ≠ 0 ∧ (s.window w).holdLimit.toNat ≤ (s.tick - t0).toNat)
  | _ => false

/-- The expiry of a context (R134): SNAP_EXPIRED, and the context IDLE. -/
def State.expireContext (s : State) (p : Port) (c : ContextId) : State :=
  match s.context p c with
  | .held w _ _ => (s.raise (.snapExpired w p)).setContext p c .idle
  | _ => s

end Sys2Proof.Machine
end

