-- ==== Sys2Proof/Machine/Overlay.lean ====
section
/-! DEFINITION. The order of sealed batches (R38) and the overlays of a memory read (R5, R56, R57, R114). -/

namespace Sys2Proof.Machine

/-- How far a slot's seal rank lies behind the domain's seal count, modulo 65536; the older batch lies further behind
(R38). -/
def State.sealAge (s : State) (d : DomainId) (k : SlotId) : Nat :=
  match (s.slot d k).rank with
  | none => 0
  | some r => ((s.domain d).sealCount - r).toNat

/-- The SEALED slots of a domain, oldest first (R38). -/
def State.sealedOldestFirst (s : State) (d : DomainId) : List SlotId :=
  ((List.finRange 4).filter fun k => (s.slot d k).state = .sealed).insertionSort
    fun j k => s.sealAge d k ≤ s.sealAge d j

/-- The domain's oldest SEALED batch (R38). -/
def State.oldestSealed (s : State) (d : DomainId) : Option SlotId := (s.sealedOldestFirst d).head?

/-- A word with the lanes of a slot's entry for it replaced (R56). -/
def State.overlaySlot (s : State) (d : DomainId) (a : Addr) (x : Word) (k : SlotId) : Word :=
  match (s.entryFor d k a).bind fun i => s.entries[i] with
  | none => x
  | some e => mergeLanes x e.data e.lanes

/-- The slots of a domain in a state. -/
def State.slotsIn (s : State) (d : DomainId) (st : SlotState) : List SlotId :=
  (List.finRange 4).filter fun k => (s.slot d k).state = st

/-- The owner overlay (R56): the COMMITTING batch, the SEALED batches oldest first, the OPEN batch. -/
def State.ownerOverlay (s : State) (d : DomainId) (a : Addr) (x : Word) : Word :=
  (s.slotsIn d .committing ++ s.sealedOldestFirst d ++ s.slotsIn d .opened).foldl (s.overlaySlot d a) x

/-- The foreign overlay (R57): the COMMITTING batch alone. -/
def State.foreignOverlay (s : State) (d : DomainId) (a : Addr) (x : Word) : Word :=
  (s.slotsIn d .committing).foldl (s.overlaySlot d a) x

/-- The overlay of a read of a STAGED window of `d` by a port, by the domain's state at the completion (R5). -/
def State.stagedOverlay (s : State) (p : Port) (d : DomainId) (a : Addr) (x : Word) : Word :=
  match (s.domain d).state with
  | .disabled => x
  | .safed => x
  | .safing => s.foreignOverlay d a x
  | .run => if (s.domain d).cfg.writer = p then s.ownerOverlay d a x else s.foreignOverlay d a x
  | .stopping => if (s.domain d).cfg.writer = p then s.ownerOverlay d a x else s.foreignOverlay d a x

/-- The overlay the covering record gives, if it is a STAGED window (R5). -/
def State.windowOverlay (s : State) (p : Port) (a : Addr) (x : Word) : Word :=
  match s.covering a with
  | none => x
  | some i => if (s.window i).kind = .staged then s.stagedOverlay p (s.window i).domain a x else x

/-- One safe entry's part of the safe overlay (R114). -/
def State.safeLanes (s : State) (a : Addr) (x : Word) (i : SafeId) : Word :=
  let e := s.safeEntry i
  if e.enabled = true ∧ e.addr = a ∧ (s.domain e.domain).state = .safing then mergeLanes x e.data e.lanes else x

/-- The safe overlay: enabled entries of SAFING domains that name the word, in ascending order (R114). -/
def State.safeOverlay (s : State) (a : Addr) (x : Word) : Word :=
  (List.finRange 32).foldl (s.safeLanes a) x

/-- The word a memory read returns (R23): memory, the window's overlay, the safe overlay last. -/
def State.readValue (s : State) (p : Port) (a : Addr) : Word :=
  s.safeOverlay a (s.windowOverlay p a (Memory.readWord s.mem a))

end Sys2Proof.Machine
end

