-- ==== Sys2Proof/Machine/SafeFill.lean ====
section
/-! DEFINITION. The safe fill of a domain: beginning, next entry, completion (R110 to R112, R115). -/

namespace Sys2Proof.Machine

/-- The lowest enabled safe entry of the domain at an index not below `i` (R110, R111). -/
def State.nextSafe (s : State) (d : DomainId) (i : Nat) : Option SafeId :=
  (List.finRange 32).find? fun j => decide (i ≤ j.val ∧ (s.safeEntry j).domain = d) && (s.safeEntry j).enabled

/-- The port's write is held under SAFE_FILL for a word the domain's enabled entries name (R112, R115). -/
def State.heldForFill (s : State) (d : DomainId) (p : Port) : Bool :=
  decide ((s.port p).txn.phase = .held ∧ (s.port p).txn.cause = some .safeFill) &&
    s.named d (accessAddr (s.port p).txn.access)

/-- The domain's fill record becomes IDLE, the domain leaves the fill-order list and enters SAFED (R112). -/
def State.enterSafed (s : State) (d : DomainId) : State :=
  let s := s.setDomain d { s.domain d with fill := {}, state := .safed }
  { s with fillOrder := s.fillOrder.filter (· ≠ d) }

/-- A fill completes (R112): SAFE_DONE, SAFED, and the SAFE_FILL holds on its words released, those of both ports in an
order left open. -/
def State.completeFill (s : State) (d : DomainId) : State :=
  let s := (s.raise (.safeDone d)).enterSafed d
  s.inFreeOrder ([Port.a, Port.b].filter (s.heldForFill d)) State.reclassify

/-- The domain joins the tail of the fill-order list (R110). -/
def State.joinFill (s : State) (d : DomainId) : State := { s with fillOrder := s.fillOrder ++ [d] }

/-- The records of a fill at its begin: SAFE_DONE where there is no enabled entry and the fill completes at once (R112). -/
def State.fillEvents (s : State) (d : DomainId) : List Event :=
  match s.nextSafe d 0 with
  | none => [.safeDone d]
  | some _ => []

/-- A fill begins, its records apart (R110): the lowest enabled entry is requested, or the domain is SAFED at once when there
is none; no word is then named, so no hold is released (R112). DESIGN CHOICE (log entry 28): a fault acceptance that finds no
enabled entry and no commit in flight so leaves SAFED (R112), where R108 has a SET_SAFE taken after it refused, and R119 and
R179 have a RESET_PART taken after it find SAFING. -/
def State.openFill (s : State) (d : DomainId) : State :=
  match s.nextSafe d 0 with
  | none => s.enterSafed d
  | some i => (s.setDomain d { s.domain d with fill := { phase := .fillRequest, next := i } }).joinFill d

/-- A fill begins, with its records (R110, R112). -/
def State.beginFill (s : State) (d : DomainId) : State := ((s.fillEvents d).foldl State.raise s).openFill d

/-- The memory completion of a fill write (R110, R111): the next enabled entry is requested, or the fill completes. -/
def State.advanceFill (s : State) (d : DomainId) : State :=
  match s.nextSafe d ((s.domain d).fill.next.val + 1) with
  | none => s.completeFill d
  | some i => s.setDomain d { s.domain d with fill := { phase := .fillRequest, next := i } }

end Sys2Proof.Machine
end

