-- ==== Sys2Proof/Machine/Commits.lean ====
section
/-! DEFINITION. The commit engine and the end of a stop: start, decision, completion, continuation (chapter 5, R65, R66,
R72). -/

namespace Sys2Proof.Machine

/-- The domain joins the start-order list: at the tail, or in ascending order among the expiries of one tick (R89). -/
def State.joinStart (s : State) (d : DomainId) (byExpiry : Bool) : State :=
  if byExpiry then
    { s with startOrder := joinExpiry s.expiryStarts d s.startOrder, expiryStarts := d :: s.expiryStarts }
  else { s with startOrder := s.startOrder ++ [d] }

/-- A commit of a slot starts (R88). -/
def State.startCommit (s : State) (d : DomainId) (k : SlotId) (byExpiry : Bool) : State :=
  let b := s.slot d k
  let s := s.setSlot d k { b with state := .committing }
  let s := s.setDomain d { s.domain d with
    commit := { phase := .entryRequest, slot := k, entryCount := b.entries.length, next := 0 } }
  s.joinStart d byExpiry

/-- The commit decision of a domain in RUN (R72): SYNC_OVERRUN when a COMMITTING batch exists, otherwise the start of the
oldest SEALED batch's commit, if there is one. -/
def State.commitDecision (s : State) (d : DomainId) (byExpiry : Bool) : State :=
  match s.slotIn d .committing with
  | some _ => s.raise (.syncOverrun d)
  | none =>
    match s.oldestSealed d with
    | some k => s.startCommit d k byExpiry
    | none => s

/-- The writer port's write is held under STOPPING for a word in a STAGED window of the domain (R67, R104). -/
def State.stoppingHold (s : State) (d : DomainId) : Bool :=
  let t := (s.port (s.domain d).cfg.writer).txn
  decide (t.phase = .held ∧ t.cause = some .stopping) &&
    match s.covering (accessAddr t.access) with
    | none => false
    | some i => decide ((s.window i).kind = .staged ∧ (s.window i).domain = d)

/-- A stopping domain with nothing left to commit enters DISABLED: STOP_DONE, and then the STOPPING hold is released (R66,
R67). -/
def State.reachDisabled (s : State) (d : DomainId) : State :=
  let s := (s.setDomain d { s.domain d with state := .disabled }).raise (.stopDone d)
  if s.stoppingHold d then s.reclassify (s.domain d).cfg.writer else s

/-- A stopping domain with no commit in flight: the oldest SEALED batch starts its commit, or the domain enters DISABLED
(R65, R66). -/
def State.continueStop (s : State) (d : DomainId) : State :=
  match s.oldestSealed d with
  | some k => s.startCommit d k false
  | none => s.reachDisabled d

/-- The commit number rises by one, modulo 65536 (R93, step 1). -/
def State.raiseNumber (s : State) (d : DomainId) : State :=
  s.setDomain d { s.domain d with commitNumber := (s.domain d).commitNumber + 1 }

/-- The committed slot and its entries are freed and the waiting list is examined (R51; R93, step 2). -/
def State.freeCommitted (s : State) (d : DomainId) : State := (s.freeSlot d (s.domain d).commit.slot).examineWaiting

/-- COMMIT_DONE with the new number, when notify commits is yes (R93, step 3; R95). -/
def State.notifyCommit (s : State) (d : DomainId) : State :=
  if (s.domain d).cfg.notify then s.raise (.commitDone d (s.domain d).commitNumber) else s

/-- The commit record becomes IDLE and the domain leaves the start-order list (R93, step 4). -/
def State.leaveStart (s : State) (d : DomainId) : State :=
  let s := s.setDomain d { s.domain d with commit := {} }
  { s with startOrder := s.startOrder.filter (· ≠ d), expiryStarts := s.expiryStarts.filter (· ≠ d) }

/-- The controller continues by the domain's state (R93, step 5). -/
def State.continueAfter (s : State) (d : DomainId) : State :=
  match (s.domain d).state with
  | .stopping => s.continueStop d
  | .safing => s.beginFill d
  | .run => s
  | .disabled => s
  | .safed => s

/-- A commit completes (R93). -/
def State.completeCommit (s : State) (d : DomainId) : State :=
  ((((s.raiseNumber d).freeCommitted d).notifyCommit d).leaveStart d).continueAfter d

/-- The memory completion of an entry write (R87): the next position rises by one, and the next entry or the sequence word is
requested, or the commit completes. DESIGN CHOICE (log entry 23): after the last of 64 entries the next position stays at 63,
the end of its range in R86. -/
def State.advanceCommit (s : State) (d : DomainId) : State :=
  let c := (s.domain d).commit
  if c.next + 1 < c.entryCount then
    s.setDomain d { s.domain d with commit := { c with phase := .entryRequest, next := c.next + 1 } }
  else
    match (s.domain d).cfg.sequenceWord with
    | some _ =>
      s.setDomain d { s.domain d with commit := { c with phase := .sequenceRequest, next := min (c.next + 1) 63 } }
    | none => s.completeCommit d

end Sys2Proof.Machine
end

