-- ==== Sys2Proof/Machine/Faults.lean ====
section
/-! DEFINITION. Fault acceptance, sync events and the sync monitor (chapters 4 and 6). -/

namespace Sys2Proof.Machine

/-- The domain's waiter on the staging waiting list is terminated (R54, R104). -/
def State.terminateWaiter (s : State) (d : DomainId) : State :=
  match s.waiterOf d with
  | some w => s.terminate w.port
  | none => s

/-- The domain's STOPPING hold is terminated (R104, step 4). -/
def State.terminateStopping (s : State) (d : DomainId) : State :=
  if s.stoppingHold d then s.terminate (s.domain d).cfg.writer else s

/-- The domain has a commit in flight (R86). -/
def State.commitInFlight (s : State) (d : DomainId) : Bool := decide ((s.domain d).commit.phase ≠ .idle)

/-- The domain enters SAFING with its monitor STOPPED (R104, step 2). -/
def State.enterSafing (s : State) (d : DomainId) : State :=
  s.setDomain d { s.domain d with state := .safing, monitorPhase := .stopped }

/-- The domain's waiter is terminated, and its OPEN and SEALED batches are discarded (R54; R104, step 3). -/
def State.discardAtFault (s : State) (d : DomainId) : State :=
  ((s.terminateWaiter d).freeSlotsIn d .opened).freeSlotsIn d .sealed

/-- The fill begins, or is left PENDING for the commit in flight (R104, step 5; R110). -/
def State.fillOrPend (s : State) (d : DomainId) : State :=
  if s.commitInFlight d then s.setDomain d { s.domain d with fill := { phase := .pending } }
  else s.openFill d

/-- The FAULT_LOCK of the domain's waiter, if it has one (R54, R104). -/
def State.waiterLock (s : State) (d : DomainId) : List Event :=
  match s.waiterOf d with
  | some w => [s.lockEvent d w.port]
  | none => []

/-- The FAULT_LOCK of the domain's STOPPING hold, if it has one (R104, step 4). -/
def State.stoppingLock (s : State) (d : DomainId) : List Event :=
  if s.stoppingHold d then [s.lockEvent d (s.domain d).cfg.writer] else []

/-- The records of one domain's acceptance, in their order (R104, R112): those it opens with, the FAULT_LOCK of a terminated
write, and SAFE_DONE where the fill completes at once. The state before the acceptance gives them all. -/
def State.faultEvents (s : State) (notice : DomainId → List Event) (d : DomainId) : List Event :=
  notice d ++ s.waiterLock d ++ s.stoppingLock d ++ if s.commitInFlight d then [] else s.fillEvents d

/-- A domain's fault acceptance as far as the discards, its records apart (R104, steps 2 and 3): SAFING, its waiter
terminated, its OPEN and SEALED batches discarded. -/
def State.takeFault (s : State) (d : DomainId) : State := (s.enterSafing d).discardAtFault d

/-- A domain's fault acceptance after the waiting list is examined, its records apart (R104, steps 4 and 5): its STOPPING
hold terminated, its fill begun or left PENDING. -/
def State.settleFault (s : State) (d : DomainId) : State := (s.terminateStopping d).fillOrPend d

/-- Domains accept a fault at one event (R104). Their records reach the queue each domain's in its order, those of different
domains interleaved in an order left open (R155). Every discard of the event is made first, and the waiting list is then
examined once (R48, R52); the domains follow one another in orders left open (R103), and those whose fills begin join the
fill-order list in ascending order (R111). DEDUCED from R52 and R104 together (log entry 26). -/
def State.acceptFaults (s : State) (ds : List DomainId) (notice : DomainId → List Event) : State :=
  match ds with
  | [] => s
  | _ :: _ =>
    let n := s.fillOrder.length
    let s := s.raiseMerged ds (s.faultEvents notice)
    let s := (s.inFreeOrder ds State.takeFault).examineWaiting
    let s := s.inFreeOrder ds State.settleFault
    { s with fillOrder := ascendTail n s.fillOrder }

/-- The states in which a domain accepts a fault (R103). -/
def DomainState.acceptsFault : DomainState → Bool
  | .disabled => true
  | .run => true
  | .stopping => true
  | .safing => false
  | .safed => false

/-- The fault lines a binding names (R61). -/
def FaultBinding.names : FaultBinding → FaultLine → Bool
  | .none, _ => false
  | .fault0, l => decide (l = 0)
  | .fault1, l => decide (l = 1)
  | .both, _ => true

/-- The cause FAULT_TAKEN carries for a line (R104). -/
def faultLineCause (l : FaultLine) : EventCause := if l = 0 then .fault0 else .fault1

/-- A fault line bound to the domain is asserted, that is, low (R64, R118). -/
def State.faultActive (s : State) (d : DomainId) : Bool :=
  (List.finRange 2).any fun l => (s.domain d).cfg.binding.names l && !s.faultLevels[l]

/-! ## Counts and sync events -/

/-- A count that rises by one and saturates at 65535 (R62). -/
def satSucc (c : Count) : Count := if c = 65535 then c else c + 1

/-- The period recording of a sync event (R71). -/
def Domain.recordPeriod (d : Domain) : Domain :=
  { d with
    lastPeriod := d.periodCount
    longestPeriod := if d.longestPeriod.toNat < d.periodCount.toNat then d.periodCount else d.longestPeriod
    periodCount := 0
    monitorCount := 0
    monitorPhase := .counting }

/-- A domain takes a sync event (R71, R72); outside RUN it has no effect (R73). -/
def State.syncEvent (s : State) (d : DomainId) : State :=
  match (s.domain d).state with
  | .run => (s.setDomain d (s.domain d).recordPeriod).commitDecision d false
  | .disabled => s
  | .stopping => s
  | .safing => s
  | .safed => s

/-- The monitor count of a RUN domain stands at its maximum interval while COUNTING (R77). -/
def State.monitorDue (s : State) (d : DomainId) : Bool :=
  let x := s.domain d
  decide (x.state = .run ∧ x.cfg.maxInterval ≠ 0 ∧ x.monitorPhase = .counting ∧ x.monitorCount = x.cfg.maxInterval)

/-- The domains whose monitors are due under loss policy SAFE. -/
def State.safeExpiries (s : State) : List DomainId :=
  (List.finRange 4).filter fun d => s.monitorDue d && decide ((s.domain d).cfg.lossPolicy = .safe)

/-- An expiry of the sync monitor (R77): SYNC_LOST, and then the loss policy (R78, R79, R80). The expiries of one tick under
SAFE are one event (R111), so each is taken with the others. DEDUCED (log entry 24). -/
def State.expireMonitor (s : State) (d : DomainId) : State :=
  match (s.domain d).cfg.lossPolicy with
  | .hold =>
    let s := s.raise (.syncLost d)
    s.setDomain d { s.domain d with monitorPhase := .lapsed }
  | .commit =>
    let s := s.raise (.syncLost d)
    (s.setDomain d { s.domain d with monitorCount := 0 }).commitDecision d true
  | .safe => s.acceptFaults s.safeExpiries fun e => [.syncLost e, .faultTaken e .syncLoss]

/-- A tick in one domain (R76): in RUN the period count rises, and the monitor count while COUNTING. -/
def Domain.ticked (d : Domain) : Domain :=
  if d.state = .run then
    { d with
      periodCount := satSucc d.periodCount
      monitorCount := if d.monitorPhase = .counting then satSucc d.monitorCount else d.monitorCount }
  else d

end Sys2Proof.Machine
end

