-- ==== Sys2Proof/Machine/Arbiter.lean ====
section
/-! DEFINITION. The memory port and its arbiter (chapter 8). -/

namespace Sys2Proof.Machine

/-- The write a commit requests (R90, R92): the entry at the next position, or the sequence word with the commit number
plus one. -/
def State.commitRequest (s : State) (d : DomainId) : Option Access :=
  let x := s.domain d
  match x.commit.phase with
  | .entryRequest =>
    ((s.slot d x.commit.slot).entries[x.commit.next]?.bind fun i => s.entries[i]).map fun e =>
      .write e.addr e.lanes e.data
  | .sequenceRequest => x.cfg.sequenceWord.map fun a => .write a 0xF ((x.commitNumber + 1).setWidth 32)
  | .idle => none
  | .entryWrite => none
  | .sequenceWrite => none

/-- The write a fill requests (R111). -/
def State.fillRequest (s : State) (d : DomainId) : Option Access :=
  let x := s.domain d
  if x.fill.phase = .fillRequest then
    let e := s.safeEntry x.fill.next
    some (.write e.addr e.lanes e.data)
  else none

/-- The read a capture requests: the lead word plus the next offset (R127). -/
def State.captureRequest (s : State) (p : Port) : Option Access :=
  (s.capturing p).bind fun c =>
    match s.context p c with
    | .capturing w copy .readRequest => some (.read ((s.window w).base + BitVec.ofNat 22 copy.length))
    | _ => none

/-- The access a port requests (R22, R23). -/
def State.portRequest (s : State) (p : Port) : Option Access :=
  if (s.port p).txn.phase = .request then some (s.port p).txn.access else none

/-- The pending request of a requester, if it has one (R142). -/
def State.request (s : State) : Requester → Option Access
  | .fill d => s.fillRequest d
  | .commit d => s.commitRequest d
  | .capture p => s.captureRequest p
  | .port p => s.portRequest p

/-- The requesters in the arbiter's order (R144, R145): fills, commits and captures by their lists, then the port that
was not granted last, then the other. -/
def State.arbiterOrder (s : State) : List Requester :=
  s.fillOrder.map .fill ++ s.startOrder.map .commit ++ s.captureOrder.map .capture ++
    [.port s.lastPort.other, .port s.lastPort]

/-- The request the arbiter grants at a free point (R144). -/
def State.nextGrant (s : State) : Option Grant :=
  s.arbiterOrder.findSome? fun r => (s.request r).map fun acc => { holder := r, access := acc }

/-- A commit record at a grant (R87). -/
def CommitRecord.granted (c : CommitRecord) : CommitRecord :=
  match c.phase with
  | .entryRequest => { c with phase := .entryWrite }
  | .sequenceRequest => { c with phase := .sequenceWrite }
  | .idle => c
  | .entryWrite => c
  | .sequenceWrite => c

/-- A context at the grant of its capture's read (R127). -/
def Context.granted : Context → Context
  | .capturing w copy .readRequest => .capturing w copy .read
  | x => x

/-- What a grant means to its requester (R143); a port's grant makes it the last-granted port (R145). -/
def State.markGranted (s : State) : Requester → State
  | .fill d => s.setDomain d { s.domain d with fill := { (s.domain d).fill with phase := .fillWrite } }
  | .commit d => s.setDomain d { s.domain d with commit := (s.domain d).commit.granted }
  | .capture p => s.setPort p { s.port p with contexts := (s.port p).contexts.map Context.granted }
  | .port p => { s.setTxn p { (s.port p).txn with phase := .memory } with lastPort := p }

/-- The arbiter at the end of an event: at a free point the chosen request is granted and its access issued (R144). -/
def State.arbitrate (s : State) : State :=
  match s.mport with
  | some _ => s
  | none =>
    match s.nextGrant with
    | none => s
    | some g => { s.markGranted g.holder with mport := some g }

/-- The SRAM completes the granted access: a write's lanes are stored, and the M-port is FREE (R140, R141). -/
def State.completeAccess (s : State) (g : Grant) : State :=
  { s with mem := Memory.complete s.mem g.access, mport := none }

end Sys2Proof.Machine
end

