-- ==== Sys2Proof/Machine/ResetFamily.lean ====
section
/-! DEFINITION. Power-on reset, RESET_FALL and RESET_RISE, and the soft reset's effect on each block (R31, R32, R55, R84,
R85, R101, R119, R120, R138, R139, R148, R149, R159, R160, R168, R178). -/

namespace Sys2Proof.Machine

/-! ## Power-on reset -/

/-- An access granted at the fall of RESET is abandoned: a write may or may not reach the SRAM (R149; log entry 4). -/
def State.abandonAccess (s : State) : State :=
  match s.mport with
  | some ⟨_, .write a m d⟩ =>
    { s with
      mem := if Config.abandonedWriteLands s.freeCount then Memory.writeWord s.mem a m d else s.mem
      mport := none
      freeCount := s.freeCount + 1 }
  | _ => { s with mport := none }

/-- A port's unit while RESET is low: no transaction, READY low, contexts IDLE, context 0 the less recently used. -/
def PortUnit.inReset : PortUnit := { ready := false }

/-- Every block at its power-on values, RESET low. The SRAM, the line levels last taken and the waiting commands stay. DESIGN
CHOICE (log entry 27): the receiver stands IDLE meanwhile; R162 says only that it is held. The MSDO record and the fields of the
model's own are empty, and no response is kept (DESIGN CHOICE, log entries 11, 12 and 17). -/
def State.powerOn (s : State) : State :=
  { s with
    resetLow := true, tick := 0, portA := PortUnit.inReset, portB := PortUnit.inReset
    windows := Vector.replicate 16 {}, entries := Vector.replicate 64 none, waiting := []
    domains := Vector.replicate 4 {}, startOrder := [], expiryStarts := []
    safe := Vector.replicate 32 {}, fillOrder := [], captureOrder := []
    mport := none, lastPort := .b, queue := [], irq := false
    mask := 0xFFF, irqEnable := false, stallLimit := 100
    receiver := .idle, reply := none, msdo := [] }

/-- RESET_FALL (R32). RESET that is already low does not fall. -/
def execResetFall (s : State) : Host.Outcome State Fault Refusal :=
  .next (if s.resetLow then s else s.abandonAccess.powerOn)

/-- RESET rises (R32, R70, R102, R162, R168): READY high, the starting levels of the lines taken, the receiver IDLE or
IGNORING by the level of MCS, the NONE reply pending. -/
def State.rise (s : State) (sync : Vector Bool 4) (fault : Vector Bool 2) (mcs : Bool) : State :=
  { s with
    resetLow := false
    portA := { s.portA with ready := true }
    portB := { s.portB with ready := true }
    syncLevels := sync
    faultLevels := fault
    receiver := if mcs then .idle else .ignoring
    reply := some { result := .none } }

/-- RESET_RISE (R32). RESET that is already high does not rise. -/
def execResetRise (sync : Vector Bool 4) (fault : Vector Bool 2) (mcs : Bool) (s : State) :
    Host.Outcome State Fault Refusal :=
  .next (if s.resetLow then s.rise sync fault mcs else s)

/-! ## Soft reset -/

/-- RESET_PART is refused (R177): a domain is in STOPPING or SAFING, or holds a COMMITTING batch. DESIGN CHOICE (log entry
28): a domain whose fault acceptance reached SAFED at once (R112) does not refuse it, where R119 and R179 have it SAFING. -/
def State.resetBusy (s : State) : Bool :=
  (List.finRange 4).any fun d =>
    decide ((s.domain d).state = .stopping ∨ (s.domain d).state = .safing) || (s.slotIn d .committing).isSome

/-- A port's transaction at a soft reset (R31): one in MEMORY completes normally, any other ends with ERROR. -/
def PortUnit.endTxn (u : PortUnit) : PortUnit :=
  match u.txn.phase with
  | .idle => u
  | .memory => u
  | .request => { u with txn := {}, ready := true, response := some (errorFor u.txn) }
  | .held => { u with txn := {}, ready := true, response := some (errorFor u.txn) }
  | .leadWait => { u with txn := {}, ready := true, response := some (errorFor u.txn) }

/-- A port at a soft reset: its transaction ended, its contexts IDLE, context 0 the less recently used (R31, R138). -/
def PortUnit.softReset (u : PortUnit) : PortUnit :=
  { u.endTxn with contexts := Vector.replicate 2 .idle, lru := 0 }

/-- A domain at a soft reset (R55, R84, R101, R119): RUN becomes DISABLED, every batch is gone, counts and numbers are 0,
the record is kept. -/
def Domain.softReset (d : Domain) : Domain :=
  { cfg := d.cfg, state := if d.state = .run then .disabled else d.state }

/-- The effects of an accepted RESET_PART (R178): the window table, the domain records, the safe table, the global settings,
the line levels, the access the M-port holds and the last-granted port are kept. -/
def State.softReset (s : State) : State :=
  { s with
    tick := 0, portA := s.portA.softReset, portB := s.portB.softReset
    entries := Vector.replicate 64 none, waiting := []
    domains := s.domains.map Domain.softReset, startOrder := [], expiryStarts := []
    fillOrder := [], captureOrder := [], queue := [], irq := false }

end Sys2Proof.Machine
end

