-- ==== Sys2Proof/Machine/FrameFamily.lean ====
section
/-! DEFINITION. The management port: frames that are not carried out, and the eighteen commands (chapter 10 and the owning
chapters).

A frame command is one whole frame. A frame that R164 would find otherwise than its command says is no event of the part,
and none is taken while RESET is low, nor in IGNORING, where MCS has not risen since RESET
rose (R162; log entry 7). -/

namespace Sys2Proof.Machine

/-! ## Frames -/

/-- A frame can be accepted (R162, R164): RESET is high and the receiver is not IGNORING. -/
def State.frameTaken (s : State) : Bool := !s.resetLow && decide (s.receiver ≠ .ignoring)

/-- The frame of `n` bits shifts the pending reply out and leaves the receiver IDLE (R162, R167). -/
def State.shiftFrame (s : State) (n : Nat) : State := { s with msdo := shiftOut s.reply n, receiver := .idle }

/-- The pending reply is replaced (R167). -/
def State.answer (s : State) (r : Reply) : State := { s with reply := some r }

/-- A frame of `n` bits is accepted: the pending reply is shifted out, the command is carried out whole, and its reply
becomes the pending reply (R165, R167). -/
def State.carryOut (s : State) (n : Nat) (f : State → State × Reply) : State :=
  if s.frameTaken then (f (s.shiftFrame n)).1.answer (f (s.shiftFrame n)).2 else s

/-- A reply with no report. -/
def bare (r : Result) : Reply := { result := r }

/-- The OK reply of a command that reports (R166). -/
def reported (l : List Byte) : Reply := { result := .ok, report := l }

/-- EMPTY_FRAME (R164, case 1): nothing is carried out, and the pending reply is kept; the bits of a partial byte have shifted
out leading bits of it (R167). -/
def execEmptyFrame (s : State) (rest : Fin 8 := 0) : Host.Outcome State Fault Refusal :=
  .next (if s.frameTaken then s.shiftFrame rest.val else s)

/-- UNKNOWN_COMMAND (R164, case 2). -/
def execUnknownCommand (frame : List Byte) (s : State) (rest : Fin 8 := 0) : Host.Outcome State Fault Refusal :=
  .next (if frameVerdict frame = .unknown then s.carryOut (8 * frame.length + rest.val) fun s => (s, bare .unknown) else s)

/-- SHORT_FRAME (R164, case 3). -/
def execShortFrame (frame : List Byte) (s : State) (rest : Fin 8 := 0) : Host.Outcome State Fault Refusal :=
  .next (if frameVerdict frame = .short then s.carryOut (8 * frame.length + rest.val) fun s => (s, bare .shortFrame) else s)

/-- BAD_CHECK (R164, case 4). -/
def execBadCheck (frame : List Byte) (s : State) (rest : Fin 8 := 0) : Host.Outcome State Fault Refusal :=
  .next (if frameVerdict frame = .badCheck then s.carryOut (8 * frame.length + rest.val) fun s => (s, bare .badCheck) else s)

/-- IGNORED_FRAME_END (R162): IGNORING becomes IDLE, with no acceptance and the pending reply kept. -/
def execIgnoredFrameEnd (s : State) : Host.Outcome State Fault Refusal :=
  .next (if !s.resetLow && decide (s.receiver = .ignoring) then { s with receiver := .idle } else s)

/-! ## Status and global settings -/

/-- The status summary, 7 bytes (R172, R185). -/
def State.statusSummary (s : State) : List Byte :=
  (s.domains.toList.map fun d => d.state.code) ++
    [BitVec.ofNat 8 s.entriesInUse, BitVec.ofNat 8 s.queue.length,
      (if s.faultLevels[0] then 1 else 0) + (if s.faultLevels[1] then 2 else 0)]

/-- NOP (R172). -/
def execNop (tail : Nat) (s : State) : Host.Outcome State Fault Refusal :=
  .next (s.carryOut (8 * 2 + tail) fun s => (s, reported s.statusSummary))

/-- The global settings, 5 bytes (R173, R185). -/
def State.globalReport (s : State) : List Byte :=
  bytes16 (s.mask.setWidth 16) ++ [byteOfYes s.irqEnable] ++ bytes16 (s.stallLimit.setWidth 16)

/-- GET_GLOBAL (R173). -/
def execGetGlobal (tail : Nat) (s : State) : Host.Outcome State Fault Refusal :=
  .next (s.carryOut (8 * 2 + tail) fun s => (s, reported s.globalReport))

/-- The stall limit or the mask of a SET_GLOBAL is out of range (R174, R185). -/
def globalsOutOfRange (g : GlobalPayload) : Bool :=
  decide (g.stallLimit.toNat = 0 ∨ 4095 < g.stallLimit.toNat ∨ 4095 < g.mask.toNat)

/-- The three settings are written, and IRQ takes its level (R175). -/
def State.writeGlobals (s : State) (g : GlobalPayload) (enable : Bool) : State :=
  ({ s with mask := g.mask.setWidth 12, irqEnable := enable, stallLimit := g.stallLimit.setWidth 12 }).setQueue s.queue

/-- A held write whose waiting time has reached the limit expires (R29). -/
def State.expireIfDue (s : State) (p : Port) : State := if s.stallDue p then s.expireHeld p else s

/-- The held writes whose waiting time has reached the limit expire, those of both ports in an order left open (R29). -/
def State.expireAllDue (s : State) : State := s.inFreeOrder ([Port.a, Port.b].filter s.stallDue) State.expireIfDue

/-- SET_GLOBAL's effect (R175): the settings written, then, where the stall limit changes, the held writes now over it
expire under the new mask. A limit written with the value it holds expires no write (R175, last paragraph). -/
def State.setGlobals (s : State) (g : GlobalPayload) (enable : Bool) : State :=
  if g.stallLimit.setWidth 12 = s.stallLimit then s.writeGlobals g enable else (s.writeGlobals g enable).expireAllDue

/-- What SET_GLOBAL does (R174, R175). -/
def State.doSetGlobal (s : State) (g : GlobalPayload) : State × Reply :=
  match irqEnableOfCode g.irqEnable with
  | none => (s, bare .badValue)
  | some enable => if globalsOutOfRange g then (s, bare .badValue) else (s.setGlobals g enable, bare .ok)

/-- SET_GLOBAL (R175). -/
def execSetGlobal (g : GlobalPayload) (tail : Nat) (s : State) : Host.Outcome State Fault Refusal :=
  .next (s.carryOut (8 * 7 + tail) fun s => s.doSetGlobal g)

/-- What POP_EVENT does (R157). -/
def State.doPopEvent (s : State) : State × Reply :=
  match s.queue with
  | [] => (s, bare .empty)
  | r :: l => (s.setQueue l, reported r.report)

/-- POP_EVENT (R157). -/
def execPopEvent (tail : Nat) (s : State) : Host.Outcome State Fault Refusal :=
  .next (s.carryOut (8 * 2 + tail) State.doPopEvent)

/-- What RESET_PART does (R177, R178). -/
def State.doResetPart (s : State) : State × Reply :=
  if s.resetBusy then (s, bare .busy) else (s.softReset, bare .ok)

/-- RESET_PART (R178). -/
def execResetPart (tail : Nat) (s : State) : Host.Outcome State Fault Refusal :=
  .next (s.carryOut (8 * 2 + tail) State.doResetPart)

/-! ## The window table -/

/-- What GET_WINDOW does (R9). -/
def State.doGetWindow (s : State) (index : Byte) : State × Reply :=
  match windowOfByte index with
  | none => (s, bare .badIndex)
  | some i => (s, reported (s.window i).report)

/-- GET_WINDOW (R9). -/
def execGetWindow (index : Byte) (tail : Nat) (s : State) : Host.Outcome State Fault Refusal :=
  .next (s.carryOut (8 * 3 + tail) fun s => s.doGetWindow index)

/-- The record is an enabled STAGED window of a domain that is not DISABLED (R11). -/
def State.liveStaged (s : State) (w : WindowRecord) : Bool :=
  w.enabled && decide (w.kind = .staged ∧ (s.domain w.domain).state ≠ .disabled)

/-- Two ranges have a word in common: the base of each is not above the last word of the other (R13). -/
def rangesMeet (v w : WindowRecord) : Bool :=
  decide (v.base.toNat < w.base.toNat + w.length.toNat ∧ w.base.toNat < v.base.toNat + v.length.toNat)

/-- The range meets another enabled window, or contains the sequence word of a domain that is not DISABLED (R13). -/
def State.overlaps (s : State) (i : WindowId) (w : WindowRecord) : Bool :=
  ((List.finRange 16).any fun j => decide (j ≠ i) && (s.window j).enabled && rangesMeet (s.window j) w) ||
    (List.finRange 4).any fun d =>
      decide ((s.domain d).state ≠ .disabled) &&
        match (s.domain d).cfg.sequenceWord with
        | none => false
        | some a => w.covers a

/-- A HELD context of the window becomes IDLE (R14). -/
def Context.released (w : WindowId) (x : Context) : Context := if x.holds w then .idle else x

/-- A port's contexts HELD for the window become IDLE (R14). -/
def PortUnit.releaseWindow (u : PortUnit) (w : WindowId) : PortUnit :=
  { u with contexts := u.contexts.map (Context.released w) }

/-- The record is written, and every context HELD for the index becomes IDLE (R14). -/
def State.writeWindow (s : State) (i : WindowId) (w : WindowRecord) : State :=
  { s with windows := s.windows.set i w, portA := s.portA.releaseWindow i, portB := s.portB.releaseWindow i }

/-- What SET_WINDOW does: the checks of R10 in their order, then R14. -/
def State.doSetWindow (s : State) (index : Byte) (w : WindowPayload) : State × Reply :=
  match windowOfByte index with
  | none => (s, bare .badIndex)
  | some i =>
    if w.badValue then (s, bare .badValue)
    else if s.liveStaged (s.window i) || s.liveStaged w.stored then (s, bare .busy)
    else if s.captureAt .a i || s.captureAt .b i then (s, bare .busy)
    else if w.stored.enabled && s.overlaps i w.stored then (s, bare .overlap)
    else (s.writeWindow i w.stored, bare .ok)

/-- SET_WINDOW (R10). -/
def execSetWindow (index : Byte) (w : WindowPayload) (tail : Nat) (s : State) : Host.Outcome State Fault Refusal :=
  .next (s.carryOut (8 * 17 + tail) fun s => s.doSetWindow index w)

/-! ## The domain controllers -/

/-- A command whose payload is a domain number: BAD_INDEX above 3 (R184). -/
def State.onDomain (s : State) (b : Byte) (f : DomainId → State × Reply) : State × Reply :=
  match domainOfByte b with
  | none => (s, bare .badIndex)
  | some d => f d

/-- GET_DOMAIN (R83). -/
def execGetDomain (domain : Byte) (tail : Nat) (s : State) : Host.Outcome State Fault Refusal :=
  .next (s.carryOut (8 * 3 + tail) fun s => s.onDomain domain fun d => (s, reported (s.domain d).report))

/-- What SET_DOMAIN does for a domain (R81, R82). -/
def State.doSetDomain (s : State) (r : DomainPayload) (d : DomainId) : State × Reply :=
  match r.stored with
  | none => (s, bare .badValue)
  | some x =>
    if (s.domain d).state = .disabled then (s.setDomain d { s.domain d with cfg := x }, bare .ok) else (s, bare .busy)

/-- SET_DOMAIN (R81). -/
def execSetDomain (domain : Byte) (r : DomainPayload) (tail : Nat) (s : State) : Host.Outcome State Fault Refusal :=
  .next (s.carryOut (8 * 15 + tail) fun s => s.onDomain domain (s.doSetDomain r))

/-- The domain's sequence word lies in the range of an enabled window (R64). -/
def State.sequenceInWindow (s : State) (d : DomainId) : Bool :=
  match (s.domain d).cfg.sequenceWord with
  | none => false
  | some a => (s.covering a).isSome

/-- A domain started (R64). -/
def Domain.started (d : Domain) : Domain :=
  { d with state := .run, periodCount := 0, monitorCount := 0, lastPeriod := 0, longestPeriod := 0,
           monitorPhase := .counting }

/-- What START does for a domain (R64). -/
def State.doStart (s : State) (d : DomainId) : State × Reply :=
  if (s.domain d).state ≠ .disabled then (s, bare .state)
  else if s.faultActive d then (s, bare .faultActive)
  else if s.sequenceInWindow d then (s, bare .badValue)
  else (s.setDomain d (s.domain d).started, bare .ok)

/-- START (R64). -/
def execStart (domain : Byte) (tail : Nat) (s : State) : Host.Outcome State Fault Refusal :=
  .next (s.carryOut (8 * 3 + tail) fun s => s.onDomain domain s.doStart)

/-- The domain's waiter leaves the waiting list and stays HELD, its cause changed to STOPPING and its wait start tick kept
(R53). -/
def State.waiterToStopping (s : State) (d : DomainId) : State :=
  match s.waiterOf d with
  | none => s
  | some w => (s.leaveWaiting w.port).setTxn w.port { (s.port w.port).txn with cause := some .stopping }

/-- The domain enters STOPPING with its monitor STOPPED (R65). -/
def State.enterStopping (s : State) (d : DomainId) : State :=
  s.setDomain d { s.domain d with state := .stopping, monitorPhase := .stopped }

/-- The pool's part of a STOP (R53): the waiter becomes a STOPPING hold, the OPEN batch is discarded, the waiting list is
examined. -/
def State.discardAtStop (s : State) (d : DomainId) : State :=
  ((s.waiterToStopping d).freeSlotsIn d .opened).examineWaiting

/-- A stopping domain waits for its commit in flight, or goes on at once (R65). -/
def State.awaitOrContinue (s : State) (d : DomainId) : State :=
  match s.slotIn d .committing with
  | some _ => s
  | none => s.continueStop d

/-- An accepted STOP (R65, R53). -/
def State.stopDomain (s : State) (d : DomainId) : State := ((s.enterStopping d).discardAtStop d).awaitOrContinue d

/-- What STOP does for a domain (R65). -/
def State.doStop (s : State) (d : DomainId) : State × Reply :=
  match (s.domain d).state with
  | .run => ((s.stopDomain d).arbitrate, bare .accepted)
  | .stopping => (s, bare .busy)
  | .disabled => (s, bare .state)
  | .safing => (s, bare .state)
  | .safed => (s, bare .state)

/-- STOP (R65). -/
def execStop (domain : Byte) (tail : Nat) (s : State) : Host.Outcome State Fault Refusal :=
  .next (s.carryOut (8 * 3 + tail) fun s => s.onDomain domain s.doStop)

/-- What SEAL does for a domain (R44, R68). -/
def State.doSeal (s : State) (d : DomainId) : State × Reply :=
  if (s.domain d).state = .run then
    match s.slotIn d .opened with
    | none => (s, bare .empty)
    | some _ => (s.sealOpen d, bare .ok)
  else (s, bare .state)

/-- SEAL (R68). -/
def execSeal (domain : Byte) (tail : Nat) (s : State) : Host.Outcome State Fault Refusal :=
  .next (s.carryOut (8 * 3 + tail) fun s => s.onDomain domain s.doSeal)

/-- What SYNC does for a domain (R69): it takes a sync event, which has no effect outside RUN (R73). -/
def State.doSync (s : State) (d : DomainId) : State × Reply :=
  if (s.domain d).state = .run then ((s.syncEvent d).arbitrate, bare .ok) else (s, bare .ok)

/-- SYNC (R69). -/
def execSync (domain : Byte) (tail : Nat) (s : State) : Host.Outcome State Fault Refusal :=
  .next (s.carryOut (8 * 3 + tail) fun s => s.onDomain domain s.doSync)

/-! ## The fault unit -/

/-- What GET_SAFE does (R109). -/
def State.doGetSafe (s : State) (index : Byte) : State × Reply :=
  match safeOfByte index with
  | none => (s, bare .badIndex)
  | some i => (s, reported (s.safeEntry i).report)

/-- GET_SAFE (R109). -/
def execGetSafe (index : Byte) (tail : Nat) (s : State) : Host.Outcome State Fault Refusal :=
  .next (s.carryOut (8 * 3 + tail) fun s => s.doGetSafe index)

/-- What SET_SAFE does (R108). DESIGN CHOICE (log entry 28): a domain that its fault acceptance took to SAFED at once (R112)
does not make it BUSY, where R108 has a SET_SAFE taken after the fault refused. -/
def State.doSetSafe (s : State) (index : Byte) (e : SafePayload) : State × Reply :=
  match safeOfByte index with
  | none => (s, bare .badIndex)
  | some i =>
    match e.stored with
    | none => (s, bare .badValue)
    | some x =>
      if (s.domain (s.safeEntry i).domain).state = .safing ∨ (s.domain x.domain).state = .safing then (s, bare .busy)
      else ({ s with safe := s.safe.set i x }, bare .ok)

/-- SET_SAFE (R108). -/
def execSetSafe (index : Byte) (e : SafePayload) (tail : Nat) (s : State) : Host.Outcome State Fault Refusal :=
  .next (s.carryOut (8 * 13 + tail) fun s => s.doSetSafe index e)

/-- What ARM does for a domain (R118). -/
def State.doArm (s : State) (d : DomainId) : State × Reply :=
  if (s.domain d).state ≠ .safed then (s, bare .state)
  else if s.faultActive d then (s, bare .faultActive)
  else (s.setDomain d { s.domain d with state := .disabled }, bare .ok)

/-- ARM (R118). -/
def execArm (domain : Byte) (tail : Nat) (s : State) : Host.Outcome State Fault Refusal :=
  .next (s.carryOut (8 * 3 + tail) fun s => s.onDomain domain s.doArm)

/-! ## The diagnostic views -/

/-- What GET_BATCH does (R60). -/
def State.doGetBatch (s : State) (domain slot : Byte) : State × Reply :=
  match domainOfByte domain, slotOfByte slot with
  | some d, some k => (s, reported (s.slot d k).report)
  | _, _ => (s, bare .badIndex)

/-- GET_BATCH (R60). -/
def execGetBatch (domain slot : Byte) (tail : Nat) (s : State) : Host.Outcome State Fault Refusal :=
  .next (s.carryOut (8 * 4 + tail) fun s => s.doGetBatch domain slot)

/-- What PEEK_STAGING does (R59). -/
def State.doPeekStaging (s : State) (index : Byte) : State × Reply :=
  match entryOfByte index with
  | none => (s, bare .badIndex)
  | some i => (s, reported (stagingReport s.entries[i]))

/-- PEEK_STAGING (R59). -/
def execPeekStaging (index : Byte) (tail : Nat) (s : State) : Host.Outcome State Fault Refusal :=
  .next (s.carryOut (8 * 3 + tail) fun s => s.doPeekStaging index)

end Sys2Proof.Machine
end

