-- ==== Sys2Proof/Machine/LineFamily.lean ====
section
/-! DEFINITION. Edges of the sync and fault lines (R70, R102).

An edge is a change of the level taken: a line that already stands at the level the edge leads to gives no edge, and no
line is taken while RESET is low (log entry 7). -/

namespace Sys2Proof.Machine

/-- The level after an edge. -/
def edgeLevel : Edge → Bool
  | .rising => true
  | .falling => false

/-- The edge is a change of the level taken. -/
def State.syncEdgeOccurs (s : State) (l : SyncLine) (e : Edge) : Bool :=
  !s.resetLow && decide (s.syncLevels[l] ≠ edgeLevel e)

/-- The domains whose record names the line and the edge (R70). -/
def State.syncedDomains (s : State) (l : SyncLine) (e : Edge) : List DomainId :=
  (List.finRange 4).filter fun d => (s.domain d).cfg.syncLine = some l ∧ (s.domain d).cfg.syncEdge = e

/-- A sync edge is a sync event of each domain that names it, each on its own, in an order left open; those that start
commits join the start-order list in ascending order (R70, R89). -/
def State.takeSyncEdge (s : State) (l : SyncLine) (e : Edge) : State :=
  let n := s.startOrder.length
  let s := { s with syncLevels := s.syncLevels.set l (edgeLevel e) }
  let s := s.inFreeOrder (s.syncedDomains l e) State.syncEvent
  { s with startOrder := ascendTail n s.startOrder }

/-- SYNC_EDGE (R70). -/
def execSyncEdge (l : SyncLine) (e : Edge) (s : State) : Host.Outcome State Fault Refusal :=
  .next (if s.syncEdgeOccurs l e then (s.takeSyncEdge l e).arbitrate else s)

/-- The domains bound to a fault line that accept a fault event in their present state (R103). -/
def State.faultedDomains (s : State) (l : FaultLine) : List DomainId :=
  (List.finRange 4).filter fun d => (s.domain d).cfg.binding.names l && (s.domain d).state.acceptsFault

/-- An assertion edge is a fault event of each bound domain, each accepting or ignoring it by its own state (R102, R103). -/
def State.takeFaultEdge (s : State) (l : FaultLine) : State :=
  { s with faultLevels := s.faultLevels.set l false }.acceptFaults (s.faultedDomains l)
    fun d => [.faultTaken d (faultLineCause l)]

/-- FAULT_EDGE (R102, R103). -/
def execFaultEdge (l : FaultLine) (s : State) : Host.Outcome State Fault Refusal :=
  .next (if !s.resetLow && s.faultLevels[l] then (s.takeFaultEdge l).arbitrate else s)

/-- FAULT_LINE_RELEASE (R102): the level taken becomes high, and no domain takes anything. -/
def execFaultLineRelease (l : FaultLine) (s : State) : Host.Outcome State Fault Refusal :=
  .next (if !s.resetLow && !s.faultLevels[l] then { s with faultLevels := s.faultLevels.set l true } else s)

end Sys2Proof.Machine
end

