-- ==== Sys2Proof/Machine/PortFamily.lean ====
section
/-! DEFINITION. The commands of the host ports and of the memory's completions (chapters 2, 5, 6, 7, 8).

A completion whose requester does not hold the M-port, and an acceptance at a port that holds a transaction or while
RESET is low, is no event of the part: the state stays as it is (log entry 7). -/

namespace Sys2Proof.Machine

/-- A port records an accepted transaction and drives READY low (R17, R18). -/
def State.accept (s : State) (p : Port) (acc : Access) : State :=
  s.setPort p { s.port p with txn := { access := acc }, ready := false, response := none }

/-- A port can accept a transaction: RESET is high and it holds none (R17). -/
def State.portFree (s : State) (p : Port) : Bool := !s.resetLow && decide ((s.port p).txn.phase = .idle)

/-- An accepted transaction is classified and takes its outcome (R3); a write that enables no lane is answered OKAY
without classification (R21). -/
def State.takeAccess (s : State) (p : Port) : Access → State
  | .read a => (s.applyRead p (s.classifyRead p a)).arbitrate
  | .write _ m _ => if m = 0 then s.respond p .okayWrite else (s.reclassify p).arbitrate

/-- TRANSACTION_ACCEPT (R17). -/
def execTransactionAccept (p : Port) (acc : Access) (s : State) : Host.Outcome State Fault Refusal :=
  .next (if s.portFree p then (s.accept p acc).takeAccess p acc else s)

/-- A port's plain write has completed (R22, R133, R126). -/
def State.finishPortWrite (s : State) (p : Port) (acc : Access) : State :=
  (((s.patchCopies p acc).respond p .okayWrite).endWriterWait p.other).arbitrate

/-- PORT_WRITE_COMPLETE (R22). -/
def execPortWriteComplete (s : State) : Host.Outcome State Fault Refusal :=
  .next
    (match s.mport with
    | some ⟨.port p, .write a m d⟩ =>
      (s.completeAccess ⟨.port p, .write a m d⟩).finishPortWrite p (.write a m d)
    | _ => s)

/-- PORT_READ_COMPLETE (R23): the overlays are formed from the state at this completion. -/
def execPortReadComplete (s : State) : Host.Outcome State Fault Refusal :=
  .next
    (match s.mport with
    | some ⟨.port p, .read a⟩ =>
      let s := s.completeAccess ⟨.port p, .read a⟩
      (s.respond p (.okayRead (s.readValue p a))).arbitrate
    | _ => s)

/-- COMMIT_WRITE_COMPLETE (R87). -/
def execCommitWriteComplete (s : State) : Host.Outcome State Fault Refusal :=
  .next
    (match s.mport with
    | some ⟨.commit d, acc⟩ =>
      if (s.domain d).commit.phase = .entryWrite then
        ((s.completeAccess ⟨.commit d, acc⟩).advanceCommit d).arbitrate
      else s
    | _ => s)

/-- SEQUENCE_WRITE_COMPLETE (R92, R93). -/
def execSequenceWriteComplete (s : State) : Host.Outcome State Fault Refusal :=
  .next
    (match s.mport with
    | some ⟨.commit d, acc⟩ =>
      if (s.domain d).commit.phase = .sequenceWrite then
        ((s.completeAccess ⟨.commit d, acc⟩).completeCommit d).arbitrate
      else s
    | _ => s)

/-- FILL_WRITE_COMPLETE (R111). -/
def execFillWriteComplete (s : State) : Host.Outcome State Fault Refusal :=
  .next
    (match s.mport with
    | some ⟨.fill d, acc⟩ =>
      if (s.domain d).fill.phase = .fillWrite then
        ((s.completeAccess ⟨.fill d, acc⟩).advanceFill d).arbitrate
      else s
    | _ => s)

/-- CAPTURE_READ_COMPLETE (R127): the word is stored as memory returned it, with no overlay. -/
def execCaptureReadComplete (s : State) : Host.Outcome State Fault Refusal :=
  .next
    (match s.mport with
    | some ⟨.capture p, .read a⟩ =>
      let s := s.completeAccess ⟨.capture p, .read a⟩
      (s.storeCapture p (Memory.readWord s.mem a)).arbitrate
    | _ => s)

end Sys2Proof.Machine
end

