-- ==== Sys2Proof/Machine/TimeFamily.lean ====
section
/-! DEFINITION. The timebase and the events it makes due: ticks, stall-limit expiry, sync monitor expiry, hold-limit expiry
(R27, R76, R77, R134, R150).

An expiry that is not due is no event of the part: the state stays as it is (log entry 7). A tick first takes the expiries
still due at the present tick, so none is passed over (log entry 8). -/

namespace Sys2Proof.Machine

/-- An event that falls due at a tick. -/
inductive TimedEvent where
  | stall (port : Port)
  | monitor (domain : DomainId)
  | holdLimit (port : Port) (context : ContextId)
  deriving DecidableEq, Repr

/-- The event is due. -/
def State.timedDue (s : State) : TimedEvent → Bool
  | .stall p => s.stallDue p
  | .monitor d => s.monitorDue d
  | .holdLimit p c => s.holdLimitDue p c

/-- The event is taken, if it is due. -/
def State.takeTimed (s : State) (e : TimedEvent) : State :=
  if s.timedDue e then
    match e with
    | .stall p => s.expireHeld p
    | .monitor d => (s.expireMonitor d).arbitrate
    | .holdLimit p c => s.expireContext p c
  else s

/-- All the time-driven events there can be. -/
def allTimed : List TimedEvent :=
  [.stall .a, .stall .b] ++ (List.finRange 4).map .monitor ++
    (List.finRange 2).map (.holdLimit .a) ++ (List.finRange 2).map (.holdLimit .b)

/-- The events due at the present tick and not yet taken are taken, in an order left open. -/
def State.takeDue (s : State) : State := s.inFreeOrder (allTimed.filter s.timedDue) State.takeTimed

/-- The counter and the counts of RUN domains rise (R76, R150). -/
def State.advanceTick (s : State) : State :=
  { s with tick := s.tick + 1, domains := s.domains.map Domain.ticked, expiryStarts := [] }

/-- STALL_TIMEOUT (R27). -/
def execStallTimeout (p : Port) (s : State) : Host.Outcome State Fault Refusal :=
  .next (if s.stallDue p then s.expireHeld p else s)

/-- TICK (R150). While RESET is low the timebase does not count. -/
def execTick (s : State) : Host.Outcome State Fault Refusal :=
  .next (if s.resetLow then s else s.takeDue.advanceTick)

/-- SYNC_MONITOR_EXPIRY (R77): the expiry of a monitor, under loss policy SAFE with those of the same tick. -/
def execSyncMonitorExpiry (d : DomainId) (s : State) : Host.Outcome State Fault Refusal :=
  .next (if s.monitorDue d then (s.expireMonitor d).arbitrate else s)

/-- HOLD_LIMIT_EXPIRY (R134). -/
def execHoldLimitExpiry (p : Port) (c : ContextId) (s : State) : Host.Outcome State Fault Refusal :=
  .next (if s.holdLimitDue p c then s.expireContext p c else s)

end Sys2Proof.Machine
end

