-- ==== Sys2Proof/Machine/Dispatch.lean ====
section
/-! DEFINITION. The meaning of every command: one arm per constructor. -/

namespace Sys2Proof.Machine

def exec (i : Instr) (s : State) : Host.Outcome State Fault Refusal :=
  match i with
  | .transactionAccept port access => Sys2Proof.Machine.execTransactionAccept port access s
  | .portWriteComplete => Sys2Proof.Machine.execPortWriteComplete s
  | .portReadComplete => Sys2Proof.Machine.execPortReadComplete s
  | .commitWriteComplete => Sys2Proof.Machine.execCommitWriteComplete s
  | .sequenceWriteComplete => Sys2Proof.Machine.execSequenceWriteComplete s
  | .fillWriteComplete => Sys2Proof.Machine.execFillWriteComplete s
  | .captureReadComplete => Sys2Proof.Machine.execCaptureReadComplete s
  | .stallTimeout port => Sys2Proof.Machine.execStallTimeout port s
  | .tick => Sys2Proof.Machine.execTick s
  | .syncMonitorExpiry domain => Sys2Proof.Machine.execSyncMonitorExpiry domain s
  | .holdLimitExpiry port context => Sys2Proof.Machine.execHoldLimitExpiry port context s
  | .syncEdge line edge => Sys2Proof.Machine.execSyncEdge line edge s
  | .faultEdge line => Sys2Proof.Machine.execFaultEdge line s
  | .resetFall => Sys2Proof.Machine.execResetFall s
  | .resetRise syncLevels faultLevels mcs => Sys2Proof.Machine.execResetRise syncLevels faultLevels mcs s
  | .emptyFrame rest => Sys2Proof.Machine.execEmptyFrame s rest
  | .unknownCommand frame rest => Sys2Proof.Machine.execUnknownCommand frame s rest
  | .nop tail => Sys2Proof.Machine.execNop tail s
  | .getGlobal tail => Sys2Proof.Machine.execGetGlobal tail s
  | .setGlobal settings tail => Sys2Proof.Machine.execSetGlobal settings tail s
  | .popEvent tail => Sys2Proof.Machine.execPopEvent tail s
  | .resetPart tail => Sys2Proof.Machine.execResetPart tail s
  | .getWindow index tail => Sys2Proof.Machine.execGetWindow index tail s
  | .setWindow index record tail => Sys2Proof.Machine.execSetWindow index record tail s
  | .getDomain domain tail => Sys2Proof.Machine.execGetDomain domain tail s
  | .setDomain domain record tail => Sys2Proof.Machine.execSetDomain domain record tail s
  | .start domain tail => Sys2Proof.Machine.execStart domain tail s
  | .stop domain tail => Sys2Proof.Machine.execStop domain tail s
  | .sealBatch domain tail => Sys2Proof.Machine.execSeal domain tail s
  | .sync domain tail => Sys2Proof.Machine.execSync domain tail s
  | .getSafe index tail => Sys2Proof.Machine.execGetSafe index tail s
  | .setSafe index entry tail => Sys2Proof.Machine.execSetSafe index entry tail s
  | .arm domain tail => Sys2Proof.Machine.execArm domain tail s
  | .getBatch domain slot tail => Sys2Proof.Machine.execGetBatch domain slot tail s
  | .peekStaging index tail => Sys2Proof.Machine.execPeekStaging index tail s
  | .shortFrame frame rest => Sys2Proof.Machine.execShortFrame frame s rest
  | .badCheck frame rest => Sys2Proof.Machine.execBadCheck frame s rest
  | .ignoredFrameEnd => Sys2Proof.Machine.execIgnoredFrameEnd s
  | .faultLineRelease line => Sys2Proof.Machine.execFaultLineRelease line s

end Sys2Proof.Machine
end

