-- ==== Sys2Proof/Machine/Step.lean ====
section
/-! DEFINITION. One step: the command at the front of the queue is carried out. Commands come from outside, first in, first
out. -/

namespace Sys2Proof.Machine

/-- The command at the front of the queue is carried out on the state with the queue's rest; on an empty queue the part
idles (log entry 9). -/
def step (s : State) : Host.Outcome State Fault Refusal :=
  match s.pending with
  | [] => .next s
  | c :: rest => exec c { s with pending := rest }

/-- A command joins the queue at its tail. -/
def State.enqueue (s : State) (c : Instr) : State := { s with pending := s.pending ++ [c] }

/-- A frame's bits, sampled between a fall of MCS and the following rise, become the command they spell. -/
def State.enqueueFrame (s : State) (bits : List Bool) : State := s.enqueue (decodeBits bits)

/-- The command a table word spells is put at the front of the queue; the table gives no bits, so the state stays. -/
def State.withFetchWord (s : State) (nbits w : Nat) : State :=
  match decodeTableWord nbits w with
  | some c => { s with pending := c :: s.pending }
  | none => s

end Sys2Proof.Machine
end

