-- ==== Sys2Proof/Safety.lean ====
section
/-! DEFINITION. The terms claims about the part are stated in: what a frame leaves, the order of the arbiter's classes, and the
laws that every step keeps. -/

namespace Sys2Proof.Machine

/-! ## Frames -/

/-- The part takes frames: RESET is high and the receiver is not IGNORING (R162). -/
def State.Listening (s : State) : Prop := s.resetLow = false ∧ s.receiver ≠ .ignoring

/-- The state after a frame of `n` bits that was accepted with the reply `r` and changed nothing else (R167, R171). -/
def State.replied (s : State) (n : Nat) (r : Reply) : State :=
  { s with msdo := shiftOut s.reply n, receiver := .idle, reply := some r }

/-! ## Words in windows and in the safe table -/

/-- The word lies in the range of the enabled window (R2). -/
def State.InWindow (s : State) (i : WindowId) (a : Addr) : Prop :=
  (s.window i).enabled = true ∧ (s.window i).base.toNat ≤ a.toNat ∧
    a.toNat < (s.window i).base.toNat + (s.window i).length.toNat

/-- The domain is in SAFING and an enabled safe entry of it names the word (R6). -/
def State.NamedBySafing (s : State) (d : DomainId) (a : Addr) : Prop :=
  (s.domain d).state = .safing ∧
    ∃ j, (s.safeEntry j).enabled = true ∧ (s.safeEntry j).domain = d ∧ (s.safeEntry j).addr = a

/-! ## Parts of larger events -/

/-- A FREE slot (R35). -/
def BatchSlot.vacant : BatchSlot := { state := .free, entries := [], rank := none }

/-- The slot sealed with the next seal rank (R38, R43, R44). -/
def State.slotSealed (s : State) (d : DomainId) (k : SlotId) : State :=
  s.setDomain d { s.domain d with
    sealCount := (s.domain d).sealCount + 1
    slots := (s.domain d).slots.set k
      { s.slot d k with state := .sealed, rank := some ((s.domain d).sealCount + 1) } }

/-- The domain with the slot's commit started (R88, steps 1 and 2). -/
def Domain.committing (x : Domain) (k : SlotId) : Domain :=
  { x with
    slots := x.slots.set k { x.slots[k] with state := .committing }
    commit := { phase := .entryRequest, slot := k, entryCount := x.slots[k].entries.length, next := 0 } }

/-- The slot is the domain's oldest SEALED batch: none lies further behind the seal count (R38). -/
def State.IsOldestSealed (s : State) (d : DomainId) (k : SlotId) : Prop :=
  (s.slot d k).state = .sealed ∧ ∀ j, j ≠ k → (s.slot d j).state = .sealed → s.sealAge d j < s.sealAge d k

/-- The entries of a slot FREE (R51, R52). -/
def State.entriesFreed (s : State) (d : DomainId) (k : SlotId) : Vector (Option StagingEntry) 64 :=
  Vector.ofFn fun i => if i ∈ (s.slot d k).entries then none else s.entries[i]

/-! ## The classes of the arbiter -/

/-- The class of a requester: fills, commits, captures, ports (R142). -/
def Requester.classNumber : Requester → Nat
  | .fill _ => 1
  | .commit _ => 2
  | .capture _ => 3
  | .port _ => 4

/-! ## Laws that every step keeps -/

/-- The SRAM's list of cells is in its canonical form. -/
def State.MemoryCanonical (s : State) : Prop := Memory.wf s.mem = true

/-- Law 11: the queue holds at most 16 records, and IRQ is asserted exactly when it is not empty and the enable is on
(R158). -/
def State.IrqFollowsQueue (s : State) : Prop :=
  s.irq = (s.irqEnable && !s.queue.isEmpty) ∧ s.queue.length ≤ 16

/-- While RESET is low every block stands at its power-on values (R1, R32, R55, R85, R101, R120, R139, R149, R160, R168). DESIGN
CHOICE: the receiver is IDLE then (log entry 27), the MSDO record empty (log entry 11), no response kept (log entry 12), the
fields of the model's own empty (log entry 17), and those that hold nothing meaningful at their defaults (log entry 18). -/
def State.QuietWhileLow (s : State) : Prop := s.resetLow = true → s = s.powerOn

/-- No word address lies in two enabled windows (R13). -/
def State.WindowsApart (s : State) : Prop :=
  ∀ i j : WindowId, i ≠ j → ∀ a : Addr, ¬ ((s.window i).covers a = true ∧ (s.window j).covers a = true)

/-- The stall limit lies in 1–4095 (R27, R173). -/
def State.LimitInRange (s : State) : Prop := 1 ≤ s.stallLimit.toNat ∧ s.stallLimit.toNat ≤ 4095

/-- READY of a port is high exactly while RESET is high and the port holds no transaction, and a transaction in progress has
no response yet (R17, R19, R32). DESIGN CHOICE (log entry 12): the response kept is the one last given, none during a
transaction. -/
def State.ReadyFollowsRecord (s : State) : Prop :=
  ∀ p, (s.port p).ready = (!s.resetLow && decide ((s.port p).txn.phase = .idle)) ∧
    ((s.port p).txn.phase ≠ .idle → (s.port p).response = none)

/-- A context is CAPTURING. -/
def Context.isCapturing : Context → Bool
  | .capturing _ _ _ => true
  | .held _ _ _ => false
  | .idle => false

/-- Law 4 of one domain (R63), with what carries it: outside RUN no OPEN batch; outside RUN and STOPPING no SEALED batch; in
DISABLED and SAFED no COMMITTING batch; a COMMITTING batch is the one the commit record names; a fill under way belongs to a
domain in SAFING with no COMMITTING batch. -/
structure Domain.BatchLaw (x : Domain) : Prop where
  unopened : x.state ≠ .run → ∀ k : SlotId, x.slots[k].state ≠ .opened
  unsealed : x.state ≠ .run → x.state ≠ .stopping → ∀ k : SlotId, x.slots[k].state ≠ .sealed
  uncommitting : x.state = .disabled ∨ x.state = .safed → ∀ k : SlotId, x.slots[k].state ≠ .committing
  inFlight : ∀ k : SlotId, x.slots[k].state = .committing → x.commit.phase ≠ .idle ∧ x.commit.slot = k
  filling : x.fill.phase = .fillRequest ∨ x.fill.phase = .fillWrite →
    x.state = .safing ∧ ∀ k : SlotId, x.slots[k].state ≠ .committing

/-- Law 4 (R63) of every domain, with what carries it from step to step: each waiter is a write of the writer port of a RUN
domain, held under EXHAUSTED (R47); the waiters belong to different ports; the port that holds the M-port is in MEMORY (R18); a
port with a CAPTURING context is in LEAD_WAIT and has one such context (R122). -/
structure State.BatchLaw (s : State) : Prop where
  domains : ∀ d, (s.domain d).BatchLaw
  waiters : ∀ w ∈ s.waiting, (s.domain w.domain).state = .run ∧ (s.domain w.domain).cfg.writer = w.port ∧
    (s.port w.port).txn.phase = .held ∧ (s.port w.port).txn.cause = some .exhausted
  waitersApart : s.waiting.Pairwise fun v w => v.port ≠ w.port
  granted : ∀ p acc, s.mport = some ⟨.port p, acc⟩ → (s.port p).txn.phase = .memory
  leadWait : ∀ p c, (s.context p c).isCapturing = true → (s.port p).txn.phase = .leadWait
  oneCapture : ∀ p c e, (s.context p c).isCapturing = true → (s.context p e).isCapturing = true → c = e

/-- Law 9 (R129), with what carries it: the laws above on batches and windows hold; a CAPTURING context holds an enabled
SNAPSHOT window whose reader port is its port; and once its first read is requested, the window's writer port holds no write
to a word of the window in REQUEST or MEMORY. -/
structure State.CaptureLaw (s : State) : Prop where
  batches : s.BatchLaw
  apart : s.WindowsApart
  captured : ∀ p c w copy phase, s.context p c = .capturing w copy phase →
    (s.window w).enabled = true ∧ (s.window w).kind = .snapshot ∧ (s.window w).writer = p.other
  excluded : ∀ p c w copy phase, s.context p c = .capturing w copy phase → phase ≠ .writerWait →
    s.writeOnItsWay p.other w = false

/-- Laws 1 and 2 (R40, R34), Law 3's bound on OPEN batches (R37) and the shape of batches (R35, R36): an entry is IN_USE
exactly when its slot's list holds it at its position, the words of a batch differ, a slot is FREE exactly when its list is
empty, a rank is present exactly in SEALED and COMMITTING, and a domain has at most one OPEN batch. Law 3's bound of one
COMMITTING batch stands in `Domain.BatchLaw.inFlight`. -/
structure State.PoolLaw (s : State) : Prop where
  listed : ∀ (d : DomainId) (k : SlotId) (n : Nat) (i : EntryId), (s.slot d k).entries[n]? = some i →
    ∃ e, s.entries[i] = some e ∧ e.domain = d ∧ e.slot = k ∧ e.position = n
  inUse : ∀ (i : EntryId) (e : StagingEntry), s.entries[i] = some e → (s.slot e.domain e.slot).entries[e.position]? = some i
  oneWord : ∀ (d : DomainId) (k : SlotId) (i j : EntryId) (e f : StagingEntry), i ∈ (s.slot d k).entries →
    j ∈ (s.slot d k).entries → s.entries[i] = some e → s.entries[j] = some f → e.addr = f.addr → i = j
  empty : ∀ d k, (s.slot d k).state = .free ↔ (s.slot d k).entries = []
  ranked : ∀ d k, (s.slot d k).rank.isSome = true ↔ (s.slot d k).state = .sealed ∨ (s.slot d k).state = .committing
  oneOpen : ∀ d j k, (s.slot d j).state = .opened → (s.slot d k).state = .opened → j = k

end Sys2Proof.Machine
end

