-- ==== Sys2Proof/WellFormed.lean ====
section
/-! DEFINITION. Which commands can arise: a frame that is not carried out must be one that R164 finds so. Every other
command is well formed by its type (addresses are 22 bits, numbers of lines, domains and contexts are in range, and an
index byte of a request may hold any value, R184). -/

namespace Sys2Proof

/-- The command can arise. -/
def Instr.wellFormed : Instr → Bool
  | .unknownCommand frame _ => decide (frameVerdict frame = .unknown)
  | .shortFrame frame _ => decide (frameVerdict frame = .short)
  | .badCheck frame _ => decide (frameVerdict frame = .badCheck)
  | .transactionAccept _ _ => true
  | .portWriteComplete => true
  | .portReadComplete => true
  | .commitWriteComplete => true
  | .sequenceWriteComplete => true
  | .fillWriteComplete => true
  | .captureReadComplete => true
  | .stallTimeout _ => true
  | .tick => true
  | .syncMonitorExpiry _ => true
  | .holdLimitExpiry _ _ => true
  | .syncEdge _ _ => true
  | .faultEdge _ => true
  | .resetFall => true
  | .resetRise _ _ _ => true
  | .emptyFrame _ => true
  | .nop _ => true
  | .getGlobal _ => true
  | .setGlobal _ _ => true
  | .popEvent _ => true
  | .resetPart _ => true
  | .getWindow _ _ => true
  | .setWindow _ _ _ => true
  | .getDomain _ _ => true
  | .setDomain _ _ _ => true
  | .start _ _ => true
  | .stop _ _ => true
  | .sealBatch _ _ => true
  | .sync _ _ => true
  | .getSafe _ _ => true
  | .setSafe _ _ _ => true
  | .arm _ _ => true
  | .getBatch _ _ _ => true
  | .peekStaging _ _ => true
  | .ignoredFrameEnd => true
  | .faultLineRelease _ => true

end Sys2Proof
end

