-- ==== Sys2Proof/Certificates/Slice0/Obligations.lean ====
section
/-! DEFINITION. The statements about the part. Where one rests on the model's choice its docstring names the log entry. -/

open Sys2Proof Sys2Proof.Machine

/-! ## Steps and the queue of commands -/

/-- O1. A step carries out the command at the front of the queue on the state with the queue's rest; on an empty queue
the part idles (the model's choice, log entry 9). (95_what_each_step_holds.md) -/
def Obligations.StepRunsFrontCommand : Prop :=
  (∀ (s : State) (c : Instr) (rest : List Instr),
    step { s with pending := c :: rest } = exec c { s with pending := rest }) ∧
  ∀ s : State, s.pending = [] → step s = .next s

/-- O2. Tables, settings, memory, tick counter and line levels change only by the commands that own them, and no
command touches the queue of commands; that commands wait in a queue outside the part is the model's choice (log entry
1), and so is the SRAM as part of the state, which only the part writes (log entry 15). (R10, R81, R108, R173, R174,
R140, R150, R70, R102) -/
def Obligations.CommandsChangeOnlyWhatIsTheirs : Prop :=
  ∀ (c : Instr) (s t : State), exec c s = .next t →
    t.pending = s.pending ∧
    (c ≠ .resetFall →
      (t.windows ≠ s.windows → ∃ i w n, c = .setWindow i w n) ∧
      (t.safe ≠ s.safe → ∃ i e n, c = .setSafe i e n) ∧
      (∀ d, (t.domain d).cfg ≠ (s.domain d).cfg →
        (s.domain d).state = .disabled ∧ ∃ b r n, c = .setDomain b r n) ∧
      (t.mask ≠ s.mask ∨ t.irqEnable ≠ s.irqEnable ∨ t.stallLimit ≠ s.stallLimit → ∃ g n, c = .setGlobal g n) ∧
      (t.mem ≠ s.mem →
        c = .portWriteComplete ∨ c = .commitWriteComplete ∨ c = .sequenceWriteComplete ∨ c = .fillWriteComplete) ∧
      (t.tick ≠ s.tick → c = .tick ∨ ∃ n, c = .resetPart n) ∧
      (t.syncLevels ≠ s.syncLevels → (∃ l e, c = .syncEdge l e) ∨ ∃ v w m, c = .resetRise v w m) ∧
      (t.faultLevels ≠ s.faultLevels →
        (∃ l, c = .faultEdge l) ∨ (∃ l, c = .faultLineRelease l) ∨ ∃ v w m, c = .resetRise v w m))

/-- O3. A command whose event cannot arise in the state leaves the state as it is: the rules say when each event
arises; that such a command changes nothing is the model's choice (log entry 7). (R17, R27, R32, R70, R77, R102, R134,
R141, R150, R162) -/
def Obligations.EventsThatCannotAriseChangeNothing : Prop :=
  ∀ s : State,
    (∀ p acc, s.resetLow = true ∨ (s.port p).txn.phase ≠ .idle → exec (.transactionAccept p acc) s = .next s) ∧
    ((∀ p a m x, s.mport ≠ some ⟨.port p, .write a m x⟩) → exec .portWriteComplete s = .next s) ∧
    ((∀ p a, s.mport ≠ some ⟨.port p, .read a⟩) → exec .portReadComplete s = .next s) ∧
    ((∀ d acc, s.mport = some ⟨.commit d, acc⟩ → (s.domain d).commit.phase ≠ .entryWrite) →
      exec .commitWriteComplete s = .next s) ∧
    ((∀ d acc, s.mport = some ⟨.commit d, acc⟩ → (s.domain d).commit.phase ≠ .sequenceWrite) →
      exec .sequenceWriteComplete s = .next s) ∧
    ((∀ d acc, s.mport = some ⟨.fill d, acc⟩ → (s.domain d).fill.phase ≠ .fillWrite) →
      exec .fillWriteComplete s = .next s) ∧
    ((∀ p a, s.mport ≠ some ⟨.capture p, .read a⟩) → exec .captureReadComplete s = .next s) ∧
    (∀ p, (s.port p).txn.phase ≠ .held ∨ s.waitingTime (s.port p).txn < s.stallLimit.toNat →
      exec (.stallTimeout p) s = .next s) ∧
    (∀ d, (s.domain d).state ≠ .run ∨ (s.domain d).cfg.maxInterval = 0 ∨ (s.domain d).monitorPhase ≠ .counting ∨
        (s.domain d).monitorCount ≠ (s.domain d).cfg.maxInterval →
      exec (.syncMonitorExpiry d) s = .next s) ∧
    (∀ p c, (∀ w copy t0, s.context p c = .held w copy t0 →
        (s.window w).holdLimit = 0 ∨ (s.tick - t0).toNat < (s.window w).holdLimit.toNat) →
      exec (.holdLimitExpiry p c) s = .next s) ∧
    (∀ l, (s.resetLow = true ∨ s.syncLevels[l] = true → exec (.syncEdge l .rising) s = .next s) ∧
      (s.resetLow = true ∨ s.syncLevels[l] = false → exec (.syncEdge l .falling) s = .next s)) ∧
    (∀ l, (s.resetLow = true ∨ s.faultLevels[l] = false → exec (.faultEdge l) s = .next s) ∧
      (s.resetLow = true ∨ s.faultLevels[l] = true → exec (.faultLineRelease l) s = .next s)) ∧
    (s.resetLow = true → exec .resetFall s = .next s ∧ exec .tick s = .next s) ∧
    (s.resetLow = false → ∀ v w m, exec (.resetRise v w m) s = .next s) ∧
    (s.resetLow = true ∨ s.receiver ≠ .ignoring → exec .ignoredFrameEnd s = .next s)

/-! ## Management frames -/

/-- O4. Decoding the encoded frame of a well-formed frame command gives that command; that the command keeps the
number of bits beyond its request and not their values is log entry 21. (R161, R163, R164, R166, R170, R183, R184,
R185) -/
def Obligations.DecodeOfEncodedFrame : Prop :=
  ∀ (c : Instr) (bits : List Bool), c.wellFormed = true → encodeFrame c = some bits → decodeBits bits = c

/-- O5. Every frame decodes to a well-formed command whose encoding has the frame's length and request bytes; what
follows the request is kept by its number of bits (log entry 21). (R161, R163, R164, R183, R184, R185) -/
def Obligations.EncodeOfDecodedFrame : Prop :=
  ∀ bits : List Bool,
    let frame := bytesOfBits bits
    (decodeBits bits).wellFormed = true ∧
    ∃ again, encodeFrame (decodeBits bits) = some again ∧ again.length = bits.length ∧
      (frameVerdict frame ≠ .carriedOut → bytesOfBits again = frame) ∧
      ∀ (code : Byte) (rest : List Byte) (n : Nat), frame = code :: rest → requestLength code = some n →
        frameVerdict frame = .carriedOut → (bytesOfBits again).take n = frame.take n

/-- O6. Bytes travel most significant bit first both ways: a partial byte is discarded on the way in and keeps its
leading bits on the way out. A bit is kept when MSCK has risen on it (log entry 11). (R161, R164, R166, R167) -/
def Obligations.PartialByteIsDiscarded : Prop :=
  (∀ (bytes : List Byte) (part : List Bool), part.length < 8 →
    bytesOfBits ((bytes.flatMap fun b => (List.finRange 8).map fun i => b.getMsbD i.val) ++ part) = bytes) ∧
  (∀ r : Reply, ∃ check : Byte, r.bytes = r.result.code :: r.report ++ [check] ∧ r.bytes.foldl (· + ·) 0 = 0) ∧
  ∀ (r : Reply) (n : Nat), (shiftOut (some r) n).length = n ∧
    ∀ i, i < n → (shiftOut (some r) n)[i]? = some ((r.bytes.getD (i / 8) 0).getMsbD (i % 8))

/-- O7. An unknown, short or badly checked frame only replaces the pending reply; an empty frame changes nothing of
the part and keeps it. The record of the bits that a frame shifted out, which an empty frame replaces too, is the
model's (log entry 11). (R162, R164, R167) -/
def Obligations.FrameNotCarriedOutOnlyAnswers : Prop :=
  ∀ (s : State) (code : Byte) (rest : List Byte) (part : Fin 8), s.Listening →
    let bits := 8 * (rest.length + 1) + part.val
    (requestLength code = none →
      exec (.unknownCommand (code :: rest) part) s = .next (s.replied bits (bare .unknown))) ∧
    (∀ n, requestLength code = some n → rest.length + 1 < n →
      exec (.shortFrame (code :: rest) part) s = .next (s.replied bits (bare .shortFrame))) ∧
    (∀ n, requestLength code = some n → n ≤ rest.length + 1 → byteSum ((code :: rest).take n) ≠ 0 →
      exec (.badCheck (code :: rest) part) s = .next (s.replied bits (bare .badCheck))) ∧
    exec (.emptyFrame part) s = .next { s with msdo := shiftOut s.reply part.val, receiver := .idle }

/-- O8. No frame has an effect while RESET is low or the receiver is IGNORING, and the end of an ignored frame makes
the receiver IDLE. That a frame command taken then leaves the state as it is is the model's choice (log entry 7), and
so is the end of an ignored frame as a command of its own (log entry 22). (R162, R168) -/
def Obligations.FramesIgnoredWhileLowOrIgnoring : Prop :=
  (∀ (c : Instr) (bits : List Bool) (s : State), encodeFrame c = some bits →
    s.resetLow = true ∨ s.receiver = .ignoring → exec c s = .next s) ∧
  ∀ s : State, s.resetLow = false → s.receiver = .ignoring →
    exec .ignoredFrameEnd s = .next { s with receiver := .idle }

/-- O9. NOP reports the status summary and GET_GLOBAL the settings, and both change only the pending reply. (R171,
R172, R173, R185) -/
def Obligations.StatusAndSettingsReported : Prop :=
  ∀ (s : State) (tail : Nat), s.Listening →
    exec (.nop tail) s = .next (s.replied (8 * 2 + tail) (reported
      [(s.domain 0).state.code, (s.domain 1).state.code, (s.domain 2).state.code, (s.domain 3).state.code,
        BitVec.ofNat 8 (s.entries.toList.countP Option.isSome), BitVec.ofNat 8 s.queue.length,
        (if s.faultLevels[0] then 1 else 0) + (if s.faultLevels[1] then 2 else 0)])) ∧
    exec (.getGlobal tail) s = .next (s.replied (8 * 2 + tail) (reported
      (bytes16 (s.mask.setWidth 16) ++ [if s.irqEnable then 1 else 0] ++ bytes16 (s.stallLimit.setWidth 16))))

/-- O10. GET_WINDOW, GET_SAFE, GET_DOMAIN, GET_BATCH and PEEK_STAGING report a record byte by byte or BAD_INDEX and
change only the reply. (R9, R59, R60, R83, R109, R171, R183, R184, R185, R186) -/
def Obligations.TablesAndPoolReported : Prop :=
  ∀ (s : State) (b c : Byte) (tail : Nat), s.Listening →
    let byte : Nat → Nat → Byte := fun n i => BitVec.ofNat 8 (n / 256 ^ i)
    let yes : Bool → Byte := fun x => if x then 1 else 0
    let port : Port → Byte := fun p => if p = .a then 0 else 1
    let slotState : SlotState → Byte := fun
      | .free => 0
      | .opened => 1
      | .sealed => 2
      | .committing => 3
    let domainState : DomainState → Byte := fun
      | .disabled => 0
      | .run => 1
      | .stopping => 2
      | .safing => 3
      | .safed => 4
    (15 < b.toNat → exec (.getWindow b tail) s = .next (s.replied (8 * 3 + tail) (bare .badIndex))) ∧
    (∀ i : WindowId, b.toNat = i.val →
      let w := s.window i
      let sealField : Nat := match w.sealOffset with
        | none => 0xFFFF
        | some o => o.toNat
      exec (.getWindow b tail) s = .next (s.replied (8 * 3 + tail) (reported
        [yes w.enabled, if w.kind = .staged then 0 else 1, byte w.base.toNat 2, byte w.base.toNat 1,
          byte w.base.toNat 0, byte w.length.toNat 1, byte w.length.toNat 0, byte w.domain.val 0, byte sealField 1,
          byte sealField 0, port w.writer, byte w.holdLimit.toNat 1, byte w.holdLimit.toNat 0, yes w.autoRelease]))) ∧
    (31 < b.toNat → exec (.getSafe b tail) s = .next (s.replied (8 * 3 + tail) (bare .badIndex))) ∧
    (∀ i : SafeId, b.toNat = i.val →
      let e := s.safeEntry i
      exec (.getSafe b tail) s = .next (s.replied (8 * 3 + tail) (reported
        [yes e.enabled, byte e.domain.val 0, byte e.addr.toNat 2, byte e.addr.toNat 1, byte e.addr.toNat 0,
          lane e.data 3, lane e.data 2, lane e.data 1, lane e.data 0, byte e.lanes.toNat 0]))) ∧
    (3 < b.toNat → exec (.getDomain b tail) s = .next (s.replied (8 * 3 + tail) (bare .badIndex))) ∧
    (∀ d : DomainId, b.toNat = d.val →
      let x := s.domain d
      let word : Nat := match x.cfg.sequenceWord with
        | none => 0xFFFFFF
        | some a => a.toNat
      exec (.getDomain b tail) s = .next (s.replied (8 * 3 + tail) (reported
        [port x.cfg.writer, (match x.cfg.syncLine with
            | none => 4
            | some l => byte l.val 0),
          if x.cfg.syncEdge = .rising then 0 else 1, byte x.cfg.maxInterval.toNat 1, byte x.cfg.maxInterval.toNat 0,
          if x.cfg.lossPolicy = .hold then 0 else if x.cfg.lossPolicy = .commit then 1 else 2,
          if x.cfg.exhaustion = .stall then 0 else 1,
          if x.cfg.binding = .none then 0 else if x.cfg.binding = .fault0 then 1
            else if x.cfg.binding = .fault1 then 2 else 3,
          byte word 2, byte word 1, byte word 0, yes x.cfg.notify, domainState x.state,
          slotState (s.slot d 0).state, byte (s.slot d 0).entries.length 0,
          slotState (s.slot d 1).state, byte (s.slot d 1).entries.length 0,
          slotState (s.slot d 2).state, byte (s.slot d 2).entries.length 0,
          slotState (s.slot d 3).state, byte (s.slot d 3).entries.length 0,
          byte x.commitNumber.toNat 1, byte x.commitNumber.toNat 0, byte x.lastPeriod.toNat 1,
          byte x.lastPeriod.toNat 0, byte x.longestPeriod.toNat 1, byte x.longestPeriod.toNat 0,
          byte x.monitorCount.toNat 1, byte x.monitorCount.toNat 0]))) ∧
    (3 < b.toNat ∨ 3 < c.toNat →
      exec (.getBatch b c tail) s = .next (s.replied (8 * 4 + tail) (bare .badIndex))) ∧
    (∀ (d : DomainId) (k : SlotId), b.toNat = d.val → c.toNat = k.val →
      exec (.getBatch b c tail) s = .next (s.replied (8 * 4 + tail) (reported
        ([slotState (s.slot d k).state, byte (s.slot d k).entries.length 0] ++
          match (s.slot d k).rank with
          | none => [0, 0, 0]
          | some r => [1, byte r.toNat 1, byte r.toNat 0])))) ∧
    (63 < b.toNat → exec (.peekStaging b tail) s = .next (s.replied (8 * 3 + tail) (bare .badIndex))) ∧
    ∀ i : EntryId, b.toNat = i.val →
      (s.entries[i] = none →
        exec (.peekStaging b tail) s = .next (s.replied (8 * 3 + tail) (reported (List.replicate 12 0)))) ∧
      ∀ e, s.entries[i] = some e →
        exec (.peekStaging b tail) s = .next (s.replied (8 * 3 + tail) (reported
          [1, byte e.addr.toNat 2, byte e.addr.toNat 1, byte e.addr.toNat 0, lane e.data 3, lane e.data 2,
            lane e.data 1, lane e.data 0, byte e.lanes.toNat 0, byte e.domain.val 0, byte e.slot.val 0,
            byte e.position 0]))

/-- O11. Two window records, domain records, safe entries or event records with the same report are equal. (R185,
R186, R183) -/
def Obligations.ReportsDetermineTheirRecords : Prop :=
  (∀ v w : WindowRecord, v.report = w.report → v = w) ∧
  (∀ v w : DomainRecord, v.report = w.report → v = w) ∧
  (∀ v w : SafeEntry, v.report = w.report → v = w) ∧
  ∀ v w : EventRecord, v.report = w.report → v = w

/-- O12. SET_GLOBAL checks its three fields, writes them all, and a changed stall limit ends the held writes that are
now over it; which of two comes first is free (log entry 3). (R29, R174, R175, R183) -/
def Obligations.GlobalSettingsWritten : Prop :=
  ∀ (s : State) (g : GlobalPayload) (tail : Nat), s.Listening →
    (g.stallLimit.toNat = 0 ∨ 4095 < g.stallLimit.toNat ∨ 4095 < g.mask.toNat ∨ 1 < g.irqEnable.toNat →
      exec (.setGlobal g tail) s = .next (s.replied (8 * 7 + tail) (bare .badValue))) ∧
    (0 < g.stallLimit.toNat → g.stallLimit.toNat ≤ 4095 → g.mask.toNat ≤ 4095 → g.irqEnable.toNat ≤ 1 →
      let w := { s with
        mask := g.mask.setWidth 12, stallLimit := g.stallLimit.setWidth 12, irqEnable := decide (g.irqEnable = 1)
        irq := decide (g.irqEnable = 1) && !s.queue.isEmpty }
      (g.stallLimit.toNat = s.stallLimit.toNat →
        exec (.setGlobal g tail) s = .next (w.replied (8 * 7 + tail) (bare .ok))) ∧
      (g.stallLimit.toNat ≠ s.stallLimit.toNat → ∃ (order : List Port) (n : Nat),
        order.Perm ([.a, .b].filter fun p => decide ((s.port p).txn.phase = .held ∧
          g.stallLimit.toNat ≤ s.waitingTime (s.port p).txn)) ∧
        exec (.setGlobal g tail) s =
          .next ((order.foldl State.expireHeld { w with freeCount := n }).replied (8 * 7 + tail) (bare .ok))) ∧
      (g.stallLimit.toNat = s.stallLimit.toNat → g.mask.toNat = s.mask.toNat →
        decide (g.irqEnable = 1) = s.irqEnable → s.IrqFollowsQueue →
        exec (.setGlobal g tail) s = .next (s.replied (8 * 7 + tail) (bare .ok))))

/-- O13. POP_EVENT removes the head record and reports it byte by byte, or answers EMPTY. (R152, R157, R158, R183,
R185, R186) -/
def Obligations.PopEventTakesTheHead : Prop :=
  ∀ (s : State) (tail : Nat), s.Listening →
    (s.queue = [] → exec (.popEvent tail) s = .next (s.replied (8 * 2 + tail) (bare .empty))) ∧
    ∀ r rest, s.queue = r :: rest →
      let byte : Nat → Nat → Byte := fun n i => BitVec.ofNat 8 (n / 256 ^ i)
      let bit : Bool → Nat → Nat := fun x n => if x then 2 ^ n else 0
      let addr : Nat := match r.addr with
        | none => 0
        | some a => a.toNat
      let kinds : List EventKind := [.stallTimeout, .refusedFull, .foreignWrite, .faultLock, .faultTaken, .safeDone,
        .syncOverrun, .syncLost, .commitDone, .stopDone, .snapExpired, .snapEvicted]
      let causes : List EventCause := [.exhausted, .stopping, .capture, .safeFill, .fault0, .fault1, .syncLoss]
      ∃ kind cause : Nat, kinds[kind]? = some r.kind ∧
        (match r.cause with
          | none => cause = 0
          | some x => causes[cause]? = some x) ∧
        exec (.popEvent tail) s = .next
          ({ s with queue := rest, irq := s.irqEnable && !rest.isEmpty }.replied (8 * 2 + tail) (reported
            [byte kind 0,
              byte (bit r.index.isSome 0 + bit r.port.isSome 1 + bit r.addr.isSome 2 + bit r.cause.isSome 3 +
                bit r.lost 7) 0,
              byte r.tick.toNat 3, byte r.tick.toNat 2, byte r.tick.toNat 1, byte r.tick.toNat 0,
              (match r.index with
                | none => 0
                | some i => byte i.val 0),
              (if r.port = some Port.b then 1 else 0), byte addr 2, byte addr 1, byte addr 0, byte cause 0]))

/-- O14. SET_WINDOW makes its five checks in order, stores the record and releases the HELD contexts of the index.
(R10, R11, R12, R13, R14, R183) -/
def Obligations.WindowRecordWritten : Prop :=
  ∀ (s : State) (b : Byte) (w : WindowPayload) (tail : Nat), s.Listening →
    (15 < b.toNat → exec (.setWindow b w tail) s = .next (s.replied (8 * 17 + tail) (bare .badIndex))) ∧
    ∀ i : WindowId, b.toNat = i.val →
      let outOfRange : Prop := w.enabled ≠ 0 ∧
        (1 < w.kind.toNat ∨ 4194303 < w.base.toNat + w.length.toNat - 1 ∨
          (w.kind = 0 ∧ (w.length.toNat < 1 ∨ 256 < w.length.toNat ∨ 3 < w.domain.toNat ∨
            (w.sealOffset ≠ 0xFFFF ∧ w.length.toNat ≤ w.sealOffset.toNat))) ∨
          (w.kind = 1 ∧ (w.length.toNat < 2 ∨ 16 < w.length.toNat ∨ 1 < w.writerPort.toNat)))
      let live : WindowRecord → Prop := fun v =>
        v.enabled = true ∧ v.kind = .staged ∧ (s.domain v.domain).state ≠ .disabled
      let captured : Prop := ∃ p c copy phase, s.context p c = .capturing i copy phase
      let meets : Prop := w.stored.enabled = true ∧
        ((∃ j, j ≠ i ∧ (s.window j).enabled = true ∧
            (s.window j).base.toNat < w.stored.base.toNat + w.stored.length.toNat ∧
            w.stored.base.toNat < (s.window j).base.toNat + (s.window j).length.toNat) ∨
          ∃ d q, (s.domain d).state ≠ .disabled ∧ (s.domain d).cfg.sequenceWord = some q ∧
            w.stored.base.toNat ≤ q.toNat ∧ q.toNat < w.stored.base.toNat + w.stored.length.toNat)
      (outOfRange → exec (.setWindow b w tail) s = .next (s.replied (8 * 17 + tail) (bare .badValue))) ∧
      (¬ outOfRange → live (s.window i) ∨ live w.stored ∨ captured →
        exec (.setWindow b w tail) s = .next (s.replied (8 * 17 + tail) (bare .busy))) ∧
      (¬ outOfRange → ¬ live (s.window i) → ¬ live w.stored → ¬ captured → meets →
        exec (.setWindow b w tail) s = .next (s.replied (8 * 17 + tail) (bare .overlap))) ∧
      (¬ outOfRange → ¬ live (s.window i) → ¬ live w.stored → ¬ captured → ¬ meets →
        let release : PortUnit → PortUnit := fun u => { u with contexts := u.contexts.map fun x =>
          match x with
          | .held v copy t0 => if v = i then .idle else .held v copy t0
          | .capturing v copy phase => .capturing v copy phase
          | .idle => .idle }
        exec (.setWindow b w tail) s = .next ({ s with
          windows := s.windows.set i w.stored, portA := release s.portA, portB := release s.portB }.replied
            (8 * 17 + tail) (bare .ok)))

/-- O15. SET_WINDOW stores the fields of the record's kind as given and those of the other kind at their zero values.
(R14, R183) -/
def Obligations.StoredWindowRecord : Prop :=
  ∀ w : WindowPayload,
    (w.kind = 1 → w.stored =
      { enabled := decide (w.enabled ≠ 0), kind := .snapshot, base := w.base.setWidth 22
        length := w.length.setWidth 9, domain := 0, sealOffset := none
        writer := if w.writerPort = 1 then .b else .a, holdLimit := w.holdLimit
        autoRelease := decide (w.autoRelease ≠ 0) }) ∧
    (w.kind ≠ 1 → w.stored =
      { enabled := decide (w.enabled ≠ 0), kind := .staged, base := w.base.setWidth 22
        length := w.length.setWidth 9, domain := ⟨w.domain.toNat % 4, Nat.mod_lt _ (by decide)⟩
        sealOffset := if w.sealOffset = 0xFFFF then none else some (w.sealOffset.setWidth 8)
        writer := .a, holdLimit := 0, autoRelease := false })

/-- O16. SET_DOMAIN makes its three checks in order and writes the whole record of a DISABLED domain. (R81, R82, R183)
-/
def Obligations.DomainRecordWritten : Prop :=
  ∀ (s : State) (b : Byte) (r : DomainPayload) (tail : Nat), s.Listening →
    (3 < b.toNat → exec (.setDomain b r tail) s = .next (s.replied (8 * 15 + tail) (bare .badIndex))) ∧
    ∀ d : DomainId, b.toNat = d.val →
      let outOfRange : Prop := 1 < r.writerPort.toNat ∨ 4 < r.syncLine.toNat ∨ 1 < r.syncEdge.toNat ∨
        2 < r.lossPolicy.toNat ∨ 1 < r.exhaustionPolicy.toNat ∨ 3 < r.faultBinding.toNat ∨
        (r.sequenceWord ≠ 0xFFFFFF ∧ 4194303 < r.sequenceWord.toNat)
      (outOfRange → exec (.setDomain b r tail) s = .next (s.replied (8 * 15 + tail) (bare .badValue))) ∧
      (¬ outOfRange → (s.domain d).state ≠ .disabled →
        exec (.setDomain b r tail) s = .next (s.replied (8 * 15 + tail) (bare .busy))) ∧
      (¬ outOfRange → (s.domain d).state = .disabled →
        exec (.setDomain b r tail) s = .next ((s.setDomain d { s.domain d with cfg :=
          { writer := if r.writerPort = 0 then .a else .b
            syncLine := if h : r.syncLine.toNat < 4 then some ⟨r.syncLine.toNat, h⟩ else none
            syncEdge := if r.syncEdge = 0 then .rising else .falling
            maxInterval := r.maxInterval
            lossPolicy := if r.lossPolicy = 0 then .hold else if r.lossPolicy = 1 then .commit else .safe
            exhaustion := if r.exhaustionPolicy = 0 then .stall else .refuse
            binding := if r.faultBinding = 0 then .none else if r.faultBinding = 1 then .fault0
              else if r.faultBinding = 2 then .fault1 else .both
            sequenceWord := if r.sequenceWord = 0xFFFFFF then none else some (r.sequenceWord.setWidth 22)
            notify := decide (r.notifyCommits ≠ 0) } }).replied (8 * 15 + tail) (bare .ok)))

/-- O17. SET_SAFE makes its three checks in order and writes the entry with 0 in the lanes outside its mask. That a
domain which a fault has taken to SAFED at once does not refuse it is the model's choice (log entry 28). (R108, R112)
-/
def Obligations.SafeEntryWritten : Prop :=
  ∀ (s : State) (b : Byte) (e : SafePayload) (tail : Nat), s.Listening →
    (31 < b.toNat → exec (.setSafe b e tail) s = .next (s.replied (8 * 13 + tail) (bare .badIndex))) ∧
    ∀ i : SafeId, b.toNat = i.val →
      let mask : Lanes := e.lanes.setWidth 4
      let outOfRange : Prop := 3 < e.domain.toNat ∨ 4194303 < e.addr.toNat ∨ (e.enabled ≠ 0 ∧ mask = 0)
      (outOfRange → exec (.setSafe b e tail) s = .next (s.replied (8 * 13 + tail) (bare .badValue))) ∧
      (¬ outOfRange → ∀ d : DomainId, e.domain.toNat = d.val →
        ((s.domain (s.safeEntry i).domain).state = .safing ∨ (s.domain d).state = .safing →
          exec (.setSafe b e tail) s = .next (s.replied (8 * 13 + tail) (bare .busy))) ∧
        ((s.domain (s.safeEntry i).domain).state ≠ .safing → (s.domain d).state ≠ .safing →
          ∃ entry : SafeEntry, entry.enabled = decide (e.enabled ≠ 0) ∧ entry.domain = d ∧
            entry.addr = e.addr.setWidth 22 ∧ entry.lanes = mask ∧
            (∀ l, lane entry.data l = if mask.getLsbD l.val then lane e.data l else 0) ∧
            exec (.setSafe b e tail) s =
              .next ({ s with safe := s.safe.set i entry }.replied (8 * 13 + tail) (bare .ok))))

/-- O18. START and ARM make their checks in order and move a domain from DISABLED to RUN and from SAFED to DISABLED.
(R64, R118) -/
def Obligations.DomainStartedAndArmed : Prop :=
  ∀ (s : State) (b : Byte) (tail : Nat), s.Listening →
    (3 < b.toNat → exec (.start b tail) s = .next (s.replied (8 * 3 + tail) (bare .badIndex)) ∧
      exec (.arm b tail) s = .next (s.replied (8 * 3 + tail) (bare .badIndex))) ∧
    ∀ d : DomainId, b.toNat = d.val →
      let x := s.domain d
      let faultActive : Prop :=
        ((x.cfg.binding = .fault0 ∨ x.cfg.binding = .both) ∧ s.faultLevels[0] = false) ∨
        ((x.cfg.binding = .fault1 ∨ x.cfg.binding = .both) ∧ s.faultLevels[1] = false)
      let inWindow : Prop := ∃ q i, x.cfg.sequenceWord = some q ∧ s.InWindow i q
      (x.state ≠ .disabled → exec (.start b tail) s = .next (s.replied (8 * 3 + tail) (bare .state))) ∧
      (x.state = .disabled → faultActive →
        exec (.start b tail) s = .next (s.replied (8 * 3 + tail) (bare .faultActive))) ∧
      (x.state = .disabled → ¬ faultActive → inWindow →
        exec (.start b tail) s = .next (s.replied (8 * 3 + tail) (bare .badValue))) ∧
      (x.state = .disabled → ¬ faultActive → ¬ inWindow →
        exec (.start b tail) s = .next ((s.setDomain d { x with
          state := .run, periodCount := 0, monitorCount := 0, lastPeriod := 0, longestPeriod := 0
          monitorPhase := .counting }).replied (8 * 3 + tail) (bare .ok))) ∧
      (x.state ≠ .safed → exec (.arm b tail) s = .next (s.replied (8 * 3 + tail) (bare .state))) ∧
      (x.state = .safed → faultActive →
        exec (.arm b tail) s = .next (s.replied (8 * 3 + tail) (bare .faultActive))) ∧
      (x.state = .safed → ¬ faultActive →
        exec (.arm b tail) s = .next
          ((s.setDomain d { x with state := .disabled }).replied (8 * 3 + tail) (bare .ok)))

/-- O19. SEAL seals the OPEN batch of a RUN domain with the next seal rank. (R44, R68) -/
def Obligations.SealSealsTheOpenBatch : Prop :=
  ∀ (s : State) (b : Byte) (tail : Nat), s.Listening →
    (3 < b.toNat → exec (.sealBatch b tail) s = .next (s.replied (8 * 3 + tail) (bare .badIndex))) ∧
    ∀ d : DomainId, b.toNat = d.val →
      ((s.domain d).state ≠ .run → exec (.sealBatch b tail) s = .next (s.replied (8 * 3 + tail) (bare .state))) ∧
      ((s.domain d).state = .run → (∀ k, (s.slot d k).state ≠ .opened) →
        exec (.sealBatch b tail) s = .next (s.replied (8 * 3 + tail) (bare .empty))) ∧
      ∀ k, (s.domain d).state = .run → (s.slot d k).state = .opened →
        (∀ j, (s.slot d j).state = .opened → j = k) →
        exec (.sealBatch b tail) s = .next ((s.slotSealed d k).replied (8 * 3 + tail) (bare .ok))

/-- O20. STOP discards the OPEN batch of a RUN domain and waits for its commit, starts the next, or disables the
domain. (R48, R52, R53, R65, R66, R67) -/
def Obligations.StopEndsAtTheLastBatch : Prop :=
  ∀ (s : State) (b : Byte) (tail : Nat), s.Listening →
    (3 < b.toNat → exec (.stop b tail) s = .next (s.replied (8 * 3 + tail) (bare .badIndex))) ∧
    ∀ d : DomainId, b.toNat = d.val →
      ((s.domain d).state = .stopping → exec (.stop b tail) s = .next (s.replied (8 * 3 + tail) (bare .busy))) ∧
      ((s.domain d).state = .disabled ∨ (s.domain d).state = .safing ∨ (s.domain d).state = .safed →
        exec (.stop b tail) s = .next (s.replied (8 * 3 + tail) (bare .state))) ∧
      ((s.domain d).state = .run →
        ∀ u v : State,
          ((∀ w ∈ s.waiting, w.domain ≠ d) ∧ u = s) ∨
            (∃ w ∈ s.waiting, w.domain = d ∧ (∀ x ∈ s.waiting, x.domain = d → x = w) ∧
              u = { s.setPort w.port { s.port w.port with
                      txn := { (s.port w.port).txn with cause := some .stopping } } with
                    waiting := s.waiting.filter fun x => x.port ≠ w.port }) →
          (v = u.setDomain d { s.domain d with state := .stopping, monitorPhase := .stopped } ∧
              ∀ k, (s.slot d k).state ≠ .opened) ∨
            (∃ k, (s.slot d k).state = .opened ∧ (∀ j, (s.slot d j).state = .opened → j = k) ∧
              v = { (u.setDomain d { s.domain d with
                      state := .stopping, monitorPhase := .stopped, slots := (s.domain d).slots.set k .vacant }) with
                    entries := s.entriesFreed d k }) →
          let t := v.waiting.foldl State.examineWaiter v
          ((∃ k, (s.slot d k).state = .committing) →
            exec (.stop b tail) s = .next (t.arbitrate.replied (8 * 3 + tail) (bare .accepted))) ∧
          (∀ k, (∀ j, (s.slot d j).state ≠ .committing) → s.IsOldestSealed d k →
            exec (.stop b tail) s = .next ({ (t.setDomain d ((t.domain d).committing k)) with
              startOrder := s.startOrder ++ [d] }.arbitrate.replied (8 * 3 + tail) (bare .accepted))) ∧
          ((∀ j, (s.slot d j).state ≠ .committing ∧ (s.slot d j).state ≠ .sealed) → s.WindowsApart →
            let p := (s.domain d).cfg.writer
            let ended := (t.setDomain d { t.domain d with state := .disabled }).raise (.stopDone d)
            let waits : Prop := (t.port p).txn.phase = .held ∧ (t.port p).txn.cause = some .stopping ∧
              ∃ i, s.InWindow i (accessAddr (t.port p).txn.access) ∧ (s.window i).kind = .staged ∧
                (s.window i).domain = d
            (waits → exec (.stop b tail) s =
              .next ((ended.reclassify p).arbitrate.replied (8 * 3 + tail) (bare .accepted))) ∧
            (¬ waits → exec (.stop b tail) s =
              .next (ended.arbitrate.replied (8 * 3 + tail) (bare .accepted)))))

/-- O21. A STOP holds the domain's waiting write under STOPPING, lets it go when nothing is left to commit, and grants
the other port's waiter. (R26, R48, R53, R65, R66, R67) -/
def Obligations.StopTurnsTheWaiterIntoAStoppingHold : Prop :=
  ∀ (s : State) (b : Byte) (tail : Nat) (d : DomainId), s.Listening → s.BatchLaw → b.toNat = d.val →
    (s.domain d).state = .run →
    ∃ t, exec (.stop b tail) s = .next t ∧ t.reply = some (bare .accepted) ∧
      (∀ w ∈ s.waiting, w.domain = d →
        (∀ v ∈ t.waiting, v.port ≠ w.port) ∧
        ((∃ k, (s.slot d k).state = .committing ∨ (s.slot d k).state = .sealed) →
          (t.domain d).state = .stopping ∧
          (∀ k, (∀ j, (s.slot d j).state ≠ .committing) → s.IsOldestSealed d k →
            (t.slot d k).state = .committing ∧ d ∈ t.startOrder) ∧
          (t.port w.port).txn = { (s.port w.port).txn with cause := some .stopping }) ∧
        ((∀ k, (s.slot d k).state ≠ .committing ∧ (s.slot d k).state ≠ .sealed) → s.WindowsApart →
          ∀ a m x, (s.port w.port).txn.access = .write a m x → (∀ e, ¬ s.NamedBySafing e a) →
          (∃ i, s.InWindow i a ∧ (s.window i).kind = .staged ∧ (s.window i).domain = d) →
          (t.domain d).state = .disabled ∧
          ∃ phase, (phase = .request ∨ phase = .memory) ∧
            (t.port w.port).txn = { (s.port w.port).txn with phase := phase, cause := none })) ∧
      ∀ v ∈ s.waiting, v.domain ≠ d → (∀ w ∈ s.waiting, w.domain = d ∨ w = v) →
        (∃ k, (s.slot d k).state = .opened ∧ (s.slot d k).entries ≠ []) →
        (∃ k, (s.slot v.domain k).state = .opened ∨ (s.slot v.domain k).state = .free) →
        (t.port v.port).txn = {} ∧ (t.port v.port).ready = true ∧
          (t.port v.port).response = some .okayWrite ∧ ∀ w ∈ t.waiting, w.port ≠ v.port

/-! ## Reset -/

/-- O22. Right after power-on reset every block stands at its power-on values (R1, R18, R32, R33, R35, R38, R55, R61,
R62, R86, R89, R107, R110, R111, R121, R123, R126, R139, R141, R150, R160, R168, R173). That no command waits is the
model's choice (log entry 17). (01_windows_and_access_classification.md, 02_port_transactions.md,
03_staging_pool_and_batches.md, 04_sync_domains.md, 05_commit_engine.md, 06_fault_lines_and_safe_fill.md,
07_snapshot_windows.md, 08_memory_port_and_arbiter.md, 09_events_timebase_and_interrupt.md, 10_management_port.md) -/
def Obligations.ResetLeavesPowerOnValues : Prop :=
  let s := State.reset
  s.resetLow = false ∧ s.tick = 0 ∧
  (∀ p, (s.port p).txn.phase = .idle ∧ (s.port p).txn.cause = none ∧ (s.port p).txn.startTick = none ∧
    (s.port p).ready = true ∧ (∀ c, s.context p c = .idle) ∧ (s.port p).lru = 0) ∧
  (∀ i, s.window i = { enabled := false, kind := .staged, base := 0, length := 0, domain := 0, sealOffset := none
                       writer := .a, holdLimit := 0, autoRelease := false }) ∧
  (∀ i : EntryId, s.entries[i] = none) ∧ s.waiting = [] ∧
  (∀ d, (s.domain d).cfg = { writer := .a, syncLine := none, syncEdge := .rising, maxInterval := 0
                             lossPolicy := .hold, exhaustion := .stall, binding := .none, sequenceWord := none
                             notify := false } ∧
    (s.domain d).state = .disabled ∧ (∀ k, s.slot d k = { state := .free, entries := [], rank := none }) ∧
    (s.domain d).sealCount = 0 ∧ (s.domain d).commitNumber = 0 ∧ (s.domain d).lastPeriod = 0 ∧
    (s.domain d).longestPeriod = 0 ∧ (s.domain d).periodCount = 0 ∧ (s.domain d).monitorCount = 0 ∧
    (s.domain d).monitorPhase = .stopped ∧ (s.domain d).commit.phase = .idle ∧ (s.domain d).fill.phase = .idle) ∧
  s.startOrder = [] ∧ s.fillOrder = [] ∧ s.captureOrder = [] ∧
  (∀ i, s.safeEntry i = { enabled := false, domain := 0, addr := 0, data := 0, lanes := 0 }) ∧
  s.mport = none ∧ s.lastPort = .b ∧ s.queue = [] ∧ s.irq = false ∧ s.mask = 0xFFF ∧ s.irqEnable = false ∧
  s.stallLimit = 100 ∧ s.reply = some { result := .none, report := [] } ∧ s.pending = []

/-- O23. The laws that every step keeps hold right after reset. (R13, R18, R37, R40, R63, R129, R158) -/
def Obligations.LawsHoldAtReset : Prop :=
  let s := State.reset
  s.MemoryCanonical ∧ s.IrqFollowsQueue ∧ s.WindowsApart ∧ s.LimitInRange ∧ s.ReadyFollowsRecord ∧ s.QuietWhileLow ∧
    s.PoolLaw ∧ s.BatchLaw ∧ s.CaptureLaw

/-- O24. A fall of RESET puts every block at its power-on values, and its rise opens the ports and takes the starting
levels. That a granted write may land is log entry 4. The receiver that is IDLE while RESET is low (log entry 27), the
line levels that stay as last taken (log entry 14), the waiting commands that stay (log entry 1), the MSDO bits that
are none (log entry 11), the response that no port keeps (log entry 12), the fields of the model's own that are empty
(log entry 17) and the defaults of fields that hold nothing meaningful (log entry 18) are the model's choices. (R32,
R55, R85, R101, R120, R139, R149, R160, R168, R162) -/
def Obligations.ResetLineFallsAndRises : Prop :=
  (∀ s : State, s.resetLow = false →
    ∃ (m : List Host.Cell) (n : Nat),
      (m = s.mem ∨ ∃ r a k x, s.mport = some ⟨r, .write a k x⟩ ∧ m = Memory.writeWord s.mem a k x) ∧
      exec .resetFall s = .next
        { resetLow := true, tick := 0, portA := { ready := false }, portB := { ready := false }
          windows := Vector.replicate 16 {}, entries := Vector.replicate 64 none, waiting := []
          domains := Vector.replicate 4 {}, startOrder := [], expiryStarts := [], safe := Vector.replicate 32 {}
          fillOrder := [], captureOrder := [], mport := none, lastPort := .b, queue := []
          irq := false, mask := 0xFFF, irqEnable := false, stallLimit := 100, syncLevels := s.syncLevels
          faultLevels := s.faultLevels, receiver := .idle, reply := none, msdo := [], mem := m, freeCount := n
          pending := s.pending }) ∧
  ∀ (s : State) (sync : Vector Bool 4) (fault : Vector Bool 2) (mcs : Bool), s.resetLow = true →
    exec (.resetRise sync fault mcs) s = .next { s with
      resetLow := false, portA := { s.portA with ready := true }, portB := { s.portB with ready := true }
      syncLevels := sync, faultLevels := fault, receiver := if mcs then .idle else .ignoring
      reply := some { result := .none, report := [] } }

/-- O25. RESET_PART is refused while a domain stops, fills or commits, and otherwise ends all work and keeps the
tables. That a domain which a fault has taken to SAFED at once does not refuse it is the model's choice (log entry
28). (R31, R55, R84, R101, R119, R138, R148, R159, R177, R178) -/
def Obligations.SoftResetEndsTheWork : Prop :=
  ∀ (s : State) (tail : Nat), s.Listening →
    let busy : Prop := ∃ d, (s.domain d).state = .stopping ∨ (s.domain d).state = .safing ∨
      ∃ k, (s.slot d k).state = .committing
    let ended : PortUnit → PortUnit := fun u =>
      if u.txn.phase = .idle ∨ u.txn.phase = .memory then
        { u with contexts := Vector.replicate 2 .idle, lru := 0 }
      else
        { txn := {}, ready := true, contexts := Vector.replicate 2 .idle, lru := 0
          response := some (match u.txn.access with
            | .read _ => .errorRead
            | .write _ _ _ => .errorWrite) }
    (busy → exec (.resetPart tail) s = .next (s.replied (8 * 2 + tail) (bare .busy))) ∧
    (¬ busy → exec (.resetPart tail) s = .next ({ s with
      tick := 0, portA := ended s.portA, portB := ended s.portB, entries := Vector.replicate 64 none, waiting := []
      domains := s.domains.map fun x : Domain =>
        { cfg := x.cfg, state := if x.state = DomainState.run then DomainState.disabled else x.state }
      startOrder := [], expiryStarts := [], fillOrder := [], captureOrder := [], queue := []
      irq := false }.replied (8 * 2 + tail) (bare .ok)))

/-! ## Laws that every step keeps -/

/-- O26. Every step keeps the SRAM's list of cells in canonical form. (R140) -/
def Obligations.StepKeepsMemoryCanonical : Prop :=
  ∀ s t : State, s.MemoryCanonical → step s = .next t → t.MemoryCanonical

/-- O27. Every step keeps Law 11: at most 16 records, IRQ asserted exactly when the queue is not empty and the enable
is on. (R155, R156, R158) -/
def Obligations.StepKeepsIrqFollowsQueue : Prop :=
  ∀ s t : State, s.IrqFollowsQueue → step s = .next t → t.IrqFollowsQueue

/-- O28. Every step keeps enabled windows apart and the stall limit in 1 to 4095. (R10, R13, R27, R173, R174) -/
def Obligations.StepKeepsWindowsApartAndTheLimitInRange : Prop :=
  (∀ s t : State, s.WindowsApart → step s = .next t → t.WindowsApart) ∧
  ∀ s t : State, s.LimitInRange → step s = .next t → t.LimitInRange

/-- O29. Every step keeps READY following the transaction records, and power-on values while RESET is low. The
receiver that is IDLE while RESET is low (log entry 27), the MSDO record that is empty then (log entry 11), the
response that a port does not keep then or in a transaction in progress (log entry 12), the fields of the model's own
that are empty then (log entry 17) and the defaults of fields that hold nothing meaningful (log entry 18) are the
model's choices. (R1, R17, R19, R32, R55, R85, R101, R120, R139, R149, R160, R168) -/
def Obligations.StepKeepsReadyAndReset : Prop :=
  ∀ s t : State, s.ReadyFollowsRecord → s.QuietWhileLow → step s = .next t → t.ReadyFollowsRecord ∧ t.QuietWhileLow

/-- O30. Every step keeps Laws 1 and 2 of the staging pool, one OPEN batch at most in a domain, and the shape of
batches. Law 3's other bound, one COMMITTING batch, stands in O31 (Domain.BatchLaw.inFlight). (R34, R35, R36, R37,
R40, R41, R51, R52) -/
def Obligations.StepKeepsPoolLaw : Prop :=
  ∀ s t : State, s.PoolLaw → step s = .next t → t.PoolLaw

/-- O31. Every step keeps Law 4: which batches a domain may hold in each of its states. (R37, R47, R63, R86) -/
def Obligations.StepKeepsBatchLaw : Prop :=
  ∀ s t : State, s.BatchLaw → step s = .next t → t.BatchLaw

/-- O32. Every step keeps Law 9: no writer-port write is on its way into a window whose capture reads. (R12, R122,
R126, R129) -/
def Obligations.StepKeepsCaptureLaw : Prop :=
  ∀ s t : State, s.CaptureLaw → step s = .next t → t.CaptureLaw

/-- O33. A commit number changes only by rising by one at the completion of its domain's commit and by returning to 0
at a reset. (R87, R93, R94) -/
def Obligations.CommitNumbersFollowCommits : Prop :=
  ∀ (c : Instr) (s t : State) (d : DomainId), exec c s = .next t →
    (t.domain d).commitNumber = (s.domain d).commitNumber ∨
    ((t.domain d).commitNumber = (s.domain d).commitNumber + 1 ∧ (∃ acc, s.mport = some ⟨.commit d, acc⟩) ∧
      ((c = .commitWriteComplete ∧ (s.domain d).commit.phase = .entryWrite ∧
          (s.domain d).commit.entryCount ≤ (s.domain d).commit.next + 1 ∧ (s.domain d).cfg.sequenceWord = none) ∨
        (c = .sequenceWriteComplete ∧ (s.domain d).commit.phase = .sequenceWrite))) ∨
    ((t.domain d).commitNumber = 0 ∧ (c = .resetFall ∨ ∃ n, c = .resetPart n))

/-! ## Events, the arbiter -/

/-- O34. An event of a disabled kind is discarded, one of an enabled kind joins the queue, and at a full queue it
marks the tail. (R152, R154, R155, R156) -/
def Obligations.QueueTakesAnEvent : Prop :=
  ∀ (s : State) (e : Event),
    (s.mask.getLsbD e.kind.code = false → s.raise e = s) ∧
    (s.mask.getLsbD e.kind.code = true → s.queue.length < 16 →
      s.raise e = { s with irq := s.irqEnable, queue := s.queue ++ [{ kind := e.kind, tick := s.tick, index := e.index
                                                                      port := e.port, addr := e.addr, cause := e.cause
                                                                      lost := false }] }) ∧
    ∀ front tail, s.mask.getLsbD e.kind.code = true → s.queue = front ++ [tail] → 16 ≤ s.queue.length →
      s.raise e = { s with irq := s.irqEnable, queue := front ++ [{ tail with lost := true }] }

/-- O35. At a free point the arbiter grants the lowest class and the first in that class's order, and never takes a
grant back. (R22, R23, R89, R111, R126, R141, R142, R143, R144, R145) -/
def Obligations.ArbiterGrantsTheBestClaim : Prop :=
  ∀ s : State,
    (∀ p, s.request (.port p) = if (s.port p).txn.phase = .request then some (s.port p).txn.access else none) ∧
    s.arbiterOrder = s.fillOrder.map .fill ++ s.startOrder.map .commit ++ s.captureOrder.map .capture ++
      [.port s.lastPort.other, .port s.lastPort] ∧
    (∀ g, s.mport = some g → s.arbitrate = s) ∧
    ((∀ r ∈ s.arbiterOrder, s.request r = none) → s.arbitrate = s) ∧
    ∀ r acc before after, s.mport = none → s.arbiterOrder = before ++ r :: after →
      (∀ q ∈ before, s.request q = none) → s.request r = some acc →
      s.arbitrate.mport = some ⟨r, acc⟩ ∧
      (∀ q ∈ s.arbiterOrder, s.request q ≠ none → r.classNumber ≤ q.classNumber) ∧
      match r with
      | .fill d => (s.arbitrate.domain d).fill = { (s.domain d).fill with phase := .fillWrite } ∧
          s.arbitrate.lastPort = s.lastPort
      | .commit d => (s.arbitrate.domain d).commit = { (s.domain d).commit with
            phase := if (s.domain d).commit.phase = .entryRequest then .entryWrite else .sequenceWrite } ∧
          s.arbitrate.lastPort = s.lastPort
      | .capture p => (∀ c w copy, s.context p c = .capturing w copy .readRequest →
            s.arbitrate.context p c = .capturing w copy .read) ∧ s.arbitrate.lastPort = s.lastPort
      | .port p => (s.arbitrate.port p).txn = { (s.port p).txn with phase := .memory } ∧
          s.arbitrate.lastPort = p ∧ (p = s.lastPort → s.portRequest p.other = none)

/-! ## Classification and the value of a read -/

/-- O36. A write and a read take the outcome that the tables of R4, R5 and R6 give. That a write to the sequence word
of a SAFING domain takes them too where the word lies in an enabled window is the model's choice (log entry 25): R182
calls that write plain. (R2, R3, R4, R5, R6) -/
def Obligations.AccessesAreClassified : Prop :=
  ∀ (s : State) (p : Port) (a : Addr), s.WindowsApart →
    let locked : DomainId → Prop := fun d => s.NamedBySafing d a ∧ (s.domain d).cfg.writer = p ∧
      ∃ i, s.InWindow i a ∧ (s.window i).kind = .staged ∧ (s.window i).domain = d
    (∀ d, locked d → s.classifyWrite p a = .faultLock d) ∧
    ((∃ d, s.NamedBySafing d a) → (∀ d, ¬ locked d) → s.classifyWrite p a = .hold .safeFill) ∧
    ((∀ d, ¬ s.NamedBySafing d a) →
      ((∀ i, ¬ s.InWindow i a) → s.classifyWrite p a = .plain) ∧
      ∀ i, s.InWindow i a →
        ((s.window i).kind = .staged →
          let x := s.domain (s.window i).domain
          (x.cfg.writer ≠ p → s.classifyWrite p a = .foreignWrite i) ∧
          (x.cfg.writer = p →
            (x.state = .disabled → s.classifyWrite p a = .plain) ∧
            (x.state = .run → ∃ seals : Bool, s.classifyWrite p a = .stage (s.window i).domain seals ∧
              (seals = true ↔ ∃ o, (s.window i).sealOffset = some o ∧ a.toNat = (s.window i).base.toNat + o.toNat)) ∧
            (x.state = .stopping → s.classifyWrite p a = .hold .stopping) ∧
            (x.state = .safing ∨ x.state = .safed → s.classifyWrite p a = .faultLock (s.window i).domain))) ∧
        ((s.window i).kind = .snapshot →
          let captured : Prop := ∃ c copy phase, s.context p.other c = .capturing i copy phase
          ((s.window i).writer = p → captured → s.classifyWrite p a = .hold .capture) ∧
          ((s.window i).writer = p → ¬ captured → s.classifyWrite p a = .plain) ∧
          ((s.window i).writer ≠ p → s.classifyWrite p a = .plain))) ∧
    ((∀ i, ¬ s.InWindow i a) → s.classifyRead p a = .memory) ∧
    ∀ i, s.InWindow i a →
      ((s.window i).kind = .staged ∨ (s.window i).writer = p → s.classifyRead p a = .memory) ∧
      ((s.window i).kind = .snapshot → (s.window i).writer ≠ p →
        (a = (s.window i).base → s.classifyRead p a = .capture i) ∧
        (a ≠ (s.window i).base →
          ((∀ c copy t0, s.context p c ≠ .held i copy t0) → s.classifyRead p a = .memory) ∧
          ∀ c copy t0, s.context p c = .held i copy t0 → (∀ e, e < c → ∀ l u, s.context p e ≠ .held i l u) →
            s.classifyRead p a = .serve i c))

/-- O37. A foreign-port memory read answers the same whatever OPEN and SEALED batches hold (Law 6). (R5, R57, R58) -/
def Obligations.ForeignReadSeesNoStagedBytes : Prop :=
  ∀ (s t : State) (p : Port) (a : Addr) (i : WindowId) (d : DomainId),
    s.mport = some ⟨.port p, .read a⟩ → t.mport = some ⟨.port p, .read a⟩ →
    s.WindowsApart → s.InWindow i a → (s.window i).kind = .staged → (s.window i).domain = d →
    (s.domain d).cfg.writer ≠ p → (t.domain d).cfg.writer = (s.domain d).cfg.writer →
    t.windows = s.windows → t.safe = s.safe → t.mem = s.mem →
    (∀ e, (t.domain e).state = (s.domain e).state) →
    (∀ k, (s.slot d k).state = .committing ∨ (t.slot d k).state = .committing →
      t.slot d k = s.slot d k ∧ ∀ j ∈ (s.slot d k).entries, t.entries[j] = s.entries[j]) →
    ∃ s' t', exec .portReadComplete s = .next s' ∧ exec .portReadComplete t = .next t' ∧
      (t'.port p).response = (s'.port p).response

/-- O38. The writer port of a RUN or STOPPING domain reads, lane by lane, the byte of the newest batch that stages it.
(R5, R38, R56) -/
def Obligations.WriterReadsItsNewestBytes : Prop :=
  ∀ (s : State) (p : Port) (a : Addr) (i : WindowId) (d : DomainId) (l : Fin 4), s.WindowsApart → s.InWindow i a →
    (s.window i).kind = .staged → (s.window i).domain = d → (s.domain d).cfg.writer = p →
    (s.domain d).state = .run ∨ (s.domain d).state = .stopping → (∀ e, ¬ s.NamedBySafing e a) →
    let order := s.slotsIn d .committing ++ s.sealedOldestFirst d ++ s.slotsIn d .opened
    let stages : SlotId → StagingEntry → Prop := fun k e =>
      ∃ j, s.entryFor d k a = some j ∧ s.entries[j] = some e ∧ e.lanes.getLsbD l.val = true
    (∀ k, k ∈ s.sealedOldestFirst d ↔ (s.slot d k).state = .sealed) ∧
    (s.sealedOldestFirst d).Pairwise (fun j k => s.sealAge d k ≤ s.sealAge d j) ∧
    (∀ older k newer e, order = older ++ k :: newer → stages k e → (∀ m ∈ newer, ∀ f, ¬ stages m f) →
      lane (s.readValue p a) l = lane e.data l) ∧
    ((∀ k ∈ order, ∀ e, ¬ stages k e) → lane (s.readValue p a) l = Memory.readLane s.mem a l)

/-- O39. A lane that an enabled safe entry of a SAFING domain names is read as that entry's byte, the highest entry
winning. (R6, R23, R114) -/
def Obligations.SafeOverlayComesLast : Prop :=
  ∀ (s : State) (p : Port) (a : Addr) (l : Fin 4) (i : SafeId),
    let gives : SafeId → Prop := fun j => (s.safeEntry j).enabled = true ∧ (s.safeEntry j).addr = a ∧
      (s.domain (s.safeEntry j).domain).state = .safing ∧ (s.safeEntry j).lanes.getLsbD l.val = true
    gives i → (∀ j, i < j → ¬ gives j) → lane (s.readValue p a) l = lane (s.safeEntry i).data l

/-! ## Host ports -/

/-- O40. A write that enables no lane is answered OKAY at its acceptance and changes nothing else. (R21) -/
def Obligations.ZeroLaneWriteAnsweredAtOnce : Prop :=
  ∀ (s : State) (p : Port) (a : Addr) (x : Word), s.resetLow = false → (s.port p).txn.phase = .idle →
    exec (.transactionAccept p (.write a 0 x)) s =
      .next (s.setPort p { s.port p with txn := {}, ready := true, response := some .okayWrite })

/-- O41. A plain write or memory read requests the M-port, a held write waits, a refused one is answered ERROR, and so
again at the release of a hold. (R7, R8, R17, R19, R22, R23, R25, R26, R67, R115, R129, R187) -/
def Obligations.ClassifiedAccessRequestsWaitsOrIsRefused : Prop :=
  (∀ (s : State) (p : Port) (a : Addr) (m : Lanes) (x : Word), s.resetLow = false → (s.port p).txn.phase = .idle →
    (s.classifyRead p a = .memory → exec (.transactionAccept p (.read a)) s = .next
      (s.setPort p { s.port p with
        txn := { phase := .request, access := .read a }, ready := false, response := none }).arbitrate) ∧
    (m ≠ 0 →
      (s.classifyWrite p a = .plain → exec (.transactionAccept p (.write a m x)) s = .next
        (s.setPort p { s.port p with
          txn := { phase := .request, access := .write a m x }, ready := false, response := none }).arbitrate) ∧
      (∀ c, 0 < s.stallLimit.toNat → s.classifyWrite p a = .hold c →
        exec (.transactionAccept p (.write a m x)) s = .next
          (s.setPort p { s.port p with
            txn := { phase := .held, access := .write a m x, cause := some c, startTick := some s.tick }
            ready := false, response := none }).arbitrate) ∧
      (∀ w, s.classifyWrite p a = .foreignWrite w → exec (.transactionAccept p (.write a m x)) s = .next
        ((s.raise { kind := .foreignWrite, index := some w, port := some p, addr := some a }).setPort p
          { s.port p with txn := {}, ready := true, response := some .errorWrite }).arbitrate) ∧
      ∀ d, s.classifyWrite p a = .faultLock d → exec (.transactionAccept p (.write a m x)) s = .next
        ((s.raise { kind := .faultLock, index := some (domainIndex d), port := some p, addr := some a }).setPort p
          { s.port p with txn := {}, ready := true, response := some .errorWrite }).arbitrate)) ∧
  (∀ (s : State) (p : Port) (a : Addr) (m : Lanes) (x : Word) (c₀ : HoldCause) (t₀ : Tick),
    (s.port p).txn = { phase := .held, access := .write a m x, cause := some c₀, startTick := some t₀ } →
    let record : TxnPhase → Option HoldCause → State := fun phase cause => s.setPort p { s.port p with
      txn := { phase := phase, access := .write a m x, cause := cause, startTick := some t₀ } }
    let refused : State := s.setPort p { s.port p with txn := {}, ready := true, response := some .errorWrite }
    (s.classifyWrite p a = .plain → s.reclassify p = record .request none) ∧
    (∀ c, (s.tick - t₀).toNat < s.stallLimit.toNat → s.classifyWrite p a = .hold c →
      s.reclassify p = record .held (some c)) ∧
    (∀ w, s.classifyWrite p a = .foreignWrite w → s.reclassify p =
      refused.raise { kind := .foreignWrite, index := some w, port := some p, addr := some a }) ∧
    (∀ d, s.classifyWrite p a = .faultLock d → s.reclassify p =
      refused.raise { kind := .faultLock, index := some (domainIndex d), port := some p, addr := some a }) ∧
    ∀ d seals, s.classifyWrite p a = .stage d seals →
      let noRoom : Prop :=
        (∀ k, (s.slot d k).state = .opened → ∀ i ∈ (s.slot d k).entries, ∀ f, s.entries[i] = some f → f.addr ≠ a) ∧
        ((∀ i : EntryId, s.entries[i] ≠ none) ∨ ∀ k, (s.slot d k).state ≠ .opened ∧ (s.slot d k).state ≠ .free)
      ((∀ j k, (s.slot d j).state = .opened → (s.slot d k).state = .opened → j = k) →
        ¬ noRoom ∨ (s.domain d).cfg.exhaustion = .refuse → s.resetLow = false → m ≠ 0 →
        exec (.transactionAccept p (.write a m x)) (s.setPort p { s.port p with txn := {} }) =
          .next (s.reclassify p).arbitrate) ∧
      (noRoom → (s.domain d).cfg.exhaustion = .stall → (s.tick - t₀).toNat < s.stallLimit.toNat →
        s.reclassify p = { record .held (some .exhausted) with
          waiting := s.waiting ++ [{ port := p, domain := d, addr := a, seals := seals }] })) ∧
  Response.okayWrite = { err := false, rdata := none } ∧ Response.errorWrite = { err := true, rdata := none } ∧
  Response.errorRead = { err := true, rdata := some 0 } ∧ ∀ x, Response.okayRead x = { err := false, rdata := some x }

/-- O42. A staged write to a word of the OPEN batch merges into its entry, seals the batch at a seal word, and is
answered OKAY. (R40, R42, R43) -/
def Obligations.StagedWriteMerges : Prop :=
  ∀ (s : State) (p : Port) (a : Addr) (m : Lanes) (x : Word) (d : DomainId) (seals : Bool) (k : SlotId) (j : EntryId)
    (e : StagingEntry), s.resetLow = false → (s.port p).txn.phase = .idle → m ≠ 0 →
    s.classifyWrite p a = .stage d seals →
    (s.slot d k).state = .opened → (∀ i, (s.slot d i).state = .opened → i = k) →
    j ∈ (s.slot d k).entries → s.entries[j] = some e → e.addr = a →
    (∀ i ∈ (s.slot d k).entries, ∀ f, s.entries[i] = some f → f.addr = a → i = j) →
    ∃ data : Word, (∀ l, lane data l = if m.getLsbD l.val then lane x l else lane e.data l) ∧
      let staged := { s with entries := s.entries.set j (some { e with data := data, lanes := e.lanes ||| m }) }
      exec (.transactionAccept p (.write a m x)) s = .next
        ((if seals then staged.slotSealed d k else staged).setPort p
          { s.port p with txn := {}, ready := true, response := some .okayWrite }).arbitrate

/-- O43. A staged write to a new word takes the lowest FREE entry at the tail of the OPEN batch, opening the lowest
FREE slot if need be. (R34, R41, R42, R43) -/
def Obligations.StagedWriteTakesANewEntry : Prop :=
  ∀ (s : State) (p : Port) (a : Addr) (m : Lanes) (x : Word) (d : DomainId) (seals : Bool) (k : SlotId) (j : EntryId),
    s.resetLow = false → (s.port p).txn.phase = .idle → m ≠ 0 → s.classifyWrite p a = .stage d seals →
    s.entries[j] = none → (∀ i : EntryId, i < j → s.entries[i] ≠ none) →
    ∀ b : BatchSlot,
      ((s.slot d k).state = .opened ∧ (∀ i, (s.slot d i).state = .opened → i = k) ∧
          (∀ i ∈ (s.slot d k).entries, ∀ f, s.entries[i] = some f → f.addr ≠ a) ∧ b = s.slot d k) ∨
        ((∀ i, (s.slot d i).state ≠ .opened) ∧ (s.slot d k).state = .free ∧
          (∀ i, i < k → (s.slot d i).state ≠ .free) ∧ b = BatchSlot.vacant) →
      ∃ data : Word, (∀ l, lane data l = if m.getLsbD l.val then lane x l else 0) ∧
        let entry : StagingEntry :=
          { addr := a, data := data, lanes := m, domain := d, slot := k, position := b.entries.length }
        let batch : BatchSlot := { b with state := .opened, entries := b.entries ++ [j] }
        let staged := { (s.setDomain d { s.domain d with slots := (s.domain d).slots.set k batch }) with
          entries := s.entries.set j (some entry) }
        exec (.transactionAccept p (.write a m x)) s = .next
          ((if seals then staged.slotSealed d k else staged).setPort p
            { s.port p with txn := {}, ready := true, response := some .okayWrite }).arbitrate

/-- O44. A staged write whose needs are not met is refused or waits by its domain's policy, and a waiter is granted
when they are met. (R39, R40, R41, R42, R43, R46, R47, R48) -/
def Obligations.StagedWriteWithoutRoom : Prop :=
  (∀ (s : State) (p : Port) (a : Addr) (m : Lanes) (x : Word) (d : DomainId) (seals : Bool),
    s.resetLow = false → (s.port p).txn.phase = .idle → m ≠ 0 → 0 < s.stallLimit.toNat →
    s.classifyWrite p a = .stage d seals →
    (∀ k, (s.slot d k).state = .opened → ∀ i ∈ (s.slot d k).entries, ∀ f, s.entries[i] = some f → f.addr ≠ a) →
    ((∀ i : EntryId, s.entries[i] ≠ none) ∨ ∀ k, (s.slot d k).state ≠ .opened ∧ (s.slot d k).state ≠ .free) →
    ((s.domain d).cfg.exhaustion = .refuse → exec (.transactionAccept p (.write a m x)) s = .next
      ((s.raise { kind := .refusedFull, index := some (domainIndex d), port := some p, addr := some a }).setPort p
        { s.port p with txn := {}, ready := true, response := some .errorWrite }).arbitrate) ∧
    ((s.domain d).cfg.exhaustion = .stall → exec (.transactionAccept p (.write a m x)) s = .next
      ((s.joinWaiting { port := p, domain := d, addr := a, seals := seals }).setPort p
        { s.port p with
          txn := { phase := .held, access := .write a m x, cause := some .exhausted, startTick := some s.tick }
          ready := false, response := none }).arbitrate)) ∧
  (∀ s : State, s.examineWaiting = s.waiting.foldl State.examineWaiter s) ∧
  ∀ (s : State) (w : Waiter) (m : Lanes) (x : Word), (s.port w.port).txn.access = .write w.addr m x →
    let d := w.domain
    let gone : State := { s with waiting := s.waiting.filter fun v => v.port ≠ w.port }
    let answered : State → State := fun u =>
      u.setPort w.port { s.port w.port with txn := {}, ready := true, response := some .okayWrite }
    (∀ k j e, (s.slot d k).state = .opened → (∀ i, (s.slot d i).state = .opened → i = k) →
      j ∈ (s.slot d k).entries → s.entries[j] = some e → e.addr = w.addr →
      (∀ i ∈ (s.slot d k).entries, ∀ f, s.entries[i] = some f → f.addr = w.addr → i = j) →
      ∃ data : Word, (∀ l, lane data l = if m.getLsbD l.val then lane x l else lane e.data l) ∧
        let staged := { gone with entries := s.entries.set j (some { e with data := data, lanes := e.lanes ||| m }) }
        s.examineWaiter w = answered (if w.seals then staged.slotSealed d k else staged)) ∧
    (∀ (k : SlotId) (j : EntryId) (b : BatchSlot), s.entries[j] = none → (∀ i : EntryId, i < j → s.entries[i] ≠ none) →
      ((s.slot d k).state = .opened ∧ (∀ i, (s.slot d i).state = .opened → i = k) ∧
          (∀ i ∈ (s.slot d k).entries, ∀ f, s.entries[i] = some f → f.addr ≠ w.addr) ∧ b = s.slot d k) ∨
        ((∀ i, (s.slot d i).state ≠ .opened) ∧ (s.slot d k).state = .free ∧
          (∀ i, i < k → (s.slot d i).state ≠ .free) ∧ b = BatchSlot.vacant) →
      ∃ data : Word, (∀ l, lane data l = if m.getLsbD l.val then lane x l else 0) ∧
        let entry : StagingEntry :=
          { addr := w.addr, data := data, lanes := m, domain := d, slot := k, position := b.entries.length }
        let staged := { (gone.setDomain d { s.domain d with
            slots := (s.domain d).slots.set k { b with state := .opened, entries := b.entries ++ [j] } }) with
          entries := s.entries.set j (some entry) }
        s.examineWaiter w = answered (if w.seals then staged.slotSealed d k else staged)) ∧
    ((∀ k, (s.slot d k).state = .opened → ∀ i ∈ (s.slot d k).entries, ∀ f, s.entries[i] = some f → f.addr ≠ w.addr) →
      ((∀ i : EntryId, s.entries[i] ≠ none) ∨ ∀ k, (s.slot d k).state ≠ .opened ∧ (s.slot d k).state ≠ .free) →
      s.examineWaiter w = s)

/-- O45. A reader-port read of another word than the lead word is answered from the HELD copy, which the last word
releases under auto-release. (R131, R132) -/
def Obligations.SnapshotReadServed : Prop :=
  ∀ (s : State) (p : Port) (a : Addr) (w : WindowId) (c : ContextId) (copy : List Word) (t0 : Tick),
    s.resetLow = false → (s.port p).txn.phase = .idle → s.classifyRead p a = .serve w c →
    s.context p c = .held w copy t0 →
    let offset := a.toNat - (s.window w).base.toNat
    exec (.transactionAccept p (.read a)) s = .next
      (s.setPort p { s.port p with
        txn := {}, ready := true, response := some (.okayRead (copy.getD offset 0)), lru := 1 - c
        contexts := if (s.window w).autoRelease = true ∧ offset + 1 = (s.window w).length.toNat then
            (s.port p).contexts.set c .idle
          else (s.port p).contexts }).arbitrate

/-- O46. A lead-word read starts a capture in the context HELD for the window, else in an IDLE one, else in the less
recently used. (R24, R124, R125, R126) -/
def Obligations.LeadWordReadBeginsCapture : Prop :=
  ∀ (s : State) (p : Port) (a : Addr) (w : WindowId) (c : ContextId), s.resetLow = false →
    (s.port p).txn.phase = .idle → (s.window w).writer = p.other → s.classifyRead p a = .capture w →
    let phase : CapturePhase := if s.writeOnItsWay p.other w then .writerWait else .readRequest
    let capturing := { (s.setPort p { s.port p with
        txn := { phase := .leadWait, access := .read a }, ready := false, response := none
        contexts := (s.port p).contexts.set c (.capturing w [] phase) }) with
      captureOrder := s.captureOrder ++ [p] }
    ((∃ copy t0, s.context p c = .held w copy t0) → (∀ e, e ≠ c → ∀ copy t0, s.context p e ≠ .held w copy t0) →
      exec (.transactionAccept p (.read a)) s = .next capturing.arbitrate) ∧
    (s.context p c = .idle → (∀ e, e < c → s.context p e ≠ .idle) →
      (∀ e copy t0, s.context p e ≠ .held w copy t0) →
      exec (.transactionAccept p (.read a)) s = .next capturing.arbitrate) ∧
    (∀ v, c = (s.port p).lru → (∃ copy t0, s.context p c = .held v copy t0) → v ≠ w →
      (∀ e, s.context p e ≠ .idle) → (∀ e copy t0, s.context p e ≠ .held w copy t0) →
      exec (.transactionAccept p (.read a)) s = .next
        (capturing.raise { kind := .snapEvicted, index := some v, port := some p }).arbitrate)

/-- O47. A port's write in memory is stored in its lanes, answered OKAY, patches the port's HELD copies and ends the
waits for it. (R22, R126, R133, R140) -/
def Obligations.PortWriteCompletes : Prop :=
  ∀ (s : State) (p : Port) (a : Addr) (m : Lanes) (x : Word), s.mport = some ⟨.port p, .write a m x⟩ →
    ∃ mem : List Host.Cell,
      (s.MemoryCanonical → ∀ b l, Memory.readLane mem b l =
        if b = a ∧ m.getLsbD l.val = true then lane x l else Memory.readLane s.mem b l) ∧
      exec .portWriteComplete s = .next
        (({ s with mem := mem, mport := none }.setPort p { s.port p with
          txn := {}, ready := true, response := some .okayWrite
          contexts := (s.port p).contexts.map fun k : Context => match k with
            | .held w copy t0 => Context.held w (if (s.window w).covers a then
                copy.modify (a.toNat - (s.window w).base.toNat) fun old => mergeLanes old x m else copy) t0
            | .capturing w copy phase => .capturing w copy phase
            | .idle => .idle }).setPort p.other { s.port p.other with
          contexts := (s.port p.other).contexts.map fun k : Context => match k with
            | .capturing w copy .writerWait => Context.capturing w copy .readRequest
            | .capturing w copy .readRequest => .capturing w copy .readRequest
            | .capturing w copy .read => .capturing w copy .read
            | .held w copy t0 => .held w copy t0
            | .idle => .idle }).arbitrate

/-- O48. A port's read in memory is answered OKAY with the word formed at its completion, and changes no byte. (R5,
R19, R23, R57, R58, R114, R187) -/
def Obligations.PortReadCompletes : Prop :=
  (∀ (s : State) (p : Port) (a : Addr), s.mport = some ⟨.port p, .read a⟩ →
    exec .portReadComplete s = .next
      ({ s with mport := none }.setPort p { s.port p with
        txn := {}, ready := true, response := some (.okayRead (s.readValue p a)) }).arbitrate) ∧
  ∀ (s : State) (p : Port) (a : Addr) (l : Fin 4), s.WindowsApart →
    (∀ j, (s.safeEntry j).enabled = true → (s.safeEntry j).addr = a →
      (s.domain (s.safeEntry j).domain).state = .safing → (s.safeEntry j).lanes.getLsbD l.val = false) →
    ((∀ i, ¬ s.InWindow i a) → lane (s.readValue p a) l = Memory.readLane s.mem a l) ∧
    ∀ i, s.InWindow i a →
      ((s.window i).kind = .snapshot → lane (s.readValue p a) l = Memory.readLane s.mem a l) ∧
      ((s.window i).kind = .staged →
        let d := (s.window i).domain
        let stages : SlotId → StagingEntry → Prop := fun k e =>
          ∃ j ∈ (s.slot d k).entries, s.entries[j] = some e ∧ e.addr = a ∧ e.lanes.getLsbD l.val = true
        ((s.domain d).state = .disabled ∨ (s.domain d).state = .safed →
          lane (s.readValue p a) l = Memory.readLane s.mem a l) ∧
        ((s.domain d).state = .safing ∨
            (((s.domain d).state = .run ∨ (s.domain d).state = .stopping) ∧ (s.domain d).cfg.writer ≠ p) →
          ((∀ k, (s.slot d k).state = .committing → ∀ e, ¬ stages k e) →
            lane (s.readValue p a) l = Memory.readLane s.mem a l) ∧
          ∀ k e, (s.slot d k).state = .committing → (∀ j, (s.slot d j).state = .committing → j = k) → stages k e →
            (∀ i ∈ (s.slot d k).entries, ∀ f, s.entries[i] = some f → f.addr = a → f = e) →
            lane (s.readValue p a) l = lane e.data l))

/-- O49. A held write expires at the stall limit with STALL_TIMEOUT and ERROR, a HELD context at its window's hold
limit with SNAP_EXPIRED. (R26, R27, R134) -/
def Obligations.ExpiriesEndHoldsAndCopies : Prop :=
  (∀ (s : State) (p : Port) (t0 : Tick), (s.port p).txn.phase = .held → (s.port p).txn.startTick = some t0 →
    s.stallLimit.toNat ≤ (s.tick - t0).toNat →
    exec (.stallTimeout p) s = .next
      (({ s with waiting := s.waiting.filter fun w => w.port ≠ p }.raise
        { kind := .stallTimeout, port := some p, addr := some (accessAddr (s.port p).txn.access)
          cause := (s.port p).txn.cause.map HoldCause.toEvent }).setPort p
        { s.port p with txn := {}, ready := true, response := some .errorWrite })) ∧
  (∀ (s : State) (p : Port) (c : HoldCause) (t0 : Tick), (s.port p).txn.startTick = some t0 →
    s.stallLimit.toNat ≤ (s.tick - t0).toNat →
    (s.classifyWrite p (accessAddr (s.port p).txn.access) = .hold c → s.reclassify p = s.hold p c) ∧
    s.hold p c =
      ({ s with waiting := s.waiting.filter fun w => w.port ≠ p }.raise
        { kind := .stallTimeout, port := some p, addr := some (accessAddr (s.port p).txn.access)
          cause := some c.toEvent }).setPort p
        { s.port p with txn := {}, ready := true, response := some .errorWrite }) ∧
  ∀ (s : State) (p : Port) (c : ContextId) (w : WindowId) (copy : List Word) (t0 : Tick),
    s.context p c = .held w copy t0 → (s.window w).holdLimit ≠ 0 →
    (s.window w).holdLimit.toNat ≤ (s.tick - t0).toNat →
    exec (.holdLimitExpiry p c) s = .next
      ((s.raise { kind := .snapExpired, index := some w, port := some p }).setPort p
        { s.port p with contexts := (s.port p).contexts.set c .idle })

/-! ## Commits, fills and captures -/

/-- O50. A commit writes its entries in order of position and then its sequence word with the commit number plus one.
The next position rises by one at each entry write; that it stays at 63 after the last of 64 entries is the model's
choice (log entry 23), since R86 gives it no higher value. (R87, R90, R91, R92) -/
def Obligations.CommitWritesEntryAfterEntry : Prop :=
  (∀ (s : State) (d : DomainId) (i : EntryId) (e : StagingEntry), (s.domain d).commit.phase = .entryRequest →
    (s.slot d (s.domain d).commit.slot).entries[(s.domain d).commit.next]? = some i → s.entries[i] = some e →
    s.request (.commit d) = some (.write e.addr e.lanes e.data)) ∧
  (∀ (s : State) (d : DomainId) (q : Addr), (s.domain d).commit.phase = .sequenceRequest →
    (s.domain d).cfg.sequenceWord = some q →
    ∃ x : Word, x.toNat = ((s.domain d).commitNumber.toNat + 1) % 65536 ∧
      s.request (.commit d) = some (.write q 0xF x)) ∧
  ∀ (s : State) (d : DomainId) (a : Addr) (m : Lanes) (x : Word), s.mport = some ⟨.commit d, .write a m x⟩ →
    (s.domain d).commit.phase = .entryWrite →
    let written := { s with mem := Memory.writeWord s.mem a m x, mport := none }
    let c := (s.domain d).commit
    (c.next + 1 < c.entryCount → exec .commitWriteComplete s = .next
      (written.setDomain d { s.domain d with
        commit := { c with phase := .entryRequest, next := c.next + 1 } }).arbitrate) ∧
    (c.entryCount ≤ c.next + 1 → (s.domain d).cfg.sequenceWord ≠ none →
      (c.next < 63 → exec .commitWriteComplete s = .next
        (written.setDomain d { s.domain d with
          commit := { c with phase := .sequenceRequest, next := c.next + 1 } }).arbitrate) ∧
      (c.next = 63 → exec .commitWriteComplete s = .next
        (written.setDomain d { s.domain d with commit := { c with phase := .sequenceRequest } }).arbitrate))

/-- O51. A commit completes: its number rises, its batch is freed, waiters are examined, COMMIT_DONE is raised if
asked for, and in SAFING the fill begins. (R51, R93, R95, R110, R111, R112) -/
def Obligations.CommitCompletes : Prop :=
  ∀ (s : State) (c : Instr) (d : DomainId) (a : Addr) (m : Lanes) (x : Word),
    s.mport = some ⟨.commit d, .write a m x⟩ →
    (c = .commitWriteComplete ∧ (s.domain d).commit.phase = .entryWrite ∧
        (s.domain d).commit.entryCount ≤ (s.domain d).commit.next + 1 ∧ (s.domain d).cfg.sequenceWord = none) ∨
      (c = .sequenceWriteComplete ∧ (s.domain d).commit.phase = .sequenceWrite) →
    let k := (s.domain d).commit.slot
    let number := (s.domain d).commitNumber + 1
    let freed := ({ s with
        mem := Memory.writeWord s.mem a m x, mport := none, entries := s.entriesFreed d k }.setDomain d
      { s.domain d with commitNumber := number, slots := (s.domain d).slots.set k .vacant }).examineWaiting
    let noted := if (s.domain d).cfg.notify then
        freed.raise { kind := .commitDone, index := some (domainIndex d), addr := some (number.setWidth 22) }
      else freed
    let left := { (noted.setDomain d { noted.domain d with commit := {} }) with
      startOrder := s.startOrder.filter fun e => e ≠ d, expiryStarts := s.expiryStarts.filter fun e => e ≠ d }
    ((s.domain d).state = .run ∨ (s.domain d).state = .disabled ∨ (s.domain d).state = .safed →
      exec c s = .next left.arbitrate) ∧
    ((s.domain d).state = .stopping → exec c s = .next (left.continueStop d).arbitrate) ∧
    ((s.domain d).state = .safing →
      let mine : SafeId → Prop := fun j => (s.safeEntry j).enabled = true ∧ (s.safeEntry j).domain = d
      (∀ j, mine j → (∀ i, i < j → ¬ mine i) → exec c s = .next
        { (left.setDomain d { left.domain d with fill := { phase := .fillRequest, next := j } }) with
          fillOrder := s.fillOrder ++ [d] }.arbitrate) ∧
      ((∀ j, ¬ mine j) → exec c s = .next
        { ((left.raise { kind := .safeDone, index := some (domainIndex d) }).setDomain d
            { left.domain d with fill := {}, state := .safed }) with
          fillOrder := s.fillOrder.filter fun e => e ≠ d }.arbitrate))

/-- O52. A stopping domain with no commit in flight starts its oldest SEALED batch, or is DISABLED with STOP_DONE and
its held write released. (R66, R67, R88) -/
def Obligations.StopContinuesOrEnds : Prop :=
  ∀ (s : State) (d : DomainId), s.WindowsApart →
    (∀ k, s.IsOldestSealed d k → s.continueStop d =
      { (s.setDomain d ((s.domain d).committing k)) with startOrder := s.startOrder ++ [d] }) ∧
    ((∀ k, (s.slot d k).state ≠ .sealed) →
      let p := (s.domain d).cfg.writer
      let stopped := (s.setDomain d { s.domain d with state := .disabled }).raise
        { kind := .stopDone, index := some (domainIndex d) }
      let waits : Prop := (s.port p).txn.phase = .held ∧ (s.port p).txn.cause = some .stopping ∧
        ∃ i, s.InWindow i (accessAddr (s.port p).txn.access) ∧ (s.window i).kind = .staged ∧ (s.window i).domain = d
      (waits → s.continueStop d = stopped.reclassify p) ∧ (¬ waits → s.continueStop d = stopped))

/-- O53. A fill writes the domain's enabled safe entries in ascending order and ends in SAFED, releasing the writes it
held; which of two is released first is free (log entry 3). (R110, R111, R112) -/
def Obligations.FillWritesEntryAfterEntry : Prop :=
  (∀ (s : State) (d : DomainId), (s.domain d).fill.phase = .fillRequest →
    let e := s.safeEntry (s.domain d).fill.next
    s.request (.fill d) = some (.write e.addr e.lanes e.data)) ∧
  ∀ (s : State) (d : DomainId) (a : Addr) (m : Lanes) (x : Word), s.mport = some ⟨.fill d, .write a m x⟩ →
    (s.domain d).fill.phase = .fillWrite →
    let written := { s with mem := Memory.writeWord s.mem a m x, mport := none }
    let mine : SafeId → Prop := fun j => (s.safeEntry j).enabled = true ∧ (s.safeEntry j).domain = d
    (∀ j, (s.domain d).fill.next < j → mine j → (∀ i, (s.domain d).fill.next < i → i < j → ¬ mine i) →
      exec .fillWriteComplete s = .next
        (written.setDomain d { s.domain d with fill := { phase := .fillRequest, next := j } }).arbitrate) ∧
    ((∀ j, (s.domain d).fill.next < j → ¬ mine j) →
      let done := { ((written.raise { kind := .safeDone, index := some (domainIndex d) }).setDomain d
          { s.domain d with fill := {}, state := .safed }) with
        fillOrder := s.fillOrder.filter fun e => e ≠ d }
      ∃ (order : List Port) (n : Nat),
        (∀ p, p ∈ order ↔ (s.port p).txn.phase = .held ∧ (s.port p).txn.cause = some .safeFill ∧
          ∃ j, mine j ∧ (s.safeEntry j).addr = accessAddr (s.port p).txn.access) ∧ order.Nodup ∧
        exec .fillWriteComplete s = .next (order.foldl State.reclassify { done with freeCount := n }).arbitrate)

/-- O54. A capture stores the words of its window in ascending order as memory returns them and then answers the
lead-word read. (R127, R128, R138) -/
def Obligations.CaptureReadsWordAfterWord : Prop :=
  (∀ (s : State) (p : Port) (c : ContextId) (w : WindowId) (copy : List Word),
    s.context p c = .capturing w copy .readRequest →
    (∀ e, e ≠ c → ∀ v l phase, s.context p e ≠ .capturing v l phase) →
    ∃ a : Addr, a.toNat = ((s.window w).base.toNat + copy.length) % 4194304 ∧
      s.request (.capture p) = some (.read a)) ∧
  ∀ (s : State) (p : Port) (a : Addr), s.mport = some ⟨.capture p, .read a⟩ →
    ((∀ c w copy, s.context p c ≠ .capturing w copy .read) →
      exec .captureReadComplete s = .next { s with mport := none }.arbitrate) ∧
    ∀ c w copy, s.context p c = .capturing w copy .read →
      (∀ e, e ≠ c → ∀ v l phase, s.context p e ≠ .capturing v l phase) →
      let filled := copy ++ [Memory.readWord s.mem a]
      (copy.length + 1 < (s.window w).length.toNat → exec .captureReadComplete s = .next
        ({ s with mport := none }.setPort p { s.port p with
          contexts := (s.port p).contexts.set c (.capturing w filled .readRequest) }).arbitrate) ∧
      ((s.window w).length.toNat ≤ copy.length + 1 → (s.window w).writer = p.other →
        let done := { (s.setPort p { s.port p with
            txn := {}, ready := true, response := some (.okayRead (filled.getD 0 0)), lru := 1 - c
            contexts := (s.port p).contexts.set c (.held w filled s.tick) }) with
          mport := none, captureOrder := s.captureOrder.filter fun q => q ≠ p }
        let waits : Prop := (s.port p.other).txn.phase = .held ∧ (s.port p.other).txn.cause = some .capture ∧
          s.InWindow w (accessAddr (s.port p.other).txn.access)
        (waits → exec .captureReadComplete s = .next (done.reclassify p.other).arbitrate) ∧
        (¬ waits → exec .captureReadComplete s = .next done.arbitrate))

/-! ## Ticks, sync events and faults -/

/-- O55. A tick raises the tick counter and the counts of RUN domains, saturating at 65535; that expiries still due
are taken first is the model's choice (log entry 8). (R76, R150) -/
def Obligations.TickCounts : Prop :=
  ∀ s : State, s.resetLow = false →
    (∃ t, exec .tick s = .next t ∧ t.tick = s.tick + 1) ∧
    ((∀ p, s.stallDue p = false) → (∀ d, s.monitorDue d = false) → (∀ p c, s.holdLimitDue p c = false) →
      exec .tick s = .next { s with
        tick := s.tick + 1, expiryStarts := []
        domains := s.domains.map fun x : Domain => if x.state = DomainState.run then { x with
            periodCount := if x.periodCount = 65535 then 65535 else x.periodCount + 1
            monitorCount := if x.monitorPhase = MonitorPhase.counting ∧ x.monitorCount ≠ 65535 then
              x.monitorCount + 1 else x.monitorCount }
          else x })

/-- O56. SYNC records the period of a RUN domain and starts its oldest SEALED batch, or raises SYNC_OVERRUN; elsewhere
it has no effect. (R69, R71, R72, R73, R88, R89) -/
def Obligations.SyncEventRecordsAndDecides : Prop :=
  ∀ (s : State) (b : Byte) (tail : Nat), s.Listening →
    (3 < b.toNat → exec (.sync b tail) s = .next (s.replied (8 * 3 + tail) (bare .badIndex))) ∧
    ∀ d : DomainId, b.toNat = d.val →
      ((s.domain d).state ≠ .run →
        exec (.sync b tail) s = .next (s.replied (8 * 3 + tail) (bare .ok))) ∧
      ((s.domain d).state = .run →
        let x := s.domain d
        let recorded := s.setDomain d { x with
          lastPeriod := x.periodCount
          longestPeriod := if x.longestPeriod.toNat < x.periodCount.toNat then x.periodCount else x.longestPeriod
          periodCount := 0, monitorCount := 0, monitorPhase := .counting }
        ((∃ k, (s.slot d k).state = .committing) → exec (.sync b tail) s = .next
          ((recorded.raise { kind := .syncOverrun, index := some (domainIndex d) }).arbitrate.replied
            (8 * 3 + tail) (bare .ok))) ∧
        ((∀ k, (s.slot d k).state ≠ .committing ∧ (s.slot d k).state ≠ .sealed) →
          exec (.sync b tail) s = .next (recorded.arbitrate.replied (8 * 3 + tail) (bare .ok))) ∧
        ∀ k, (∀ j, (s.slot d j).state ≠ .committing) → s.IsOldestSealed d k →
          exec (.sync b tail) s = .next ({ (recorded.setDomain d ((recorded.domain d).committing k)) with
            startOrder := s.startOrder ++ [d] }.arbitrate.replied (8 * 3 + tail) (bare .ok)))

/-- O57. A sync edge is a sync event of every RUN domain that names its line and edge, whose commits join the
start-order list in ascending order; the order of several SYNC_OVERRUN records is free (log entry 3). (R70, R71, R72,
R88, R89) -/
def Obligations.SyncEdgeReachesEveryNamingDomain : Prop :=
  ∀ (s : State) (l : SyncLine) (e : Edge), s.resetLow = false →
    s.syncLevels[l] = (match e with | .rising => false | .falling => true) →
    let takes : DomainId → Prop := fun d => (s.domain d).state = .run ∧ (s.domain d).cfg.syncLine = some l ∧
      (s.domain d).cfg.syncEdge = e
    let commits : DomainId → Prop := fun d => takes d ∧ (∀ j, (s.slot d j).state ≠ .committing) ∧
      ∃ j, (s.slot d j).state = .sealed
    let recorded : Domain → Domain := fun x => { x with
      lastPeriod := x.periodCount
      longestPeriod := if x.longestPeriod.toNat < x.periodCount.toNat then x.periodCount else x.longestPeriod
      periodCount := 0, monitorCount := 0, monitorPhase := .counting }
    ∃ u : State, exec (.syncEdge l e) s = .next u.arbitrate ∧
      u = { s with syncLevels := u.syncLevels, domains := u.domains, startOrder := u.startOrder, queue := u.queue
                   irq := u.irq, freeCount := u.freeCount } ∧
      u.syncLevels = s.syncLevels.set l (match e with | .rising => true | .falling => false) ∧
      (∀ d, ¬ takes d → u.domain d = s.domain d) ∧
      (∀ d, takes d → ¬ commits d → u.domain d = recorded (s.domain d)) ∧
      (∀ d k, commits d → s.IsOldestSealed d k → u.domain d = (recorded (s.domain d)).committing k) ∧
      (∃ joined : List DomainId, u.startOrder = s.startOrder ++ joined ∧ joined.Pairwise (· < ·) ∧
        ∀ d, d ∈ joined ↔ commits d) ∧
      ∃ overrun : List DomainId, overrun.Nodup ∧ (∀ d, d ∈ overrun ↔ takes d ∧ ∃ j, (s.slot d j).state = .committing) ∧
        let noted := overrun.foldl (fun v d => v.raise { kind := .syncOverrun, index := some (domainIndex d) }) s
        u.queue = noted.queue ∧ u.irq = noted.irq

/-- O58. A sync monitor at its maximum interval raises SYNC_LOST and then lapses, commits the oldest SEALED batch or
accepts a fault. The place in the start-order list among several COMMIT expiries of one tick is the model's reading of
R89 (log entry 13), and that the SAFE expiries of one tick are taken whole as one event is its reading of R111 (log
entry 24). (R72, R77, R78, R79, R80, R88, R89, R104, R111) -/
def Obligations.SyncMonitorExpires : Prop :=
  ∀ (s : State) (d : DomainId),
    let due : DomainId → Prop := fun e => (s.domain e).state = .run ∧ (s.domain e).cfg.maxInterval ≠ 0 ∧
      (s.domain e).monitorPhase = .counting ∧ (s.domain e).monitorCount = (s.domain e).cfg.maxInterval
    due d →
    let lost := s.raise { kind := .syncLost, index := some (domainIndex d) }
    let restarted := lost.setDomain d { s.domain d with monitorCount := 0 }
    ((s.domain d).cfg.lossPolicy = .hold → exec (.syncMonitorExpiry d) s = .next
      (lost.setDomain d { s.domain d with monitorPhase := .lapsed }).arbitrate) ∧
    ((s.domain d).cfg.lossPolicy = .commit →
      ((∃ k, (s.slot d k).state = .committing) → exec (.syncMonitorExpiry d) s = .next
        (restarted.raise { kind := .syncOverrun, index := some (domainIndex d) }).arbitrate) ∧
      ((∀ k, (s.slot d k).state ≠ .committing ∧ (s.slot d k).state ≠ .sealed) →
        exec (.syncMonitorExpiry d) s = .next restarted.arbitrate) ∧
      ∀ k, (∀ j, (s.slot d j).state ≠ .committing) → s.IsOldestSealed d k →
        exec (.syncMonitorExpiry d) s = .next { (restarted.setDomain d ((restarted.domain d).committing k)) with
          startOrder := joinExpiry s.expiryStarts d s.startOrder, expiryStarts := d :: s.expiryStarts }.arbitrate ∧
        (s.expiryStarts = [] → joinExpiry s.expiryStarts d s.startOrder = s.startOrder ++ [d])) ∧
    ((s.domain d).cfg.lossPolicy = .safe →
      ∃ expired : List DomainId, expired.Pairwise (· < ·) ∧
        (∀ e, e ∈ expired ↔ due e ∧ (s.domain e).cfg.lossPolicy = .safe) ∧
        exec (.syncMonitorExpiry d) s = .next (s.acceptFaults expired fun e =>
          [{ kind := .syncLost, index := some (domainIndex e) },
            { kind := .faultTaken, index := some (domainIndex e), cause := some .syncLoss }]).arbitrate)

/-- O59. Fault acceptances at one event raise their records, end the domains' waiting writes with FAULT_LOCK and their
OPEN and SEALED batches, and enter SAFING or SAFED. Each domain's records keep their order, and those of different
domains are interleaved in an order left open (R155, log entry 3). That a domain enters SAFED at once where R112 says
so, though R108 has a SET_SAFE that follows refused, and R119 and R179 have a RESET_PART that follows find SAFING, is
the model's choice (log entry 28). (R30, R37, R52, R54, R103, R104, R110, R111, R112, R155) -/
def Obligations.FaultAcceptanceLeavesNothingStaged : Prop :=
  ∀ (s : State) (ds : List DomainId) (notice : DomainId → List Event), s.BatchLaw → s.WindowsApart → ds.Nodup →
    (∀ d ∈ ds, (s.domain d).state = .disabled ∨ (s.domain d).state = .run ∨ (s.domain d).state = .stopping) →
    let t := s.acceptFaults ds notice
    let mine : DomainId → SafeId → Prop := fun d j => (s.safeEntry j).enabled = true ∧ (s.safeEntry j).domain = d
    let inFlight : DomainId → Prop := fun d => (s.domain d).commit.phase ≠ .idle
    let waits : DomainId → Port → Prop := fun d p => ∃ w ∈ s.waiting, w.domain = d ∧ w.port = p
    let stops : DomainId → Port → Prop := fun d p => (s.domain d).cfg.writer = p ∧ (s.port p).txn.phase = .held ∧
      (s.port p).txn.cause = some .stopping ∧
      ∃ i, s.InWindow i (accessAddr (s.port p).txn.access) ∧ (s.window i).kind = .staged ∧ (s.window i).domain = d
    (∀ d ∈ ds,
      let x := s.domain d
      let y := t.domain d
      y.monitorPhase = .stopped ∧
      (∀ k, ((s.slot d k).state = .committing → t.slot d k = s.slot d k) ∧
        ((s.slot d k).state ≠ .committing → (t.slot d k).state = .free)) ∧
      (∀ w ∈ t.waiting, w.domain ≠ d) ∧
      (y.cfg = x.cfg ∧ y.commit = x.commit ∧ y.commitNumber = x.commitNumber ∧ y.sealCount = x.sealCount ∧
        y.lastPeriod = x.lastPeriod ∧ y.longestPeriod = x.longestPeriod ∧ y.periodCount = x.periodCount ∧
        y.monitorCount = x.monitorCount) ∧
      (inFlight d → y.state = .safing ∧ y.fill.phase = .pending) ∧
      (∀ j, ¬ inFlight d → mine d j → (∀ i, i < j → ¬ mine d i) →
        y.state = .safing ∧ y.fill = { phase := .fillRequest, next := j } ∧ d ∈ t.fillOrder) ∧
      (¬ inFlight d → (∀ j, ¬ mine d j) → y.state = .safed ∧ y.fill = {})) ∧
    ((∀ d ∈ ds, d ∉ s.fillOrder) → ∃ joined : List DomainId, t.fillOrder = s.fillOrder ++ joined ∧
      joined.Pairwise (· < ·) ∧ ∀ d, d ∈ joined ↔ d ∈ ds ∧ ¬ inFlight d ∧ ∃ j, mine d j) ∧
    (∀ d ∈ ds, ∀ p, waits d p ∨ stops d p →
      (t.port p).txn = {} ∧ (t.port p).ready = true ∧ (t.port p).response = some .errorWrite) ∧
    (let lock : DomainId → Port → Event := fun d p => { kind := .faultLock, index := some (domainIndex d), port := some p
                                                        addr := some (accessAddr (s.port p).txn.access) }
      ∀ ended stopped done : DomainId → List Event,
        (∀ d, (∀ p, waits d p → ended d = [lock d p]) ∧ ((∀ p, ¬ waits d p) → ended d = [])) →
        (∀ d, (∀ p, stops d p → stopped d = [lock d p]) ∧ ((∀ p, ¬ stops d p) → stopped d = [])) →
        (∀ d, (¬ inFlight d ∧ (∀ j, ¬ mine d j) → done d = [{ kind := .safeDone, index := some (domainIndex d) }]) ∧
          (inFlight d ∨ (∃ j, mine d j) → done d = [])) →
        ∃ merged : List (DomainId × Event),
          (∀ d, (merged.filter fun x => x.1 = d).map Prod.snd =
            if d ∈ ds then notice d ++ ended d ++ stopped d ++ done d else []) ∧
          let noted := (merged.map Prod.snd).foldl State.raise s
          t.queue = noted.queue ∧ t.irq = noted.irq) ∧
    (∀ e, e ∉ ds → (t.domain e).state = (s.domain e).state ∧ (t.domain e).commit = (s.domain e).commit ∧
      (t.domain e).fill = (s.domain e).fill) ∧
    t.mem = s.mem ∧ t.windows = s.windows ∧ t.safe = s.safe ∧ t.tick = s.tick ∧ t.mport = s.mport

/-- O60. An assertion edge is a fault event of every bound domain outside SAFING and SAFED, whose discards are all
made before the one examination of the waiting list, and a release changes only the level. The split into the steps up
to the discards of all domains, one examination and the steps after it of all domains is the model's reading of R52,
R54 and R104 (log entry 26). The orders of domains, and of the records of different domains, are free (R155, log entry
3); what the records are, O59 says. (R48, R52, R102, R103, R104, R111, R155) -/
def Obligations.FaultEdgeReachesEveryBoundDomain : Prop :=
  (∀ (s : State) (l : FaultLine), s.resetLow = false → s.faultLevels[l] = true →
    let accepts : DomainId → Prop := fun d =>
      ((s.domain d).cfg.binding = .both ∨ ((s.domain d).cfg.binding = .fault0 ∧ l = 0) ∨
        ((s.domain d).cfg.binding = .fault1 ∧ l = 1)) ∧
      ((s.domain d).state = .disabled ∨ (s.domain d).state = .run ∨ (s.domain d).state = .stopping)
    let low := { s with faultLevels := s.faultLevels.set l false }
    let notice : DomainId → List Event := fun d =>
      [{ kind := .faultTaken, index := some (domainIndex d), cause := some (if l = 0 then .fault0 else .fault1) }]
    ((∀ d, ¬ accepts d) → exec (.faultEdge l) s = .next low.arbitrate) ∧
    ((∃ d, accepts d) → ∃ (ds : List DomainId), ds.Nodup ∧ (∀ d, d ∈ ds ↔ accepts d) ∧
      exec (.faultEdge l) s = .next (low.acceptFaults ds notice).arbitrate ∧
      ∃ (first second : List DomainId) (m n : Nat), first.Perm ds ∧ second.Perm ds ∧
        let noted := low.raiseMerged ds (low.faultEvents notice)
        let discarded := first.foldl State.takeFault { noted with freeCount := m }
        let t := second.foldl State.settleFault { discarded.examineWaiting with freeCount := n }
        let k := s.fillOrder.length
        low.acceptFaults ds notice = { t with
          fillOrder := t.fillOrder.take k ++ (List.finRange 4).filter fun d => d ∈ t.fillOrder.drop k })) ∧
  ∀ (s : State) (l : FaultLine), s.resetLow = false → s.faultLevels[l] = false →
    exec (.faultLineRelease l) s = .next { s with faultLevels := s.faultLevels.set l true }
end

