-- ==== Sys2Proof/Laws/State.lean ====
section
/-! SUPPORT. What each update of State leaves as it was and what it writes: one lemma per field per update. -/

namespace Sys2Proof.Machine

variable (s : State)

/-! ### setPort -/

@[simp] theorem State.setPort_resetLow (p : Port) (u : PortUnit) : (s.setPort p u).resetLow = s.resetLow := by cases p <;> rfl
@[simp] theorem State.setPort_tick (p : Port) (u : PortUnit) : (s.setPort p u).tick = s.tick := by cases p <;> rfl
@[simp] theorem State.setPort_windows (p : Port) (u : PortUnit) : (s.setPort p u).windows = s.windows := by cases p <;> rfl
@[simp] theorem State.setPort_entries (p : Port) (u : PortUnit) : (s.setPort p u).entries = s.entries := by cases p <;> rfl
@[simp] theorem State.setPort_waiting (p : Port) (u : PortUnit) : (s.setPort p u).waiting = s.waiting := by cases p <;> rfl
@[simp] theorem State.setPort_domains (p : Port) (u : PortUnit) : (s.setPort p u).domains = s.domains := by cases p <;> rfl
@[simp] theorem State.setPort_startOrder (p : Port) (u : PortUnit) : (s.setPort p u).startOrder = s.startOrder := by cases p <;> rfl
@[simp] theorem State.setPort_expiryStarts (p : Port) (u : PortUnit) : (s.setPort p u).expiryStarts = s.expiryStarts := by cases p <;> rfl
@[simp] theorem State.setPort_safe (p : Port) (u : PortUnit) : (s.setPort p u).safe = s.safe := by cases p <;> rfl
@[simp] theorem State.setPort_fillOrder (p : Port) (u : PortUnit) : (s.setPort p u).fillOrder = s.fillOrder := by cases p <;> rfl
@[simp] theorem State.setPort_captureOrder (p : Port) (u : PortUnit) : (s.setPort p u).captureOrder = s.captureOrder := by cases p <;> rfl
@[simp] theorem State.setPort_mport (p : Port) (u : PortUnit) : (s.setPort p u).mport = s.mport := by cases p <;> rfl
@[simp] theorem State.setPort_lastPort (p : Port) (u : PortUnit) : (s.setPort p u).lastPort = s.lastPort := by cases p <;> rfl
@[simp] theorem State.setPort_queue (p : Port) (u : PortUnit) : (s.setPort p u).queue = s.queue := by cases p <;> rfl
@[simp] theorem State.setPort_irq (p : Port) (u : PortUnit) : (s.setPort p u).irq = s.irq := by cases p <;> rfl
@[simp] theorem State.setPort_mask (p : Port) (u : PortUnit) : (s.setPort p u).mask = s.mask := by cases p <;> rfl
@[simp] theorem State.setPort_irqEnable (p : Port) (u : PortUnit) : (s.setPort p u).irqEnable = s.irqEnable := by cases p <;> rfl
@[simp] theorem State.setPort_stallLimit (p : Port) (u : PortUnit) : (s.setPort p u).stallLimit = s.stallLimit := by cases p <;> rfl
@[simp] theorem State.setPort_syncLevels (p : Port) (u : PortUnit) : (s.setPort p u).syncLevels = s.syncLevels := by cases p <;> rfl
@[simp] theorem State.setPort_faultLevels (p : Port) (u : PortUnit) : (s.setPort p u).faultLevels = s.faultLevels := by cases p <;> rfl
@[simp] theorem State.setPort_receiver (p : Port) (u : PortUnit) : (s.setPort p u).receiver = s.receiver := by cases p <;> rfl
@[simp] theorem State.setPort_reply (p : Port) (u : PortUnit) : (s.setPort p u).reply = s.reply := by cases p <;> rfl
@[simp] theorem State.setPort_msdo (p : Port) (u : PortUnit) : (s.setPort p u).msdo = s.msdo := by cases p <;> rfl
@[simp] theorem State.setPort_mem (p : Port) (u : PortUnit) : (s.setPort p u).mem = s.mem := by cases p <;> rfl
@[simp] theorem State.setPort_freeCount (p : Port) (u : PortUnit) : (s.setPort p u).freeCount = s.freeCount := by cases p <;> rfl
@[simp] theorem State.setPort_pending (p : Port) (u : PortUnit) : (s.setPort p u).pending = s.pending := by cases p <;> rfl
@[simp] theorem State.domain_setPort (p : Port) (u : PortUnit) (e : DomainId) : (s.setPort p u).domain e = s.domain e := by cases p <;> rfl
@[simp] theorem State.slot_setPort (p : Port) (u : PortUnit) (e : DomainId) (j : SlotId) : (s.setPort p u).slot e j = s.slot e j := by cases p <;> rfl
@[simp] theorem State.window_setPort (p : Port) (u : PortUnit) (w' : WindowId) : (s.setPort p u).window w' = s.window w' := by cases p <;> rfl
@[simp] theorem State.safeEntry_setPort (p : Port) (u : PortUnit) (i : SafeId) : (s.setPort p u).safeEntry i = s.safeEntry i := by cases p <;> rfl

/-! ### setTxn -/

@[simp] theorem State.setTxn_resetLow (p : Port) (t : Txn) : (s.setTxn p t).resetLow = s.resetLow := by cases p <;> rfl
@[simp] theorem State.setTxn_tick (p : Port) (t : Txn) : (s.setTxn p t).tick = s.tick := by cases p <;> rfl
@[simp] theorem State.setTxn_windows (p : Port) (t : Txn) : (s.setTxn p t).windows = s.windows := by cases p <;> rfl
@[simp] theorem State.setTxn_entries (p : Port) (t : Txn) : (s.setTxn p t).entries = s.entries := by cases p <;> rfl
@[simp] theorem State.setTxn_waiting (p : Port) (t : Txn) : (s.setTxn p t).waiting = s.waiting := by cases p <;> rfl
@[simp] theorem State.setTxn_domains (p : Port) (t : Txn) : (s.setTxn p t).domains = s.domains := by cases p <;> rfl
@[simp] theorem State.setTxn_startOrder (p : Port) (t : Txn) : (s.setTxn p t).startOrder = s.startOrder := by cases p <;> rfl
@[simp] theorem State.setTxn_expiryStarts (p : Port) (t : Txn) : (s.setTxn p t).expiryStarts = s.expiryStarts := by cases p <;> rfl
@[simp] theorem State.setTxn_safe (p : Port) (t : Txn) : (s.setTxn p t).safe = s.safe := by cases p <;> rfl
@[simp] theorem State.setTxn_fillOrder (p : Port) (t : Txn) : (s.setTxn p t).fillOrder = s.fillOrder := by cases p <;> rfl
@[simp] theorem State.setTxn_captureOrder (p : Port) (t : Txn) : (s.setTxn p t).captureOrder = s.captureOrder := by cases p <;> rfl
@[simp] theorem State.setTxn_mport (p : Port) (t : Txn) : (s.setTxn p t).mport = s.mport := by cases p <;> rfl
@[simp] theorem State.setTxn_lastPort (p : Port) (t : Txn) : (s.setTxn p t).lastPort = s.lastPort := by cases p <;> rfl
@[simp] theorem State.setTxn_queue (p : Port) (t : Txn) : (s.setTxn p t).queue = s.queue := by cases p <;> rfl
@[simp] theorem State.setTxn_irq (p : Port) (t : Txn) : (s.setTxn p t).irq = s.irq := by cases p <;> rfl
@[simp] theorem State.setTxn_mask (p : Port) (t : Txn) : (s.setTxn p t).mask = s.mask := by cases p <;> rfl
@[simp] theorem State.setTxn_irqEnable (p : Port) (t : Txn) : (s.setTxn p t).irqEnable = s.irqEnable := by cases p <;> rfl
@[simp] theorem State.setTxn_stallLimit (p : Port) (t : Txn) : (s.setTxn p t).stallLimit = s.stallLimit := by cases p <;> rfl
@[simp] theorem State.setTxn_syncLevels (p : Port) (t : Txn) : (s.setTxn p t).syncLevels = s.syncLevels := by cases p <;> rfl
@[simp] theorem State.setTxn_faultLevels (p : Port) (t : Txn) : (s.setTxn p t).faultLevels = s.faultLevels := by cases p <;> rfl
@[simp] theorem State.setTxn_receiver (p : Port) (t : Txn) : (s.setTxn p t).receiver = s.receiver := by cases p <;> rfl
@[simp] theorem State.setTxn_reply (p : Port) (t : Txn) : (s.setTxn p t).reply = s.reply := by cases p <;> rfl
@[simp] theorem State.setTxn_msdo (p : Port) (t : Txn) : (s.setTxn p t).msdo = s.msdo := by cases p <;> rfl
@[simp] theorem State.setTxn_mem (p : Port) (t : Txn) : (s.setTxn p t).mem = s.mem := by cases p <;> rfl
@[simp] theorem State.setTxn_freeCount (p : Port) (t : Txn) : (s.setTxn p t).freeCount = s.freeCount := by cases p <;> rfl
@[simp] theorem State.setTxn_pending (p : Port) (t : Txn) : (s.setTxn p t).pending = s.pending := by cases p <;> rfl
@[simp] theorem State.domain_setTxn (p : Port) (t : Txn) (e : DomainId) : (s.setTxn p t).domain e = s.domain e := by cases p <;> rfl
@[simp] theorem State.slot_setTxn (p : Port) (t : Txn) (e : DomainId) (j : SlotId) : (s.setTxn p t).slot e j = s.slot e j := by cases p <;> rfl
@[simp] theorem State.window_setTxn (p : Port) (t : Txn) (w' : WindowId) : (s.setTxn p t).window w' = s.window w' := by cases p <;> rfl
@[simp] theorem State.safeEntry_setTxn (p : Port) (t : Txn) (i : SafeId) : (s.setTxn p t).safeEntry i = s.safeEntry i := by cases p <;> rfl

/-! ### setContext -/

@[simp] theorem State.setContext_resetLow (p : Port) (c : ContextId) (x : Context) : (s.setContext p c x).resetLow = s.resetLow := by cases p <;> rfl
@[simp] theorem State.setContext_tick (p : Port) (c : ContextId) (x : Context) : (s.setContext p c x).tick = s.tick := by cases p <;> rfl
@[simp] theorem State.setContext_windows (p : Port) (c : ContextId) (x : Context) : (s.setContext p c x).windows = s.windows := by cases p <;> rfl
@[simp] theorem State.setContext_entries (p : Port) (c : ContextId) (x : Context) : (s.setContext p c x).entries = s.entries := by cases p <;> rfl
@[simp] theorem State.setContext_waiting (p : Port) (c : ContextId) (x : Context) : (s.setContext p c x).waiting = s.waiting := by cases p <;> rfl
@[simp] theorem State.setContext_domains (p : Port) (c : ContextId) (x : Context) : (s.setContext p c x).domains = s.domains := by cases p <;> rfl
@[simp] theorem State.setContext_startOrder (p : Port) (c : ContextId) (x : Context) : (s.setContext p c x).startOrder = s.startOrder := by cases p <;> rfl
@[simp] theorem State.setContext_expiryStarts (p : Port) (c : ContextId) (x : Context) : (s.setContext p c x).expiryStarts = s.expiryStarts := by cases p <;> rfl
@[simp] theorem State.setContext_safe (p : Port) (c : ContextId) (x : Context) : (s.setContext p c x).safe = s.safe := by cases p <;> rfl
@[simp] theorem State.setContext_fillOrder (p : Port) (c : ContextId) (x : Context) : (s.setContext p c x).fillOrder = s.fillOrder := by cases p <;> rfl
@[simp] theorem State.setContext_captureOrder (p : Port) (c : ContextId) (x : Context) : (s.setContext p c x).captureOrder = s.captureOrder := by cases p <;> rfl
@[simp] theorem State.setContext_mport (p : Port) (c : ContextId) (x : Context) : (s.setContext p c x).mport = s.mport := by cases p <;> rfl
@[simp] theorem State.setContext_lastPort (p : Port) (c : ContextId) (x : Context) : (s.setContext p c x).lastPort = s.lastPort := by cases p <;> rfl
@[simp] theorem State.setContext_queue (p : Port) (c : ContextId) (x : Context) : (s.setContext p c x).queue = s.queue := by cases p <;> rfl
@[simp] theorem State.setContext_irq (p : Port) (c : ContextId) (x : Context) : (s.setContext p c x).irq = s.irq := by cases p <;> rfl
@[simp] theorem State.setContext_mask (p : Port) (c : ContextId) (x : Context) : (s.setContext p c x).mask = s.mask := by cases p <;> rfl
@[simp] theorem State.setContext_irqEnable (p : Port) (c : ContextId) (x : Context) : (s.setContext p c x).irqEnable = s.irqEnable := by cases p <;> rfl
@[simp] theorem State.setContext_stallLimit (p : Port) (c : ContextId) (x : Context) : (s.setContext p c x).stallLimit = s.stallLimit := by cases p <;> rfl
@[simp] theorem State.setContext_syncLevels (p : Port) (c : ContextId) (x : Context) : (s.setContext p c x).syncLevels = s.syncLevels := by cases p <;> rfl
@[simp] theorem State.setContext_faultLevels (p : Port) (c : ContextId) (x : Context) : (s.setContext p c x).faultLevels = s.faultLevels := by cases p <;> rfl
@[simp] theorem State.setContext_receiver (p : Port) (c : ContextId) (x : Context) : (s.setContext p c x).receiver = s.receiver := by cases p <;> rfl
@[simp] theorem State.setContext_reply (p : Port) (c : ContextId) (x : Context) : (s.setContext p c x).reply = s.reply := by cases p <;> rfl
@[simp] theorem State.setContext_msdo (p : Port) (c : ContextId) (x : Context) : (s.setContext p c x).msdo = s.msdo := by cases p <;> rfl
@[simp] theorem State.setContext_mem (p : Port) (c : ContextId) (x : Context) : (s.setContext p c x).mem = s.mem := by cases p <;> rfl
@[simp] theorem State.setContext_freeCount (p : Port) (c : ContextId) (x : Context) : (s.setContext p c x).freeCount = s.freeCount := by cases p <;> rfl
@[simp] theorem State.setContext_pending (p : Port) (c : ContextId) (x : Context) : (s.setContext p c x).pending = s.pending := by cases p <;> rfl
@[simp] theorem State.domain_setContext (p : Port) (c : ContextId) (x : Context) (e : DomainId) : (s.setContext p c x).domain e = s.domain e := by cases p <;> rfl
@[simp] theorem State.slot_setContext (p : Port) (c : ContextId) (x : Context) (e : DomainId) (j : SlotId) : (s.setContext p c x).slot e j = s.slot e j := by cases p <;> rfl
@[simp] theorem State.window_setContext (p : Port) (c : ContextId) (x : Context) (w' : WindowId) : (s.setContext p c x).window w' = s.window w' := by cases p <;> rfl
@[simp] theorem State.safeEntry_setContext (p : Port) (c : ContextId) (x : Context) (i : SafeId) : (s.setContext p c x).safeEntry i = s.safeEntry i := by cases p <;> rfl

/-! ### useContext -/

@[simp] theorem State.useContext_resetLow (p : Port) (c : ContextId) : (s.useContext p c).resetLow = s.resetLow := by cases p <;> rfl
@[simp] theorem State.useContext_tick (p : Port) (c : ContextId) : (s.useContext p c).tick = s.tick := by cases p <;> rfl
@[simp] theorem State.useContext_windows (p : Port) (c : ContextId) : (s.useContext p c).windows = s.windows := by cases p <;> rfl
@[simp] theorem State.useContext_entries (p : Port) (c : ContextId) : (s.useContext p c).entries = s.entries := by cases p <;> rfl
@[simp] theorem State.useContext_waiting (p : Port) (c : ContextId) : (s.useContext p c).waiting = s.waiting := by cases p <;> rfl
@[simp] theorem State.useContext_domains (p : Port) (c : ContextId) : (s.useContext p c).domains = s.domains := by cases p <;> rfl
@[simp] theorem State.useContext_startOrder (p : Port) (c : ContextId) : (s.useContext p c).startOrder = s.startOrder := by cases p <;> rfl
@[simp] theorem State.useContext_expiryStarts (p : Port) (c : ContextId) : (s.useContext p c).expiryStarts = s.expiryStarts := by cases p <;> rfl
@[simp] theorem State.useContext_safe (p : Port) (c : ContextId) : (s.useContext p c).safe = s.safe := by cases p <;> rfl
@[simp] theorem State.useContext_fillOrder (p : Port) (c : ContextId) : (s.useContext p c).fillOrder = s.fillOrder := by cases p <;> rfl
@[simp] theorem State.useContext_captureOrder (p : Port) (c : ContextId) : (s.useContext p c).captureOrder = s.captureOrder := by cases p <;> rfl
@[simp] theorem State.useContext_mport (p : Port) (c : ContextId) : (s.useContext p c).mport = s.mport := by cases p <;> rfl
@[simp] theorem State.useContext_lastPort (p : Port) (c : ContextId) : (s.useContext p c).lastPort = s.lastPort := by cases p <;> rfl
@[simp] theorem State.useContext_queue (p : Port) (c : ContextId) : (s.useContext p c).queue = s.queue := by cases p <;> rfl
@[simp] theorem State.useContext_irq (p : Port) (c : ContextId) : (s.useContext p c).irq = s.irq := by cases p <;> rfl
@[simp] theorem State.useContext_mask (p : Port) (c : ContextId) : (s.useContext p c).mask = s.mask := by cases p <;> rfl
@[simp] theorem State.useContext_irqEnable (p : Port) (c : ContextId) : (s.useContext p c).irqEnable = s.irqEnable := by cases p <;> rfl
@[simp] theorem State.useContext_stallLimit (p : Port) (c : ContextId) : (s.useContext p c).stallLimit = s.stallLimit := by cases p <;> rfl
@[simp] theorem State.useContext_syncLevels (p : Port) (c : ContextId) : (s.useContext p c).syncLevels = s.syncLevels := by cases p <;> rfl
@[simp] theorem State.useContext_faultLevels (p : Port) (c : ContextId) : (s.useContext p c).faultLevels = s.faultLevels := by cases p <;> rfl
@[simp] theorem State.useContext_receiver (p : Port) (c : ContextId) : (s.useContext p c).receiver = s.receiver := by cases p <;> rfl
@[simp] theorem State.useContext_reply (p : Port) (c : ContextId) : (s.useContext p c).reply = s.reply := by cases p <;> rfl
@[simp] theorem State.useContext_msdo (p : Port) (c : ContextId) : (s.useContext p c).msdo = s.msdo := by cases p <;> rfl
@[simp] theorem State.useContext_mem (p : Port) (c : ContextId) : (s.useContext p c).mem = s.mem := by cases p <;> rfl
@[simp] theorem State.useContext_freeCount (p : Port) (c : ContextId) : (s.useContext p c).freeCount = s.freeCount := by cases p <;> rfl
@[simp] theorem State.useContext_pending (p : Port) (c : ContextId) : (s.useContext p c).pending = s.pending := by cases p <;> rfl
@[simp] theorem State.domain_useContext (p : Port) (c : ContextId) (e : DomainId) : (s.useContext p c).domain e = s.domain e := by cases p <;> rfl
@[simp] theorem State.slot_useContext (p : Port) (c : ContextId) (e : DomainId) (j : SlotId) : (s.useContext p c).slot e j = s.slot e j := by cases p <;> rfl
@[simp] theorem State.window_useContext (p : Port) (c : ContextId) (w' : WindowId) : (s.useContext p c).window w' = s.window w' := by cases p <;> rfl
@[simp] theorem State.safeEntry_useContext (p : Port) (c : ContextId) (i : SafeId) : (s.useContext p c).safeEntry i = s.safeEntry i := by cases p <;> rfl

/-! ### respond -/

@[simp] theorem State.respond_resetLow (p : Port) (r : Response) : (s.respond p r).resetLow = s.resetLow := by cases p <;> rfl
@[simp] theorem State.respond_tick (p : Port) (r : Response) : (s.respond p r).tick = s.tick := by cases p <;> rfl
@[simp] theorem State.respond_windows (p : Port) (r : Response) : (s.respond p r).windows = s.windows := by cases p <;> rfl
@[simp] theorem State.respond_entries (p : Port) (r : Response) : (s.respond p r).entries = s.entries := by cases p <;> rfl
@[simp] theorem State.respond_waiting (p : Port) (r : Response) : (s.respond p r).waiting = s.waiting := by cases p <;> rfl
@[simp] theorem State.respond_domains (p : Port) (r : Response) : (s.respond p r).domains = s.domains := by cases p <;> rfl
@[simp] theorem State.respond_startOrder (p : Port) (r : Response) : (s.respond p r).startOrder = s.startOrder := by cases p <;> rfl
@[simp] theorem State.respond_expiryStarts (p : Port) (r : Response) : (s.respond p r).expiryStarts = s.expiryStarts := by cases p <;> rfl
@[simp] theorem State.respond_safe (p : Port) (r : Response) : (s.respond p r).safe = s.safe := by cases p <;> rfl
@[simp] theorem State.respond_fillOrder (p : Port) (r : Response) : (s.respond p r).fillOrder = s.fillOrder := by cases p <;> rfl
@[simp] theorem State.respond_captureOrder (p : Port) (r : Response) : (s.respond p r).captureOrder = s.captureOrder := by cases p <;> rfl
@[simp] theorem State.respond_mport (p : Port) (r : Response) : (s.respond p r).mport = s.mport := by cases p <;> rfl
@[simp] theorem State.respond_lastPort (p : Port) (r : Response) : (s.respond p r).lastPort = s.lastPort := by cases p <;> rfl
@[simp] theorem State.respond_queue (p : Port) (r : Response) : (s.respond p r).queue = s.queue := by cases p <;> rfl
@[simp] theorem State.respond_irq (p : Port) (r : Response) : (s.respond p r).irq = s.irq := by cases p <;> rfl
@[simp] theorem State.respond_mask (p : Port) (r : Response) : (s.respond p r).mask = s.mask := by cases p <;> rfl
@[simp] theorem State.respond_irqEnable (p : Port) (r : Response) : (s.respond p r).irqEnable = s.irqEnable := by cases p <;> rfl
@[simp] theorem State.respond_stallLimit (p : Port) (r : Response) : (s.respond p r).stallLimit = s.stallLimit := by cases p <;> rfl
@[simp] theorem State.respond_syncLevels (p : Port) (r : Response) : (s.respond p r).syncLevels = s.syncLevels := by cases p <;> rfl
@[simp] theorem State.respond_faultLevels (p : Port) (r : Response) : (s.respond p r).faultLevels = s.faultLevels := by cases p <;> rfl
@[simp] theorem State.respond_receiver (p : Port) (r : Response) : (s.respond p r).receiver = s.receiver := by cases p <;> rfl
@[simp] theorem State.respond_reply (p : Port) (r : Response) : (s.respond p r).reply = s.reply := by cases p <;> rfl
@[simp] theorem State.respond_msdo (p : Port) (r : Response) : (s.respond p r).msdo = s.msdo := by cases p <;> rfl
@[simp] theorem State.respond_mem (p : Port) (r : Response) : (s.respond p r).mem = s.mem := by cases p <;> rfl
@[simp] theorem State.respond_freeCount (p : Port) (r : Response) : (s.respond p r).freeCount = s.freeCount := by cases p <;> rfl
@[simp] theorem State.respond_pending (p : Port) (r : Response) : (s.respond p r).pending = s.pending := by cases p <;> rfl
@[simp] theorem State.domain_respond (p : Port) (r : Response) (e : DomainId) : (s.respond p r).domain e = s.domain e := by cases p <;> rfl
@[simp] theorem State.slot_respond (p : Port) (r : Response) (e : DomainId) (j : SlotId) : (s.respond p r).slot e j = s.slot e j := by cases p <;> rfl
@[simp] theorem State.window_respond (p : Port) (r : Response) (w' : WindowId) : (s.respond p r).window w' = s.window w' := by cases p <;> rfl
@[simp] theorem State.safeEntry_respond (p : Port) (r : Response) (i : SafeId) : (s.respond p r).safeEntry i = s.safeEntry i := by cases p <;> rfl

/-! ### setDomain -/

@[simp] theorem State.setDomain_resetLow (d : DomainId) (x : Domain) : (s.setDomain d x).resetLow = s.resetLow := rfl
@[simp] theorem State.setDomain_tick (d : DomainId) (x : Domain) : (s.setDomain d x).tick = s.tick := rfl
@[simp] theorem State.setDomain_portA (d : DomainId) (x : Domain) : (s.setDomain d x).portA = s.portA := rfl
@[simp] theorem State.setDomain_portB (d : DomainId) (x : Domain) : (s.setDomain d x).portB = s.portB := rfl
@[simp] theorem State.setDomain_windows (d : DomainId) (x : Domain) : (s.setDomain d x).windows = s.windows := rfl
@[simp] theorem State.setDomain_entries (d : DomainId) (x : Domain) : (s.setDomain d x).entries = s.entries := rfl
@[simp] theorem State.setDomain_waiting (d : DomainId) (x : Domain) : (s.setDomain d x).waiting = s.waiting := rfl
@[simp] theorem State.setDomain_startOrder (d : DomainId) (x : Domain) : (s.setDomain d x).startOrder = s.startOrder := rfl
@[simp] theorem State.setDomain_expiryStarts (d : DomainId) (x : Domain) : (s.setDomain d x).expiryStarts = s.expiryStarts := rfl
@[simp] theorem State.setDomain_safe (d : DomainId) (x : Domain) : (s.setDomain d x).safe = s.safe := rfl
@[simp] theorem State.setDomain_fillOrder (d : DomainId) (x : Domain) : (s.setDomain d x).fillOrder = s.fillOrder := rfl
@[simp] theorem State.setDomain_captureOrder (d : DomainId) (x : Domain) : (s.setDomain d x).captureOrder = s.captureOrder := rfl
@[simp] theorem State.setDomain_mport (d : DomainId) (x : Domain) : (s.setDomain d x).mport = s.mport := rfl
@[simp] theorem State.setDomain_lastPort (d : DomainId) (x : Domain) : (s.setDomain d x).lastPort = s.lastPort := rfl
@[simp] theorem State.setDomain_queue (d : DomainId) (x : Domain) : (s.setDomain d x).queue = s.queue := rfl
@[simp] theorem State.setDomain_irq (d : DomainId) (x : Domain) : (s.setDomain d x).irq = s.irq := rfl
@[simp] theorem State.setDomain_mask (d : DomainId) (x : Domain) : (s.setDomain d x).mask = s.mask := rfl
@[simp] theorem State.setDomain_irqEnable (d : DomainId) (x : Domain) : (s.setDomain d x).irqEnable = s.irqEnable := rfl
@[simp] theorem State.setDomain_stallLimit (d : DomainId) (x : Domain) : (s.setDomain d x).stallLimit = s.stallLimit := rfl
@[simp] theorem State.setDomain_syncLevels (d : DomainId) (x : Domain) : (s.setDomain d x).syncLevels = s.syncLevels := rfl
@[simp] theorem State.setDomain_faultLevels (d : DomainId) (x : Domain) : (s.setDomain d x).faultLevels = s.faultLevels := rfl
@[simp] theorem State.setDomain_receiver (d : DomainId) (x : Domain) : (s.setDomain d x).receiver = s.receiver := rfl
@[simp] theorem State.setDomain_reply (d : DomainId) (x : Domain) : (s.setDomain d x).reply = s.reply := rfl
@[simp] theorem State.setDomain_msdo (d : DomainId) (x : Domain) : (s.setDomain d x).msdo = s.msdo := rfl
@[simp] theorem State.setDomain_mem (d : DomainId) (x : Domain) : (s.setDomain d x).mem = s.mem := rfl
@[simp] theorem State.setDomain_freeCount (d : DomainId) (x : Domain) : (s.setDomain d x).freeCount = s.freeCount := rfl
@[simp] theorem State.setDomain_pending (d : DomainId) (x : Domain) : (s.setDomain d x).pending = s.pending := rfl
@[simp] theorem State.port_setDomain (d : DomainId) (x : Domain) (p' : Port) : (s.setDomain d x).port p' = s.port p' := by cases p' <;> rfl
@[simp] theorem State.context_setDomain (d : DomainId) (x : Domain) (p' : Port) (c : ContextId) : (s.setDomain d x).context p' c = s.context p' c := by cases p' <;> rfl
@[simp] theorem State.window_setDomain (d : DomainId) (x : Domain) (w' : WindowId) : (s.setDomain d x).window w' = s.window w' := rfl
@[simp] theorem State.safeEntry_setDomain (d : DomainId) (x : Domain) (i' : SafeId) : (s.setDomain d x).safeEntry i' = s.safeEntry i' := rfl

/-! ### setSlot -/

@[simp] theorem State.setSlot_resetLow (d : DomainId) (k : SlotId) (b : BatchSlot) : (s.setSlot d k b).resetLow = s.resetLow := rfl
@[simp] theorem State.setSlot_tick (d : DomainId) (k : SlotId) (b : BatchSlot) : (s.setSlot d k b).tick = s.tick := rfl
@[simp] theorem State.setSlot_portA (d : DomainId) (k : SlotId) (b : BatchSlot) : (s.setSlot d k b).portA = s.portA := rfl
@[simp] theorem State.setSlot_portB (d : DomainId) (k : SlotId) (b : BatchSlot) : (s.setSlot d k b).portB = s.portB := rfl
@[simp] theorem State.setSlot_windows (d : DomainId) (k : SlotId) (b : BatchSlot) : (s.setSlot d k b).windows = s.windows := rfl
@[simp] theorem State.setSlot_entries (d : DomainId) (k : SlotId) (b : BatchSlot) : (s.setSlot d k b).entries = s.entries := rfl
@[simp] theorem State.setSlot_waiting (d : DomainId) (k : SlotId) (b : BatchSlot) : (s.setSlot d k b).waiting = s.waiting := rfl
@[simp] theorem State.setSlot_startOrder (d : DomainId) (k : SlotId) (b : BatchSlot) : (s.setSlot d k b).startOrder = s.startOrder := rfl
@[simp] theorem State.setSlot_expiryStarts (d : DomainId) (k : SlotId) (b : BatchSlot) : (s.setSlot d k b).expiryStarts = s.expiryStarts := rfl
@[simp] theorem State.setSlot_safe (d : DomainId) (k : SlotId) (b : BatchSlot) : (s.setSlot d k b).safe = s.safe := rfl
@[simp] theorem State.setSlot_fillOrder (d : DomainId) (k : SlotId) (b : BatchSlot) : (s.setSlot d k b).fillOrder = s.fillOrder := rfl
@[simp] theorem State.setSlot_captureOrder (d : DomainId) (k : SlotId) (b : BatchSlot) : (s.setSlot d k b).captureOrder = s.captureOrder := rfl
@[simp] theorem State.setSlot_mport (d : DomainId) (k : SlotId) (b : BatchSlot) : (s.setSlot d k b).mport = s.mport := rfl
@[simp] theorem State.setSlot_lastPort (d : DomainId) (k : SlotId) (b : BatchSlot) : (s.setSlot d k b).lastPort = s.lastPort := rfl
@[simp] theorem State.setSlot_queue (d : DomainId) (k : SlotId) (b : BatchSlot) : (s.setSlot d k b).queue = s.queue := rfl
@[simp] theorem State.setSlot_irq (d : DomainId) (k : SlotId) (b : BatchSlot) : (s.setSlot d k b).irq = s.irq := rfl
@[simp] theorem State.setSlot_mask (d : DomainId) (k : SlotId) (b : BatchSlot) : (s.setSlot d k b).mask = s.mask := rfl
@[simp] theorem State.setSlot_irqEnable (d : DomainId) (k : SlotId) (b : BatchSlot) : (s.setSlot d k b).irqEnable = s.irqEnable := rfl
@[simp] theorem State.setSlot_stallLimit (d : DomainId) (k : SlotId) (b : BatchSlot) : (s.setSlot d k b).stallLimit = s.stallLimit := rfl
@[simp] theorem State.setSlot_syncLevels (d : DomainId) (k : SlotId) (b : BatchSlot) : (s.setSlot d k b).syncLevels = s.syncLevels := rfl
@[simp] theorem State.setSlot_faultLevels (d : DomainId) (k : SlotId) (b : BatchSlot) : (s.setSlot d k b).faultLevels = s.faultLevels := rfl
@[simp] theorem State.setSlot_receiver (d : DomainId) (k : SlotId) (b : BatchSlot) : (s.setSlot d k b).receiver = s.receiver := rfl
@[simp] theorem State.setSlot_reply (d : DomainId) (k : SlotId) (b : BatchSlot) : (s.setSlot d k b).reply = s.reply := rfl
@[simp] theorem State.setSlot_msdo (d : DomainId) (k : SlotId) (b : BatchSlot) : (s.setSlot d k b).msdo = s.msdo := rfl
@[simp] theorem State.setSlot_mem (d : DomainId) (k : SlotId) (b : BatchSlot) : (s.setSlot d k b).mem = s.mem := rfl
@[simp] theorem State.setSlot_freeCount (d : DomainId) (k : SlotId) (b : BatchSlot) : (s.setSlot d k b).freeCount = s.freeCount := rfl
@[simp] theorem State.setSlot_pending (d : DomainId) (k : SlotId) (b : BatchSlot) : (s.setSlot d k b).pending = s.pending := rfl
@[simp] theorem State.port_setSlot (d : DomainId) (k : SlotId) (b : BatchSlot) (p' : Port) : (s.setSlot d k b).port p' = s.port p' := by cases p' <;> rfl
@[simp] theorem State.context_setSlot (d : DomainId) (k : SlotId) (b : BatchSlot) (p' : Port) (c : ContextId) : (s.setSlot d k b).context p' c = s.context p' c := by cases p' <;> rfl
@[simp] theorem State.window_setSlot (d : DomainId) (k : SlotId) (b : BatchSlot) (w' : WindowId) : (s.setSlot d k b).window w' = s.window w' := rfl
@[simp] theorem State.safeEntry_setSlot (d : DomainId) (k : SlotId) (b : BatchSlot) (i' : SafeId) : (s.setSlot d k b).safeEntry i' = s.safeEntry i' := rfl

/-! ### setEntry -/

@[simp] theorem State.setEntry_resetLow (i : EntryId) (e : Option StagingEntry) : (s.setEntry i e).resetLow = s.resetLow := rfl
@[simp] theorem State.setEntry_tick (i : EntryId) (e : Option StagingEntry) : (s.setEntry i e).tick = s.tick := rfl
@[simp] theorem State.setEntry_portA (i : EntryId) (e : Option StagingEntry) : (s.setEntry i e).portA = s.portA := rfl
@[simp] theorem State.setEntry_portB (i : EntryId) (e : Option StagingEntry) : (s.setEntry i e).portB = s.portB := rfl
@[simp] theorem State.setEntry_windows (i : EntryId) (e : Option StagingEntry) : (s.setEntry i e).windows = s.windows := rfl
@[simp] theorem State.setEntry_waiting (i : EntryId) (e : Option StagingEntry) : (s.setEntry i e).waiting = s.waiting := rfl
@[simp] theorem State.setEntry_domains (i : EntryId) (e : Option StagingEntry) : (s.setEntry i e).domains = s.domains := rfl
@[simp] theorem State.setEntry_startOrder (i : EntryId) (e : Option StagingEntry) : (s.setEntry i e).startOrder = s.startOrder := rfl
@[simp] theorem State.setEntry_expiryStarts (i : EntryId) (e : Option StagingEntry) : (s.setEntry i e).expiryStarts = s.expiryStarts := rfl
@[simp] theorem State.setEntry_safe (i : EntryId) (e : Option StagingEntry) : (s.setEntry i e).safe = s.safe := rfl
@[simp] theorem State.setEntry_fillOrder (i : EntryId) (e : Option StagingEntry) : (s.setEntry i e).fillOrder = s.fillOrder := rfl
@[simp] theorem State.setEntry_captureOrder (i : EntryId) (e : Option StagingEntry) : (s.setEntry i e).captureOrder = s.captureOrder := rfl
@[simp] theorem State.setEntry_mport (i : EntryId) (e : Option StagingEntry) : (s.setEntry i e).mport = s.mport := rfl
@[simp] theorem State.setEntry_lastPort (i : EntryId) (e : Option StagingEntry) : (s.setEntry i e).lastPort = s.lastPort := rfl
@[simp] theorem State.setEntry_queue (i : EntryId) (e : Option StagingEntry) : (s.setEntry i e).queue = s.queue := rfl
@[simp] theorem State.setEntry_irq (i : EntryId) (e : Option StagingEntry) : (s.setEntry i e).irq = s.irq := rfl
@[simp] theorem State.setEntry_mask (i : EntryId) (e : Option StagingEntry) : (s.setEntry i e).mask = s.mask := rfl
@[simp] theorem State.setEntry_irqEnable (i : EntryId) (e : Option StagingEntry) : (s.setEntry i e).irqEnable = s.irqEnable := rfl
@[simp] theorem State.setEntry_stallLimit (i : EntryId) (e : Option StagingEntry) : (s.setEntry i e).stallLimit = s.stallLimit := rfl
@[simp] theorem State.setEntry_syncLevels (i : EntryId) (e : Option StagingEntry) : (s.setEntry i e).syncLevels = s.syncLevels := rfl
@[simp] theorem State.setEntry_faultLevels (i : EntryId) (e : Option StagingEntry) : (s.setEntry i e).faultLevels = s.faultLevels := rfl
@[simp] theorem State.setEntry_receiver (i : EntryId) (e : Option StagingEntry) : (s.setEntry i e).receiver = s.receiver := rfl
@[simp] theorem State.setEntry_reply (i : EntryId) (e : Option StagingEntry) : (s.setEntry i e).reply = s.reply := rfl
@[simp] theorem State.setEntry_msdo (i : EntryId) (e : Option StagingEntry) : (s.setEntry i e).msdo = s.msdo := rfl
@[simp] theorem State.setEntry_mem (i : EntryId) (e : Option StagingEntry) : (s.setEntry i e).mem = s.mem := rfl
@[simp] theorem State.setEntry_freeCount (i : EntryId) (e : Option StagingEntry) : (s.setEntry i e).freeCount = s.freeCount := rfl
@[simp] theorem State.setEntry_pending (i : EntryId) (e : Option StagingEntry) : (s.setEntry i e).pending = s.pending := rfl
@[simp] theorem State.port_setEntry (i : EntryId) (e : Option StagingEntry) (p' : Port) : (s.setEntry i e).port p' = s.port p' := by cases p' <;> rfl
@[simp] theorem State.context_setEntry (i : EntryId) (e : Option StagingEntry) (p' : Port) (c : ContextId) : (s.setEntry i e).context p' c = s.context p' c := by cases p' <;> rfl
@[simp] theorem State.window_setEntry (i : EntryId) (e : Option StagingEntry) (w' : WindowId) : (s.setEntry i e).window w' = s.window w' := rfl
@[simp] theorem State.safeEntry_setEntry (i : EntryId) (e : Option StagingEntry) (i' : SafeId) : (s.setEntry i e).safeEntry i' = s.safeEntry i' := rfl
@[simp] theorem State.domain_setEntry (i : EntryId) (e : Option StagingEntry) (d' : DomainId) : (s.setEntry i e).domain d' = s.domain d' := rfl
@[simp] theorem State.slot_setEntry (i : EntryId) (e : Option StagingEntry) (d' : DomainId) (j : SlotId) : (s.setEntry i e).slot d' j = s.slot d' j := rfl

/-! ### setQueue -/

@[simp] theorem State.setQueue_resetLow (q : List EventRecord) : (s.setQueue q).resetLow = s.resetLow := rfl
@[simp] theorem State.setQueue_tick (q : List EventRecord) : (s.setQueue q).tick = s.tick := rfl
@[simp] theorem State.setQueue_portA (q : List EventRecord) : (s.setQueue q).portA = s.portA := rfl
@[simp] theorem State.setQueue_portB (q : List EventRecord) : (s.setQueue q).portB = s.portB := rfl
@[simp] theorem State.setQueue_windows (q : List EventRecord) : (s.setQueue q).windows = s.windows := rfl
@[simp] theorem State.setQueue_entries (q : List EventRecord) : (s.setQueue q).entries = s.entries := rfl
@[simp] theorem State.setQueue_waiting (q : List EventRecord) : (s.setQueue q).waiting = s.waiting := rfl
@[simp] theorem State.setQueue_domains (q : List EventRecord) : (s.setQueue q).domains = s.domains := rfl
@[simp] theorem State.setQueue_startOrder (q : List EventRecord) : (s.setQueue q).startOrder = s.startOrder := rfl
@[simp] theorem State.setQueue_expiryStarts (q : List EventRecord) : (s.setQueue q).expiryStarts = s.expiryStarts := rfl
@[simp] theorem State.setQueue_safe (q : List EventRecord) : (s.setQueue q).safe = s.safe := rfl
@[simp] theorem State.setQueue_fillOrder (q : List EventRecord) : (s.setQueue q).fillOrder = s.fillOrder := rfl
@[simp] theorem State.setQueue_captureOrder (q : List EventRecord) : (s.setQueue q).captureOrder = s.captureOrder := rfl
@[simp] theorem State.setQueue_mport (q : List EventRecord) : (s.setQueue q).mport = s.mport := rfl
@[simp] theorem State.setQueue_lastPort (q : List EventRecord) : (s.setQueue q).lastPort = s.lastPort := rfl
@[simp] theorem State.setQueue_mask (q : List EventRecord) : (s.setQueue q).mask = s.mask := rfl
@[simp] theorem State.setQueue_irqEnable (q : List EventRecord) : (s.setQueue q).irqEnable = s.irqEnable := rfl
@[simp] theorem State.setQueue_stallLimit (q : List EventRecord) : (s.setQueue q).stallLimit = s.stallLimit := rfl
@[simp] theorem State.setQueue_syncLevels (q : List EventRecord) : (s.setQueue q).syncLevels = s.syncLevels := rfl
@[simp] theorem State.setQueue_faultLevels (q : List EventRecord) : (s.setQueue q).faultLevels = s.faultLevels := rfl
@[simp] theorem State.setQueue_receiver (q : List EventRecord) : (s.setQueue q).receiver = s.receiver := rfl
@[simp] theorem State.setQueue_reply (q : List EventRecord) : (s.setQueue q).reply = s.reply := rfl
@[simp] theorem State.setQueue_msdo (q : List EventRecord) : (s.setQueue q).msdo = s.msdo := rfl
@[simp] theorem State.setQueue_mem (q : List EventRecord) : (s.setQueue q).mem = s.mem := rfl
@[simp] theorem State.setQueue_freeCount (q : List EventRecord) : (s.setQueue q).freeCount = s.freeCount := rfl
@[simp] theorem State.setQueue_pending (q : List EventRecord) : (s.setQueue q).pending = s.pending := rfl
@[simp] theorem State.port_setQueue (q : List EventRecord) (p' : Port) : (s.setQueue q).port p' = s.port p' := by cases p' <;> rfl
@[simp] theorem State.context_setQueue (q : List EventRecord) (p' : Port) (c : ContextId) : (s.setQueue q).context p' c = s.context p' c := by cases p' <;> rfl
@[simp] theorem State.window_setQueue (q : List EventRecord) (w' : WindowId) : (s.setQueue q).window w' = s.window w' := rfl
@[simp] theorem State.safeEntry_setQueue (q : List EventRecord) (i' : SafeId) : (s.setQueue q).safeEntry i' = s.safeEntry i' := rfl
@[simp] theorem State.domain_setQueue (q : List EventRecord) (d' : DomainId) : (s.setQueue q).domain d' = s.domain d' := rfl
@[simp] theorem State.slot_setQueue (q : List EventRecord) (d' : DomainId) (j : SlotId) : (s.setQueue q).slot d' j = s.slot d' j := rfl

/-! ### leaveWaiting -/

@[simp] theorem State.leaveWaiting_resetLow (p : Port) : (s.leaveWaiting p).resetLow = s.resetLow := rfl
@[simp] theorem State.leaveWaiting_tick (p : Port) : (s.leaveWaiting p).tick = s.tick := rfl
@[simp] theorem State.leaveWaiting_portA (p : Port) : (s.leaveWaiting p).portA = s.portA := rfl
@[simp] theorem State.leaveWaiting_portB (p : Port) : (s.leaveWaiting p).portB = s.portB := rfl
@[simp] theorem State.leaveWaiting_windows (p : Port) : (s.leaveWaiting p).windows = s.windows := rfl
@[simp] theorem State.leaveWaiting_entries (p : Port) : (s.leaveWaiting p).entries = s.entries := rfl
@[simp] theorem State.leaveWaiting_domains (p : Port) : (s.leaveWaiting p).domains = s.domains := rfl
@[simp] theorem State.leaveWaiting_startOrder (p : Port) : (s.leaveWaiting p).startOrder = s.startOrder := rfl
@[simp] theorem State.leaveWaiting_expiryStarts (p : Port) : (s.leaveWaiting p).expiryStarts = s.expiryStarts := rfl
@[simp] theorem State.leaveWaiting_safe (p : Port) : (s.leaveWaiting p).safe = s.safe := rfl
@[simp] theorem State.leaveWaiting_fillOrder (p : Port) : (s.leaveWaiting p).fillOrder = s.fillOrder := rfl
@[simp] theorem State.leaveWaiting_captureOrder (p : Port) : (s.leaveWaiting p).captureOrder = s.captureOrder := rfl
@[simp] theorem State.leaveWaiting_mport (p : Port) : (s.leaveWaiting p).mport = s.mport := rfl
@[simp] theorem State.leaveWaiting_lastPort (p : Port) : (s.leaveWaiting p).lastPort = s.lastPort := rfl
@[simp] theorem State.leaveWaiting_queue (p : Port) : (s.leaveWaiting p).queue = s.queue := rfl
@[simp] theorem State.leaveWaiting_irq (p : Port) : (s.leaveWaiting p).irq = s.irq := rfl
@[simp] theorem State.leaveWaiting_mask (p : Port) : (s.leaveWaiting p).mask = s.mask := rfl
@[simp] theorem State.leaveWaiting_irqEnable (p : Port) : (s.leaveWaiting p).irqEnable = s.irqEnable := rfl
@[simp] theorem State.leaveWaiting_stallLimit (p : Port) : (s.leaveWaiting p).stallLimit = s.stallLimit := rfl
@[simp] theorem State.leaveWaiting_syncLevels (p : Port) : (s.leaveWaiting p).syncLevels = s.syncLevels := rfl
@[simp] theorem State.leaveWaiting_faultLevels (p : Port) : (s.leaveWaiting p).faultLevels = s.faultLevels := rfl
@[simp] theorem State.leaveWaiting_receiver (p : Port) : (s.leaveWaiting p).receiver = s.receiver := rfl
@[simp] theorem State.leaveWaiting_reply (p : Port) : (s.leaveWaiting p).reply = s.reply := rfl
@[simp] theorem State.leaveWaiting_msdo (p : Port) : (s.leaveWaiting p).msdo = s.msdo := rfl
@[simp] theorem State.leaveWaiting_mem (p : Port) : (s.leaveWaiting p).mem = s.mem := rfl
@[simp] theorem State.leaveWaiting_freeCount (p : Port) : (s.leaveWaiting p).freeCount = s.freeCount := rfl
@[simp] theorem State.leaveWaiting_pending (p : Port) : (s.leaveWaiting p).pending = s.pending := rfl
@[simp] theorem State.port_leaveWaiting (p : Port) (p' : Port) : (s.leaveWaiting p).port p' = s.port p' := by cases p' <;> rfl
@[simp] theorem State.context_leaveWaiting (p : Port) (p' : Port) (c : ContextId) : (s.leaveWaiting p).context p' c = s.context p' c := by cases p' <;> rfl
@[simp] theorem State.window_leaveWaiting (p : Port) (w' : WindowId) : (s.leaveWaiting p).window w' = s.window w' := rfl
@[simp] theorem State.safeEntry_leaveWaiting (p : Port) (i' : SafeId) : (s.leaveWaiting p).safeEntry i' = s.safeEntry i' := rfl
@[simp] theorem State.domain_leaveWaiting (p : Port) (d' : DomainId) : (s.leaveWaiting p).domain d' = s.domain d' := rfl
@[simp] theorem State.slot_leaveWaiting (p : Port) (d' : DomainId) (j : SlotId) : (s.leaveWaiting p).slot d' j = s.slot d' j := rfl

/-! ### joinWaiting -/

@[simp] theorem State.joinWaiting_resetLow (w : Waiter) : (s.joinWaiting w).resetLow = s.resetLow := rfl
@[simp] theorem State.joinWaiting_tick (w : Waiter) : (s.joinWaiting w).tick = s.tick := rfl
@[simp] theorem State.joinWaiting_portA (w : Waiter) : (s.joinWaiting w).portA = s.portA := rfl
@[simp] theorem State.joinWaiting_portB (w : Waiter) : (s.joinWaiting w).portB = s.portB := rfl
@[simp] theorem State.joinWaiting_windows (w : Waiter) : (s.joinWaiting w).windows = s.windows := rfl
@[simp] theorem State.joinWaiting_entries (w : Waiter) : (s.joinWaiting w).entries = s.entries := rfl
@[simp] theorem State.joinWaiting_domains (w : Waiter) : (s.joinWaiting w).domains = s.domains := rfl
@[simp] theorem State.joinWaiting_startOrder (w : Waiter) : (s.joinWaiting w).startOrder = s.startOrder := rfl
@[simp] theorem State.joinWaiting_expiryStarts (w : Waiter) : (s.joinWaiting w).expiryStarts = s.expiryStarts := rfl
@[simp] theorem State.joinWaiting_safe (w : Waiter) : (s.joinWaiting w).safe = s.safe := rfl
@[simp] theorem State.joinWaiting_fillOrder (w : Waiter) : (s.joinWaiting w).fillOrder = s.fillOrder := rfl
@[simp] theorem State.joinWaiting_captureOrder (w : Waiter) : (s.joinWaiting w).captureOrder = s.captureOrder := rfl
@[simp] theorem State.joinWaiting_mport (w : Waiter) : (s.joinWaiting w).mport = s.mport := rfl
@[simp] theorem State.joinWaiting_lastPort (w : Waiter) : (s.joinWaiting w).lastPort = s.lastPort := rfl
@[simp] theorem State.joinWaiting_queue (w : Waiter) : (s.joinWaiting w).queue = s.queue := rfl
@[simp] theorem State.joinWaiting_irq (w : Waiter) : (s.joinWaiting w).irq = s.irq := rfl
@[simp] theorem State.joinWaiting_mask (w : Waiter) : (s.joinWaiting w).mask = s.mask := rfl
@[simp] theorem State.joinWaiting_irqEnable (w : Waiter) : (s.joinWaiting w).irqEnable = s.irqEnable := rfl
@[simp] theorem State.joinWaiting_stallLimit (w : Waiter) : (s.joinWaiting w).stallLimit = s.stallLimit := rfl
@[simp] theorem State.joinWaiting_syncLevels (w : Waiter) : (s.joinWaiting w).syncLevels = s.syncLevels := rfl
@[simp] theorem State.joinWaiting_faultLevels (w : Waiter) : (s.joinWaiting w).faultLevels = s.faultLevels := rfl
@[simp] theorem State.joinWaiting_receiver (w : Waiter) : (s.joinWaiting w).receiver = s.receiver := rfl
@[simp] theorem State.joinWaiting_reply (w : Waiter) : (s.joinWaiting w).reply = s.reply := rfl
@[simp] theorem State.joinWaiting_msdo (w : Waiter) : (s.joinWaiting w).msdo = s.msdo := rfl
@[simp] theorem State.joinWaiting_mem (w : Waiter) : (s.joinWaiting w).mem = s.mem := rfl
@[simp] theorem State.joinWaiting_freeCount (w : Waiter) : (s.joinWaiting w).freeCount = s.freeCount := rfl
@[simp] theorem State.joinWaiting_pending (w : Waiter) : (s.joinWaiting w).pending = s.pending := rfl
@[simp] theorem State.port_joinWaiting (w : Waiter) (p' : Port) : (s.joinWaiting w).port p' = s.port p' := by cases p' <;> rfl
@[simp] theorem State.context_joinWaiting (w : Waiter) (p' : Port) (c : ContextId) : (s.joinWaiting w).context p' c = s.context p' c := by cases p' <;> rfl
@[simp] theorem State.window_joinWaiting (w : Waiter) (w' : WindowId) : (s.joinWaiting w).window w' = s.window w' := rfl
@[simp] theorem State.safeEntry_joinWaiting (w : Waiter) (i' : SafeId) : (s.joinWaiting w).safeEntry i' = s.safeEntry i' := rfl
@[simp] theorem State.domain_joinWaiting (w : Waiter) (d' : DomainId) : (s.joinWaiting w).domain d' = s.domain d' := rfl
@[simp] theorem State.slot_joinWaiting (w : Waiter) (d' : DomainId) (j : SlotId) : (s.joinWaiting w).slot d' j = s.slot d' j := rfl

/-! ### What an update writes -/

@[simp] theorem State.setQueue_queue (q : List EventRecord) : (s.setQueue q).queue = q := rfl
@[simp] theorem State.setQueue_irq (q : List EventRecord) : (s.setQueue q).irq = (s.irqEnable && !q.isEmpty) := rfl
@[simp] theorem State.joinWaiting_waiting (w : Waiter) : (s.joinWaiting w).waiting = s.waiting ++ [w] := rfl
theorem State.leaveWaiting_waiting (p : Port) :
    (s.leaveWaiting p).waiting = s.waiting.filter fun w => w.port ≠ p := rfl
@[simp] theorem State.setEntry_entries (i : EntryId) (e : Option StagingEntry) :
    (s.setEntry i e).entries = s.entries.set i e := rfl
@[simp] theorem State.setDomain_domains (d : DomainId) (x : Domain) :
    (s.setDomain d x).domains = s.domains.set d x := rfl

@[simp] theorem State.port_setPort_self (p : Port) (u : PortUnit) : (s.setPort p u).port p = u := by cases p <;> rfl
@[simp] theorem State.port_setPort_other (p : Port) (u : PortUnit) :
    (s.setPort p u).port p.other = s.port p.other := by cases p <;> rfl
theorem State.port_setPort (p q : Port) (u : PortUnit) :
    (s.setPort p u).port q = if q = p then u else s.port q := by cases p <;> cases q <;> rfl
theorem State.port_setPort_ne {p q : Port} (h : q ≠ p) (u : PortUnit) : (s.setPort p u).port q = s.port q := by
  simp [State.port_setPort, h]
theorem State.port_setTxn (p q : Port) (t : Txn) :
    (s.setTxn p t).port q = if q = p then { s.port p with txn := t } else s.port q := s.port_setPort p q _
theorem State.port_respond (p q : Port) (r : Response) :
    (s.respond p r).port q = if q = p then { s.port p with txn := {}, ready := true, response := some r } else s.port q :=
  s.port_setPort p q _
theorem State.port_setContext (p q : Port) (c : ContextId) (x : Context) :
    (s.setContext p c x).port q =
      if q = p then { s.port p with contexts := (s.port p).contexts.set c x } else s.port q := s.port_setPort p q _
theorem State.port_useContext (p q : Port) (c : ContextId) :
    (s.useContext p c).port q = if q = p then { s.port p with lru := 1 - c } else s.port q := s.port_setPort p q _

@[simp] theorem State.domain_setDomain_self (d : DomainId) (x : Domain) : (s.setDomain d x).domain d = x := by
  simp [State.domain, State.setDomain]
theorem State.domain_setDomain_ne {d e : DomainId} (h : e ≠ d) (x : Domain) :
    (s.setDomain d x).domain e = s.domain e := by
  have : (d : Nat) ≠ e := fun hc => h (Fin.ext hc.symm)
  simp [State.domain, State.setDomain, this]
theorem State.domain_setDomain (d e : DomainId) (x : Domain) :
    (s.setDomain d x).domain e = if e = d then x else s.domain e := by
  by_cases h : e = d
  · subst h; simp
  · simp [h, s.domain_setDomain_ne h]

theorem State.slot_setDomain (d e : DomainId) (x : Domain) (k : SlotId) :
    (s.setDomain d x).slot e k = if e = d then x.slots[k] else s.slot e k := by
  simp only [State.slot, s.domain_setDomain]; split <;> rfl

theorem State.domain_setSlot (d e : DomainId) (k : SlotId) (b : BatchSlot) :
    (s.setSlot d k b).domain e = if e = d then { s.domain d with slots := (s.domain d).slots.set k b } else s.domain e :=
  s.domain_setDomain d e _

theorem State.slot_setSlot (d e : DomainId) (k j : SlotId) (b : BatchSlot) :
    (s.setSlot d k b).slot e j = if e = d ∧ j = k then b else s.slot e j := by
  by_cases h : e = d
  · subst h
    by_cases hj : j = k
    · subst hj; simp [State.slot, s.domain_setSlot]
    · have : (k : Nat) ≠ j := fun hc => hj (Fin.ext hc.symm)
      simp [State.slot, s.domain_setSlot, hj, this]
  · simp [State.slot, s.domain_setSlot, h]

@[simp] theorem State.slot_setSlot_self (d : DomainId) (k : SlotId) (b : BatchSlot) : (s.setSlot d k b).slot d k = b := by
  simp [s.slot_setSlot]

theorem State.entry_setEntry (i j : EntryId) (e : Option StagingEntry) :
    (s.setEntry i e).entries[j] = if j = i then e else s.entries[j] := by
  by_cases h : j = i
  · subst h; simp
  · have : (i : Nat) ≠ j := fun hc => h (Fin.ext hc.symm)
    simp [h, this]

@[simp] theorem Port.other_other (p : Port) : p.other.other = p := by cases p <;> rfl
theorem Port.other_ne (p : Port) : p.other ≠ p := by cases p <;> decide
theorem Port.eq_or_other (p q : Port) : q = p ∨ q = p.other := by cases p <;> cases q <;> decide

end Sys2Proof.Machine
end

