-- ==== Sys2Proof/Laws/Memory.lean ====
section
/-! SUPPORT. Laws of the SRAM and of byte lanes: the canonical form is kept, a write is read back, other cells stay. -/

namespace Sys2Proof.Machine

/-! ### One cell -/

theorem Memory.read?_write (m : List Host.Cell) (i j : Nat) (x : Byte) (h : Memory.wf m = true) :
    Memory.read? (Memory.write m i x) j = if j = i then some x else Memory.read? m j := by
  induction m with
  | nil => simp [Memory.write, Memory.read?]
  | cons c m ih =>
    obtain ⟨k, b⟩ := c
    simp only [Memory.wf, Bool.and_eq_true, decide_eq_true_eq] at h
    obtain ⟨⟨-, -⟩, hw⟩ := h
    simp only [Memory.write]
    split
    · simp only [Memory.read?]
    · split
      · subst_vars
        simp only [Memory.read?]
        split <;> rfl
      · rename_i hlt hne
        simp only [Memory.read?, ih hw]
        by_cases hj : j = k
        · subst hj; simp [Ne.symm hne]
        · simp [hj]

theorem Memory.above_write (m : List Host.Cell) (i j : Nat) (x : Byte) (h : Memory.above j m = true) (hi : j < i) :
    Memory.above j (Memory.write m i x) = true := by
  cases m with
  | nil => simpa [Memory.write, Memory.above] using hi
  | cons c m =>
    obtain ⟨k, b⟩ := c
    simp only [Memory.above, decide_eq_true_eq] at h
    simp only [Memory.write]
    split
    · simpa [Memory.above] using hi
    · split
      · simpa [Memory.above] using hi
      · simpa [Memory.above] using h

theorem Memory.wf_cons (k : Nat) (b : Byte) (m : List Host.Cell) :
    Memory.wf ((k, b) :: m) = true ↔ k < 2 ^ 24 ∧ Memory.above k m = true ∧ Memory.wf m = true := by
  simp only [Memory.wf, Bool.and_eq_true, decide_eq_true_eq, and_assoc]

theorem Memory.wf_write (m : List Host.Cell) (i : Nat) (x : Byte) (h : Memory.wf m = true) (hi : i < 2 ^ 24) :
    Memory.wf (Memory.write m i x) = true := by
  induction m with
  | nil => exact (Memory.wf_cons _ _ _).2 ⟨hi, rfl, rfl⟩
  | cons c m ih =>
    obtain ⟨k, b⟩ := c
    obtain ⟨hk, ha, hw⟩ := (Memory.wf_cons _ _ _).1 h
    simp only [Memory.write]
    split
    · rename_i hlt
      exact (Memory.wf_cons _ _ _).2 ⟨hi, decide_eq_true hlt, h⟩
    · split
      · subst_vars; exact (Memory.wf_cons _ _ _).2 ⟨hk, ha, hw⟩
      · exact (Memory.wf_cons _ _ _).2 ⟨hk, Memory.above_write m i k x ha (by omega), ih hw⟩

/-- A cell lies in the byte-address space. -/
theorem cell_lt (a : Addr) (l : Fin 4) : cell a l < 2 ^ 24 := by
  have := a.isLt; have := l.isLt; unfold cell; omega

theorem cell_inj {a a' : Addr} {l l' : Fin 4} : cell a l = cell a' l' ↔ a = a' ∧ l = l' := by
  constructor
  · intro h
    unfold cell at h
    have := l.isLt; have := l'.isLt
    exact ⟨BitVec.eq_of_toNat_eq (by omega), Fin.ext (by omega)⟩
  · rintro ⟨rfl, rfl⟩; rfl

/-! ### Words -/

theorem Memory.wf_writeLane (m : List Host.Cell) (a : Addr) (mask : Lanes) (data : Word) (l : Fin 4)
    (h : Memory.wf m = true) : Memory.wf (Memory.writeLane m a mask data l) = true := by
  unfold Memory.writeLane; split
  · exact Memory.wf_write m _ _ h (cell_lt a l)
  · exact h

theorem Memory.wf_writeWord (m : List Host.Cell) (a : Addr) (mask : Lanes) (data : Word)
    (h : Memory.wf m = true) : Memory.wf (Memory.writeWord m a mask data) = true := by
  unfold Memory.writeWord
  generalize List.finRange 4 = ls
  induction ls generalizing m with
  | nil => exact h
  | cons l ls ih => exact ih _ (Memory.wf_writeLane m a mask data l h)

/-- Every access keeps the canonical form. -/
theorem Memory.wf_complete (m : List Host.Cell) (acc : Access) (h : Memory.wf m = true) :
    Memory.wf (Memory.complete m acc) = true := by
  cases acc with
  | read a => exact h
  | write a mask data => exact Memory.wf_writeWord m a mask data h

theorem Memory.readLane_writeLane (m : List Host.Cell) (a a' : Addr) (mask : Lanes) (data : Word) (l l' : Fin 4)
    (h : Memory.wf m = true) :
    Memory.readLane (Memory.writeLane m a mask data l) a' l' =
      if a' = a ∧ l' = l ∧ mask.getLsbD l.val = true then lane data l else Memory.readLane m a' l' := by
  unfold Memory.writeLane
  split
  · rename_i hm
    simp only [Memory.readLane, Memory.read?_write m _ _ _ h, cell_inj, hm, and_true]
    split <;> simp_all
  · rename_i hm
    rw [if_neg fun hc => hm hc.2.2]

/-- What a lane reads as after a write: the write's byte where the mask names it at the written word, and what it read as
before everywhere else (R140). -/
theorem Memory.readLane_writeWord (m : List Host.Cell) (a a' : Addr) (mask : Lanes) (data : Word) (l : Fin 4)
    (h : Memory.wf m = true) :
    Memory.readLane (Memory.writeWord m a mask data) a' l =
      if a' = a ∧ mask.getLsbD l.val = true then lane data l else Memory.readLane m a' l := by
  have e : List.finRange 4 = [0, 1, 2, 3] := by decide
  have w0 := Memory.wf_writeLane m a mask data 0 h
  have w1 := Memory.wf_writeLane _ a mask data 1 w0
  have w2 := Memory.wf_writeLane _ a mask data 2 w1
  simp only [Memory.writeWord, e, List.foldl_cons, List.foldl_nil]
  rw [Memory.readLane_writeLane _ _ _ _ _ _ _ w2, Memory.readLane_writeLane _ _ _ _ _ _ _ w1,
    Memory.readLane_writeLane _ _ _ _ _ _ _ w0, Memory.readLane_writeLane _ _ _ _ _ _ _ h]
  by_cases ha : a' = a
  · subst ha
    fin_cases l <;> simp
  · simp [ha]

/-! ### Lanes of a word -/

theorem lane_wordOfLanes (l0 l1 l2 l3 : Byte) :
    lane (wordOfLanes l0 l1 l2 l3) 0 = l0 ∧ lane (wordOfLanes l0 l1 l2 l3) 1 = l1 ∧
      lane (wordOfLanes l0 l1 l2 l3) 2 = l2 ∧ lane (wordOfLanes l0 l1 l2 l3) 3 = l3 := by
  refine ⟨?_, ?_, ?_, ?_⟩ <;>
  · apply BitVec.eq_of_getLsbD_eq
    intro i hi
    simp only [lane, wordOfLanes, BitVec.getLsbD_extractLsb', BitVec.getLsbD_append]
    interval_cases i <;> simp

/-- Each lane of a merge is the new byte where the mask names it and the old byte elsewhere. -/
@[simp] theorem lane_mergeLanes (old new : Word) (m : Lanes) (l : Fin 4) :
    lane (mergeLanes old new m) l = if m.getLsbD l.val then lane new l else lane old l := by
  have h := lane_wordOfLanes (mergedLane old new m 0) (mergedLane old new m 1) (mergedLane old new m 2)
    (mergedLane old new m 3)
  unfold mergeLanes
  fin_cases l
  · exact h.1
  · exact h.2.1
  · exact h.2.2.1
  · exact h.2.2.2

/-- Two words with equal lanes are equal. -/
theorem word_ext {x y : Word} (h : ∀ l, lane x l = lane y l) : x = y := by
  apply BitVec.eq_of_getLsbD_eq
  intro i hi
  have hl := h ⟨i / 8, by omega⟩
  have := congrArg (fun b : Byte => b.getLsbD (i % 8)) hl
  simp only [lane, BitVec.getLsbD_extractLsb'] at this
  have hm : i % 8 < 8 := Nat.mod_lt _ (by decide)
  have hi' : 8 * (i / 8) + i % 8 = i := Nat.div_add_mod i 8
  simpa [hm, hi'] using this

@[simp] theorem lane_readWord (m : List Host.Cell) (a : Addr) (l : Fin 4) :
    lane (Memory.readWord m a) l = Memory.readLane m a l := by
  have h := lane_wordOfLanes (Memory.readLane m a 0) (Memory.readLane m a 1) (Memory.readLane m a 2)
    (Memory.readLane m a 3)
  unfold Memory.readWord
  fin_cases l
  · exact h.1
  · exact h.2.1
  · exact h.2.2.1
  · exact h.2.2.2

end Sys2Proof.Machine
end

