-- ==== Sys2Proof/Laws/Frames.lean ====
section
/-! SUPPORT. What no inner operation changes: the settings, the tables, the timebase, the line levels, the management port,
the SRAM, the queue of commands, the domain records and the commit numbers; and that IRQ goes on following the queue. -/

namespace Sys2Proof.Machine

/-- From `s` to `t` nothing changed but ports, staging entries, waiting list, batch slots and runtime states of domains,
order lists, the M-port's holder and the event queue. -/
structure Steady (s t : State) : Prop where
  resetLow : t.resetLow = s.resetLow
  tick : t.tick = s.tick
  windows : t.windows = s.windows
  safe : t.safe = s.safe
  mask : t.mask = s.mask
  irqEnable : t.irqEnable = s.irqEnable
  stallLimit : t.stallLimit = s.stallLimit
  syncLevels : t.syncLevels = s.syncLevels
  faultLevels : t.faultLevels = s.faultLevels
  receiver : t.receiver = s.receiver
  reply : t.reply = s.reply
  msdo : t.msdo = s.msdo
  mem : t.mem = s.mem
  pending : t.pending = s.pending
  cfg : ∀ d, (t.domain d).cfg = (s.domain d).cfg
  number : ∀ d, (t.domain d).commitNumber = (s.domain d).commitNumber
  irq : s.IrqFollowsQueue → t.IrqFollowsQueue

theorem Steady.refl (s : State) : Steady s s := by constructor <;> simp

theorem Steady.trans {s t u : State} (h : Steady s t) (k : Steady t u) : Steady s u := by
  constructor
  · exact k.resetLow.trans h.resetLow
  · exact k.tick.trans h.tick
  · exact k.windows.trans h.windows
  · exact k.safe.trans h.safe
  · exact k.mask.trans h.mask
  · exact k.irqEnable.trans h.irqEnable
  · exact k.stallLimit.trans h.stallLimit
  · exact k.syncLevels.trans h.syncLevels
  · exact k.faultLevels.trans h.faultLevels
  · exact k.receiver.trans h.receiver
  · exact k.reply.trans h.reply
  · exact k.msdo.trans h.msdo
  · exact k.mem.trans h.mem
  · exact k.pending.trans h.pending
  · exact fun d => (k.cfg d).trans (h.cfg d)
  · exact fun d => (k.number d).trans (h.number d)
  · exact fun i => k.irq (h.irq i)

/-- A fold of steady operations is steady. -/
theorem Steady.foldl {α : Type} {f : State → α → State} (hf : ∀ s x, Steady s (f s x)) (l : List α) (s : State) :
    Steady s (l.foldl f s) := by
  induction l generalizing s with
  | nil => exact Steady.refl s
  | cons x l ih => exact (hf s x).trans (ih _)

/-! ### The updates -/

theorem steady_setPort (s : State) (p : Port) (u : PortUnit) : Steady s (s.setPort p u) := by
  constructor <;> simp [State.IrqFollowsQueue]

theorem steady_setTxn (s : State) (p : Port) (t : Txn) : Steady s (s.setTxn p t) := steady_setPort s p _
theorem steady_setContext (s : State) (p : Port) (c : ContextId) (x : Context) : Steady s (s.setContext p c x) :=
  steady_setPort s p _
theorem steady_useContext (s : State) (p : Port) (c : ContextId) : Steady s (s.useContext p c) := steady_setPort s p _
theorem steady_respond (s : State) (p : Port) (r : Response) : Steady s (s.respond p r) := steady_setPort s p _

theorem steady_setEntry (s : State) (i : EntryId) (e : Option StagingEntry) : Steady s (s.setEntry i e) := by
  constructor <;> simp [State.IrqFollowsQueue]

theorem steady_leaveWaiting (s : State) (p : Port) : Steady s (s.leaveWaiting p) := by
  constructor <;> simp [State.IrqFollowsQueue]

theorem steady_joinWaiting (s : State) (w : Waiter) : Steady s (s.joinWaiting w) := by
  constructor <;> simp [State.IrqFollowsQueue]

/-- A domain replaced by one with the same record and commit number. -/
theorem steady_setDomain (s : State) (d : DomainId) (x : Domain) (hc : x.cfg = (s.domain d).cfg)
    (hn : x.commitNumber = (s.domain d).commitNumber) : Steady s (s.setDomain d x) := by
  refine ⟨rfl, rfl, rfl, rfl, rfl, rfl, rfl, rfl, rfl, rfl, rfl, rfl, rfl, rfl, fun e => ?_, fun e => ?_, id⟩
  · rw [s.domain_setDomain]; split <;> simp_all
  · rw [s.domain_setDomain]; split <;> simp_all

theorem steady_setSlot (s : State) (d : DomainId) (k : SlotId) (b : BatchSlot) : Steady s (s.setSlot d k b) :=
  steady_setDomain s d _ (by rfl) (by rfl)

/-- An update of the order lists, the M-port's holder, the last-granted port, the count of free values. -/
theorem steady_of_lists {s t : State}
    (h : t = { s with
      startOrder := t.startOrder, expiryStarts := t.expiryStarts, fillOrder := t.fillOrder,
      captureOrder := t.captureOrder, mport := t.mport, lastPort := t.lastPort, freeCount := t.freeCount }) :
    Steady s t := by
  rw [h]
  exact ⟨rfl, rfl, rfl, rfl, rfl, rfl, rfl, rfl, rfl, rfl, rfl, rfl, rfl, rfl, fun _ => rfl, fun _ => rfl, id⟩

/-! ### Events -/

@[simp] theorem length_markTail (l : List EventRecord) : (markTail l).length = l.length := by
  induction l with
  | nil => rfl
  | cons r l ih => cases l with
    | nil => rfl
    | cons r' l => simpa [markTail] using ih

theorem length_offered (q : List EventRecord) (r : EventRecord) (h : q.length ≤ 16) : (offered q r).length ≤ 16 := by
  unfold offered; split
  · simp; omega
  · simpa using h

theorem irqOk_setQueue (s : State) (q : List EventRecord) (h : q.length ≤ 16) : (s.setQueue q).IrqFollowsQueue := ⟨rfl, h⟩

theorem steady_raise (s : State) (e : Event) : Steady s (s.raise e) := by
  unfold State.raise; split
  · exact ⟨rfl, rfl, rfl, rfl, rfl, rfl, rfl, rfl, rfl, rfl, rfl, rfl, rfl, rfl, fun _ => rfl, fun _ => rfl,
      fun h => irqOk_setQueue s _ (length_offered _ _ h.2)⟩
  · exact Steady.refl s

/-! ### Holds -/

theorem steady_expireHeld (s : State) (p : Port) : Steady s (s.expireHeld p) :=
  ((steady_leaveWaiting s p).trans (steady_raise _ _)).trans (steady_respond _ _ _)

theorem steady_hold (s : State) (p : Port) (c : HoldCause) : Steady s (s.hold p c) := by
  unfold State.hold
  simp only
  split
  · exact (steady_setTxn _ _ _).trans (steady_expireHeld _ _)
  · exact steady_setTxn _ _ _

theorem steady_terminate (s : State) (p : Port) : Steady s (s.terminate p) :=
  (steady_leaveWaiting s p).trans (steady_respond _ _ _)

/-! ### The staging pool -/

theorem steady_mergeEntry (s : State) (i : EntryId) (m : Lanes) (x : Word) : Steady s (s.mergeEntry i m x) := by
  unfold State.mergeEntry; split
  · exact Steady.refl s
  · exact steady_setEntry _ _ _

theorem steady_newEntry (s : State) (d : DomainId) (k : SlotId) (i : EntryId) (a : Addr) (m : Lanes) (x : Word) :
    Steady s (s.newEntry d k i a m x) := (steady_setEntry s _ _).trans (steady_setSlot _ _ _ _)

theorem steady_stage (s : State) (d : DomainId) (a : Addr) (m : Lanes) (x : Word) : Steady s (s.stage d a m x) := by
  unfold State.stage; split
  · split
    · exact steady_mergeEntry _ _ _ _
    · split
      · exact steady_newEntry _ _ _ _ _ _ _
      · exact Steady.refl s
  · split
    · exact (steady_setSlot _ _ _ _).trans (steady_newEntry _ _ _ _ _ _ _)
    · exact Steady.refl s

theorem steady_sealOpen (s : State) (d : DomainId) : Steady s (s.sealOpen d) := by
  unfold State.sealOpen; split
  · exact Steady.refl s
  · exact (steady_setSlot _ _ _ _).trans (steady_setDomain _ _ _ (by rfl) (by rfl))

theorem steady_stageWrite (s : State) (d : DomainId) (acc : Access) (b : Bool) : Steady s (s.stageWrite d acc b) := by
  unfold State.stageWrite; dsimp only; split
  · exact (steady_stage _ _ _ _ _).trans (steady_sealOpen _ _)
  · exact steady_stage _ _ _ _ _

theorem steady_freeSlot (s : State) (d : DomainId) (k : SlotId) : Steady s (s.freeSlot d k) :=
  (Steady.foldl (fun s i => steady_setEntry s i none) _ _).trans (steady_setSlot _ _ _ _)

theorem steady_freeSlotsIn (s : State) (d : DomainId) (st : SlotState) : Steady s (s.freeSlotsIn d st) := by
  apply Steady.foldl; intro s k; split
  · exact steady_freeSlot _ _ _
  · exact Steady.refl s

theorem steady_examineWaiter (s : State) (w : Waiter) : Steady s (s.examineWaiter w) := by
  unfold State.examineWaiter; split
  · exact ((steady_leaveWaiting s _).trans (steady_stageWrite _ _ _ _)).trans (steady_respond _ _ _)
  · exact Steady.refl s

theorem steady_examineWaiting (s : State) : Steady s s.examineWaiting := Steady.foldl steady_examineWaiter _ _

theorem steady_arriveStaged (s : State) (p : Port) (d : DomainId) (b : Bool) : Steady s (s.arriveStaged p d b) := by
  unfold State.arriveStaged; dsimp only; split
  · exact (steady_stageWrite _ _ _ _).trans (steady_respond _ _ _)
  · split
    · exact (steady_raise _ _).trans (steady_respond _ _ _)
    · exact (steady_joinWaiting _ _).trans (steady_hold _ _ _)

/-! ### Classification -/

theorem steady_applyWrite (s : State) (p : Port) (o : WriteOutcome) : Steady s (s.applyWrite p o) := by
  unfold State.applyWrite; dsimp only; split
  · exact steady_setTxn _ _ _
  · exact steady_arriveStaged _ _ _ _
  · exact steady_hold _ _ _
  · exact (steady_raise _ _).trans (steady_respond _ _ _)
  · exact (steady_raise _ _).trans (steady_respond _ _ _)

theorem steady_reclassify (s : State) (p : Port) : Steady s (s.reclassify p) := steady_applyWrite _ _ _

theorem steady_inFreeOrder {α : Type} (s : State) (l : List α) (f : State → α → State)
    (hf : ∀ s x, Steady s (f s x)) : Steady s (s.inFreeOrder l f) :=
  (steady_of_lists (s := s) (t := { s with freeCount := (freeOrder l s.freeCount).2 }) (by rfl)).trans (Steady.foldl hf _ _)

/-! ### The snapshot unit -/

theorem steady_evict (s : State) (p : Port) (c : ContextId) (w : WindowId) : Steady s (s.evict p c w) := by
  unfold State.evict; split
  · split
    · exact Steady.refl s
    · exact steady_raise _ _
  · exact Steady.refl s

theorem steady_beginCapture (s : State) (p : Port) (w : WindowId) : Steady s (s.beginCapture p w) :=
  (((steady_evict s _ _ _).trans (steady_setContext _ _ _ _)).trans (steady_setTxn _ _ _)).trans (steady_of_lists (by rfl))

theorem steady_serve (s : State) (p : Port) (w : WindowId) (c : ContextId) : Steady s (s.serve p w c) := by
  unfold State.serve; split
  · dsimp only; split
    · exact ((steady_useContext _ _ _).trans (steady_respond _ _ _)).trans (steady_setContext _ _ _ _)
    · exact (steady_useContext _ _ _).trans (steady_respond _ _ _)
  · exact Steady.refl s

theorem steady_applyRead (s : State) (p : Port) (r : ReadPath) : Steady s (s.applyRead p r) := by
  unfold State.applyRead; split
  · exact steady_setTxn _ _ _
  · exact steady_serve _ _ _ _
  · exact steady_beginCapture _ _ _

theorem steady_completeCapture (s : State) (p : Port) (c : ContextId) (w : WindowId) (l : List Word) :
    Steady s (s.completeCapture p c w l) := by
  unfold State.completeCapture; dsimp only
  refine Steady.trans ((((steady_setContext s _ _ _).trans (steady_useContext _ p c)).trans
    (steady_of_lists (t := { (((s.setContext p c (.held w l s.tick)).useContext p c)) with
      captureOrder := (((s.setContext p c (.held w l s.tick)).useContext p c)).captureOrder.filter (· ≠ p) }) (by rfl))).trans
    (steady_respond _ p (.okayRead (copyWord l 0)))) ?_
  split
  · exact steady_reclassify _ _
  · exact Steady.refl _

theorem steady_storeCapture (s : State) (p : Port) (x : Word) : Steady s (s.storeCapture p x) := by
  unfold State.storeCapture; split
  · exact Steady.refl s
  · split
    · split
      · exact steady_setContext _ _ _ _
      · exact steady_completeCapture _ _ _ _ _
    · exact Steady.refl s

theorem steady_expireContext (s : State) (p : Port) (c : ContextId) : Steady s (s.expireContext p c) := by
  unfold State.expireContext; split
  · exact (steady_raise _ _).trans (steady_setContext _ _ _ _)
  · exact Steady.refl s

theorem steady_patchCopies (s : State) (p : Port) (acc : Access) : Steady s (s.patchCopies p acc) := steady_setPort _ _ _
theorem steady_endWriterWait (s : State) (p : Port) : Steady s (s.endWriterWait p) := steady_setPort _ _ _

/-! ### The safe fill -/

theorem steady_enterSafed (s : State) (d : DomainId) : Steady s (s.enterSafed d) :=
  (steady_setDomain s d { s.domain d with fill := {}, state := .safed } (by rfl) (by rfl)).trans (steady_of_lists (by rfl))

theorem steady_completeFill (s : State) (d : DomainId) : Steady s (s.completeFill d) :=
  ((steady_raise s _).trans (steady_enterSafed _ _)).trans (steady_inFreeOrder _ _ _ steady_reclassify)

theorem steady_joinFill (s : State) (d : DomainId) : Steady s (s.joinFill d) := steady_of_lists (by rfl)

theorem steady_openFill (s : State) (d : DomainId) : Steady s (s.openFill d) := by
  unfold State.openFill; split
  · exact steady_enterSafed _ _
  · exact (steady_setDomain _ _ _ (by rfl) (by rfl)).trans (steady_joinFill _ _)

theorem steady_beginFill (s : State) (d : DomainId) : Steady s (s.beginFill d) :=
  (Steady.foldl steady_raise _ _).trans (steady_openFill _ _)

/-- A fill without an enabled entry completes as it begins (R112). -/
theorem beginFill_empty {s : State} {d : DomainId} (h : s.nextSafe d 0 = none) :
    s.beginFill d = (s.raise (.safeDone d)).enterSafed d := by
  have : (s.raise (.safeDone d)).nextSafe d 0 = none := by rw [← h]; unfold State.raise; split <;> rfl
  simp only [State.beginFill, State.fillEvents, h, State.openFill, List.foldl_cons, List.foldl_nil, this]

/-- A fill with an enabled entry requests the lowest one (R110). -/
theorem beginFill_request {s : State} {d : DomainId} {i : SafeId} (h : s.nextSafe d 0 = some i) :
    s.beginFill d = (s.setDomain d { s.domain d with fill := { phase := .fillRequest, next := i } }).joinFill d := by
  simp only [State.beginFill, State.fillEvents, State.openFill, h, List.foldl_nil]

theorem steady_advanceFill (s : State) (d : DomainId) : Steady s (s.advanceFill d) := by
  unfold State.advanceFill; split
  · exact steady_completeFill _ _
  · exact steady_setDomain _ _ _ (by rfl) (by rfl)

/-! ### The commit engine and the domain controllers -/

theorem steady_joinStart (s : State) (d : DomainId) (b : Bool) : Steady s (s.joinStart d b) := by
  unfold State.joinStart; split <;> exact steady_of_lists (by rfl)

theorem steady_startCommit (s : State) (d : DomainId) (k : SlotId) (b : Bool) : Steady s (s.startCommit d k b) :=
  ((steady_setSlot s _ _ _).trans (steady_setDomain _ _ _ (by rfl) (by rfl))).trans (steady_joinStart _ _ _)

theorem steady_commitDecision (s : State) (d : DomainId) (b : Bool) : Steady s (s.commitDecision d b) := by
  unfold State.commitDecision; split
  · exact steady_raise _ _
  · split
    · exact steady_startCommit _ _ _ _
    · exact Steady.refl s

theorem steady_reachDisabled (s : State) (d : DomainId) : Steady s (s.reachDisabled d) := by
  unfold State.reachDisabled; dsimp only; split
  · exact ((steady_setDomain s d _ (by rfl) (by rfl)).trans (steady_raise _ _)).trans (steady_reclassify _ _)
  · exact (steady_setDomain s d _ (by rfl) (by rfl)).trans (steady_raise _ _)

theorem steady_continueStop (s : State) (d : DomainId) : Steady s (s.continueStop d) := by
  unfold State.continueStop; split
  · exact steady_startCommit _ _ _ _
  · exact steady_reachDisabled _ _

theorem steady_freeCommitted (s : State) (d : DomainId) : Steady s (s.freeCommitted d) :=
  (steady_freeSlot _ _ _).trans (steady_examineWaiting _)

theorem steady_notifyCommit (s : State) (d : DomainId) : Steady s (s.notifyCommit d) := by
  unfold State.notifyCommit; split
  · exact steady_raise _ _
  · exact Steady.refl s

theorem steady_leaveStart (s : State) (d : DomainId) : Steady s (s.leaveStart d) :=
  (steady_setDomain s d { s.domain d with commit := {} } (by rfl) (by rfl)).trans (steady_of_lists (by rfl))

theorem steady_continueAfter (s : State) (d : DomainId) : Steady s (s.continueAfter d) := by
  unfold State.continueAfter; split
  · exact steady_continueStop _ _
  · exact steady_beginFill _ _
  all_goals exact Steady.refl s

/-- A commit completion changes, of all that `Steady` keeps, the domain's commit number alone (R93, R94). -/
theorem steady_completeCommit (s : State) (d : DomainId) : Steady (s.raiseNumber d) (s.completeCommit d) :=
  (((steady_freeCommitted _ d).trans (steady_notifyCommit _ d)).trans (steady_leaveStart _ d)).trans
    (steady_continueAfter _ d)

/-- What `advanceCommit` can do: a next request, or the completion. -/
theorem steady_advanceCommit (s : State) (d : DomainId) :
    Steady s (s.advanceCommit d) ∨ s.advanceCommit d = s.completeCommit d := by
  unfold State.advanceCommit; dsimp only; split
  · exact .inl (steady_setDomain _ _ _ (by rfl) (by rfl))
  · split
    · exact .inl (steady_setDomain _ _ _ (by rfl) (by rfl))
    · exact .inr rfl

theorem steady_terminateWaiter (s : State) (d : DomainId) : Steady s (s.terminateWaiter d) := by
  unfold State.terminateWaiter; split
  · exact steady_terminate _ _
  · exact Steady.refl s

theorem steady_terminateStopping (s : State) (d : DomainId) : Steady s (s.terminateStopping d) := by
  unfold State.terminateStopping; split
  · exact steady_terminate _ _
  · exact Steady.refl s

theorem steady_enterSafing (s : State) (d : DomainId) : Steady s (s.enterSafing d) :=
  steady_setDomain _ _ _ (by rfl) (by rfl)

theorem steady_discardAtFault (s : State) (d : DomainId) : Steady s (s.discardAtFault d) :=
  ((steady_terminateWaiter s d).trans (steady_freeSlotsIn _ _ _)).trans (steady_freeSlotsIn _ _ _)

theorem steady_fillOrPend (s : State) (d : DomainId) : Steady s (s.fillOrPend d) := by
  unfold State.fillOrPend; split
  · exact steady_setDomain _ _ _ (by rfl) (by rfl)
  · exact steady_openFill _ _

theorem steady_raiseMerged (s : State) (ds : List DomainId) (events : DomainId → List Event) :
    Steady s (s.raiseMerged ds events) :=
  (steady_of_lists (s := s) (t := { s with freeCount := (freeMerge ds events s.freeCount).2 }) (by rfl)).trans
    (Steady.foldl steady_raise _ _)

theorem steady_takeFault (s : State) (d : DomainId) : Steady s (s.takeFault d) :=
  (steady_enterSafing _ _).trans (steady_discardAtFault _ _)

theorem steady_settleFault (s : State) (d : DomainId) : Steady s (s.settleFault d) :=
  (steady_terminateStopping _ _).trans (steady_fillOrPend _ _)

/-- No domain accepts a fault. -/
@[simp] theorem acceptFaults_nil (s : State) (notice : DomainId → List Event) : s.acceptFaults [] notice = s := rfl

/-- All that acceptances at one event do: the records, the discards, one examination, the rest, the ascending tail. -/
theorem acceptFaults_eq (s : State) {ds : List DomainId} (notice : DomainId → List Event) (h : ds ≠ []) :
    s.acceptFaults ds notice =
      let noted := s.raiseMerged ds (s.faultEvents notice)
      let t := (noted.inFreeOrder ds State.takeFault).examineWaiting.inFreeOrder ds State.settleFault
      { t with fillOrder := ascendTail s.fillOrder.length t.fillOrder } := by
  cases ds with
  | nil => exact absurd rfl h
  | cons d l => rfl

theorem steady_acceptFaults (s : State) (ds : List DomainId) (notice : DomainId → List Event) :
    Steady s (s.acceptFaults ds notice) := by
  unfold State.acceptFaults; split
  · exact Steady.refl s
  · exact ((((steady_raiseMerged _ _ _).trans (steady_inFreeOrder _ _ _ steady_takeFault)).trans
      (steady_examineWaiting _)).trans (steady_inFreeOrder _ _ _ steady_settleFault)).trans (steady_of_lists (by rfl))

theorem steady_syncEvent (s : State) (d : DomainId) : Steady s (s.syncEvent d) := by
  unfold State.syncEvent; split
  · exact (steady_setDomain _ _ _ (by rfl) (by rfl)).trans (steady_commitDecision _ _ _)
  all_goals exact Steady.refl s

theorem steady_expireMonitor (s : State) (d : DomainId) : Steady s (s.expireMonitor d) := by
  unfold State.expireMonitor; dsimp only; split
  · exact (steady_raise _ _).trans (steady_setDomain _ _ _ (by rfl) (by rfl))
  · exact ((steady_raise _ _).trans (steady_setDomain _ _ _ (by rfl) (by rfl))).trans (steady_commitDecision _ _ _)
  · exact steady_acceptFaults _ _ _

theorem steady_waiterToStopping (s : State) (d : DomainId) : Steady s (s.waiterToStopping d) := by
  unfold State.waiterToStopping; split
  · exact Steady.refl s
  · exact (steady_leaveWaiting _ _).trans (steady_setTxn _ _ _)

theorem steady_enterStopping (s : State) (d : DomainId) : Steady s (s.enterStopping d) :=
  steady_setDomain _ _ _ (by rfl) (by rfl)

theorem steady_discardAtStop (s : State) (d : DomainId) : Steady s (s.discardAtStop d) :=
  ((steady_waiterToStopping s d).trans (steady_freeSlotsIn _ _ _)).trans (steady_examineWaiting _)

theorem steady_awaitOrContinue (s : State) (d : DomainId) : Steady s (s.awaitOrContinue d) := by
  unfold State.awaitOrContinue; split
  · exact Steady.refl s
  · exact steady_continueStop _ _

theorem steady_stopDomain (s : State) (d : DomainId) : Steady s (s.stopDomain d) :=
  ((steady_enterStopping s d).trans (steady_discardAtStop _ d)).trans (steady_awaitOrContinue _ d)

/-! ### The arbiter and the timed events -/

theorem steady_markGranted (s : State) (r : Requester) : Steady s (s.markGranted r) := by
  cases r with
  | fill d => exact steady_setDomain _ _ _ (by rfl) (by rfl)
  | commit d => exact steady_setDomain _ _ _ (by rfl) (by rfl)
  | capture p => exact steady_setPort _ _ _
  | port p => exact (steady_setTxn s p _).trans (steady_of_lists (by rfl))

theorem steady_arbitrate (s : State) : Steady s s.arbitrate := by
  unfold State.arbitrate; split
  · exact Steady.refl s
  · split
    · exact Steady.refl s
    · exact (steady_markGranted _ _).trans (steady_of_lists (by rfl))

theorem steady_takeTimed (s : State) (e : TimedEvent) : Steady s (s.takeTimed e) := by
  unfold State.takeTimed; split
  · split
    · exact steady_expireHeld _ _
    · exact (steady_expireMonitor _ _).trans (steady_arbitrate _)
    · exact steady_expireContext _ _ _
  · exact Steady.refl s

theorem steady_takeDue (s : State) : Steady s s.takeDue := steady_inFreeOrder _ _ _ steady_takeTimed

theorem steady_expireIfDue (s : State) (p : Port) : Steady s (s.expireIfDue p) := by
  unfold State.expireIfDue; split
  · exact steady_expireHeld _ _
  · exact Steady.refl s

end Sys2Proof.Machine
end

