-- ==== Sys2Proof/Laws/Exec.lean ====
section
/-! SUPPORT. What a command can do to what `Steady` keeps: said once for every command, by kind of effect. -/

namespace Sys2Proof.Machine

/-- The state with the outputs of a frame: the bits shifted out, the receiver IDLE and a pending reply. -/
def State.framed (s : State) (m : List Bool) (r : Option Reply) : State :=
  { s with msdo := m, receiver := .idle, reply := r }

/-- The kinds of effect a command can have. -/
inductive Effect (c : Instr) (s t : State) : Prop where
  | steady (h : Steady s t)
  | access (g : Grant) (hg : s.mport = some g) (h : Steady (s.completeAccess g) t)
  | commit (g : Grant) (d : DomainId) (hg : s.mport = some g)
      (hc : c = .commitWriteComplete ∨ c = .sequenceWriteComplete) (h : Steady ((s.completeAccess g).raiseNumber d) t)
  | tick (u : State) (hc : c = .tick) (hl : s.resetLow = false) (h : Steady s u) (ht : t = u.advanceTick)
  | sync (v : Vector Bool 4) (hl : s.resetLow = false) (h : Steady { s with syncLevels := v } t)
  | fault (v : Vector Bool 2) (hl : s.resetLow = false) (h : Steady { s with faultLevels := v } t)
  | frame (m : List Bool) (r : Option Reply) (hl : s.resetLow = false) (h : Steady (s.framed m r) t)
  | pop (m : List Bool) (r : Option Reply) (e : EventRecord) (q : List EventRecord) (hl : s.resetLow = false)
      (hq : s.queue = e :: q) (h : t = (s.setQueue q).framed m r)
  | settings (m : List Bool) (r : Option Reply) (g : GlobalPayload) (b : Bool) (n : Nat) (hl : s.resetLow = false)
      (hc : c = .setGlobal g n) (hg : globalsOutOfRange g = false) (h : Steady ((s.framed m r).writeGlobals g b) t)
  | window (m : List Bool) (r : Option Reply) (i : WindowId) (b : Byte) (w : WindowPayload) (n : Nat)
      (hl : s.resetLow = false) (hc : c = .setWindow b w n) (hv : w.badValue = false)
      (hb : (s.captureAt .a i || s.captureAt .b i) = false)
      (ho : (w.stored.enabled && s.overlaps i w.stored) = false) (h : t = (s.framed m r).writeWindow i w.stored)
  | domain (m : List Bool) (r : Option Reply) (d : DomainId) (b : Byte) (p : DomainPayload) (x : DomainRecord) (n : Nat)
      (hl : s.resetLow = false) (hc : c = .setDomain b p n) (hd : (s.domain d).state = .disabled)
      (h : t = (s.framed m r).setDomain d { s.domain d with cfg := x })
  | safe (m : List Bool) (r : Option Reply) (i : SafeId) (b : Byte) (p : SafePayload) (x : SafeEntry) (n : Nat)
      (hl : s.resetLow = false) (hc : c = .setSafe b p n) (h : t = { s.framed m r with safe := s.safe.set i x })
  | softReset (m : List Bool) (r : Option Reply) (n : Nat) (hl : s.resetLow = false) (hc : c = .resetPart n)
      (hb : s.resetBusy = false) (h : t = (s.softReset).framed m r)
  | fall (hc : c = .resetFall) (hl : s.resetLow = false) (h : t = s.abandonAccess.powerOn)
  | rise (v : Vector Bool 4) (w : Vector Bool 2) (b : Bool) (hc : c = .resetRise v w b) (hl : s.resetLow = true)
      (h : t = s.rise v w b)
  | ignored (hl : s.resetLow = false) (h : t = { s with receiver := .idle })

theorem Steady.answer {s t : State} (h : Steady s t) (r : Reply) : Steady (s.answer r) (t.answer r) :=
  ⟨h.resetLow, h.tick, h.windows, h.safe, h.mask, h.irqEnable, h.stallLimit, h.syncLevels, h.faultLevels, h.receiver,
    rfl, h.msdo, h.mem, h.pending, h.cfg, h.number, h.irq⟩

/-- A frame whose command is steady. -/
theorem effect_carryOut (c : Instr) (s : State) (n : Nat) (f : State → State × Reply)
    (hf : ∀ u, Steady u (f u).1) : Effect c s (s.carryOut n f) := by
  unfold State.carryOut
  split
  · rename_i h
    simp only [State.frameTaken, Bool.and_eq_true, Bool.not_eq_true'] at h
    exact .frame (shiftOut s.reply n) (some (f (s.shiftFrame n)).2) h.1 ((hf (s.shiftFrame n)).answer _)
  · exact .steady (Steady.refl s)

/-- A frame whose command is one of several kinds of effect, told apart at the state the frame leaves. -/
theorem effect_carryOut_of (c : Instr) (s : State) (n : Nat) (f : State → State × Reply)
    (hf : s.resetLow = false → Effect c s ((f (s.shiftFrame n)).1.answer (f (s.shiftFrame n)).2)) :
    Effect c s (s.carryOut n f) := by
  unfold State.carryOut
  split
  · rename_i h
    simp only [State.frameTaken, Bool.and_eq_true, Bool.not_eq_true'] at h
    exact hf h.1
  · exact .steady (Steady.refl s)

/-- A command that answers and changes nothing else. -/
theorem effect_answer (c : Instr) (s : State) (n : Nat) (r : Reply) (hl : s.resetLow = false) :
    Effect c s ((s.shiftFrame n).answer r) :=
  .frame (shiftOut s.reply n) (some r) hl (Steady.refl _)

theorem Steady.onDomain (s : State) (b : Byte) (f : DomainId → State × Reply) (hf : ∀ d, Steady s (f d).1) :
    Steady s (s.onDomain b f).1 := by
  unfold State.onDomain; split
  · exact Steady.refl s
  · exact hf _

theorem steady_doStart (s : State) (d : DomainId) : Steady s (s.doStart d).1 := by
  unfold State.doStart
  repeat' split
  all_goals first | exact Steady.refl s | exact steady_setDomain _ _ _ (by rfl) (by rfl)

theorem steady_doStop (s : State) (d : DomainId) : Steady s (s.doStop d).1 := by
  have h : Steady s (s.stopDomain d).arbitrate := (steady_stopDomain s d).trans (steady_arbitrate (s.stopDomain d))
  unfold State.doStop
  generalize (s.stopDomain d).arbitrate = u at h ⊢
  cases (s.domain d).state
  · exact Steady.refl s
  · exact h
  · exact Steady.refl s
  · exact Steady.refl s
  · exact Steady.refl s

theorem steady_doSync (s : State) (d : DomainId) : Steady s (s.doSync d).1 := by
  unfold State.doSync; split
  · exact (steady_syncEvent s d).trans (steady_arbitrate _)
  · exact Steady.refl s

theorem steady_doSeal (s : State) (d : DomainId) : Steady s (s.doSeal d).1 := by
  unfold State.doSeal; split
  · split
    · exact Steady.refl s
    · exact steady_sealOpen _ _
  · exact Steady.refl s

theorem steady_doArm (s : State) (d : DomainId) : Steady s (s.doArm d).1 := by
  unfold State.doArm
  repeat' split
  all_goals first | exact Steady.refl s | exact steady_setDomain _ _ _ (by rfl) (by rfl)

theorem steady_takeAccess (s : State) (p : Port) (acc : Access) : Steady s (s.takeAccess p acc) := by
  unfold State.takeAccess; split
  · exact (steady_applyRead _ _ _).trans (steady_arbitrate _)
  · split
    · exact steady_respond _ _ _
    · exact (steady_reclassify _ _).trans (steady_arbitrate _)

/-- Steady after the access was completed. -/
theorem effect_advanceCommit (c : Instr) (s : State) (g : Grant) (d : DomainId) (hg : s.mport = some g)
    (hc : c = .commitWriteComplete ∨ c = .sequenceWriteComplete) :
    Effect c s (((s.completeAccess g).advanceCommit d).arbitrate) := by
  rcases steady_advanceCommit (s.completeAccess g) d with h | h
  · exact .access g hg (h.trans (steady_arbitrate _))
  · rw [h]; exact .commit g d hg hc ((steady_completeCommit _ _).trans (steady_arbitrate _))

theorem steady_setGlobals (s : State) (g : GlobalPayload) (b : Bool) : Steady (s.writeGlobals g b) (s.setGlobals g b) := by
  unfold State.setGlobals; split
  · exact Steady.refl _
  · exact steady_inFreeOrder _ _ _ steady_expireIfDue

theorem effect_setGlobal (s : State) (g : GlobalPayload) (n : Nat) (hl : s.resetLow = false) :
    Effect (.setGlobal g n) s
      (((s.shiftFrame (8 * 7 + n)).doSetGlobal g).1.answer ((s.shiftFrame (8 * 7 + n)).doSetGlobal g).2) := by
  unfold State.doSetGlobal
  split
  · exact effect_answer _ _ _ _ hl
  · rename_i b _
    split
    · exact effect_answer _ _ _ _ hl
    · rename_i hg
      exact .settings (shiftOut s.reply (8 * 7 + n)) (some (bare .ok)) g b n hl rfl (by simpa using hg)
        ((steady_setGlobals (s.shiftFrame (8 * 7 + n)) g b).answer (bare .ok))

theorem effect_popEvent (s : State) (n : Nat) (hl : s.resetLow = false) :
    Effect (.popEvent n) s
      ((s.shiftFrame (8 * 2 + n)).doPopEvent.1.answer (s.shiftFrame (8 * 2 + n)).doPopEvent.2) := by
  unfold State.doPopEvent
  split
  · exact effect_answer _ _ _ _ hl
  · rename_i r l hq
    exact .pop (shiftOut s.reply (8 * 2 + n)) (some (reported r.report)) r l hl hq rfl

theorem effect_setWindow (s : State) (b : Byte) (w : WindowPayload) (n : Nat) (hl : s.resetLow = false) :
    Effect (.setWindow b w n) s
      (((s.shiftFrame (8 * 17 + n)).doSetWindow b w).1.answer ((s.shiftFrame (8 * 17 + n)).doSetWindow b w).2) := by
  unfold State.doSetWindow
  split
  · exact effect_answer _ _ _ _ hl
  · split
    · exact effect_answer _ _ _ _ hl
    · split
      · exact effect_answer _ _ _ _ hl
      · split
        · exact effect_answer _ _ _ _ hl
        · split
          · exact effect_answer _ _ _ _ hl
          · rename_i i _ hv _ hb ho
            exact .window (shiftOut s.reply (8 * 17 + n)) (some (bare .ok)) i b w n hl rfl (by simpa using hv)
              (Bool.eq_false_iff.mpr hb) (Bool.eq_false_iff.mpr ho) rfl

theorem effect_setDomain (s : State) (b : Byte) (p : DomainPayload) (n : Nat) (hl : s.resetLow = false) :
    Effect (.setDomain b p n) s
      (((s.shiftFrame (8 * 15 + n)).onDomain b ((s.shiftFrame (8 * 15 + n)).doSetDomain p)).1.answer
        ((s.shiftFrame (8 * 15 + n)).onDomain b ((s.shiftFrame (8 * 15 + n)).doSetDomain p)).2) := by
  unfold State.onDomain
  split
  · exact effect_answer _ _ _ _ hl
  · unfold State.doSetDomain
    split
    · exact effect_answer _ _ _ _ hl
    · split
      · rename_i d _ _ x _ hd
        exact .domain (shiftOut s.reply (8 * 15 + n)) (some (bare .ok)) d b p x n hl rfl hd rfl
      · exact effect_answer _ _ _ _ hl

theorem effect_setSafe (s : State) (b : Byte) (e : SafePayload) (n : Nat) (hl : s.resetLow = false) :
    Effect (.setSafe b e n) s
      (((s.shiftFrame (8 * 13 + n)).doSetSafe b e).1.answer ((s.shiftFrame (8 * 13 + n)).doSetSafe b e).2) := by
  unfold State.doSetSafe
  split
  · exact effect_answer _ _ _ _ hl
  · split
    · exact effect_answer _ _ _ _ hl
    · split
      · exact effect_answer _ _ _ _ hl
      · rename_i i _ _ x _ _
        exact .safe (shiftOut s.reply (8 * 13 + n)) (some (bare .ok)) i b e x n hl rfl rfl

theorem effect_resetPart (s : State) (n : Nat) (hl : s.resetLow = false) :
    Effect (.resetPart n) s
      ((s.shiftFrame (8 * 2 + n)).doResetPart.1.answer (s.shiftFrame (8 * 2 + n)).doResetPart.2) := by
  unfold State.doResetPart
  split
  · exact effect_answer _ _ _ _ hl
  · rename_i hb
    exact .softReset (shiftOut s.reply (8 * 2 + n)) (some (bare .ok)) n hl rfl (Bool.eq_false_iff.mpr hb) rfl

/-- Every command answers a next state, and its effect is of one of the kinds above. -/
theorem exec_effect (c : Instr) (s : State) : ∃ t, exec c s = .next t ∧ Effect c s t := by
  cases c with
  | transactionAccept p acc =>
    refine ⟨_, rfl, ?_⟩
    split
    · exact .steady ((steady_setPort _ _ _).trans (steady_takeAccess _ _ _))
    · exact .steady (Steady.refl s)
  | portWriteComplete =>
    refine ⟨_, rfl, ?_⟩
    split
    · rename_i p a m d hg
      exact .access _ hg ((((steady_patchCopies _ _ _).trans (steady_respond _ _ _)).trans
        (steady_endWriterWait _ _)).trans (steady_arbitrate _))
    · exact .steady (Steady.refl s)
  | portReadComplete =>
    refine ⟨_, rfl, ?_⟩
    split
    · rename_i p a hg
      exact .access _ hg ((steady_respond _ _ _).trans (steady_arbitrate _))
    · exact .steady (Steady.refl s)
  | commitWriteComplete =>
    refine ⟨_, rfl, ?_⟩
    split
    · rename_i d acc hg
      split
      · exact effect_advanceCommit _ s _ d hg (.inl rfl)
      · exact .steady (Steady.refl s)
    · exact .steady (Steady.refl s)
  | sequenceWriteComplete =>
    refine ⟨_, rfl, ?_⟩
    split
    · rename_i d acc hg
      split
      · exact .commit _ d hg (.inr rfl) ((steady_completeCommit _ _).trans (steady_arbitrate _))
      · exact .steady (Steady.refl s)
    · exact .steady (Steady.refl s)
  | fillWriteComplete =>
    refine ⟨_, rfl, ?_⟩
    split
    · rename_i d acc hg
      split
      · exact .access _ hg ((steady_advanceFill _ _).trans (steady_arbitrate _))
      · exact .steady (Steady.refl s)
    · exact .steady (Steady.refl s)
  | captureReadComplete =>
    refine ⟨_, rfl, ?_⟩
    split
    · rename_i p acc hg
      exact .access _ hg ((steady_storeCapture _ _ _).trans (steady_arbitrate _))
    · exact .steady (Steady.refl s)
  | stallTimeout p =>
    refine ⟨_, rfl, ?_⟩
    split
    · exact .steady (steady_expireHeld _ _)
    · exact .steady (Steady.refl s)
  | tick =>
    refine ⟨_, rfl, ?_⟩
    split
    · exact .steady (Steady.refl s)
    · rename_i h
      exact .tick _ rfl (by simpa using h) (steady_takeDue s) rfl
  | syncMonitorExpiry d =>
    refine ⟨_, rfl, ?_⟩
    split
    · exact .steady ((steady_expireMonitor _ _).trans (steady_arbitrate _))
    · exact .steady (Steady.refl s)
  | holdLimitExpiry p c =>
    refine ⟨_, rfl, ?_⟩
    split
    · exact .steady (steady_expireContext _ _ _)
    · exact .steady (Steady.refl s)
  | syncEdge l e =>
    refine ⟨_, rfl, ?_⟩
    split
    · rename_i h
      simp only [State.syncEdgeOccurs, Bool.and_eq_true, Bool.not_eq_true'] at h
      exact .sync _ h.1 (((steady_inFreeOrder _ _ _ steady_syncEvent).trans
        (steady_of_lists (by rfl))).trans (steady_arbitrate _))
    · exact .steady (Steady.refl s)
  | faultEdge l =>
    refine ⟨_, rfl, ?_⟩
    split
    · rename_i h
      simp only [Bool.and_eq_true, Bool.not_eq_true'] at h
      exact .fault _ h.1 ((steady_acceptFaults _ _ _).trans (steady_arbitrate _))
    · exact .steady (Steady.refl s)
  | faultLineRelease l =>
    refine ⟨_, rfl, ?_⟩
    split
    · rename_i h
      simp only [Bool.and_eq_true, Bool.not_eq_true'] at h
      exact .fault _ h.1 (Steady.refl _)
    · exact .steady (Steady.refl s)
  | resetFall =>
    refine ⟨_, rfl, ?_⟩
    split
    · exact .steady (Steady.refl s)
    · rename_i h; exact .fall rfl (by simpa using h) rfl
  | resetRise v w b =>
    refine ⟨_, rfl, ?_⟩
    split
    · rename_i h; exact .rise v w b rfl h rfl
    · exact .steady (Steady.refl s)
  | emptyFrame r =>
    refine ⟨_, rfl, ?_⟩
    split
    · rename_i h
      simp only [State.frameTaken, Bool.and_eq_true, Bool.not_eq_true'] at h
      exact .frame (shiftOut s.reply r.val) s.reply h.1 (Steady.refl _)
    · exact .steady (Steady.refl s)
  | unknownCommand f _ =>
    refine ⟨_, rfl, ?_⟩
    split
    · exact effect_carryOut _ _ _ _ fun u => Steady.refl u
    · exact .steady (Steady.refl s)
  | shortFrame f _ =>
    refine ⟨_, rfl, ?_⟩
    split
    · exact effect_carryOut _ _ _ _ fun u => Steady.refl u
    · exact .steady (Steady.refl s)
  | badCheck f _ =>
    refine ⟨_, rfl, ?_⟩
    split
    · exact effect_carryOut _ _ _ _ fun u => Steady.refl u
    · exact .steady (Steady.refl s)
  | ignoredFrameEnd =>
    refine ⟨_, rfl, ?_⟩
    split
    · rename_i h
      simp only [Bool.and_eq_true, Bool.not_eq_true'] at h
      exact .ignored h.1 rfl
    · exact .steady (Steady.refl s)
  | nop n => exact ⟨_, rfl, effect_carryOut _ _ _ _ fun u => Steady.refl u⟩
  | getGlobal n => exact ⟨_, rfl, effect_carryOut _ _ _ _ fun u => Steady.refl u⟩
  | setGlobal g n => exact ⟨_, rfl, effect_carryOut_of _ _ _ _ (effect_setGlobal s g n)⟩
  | popEvent n => exact ⟨_, rfl, effect_carryOut_of _ _ _ _ (effect_popEvent s n)⟩
  | resetPart n => exact ⟨_, rfl, effect_carryOut_of _ _ _ _ (effect_resetPart s n)⟩
  | getWindow i n =>
    exact ⟨_, rfl, effect_carryOut _ _ _ _ fun u => by unfold State.doGetWindow; split <;> exact Steady.refl u⟩
  | setWindow i w n => exact ⟨_, rfl, effect_carryOut_of _ _ _ _ (effect_setWindow s i w n)⟩
  | getDomain d n =>
    exact ⟨_, rfl, effect_carryOut _ _ _ _ fun u => Steady.onDomain u _ _ fun _ => Steady.refl u⟩
  | setDomain d r n => exact ⟨_, rfl, effect_carryOut_of _ _ _ _ (effect_setDomain s d r n)⟩
  | start d n => exact ⟨_, rfl, effect_carryOut _ _ _ _ fun u => Steady.onDomain u _ _ (steady_doStart u)⟩
  | stop d n => exact ⟨_, rfl, effect_carryOut _ _ _ _ fun u => Steady.onDomain u _ _ (steady_doStop u)⟩
  | sealBatch d n => exact ⟨_, rfl, effect_carryOut _ _ _ _ fun u => Steady.onDomain u _ _ (steady_doSeal u)⟩
  | sync d n => exact ⟨_, rfl, effect_carryOut _ _ _ _ fun u => Steady.onDomain u _ _ (steady_doSync u)⟩
  | getSafe i n =>
    exact ⟨_, rfl, effect_carryOut _ _ _ _ fun u => by unfold State.doGetSafe; split <;> exact Steady.refl u⟩
  | setSafe i e n => exact ⟨_, rfl, effect_carryOut_of _ _ _ _ (effect_setSafe s i e n)⟩
  | arm d n => exact ⟨_, rfl, effect_carryOut _ _ _ _ fun u => Steady.onDomain u _ _ (steady_doArm u)⟩
  | getBatch d k n =>
    exact ⟨_, rfl, effect_carryOut _ _ _ _ fun u => by unfold State.doGetBatch; split <;> exact Steady.refl u⟩
  | peekStaging i n =>
    exact ⟨_, rfl, effect_carryOut _ _ _ _ fun u => by unfold State.doPeekStaging; split <;> exact Steady.refl u⟩

/-- A command whose next state is `t` has one of the effects. -/
theorem effect_of_exec {c : Instr} {s t : State} (h : exec c s = .next t) : Effect c s t := by
  obtain ⟨u, hu, he⟩ := exec_effect c s
  rw [hu] at h; cases h; exact he

end Sys2Proof.Machine
end

