-- ==== Sys2Proof/Laws/Pool.lean ====
section
/-! SUPPORT. What the operations of the staging pool do to ports, waiting list and batch slots. -/

namespace Sys2Proof.Machine

/-! ### Operations that leave ports, waiting list and the control state of domains as they are -/

/-- From `s` to `t` no port, no waiter, no holder of the M-port and no state, record, commit or fill of a domain changed:
staging entries, batch slots and the event queue may have. -/
structure PoolOnly (s t : State) : Prop where
  port : ∀ p, t.port p = s.port p
  waiting : t.waiting = s.waiting
  mport : t.mport = s.mport
  state : ∀ d, (t.domain d).state = (s.domain d).state
  cfg : ∀ d, (t.domain d).cfg = (s.domain d).cfg
  commit : ∀ d, (t.domain d).commit = (s.domain d).commit
  fill : ∀ d, (t.domain d).fill = (s.domain d).fill

theorem PoolOnly.refl (s : State) : PoolOnly s s := by constructor <;> simp

theorem PoolOnly.trans {s t u : State} (h : PoolOnly s t) (k : PoolOnly t u) : PoolOnly s u :=
  ⟨fun p => (k.port p).trans (h.port p), k.waiting.trans h.waiting, k.mport.trans h.mport,
    fun d => (k.state d).trans (h.state d), fun d => (k.cfg d).trans (h.cfg d),
    fun d => (k.commit d).trans (h.commit d), fun d => (k.fill d).trans (h.fill d)⟩

theorem PoolOnly.foldl {α : Type} {f : State → α → State} (hf : ∀ s x, PoolOnly s (f s x)) (l : List α) (s : State) :
    PoolOnly s (l.foldl f s) := by
  induction l generalizing s with
  | nil => exact PoolOnly.refl s
  | cons x l ih => exact (hf s x).trans (ih _)

theorem PoolOnly.context {s t : State} (h : PoolOnly s t) (p : Port) (c : ContextId) : t.context p c = s.context p c := by
  simp [State.context, h.port]

theorem poolOnly_raise (s : State) (e : Event) : PoolOnly s (s.raise e) := by
  unfold State.raise; split
  · constructor <;> simp
  · exact PoolOnly.refl s

/-- The events of several domains, raised at one event. -/
theorem poolOnly_raiseMerged (s : State) (ds : List DomainId) (events : DomainId → List Event) :
    PoolOnly s (s.raiseMerged ds events) :=
  (show PoolOnly s { s with freeCount := (freeMerge ds events s.freeCount).2 } by constructor <;> intros <;> rfl).trans
    (PoolOnly.foldl poolOnly_raise _ _)

@[simp] theorem slot_raise (s : State) (e : Event) (d : DomainId) (k : SlotId) : (s.raise e).slot d k = s.slot d k := by
  unfold State.raise; split <;> simp

@[simp] theorem domain_raise (s : State) (e : Event) (d : DomainId) : (s.raise e).domain d = s.domain d := by
  unfold State.raise; split <;> simp

@[simp] theorem port_raise (s : State) (e : Event) (p : Port) : (s.raise e).port p = s.port p :=
  (poolOnly_raise s e).port p

@[simp] theorem waiting_raise (s : State) (e : Event) : (s.raise e).waiting = s.waiting := (poolOnly_raise s e).waiting
@[simp] theorem mport_raise (s : State) (e : Event) : (s.raise e).mport = s.mport := (poolOnly_raise s e).mport

theorem poolOnly_setEntry (s : State) (i : EntryId) (e : Option StagingEntry) : PoolOnly s (s.setEntry i e) := by
  constructor <;> simp

/-- A domain replaced by one with the same state, record, commit and fill. -/
theorem poolOnly_setDomain (s : State) (d : DomainId) (x : Domain) (h1 : x.state = (s.domain d).state)
    (h2 : x.cfg = (s.domain d).cfg) (h3 : x.commit = (s.domain d).commit) (h4 : x.fill = (s.domain d).fill) :
    PoolOnly s (s.setDomain d x) := by
  refine ⟨by simp, rfl, rfl, fun e => ?_, fun e => ?_, fun e => ?_, fun e => ?_⟩ <;>
    (rw [s.domain_setDomain]; split <;> simp_all)

theorem poolOnly_setSlot (s : State) (d : DomainId) (k : SlotId) (b : BatchSlot) : PoolOnly s (s.setSlot d k b) :=
  poolOnly_setDomain s d _ (by rfl) (by rfl) (by rfl) (by rfl)

theorem poolOnly_stage (s : State) (d : DomainId) (a : Addr) (m : Lanes) (x : Word) : PoolOnly s (s.stage d a m x) := by
  unfold State.stage State.mergeEntry State.newEntry
  split
  · split
    · split
      · exact PoolOnly.refl s
      · exact poolOnly_setEntry _ _ _
    · split
      · exact (poolOnly_setEntry _ _ _).trans (poolOnly_setSlot _ _ _ _)
      · exact PoolOnly.refl s
  · split
    · exact ((poolOnly_setSlot _ _ _ _).trans (poolOnly_setEntry _ _ _)).trans (poolOnly_setSlot _ _ _ _)
    · exact PoolOnly.refl s

theorem poolOnly_sealOpen (s : State) (d : DomainId) : PoolOnly s (s.sealOpen d) := by
  unfold State.sealOpen; split
  · exact PoolOnly.refl s
  · exact (poolOnly_setSlot _ _ _ _).trans (poolOnly_setDomain _ _ _ (by rfl) (by rfl) (by rfl) (by rfl))

theorem poolOnly_stageWrite (s : State) (d : DomainId) (acc : Access) (b : Bool) : PoolOnly s (s.stageWrite d acc b) := by
  unfold State.stageWrite; dsimp only; split
  · exact (poolOnly_stage _ _ _ _ _).trans (poolOnly_sealOpen _ _)
  · exact poolOnly_stage _ _ _ _ _

theorem poolOnly_freeSlot (s : State) (d : DomainId) (k : SlotId) : PoolOnly s (s.freeSlot d k) :=
  (PoolOnly.foldl (fun s i => poolOnly_setEntry s i none) _ _).trans (poolOnly_setSlot _ _ _ _)

theorem poolOnly_freeSlotsIn (s : State) (d : DomainId) (st : SlotState) : PoolOnly s (s.freeSlotsIn d st) := by
  apply PoolOnly.foldl; intro s k; split
  · exact poolOnly_freeSlot _ _ _
  · exact PoolOnly.refl s

/-! ### What they do to slot states -/

theorem slotIn_some {s : State} {d : DomainId} {st : SlotState} {k : SlotId} (h : s.slotIn d st = some k) :
    (s.slot d k).state = st := by
  have := List.find?_some h; simpa using this

theorem slotIn_none {s : State} {d : DomainId} {st : SlotState} (h : s.slotIn d st = none) (k : SlotId) :
    (s.slot d k).state ≠ st := by
  have := List.find?_eq_none.mp h k (List.mem_finRange k); simpa using this

/-- A staged write opens at most one FREE slot of its domain and changes no other slot's state (R40, R41). -/
theorem state_stage (s : State) (d e : DomainId) (a : Addr) (m : Lanes) (x : Word) (j : SlotId) :
    ((s.stage d a m x).slot e j).state = (s.slot e j).state ∨
      (e = d ∧ (s.slot e j).state = .free ∧ ((s.stage d a m x).slot e j).state = .opened) := by
  unfold State.stage State.mergeEntry State.newEntry
  split
  · split
    · split <;> simp
    · split
      · left; simp only [State.slot_setSlot, State.slot_setEntry]; split
        · rename_i h; obtain ⟨rfl, rfl⟩ := h; rfl
        · rfl
      · simp
  · split
    · rename_i k _ hk
      simp only [State.slot_setSlot, State.slot_setEntry]
      by_cases h : e = d ∧ j = k
      · obtain ⟨rfl, rfl⟩ := h
        right; simp [slotIn_some hk]
      · left; simp [h]
    · simp

/-- Sealing turns the domain's OPEN slot SEALED and changes no other slot's state (R43, R44). -/
theorem state_sealOpen (s : State) (d e : DomainId) (j : SlotId) :
    ((s.sealOpen d).slot e j).state = (s.slot e j).state ∨
      (e = d ∧ (s.slot e j).state = .opened ∧ ((s.sealOpen d).slot e j).state = .sealed) := by
  unfold State.sealOpen
  split
  · simp
  · rename_i k hk
    dsimp only
    have hs : ∀ n, (((s.setSlot d k { s.slot d k with state := .sealed, rank := some n }).setDomain d
        { (s.setSlot d k { s.slot d k with state := .sealed, rank := some n }).domain d with sealCount := n }).slot e j) =
        (s.setSlot d k { s.slot d k with state := .sealed, rank := some n }).slot e j := by
      intro n; rw [State.slot_setDomain]; split
      · subst_vars; rfl
      · rfl
    rw [hs, State.slot_setSlot]
    by_cases h : e = d ∧ j = k
    · obtain ⟨rfl, rfl⟩ := h; right; simp [slotIn_some hk]
    · left; simp [h]

/-- A staged write makes no slot COMMITTING, and touches the slots of its own domain alone. -/
theorem state_stageWrite (s : State) (d e : DomainId) (acc : Access) (b : Bool) (j : SlotId) :
    ((s.stageWrite d acc b).slot e j).state = (s.slot e j).state ∨
      (e = d ∧ ((s.stageWrite d acc b).slot e j).state ≠ .committing) := by
  unfold State.stageWrite; dsimp only
  have h1 := state_stage s d e (accessAddr acc) (accessLanes acc) (accessData acc) j
  split
  · have h2 := state_sealOpen (s.stage d (accessAddr acc) (accessLanes acc) (accessData acc)) d e j
    rcases h2 with h2 | ⟨rfl, -, h2⟩
    · rw [h2]; rcases h1 with h1 | ⟨rfl, -, h1⟩
      · exact .inl h1
      · right; simp [h1]
    · right; simp [h2]
  · rcases h1 with h1 | ⟨rfl, -, h1⟩
    · exact .inl h1
    · right; simp [h1]

theorem slot_freeSlot (s : State) (d e : DomainId) (k j : SlotId) :
    (s.freeSlot d k).slot e j = if e = d ∧ j = k then {} else s.slot e j := by
  unfold State.freeSlot
  rw [State.slot_setSlot]
  split
  · rfl
  · generalize (s.slot d k).entries = l
    clear * -
    induction l generalizing s with
    | nil => rfl
    | cons i l ih => rw [List.foldl_cons, ih]; simp

theorem slot_freeSlots (s : State) (d e : DomainId) (st : SlotState) (l : List SlotId) (j : SlotId) :
    (l.foldl (fun s k => if (s.slot d k).state = st then s.freeSlot d k else s) s).slot e j =
      if e = d ∧ j ∈ l ∧ (s.slot e j).state = st then {} else s.slot e j := by
  induction l generalizing s with
  | nil => simp
  | cons k l ih =>
    rw [List.foldl_cons, ih]
    by_cases hk : (s.slot d k).state = st
    · rw [if_pos hk, slot_freeSlot]
      by_cases h : e = d ∧ j = k
      · obtain ⟨rfl, rfl⟩ := h
        simp [hk]
      · rw [if_neg h]
        by_cases he : e = d
        · have hj : j ≠ k := fun hc => h ⟨he, hc⟩
          simp [he, hj]
        · simp [he]
    · rw [if_neg hk]
      by_cases h : e = d ∧ j = k
      · obtain ⟨rfl, rfl⟩ := h
        simp [hk]
      · by_cases he : e = d
        · have hj : j ≠ k := fun hc => h ⟨he, hc⟩
          simp [he, hj]
        · simp [he]

/-- Freeing every batch of a state empties exactly the domain's slots in that state (R51, R52). -/
theorem slot_freeSlotsIn (s : State) (d e : DomainId) (st : SlotState) (j : SlotId) :
    (s.freeSlotsIn d st).slot e j = if e = d ∧ (s.slot e j).state = st then {} else s.slot e j := by
  unfold State.freeSlotsIn
  rw [slot_freeSlots s d e st]
  simp [List.mem_finRange]

end Sys2Proof.Machine
end

