-- ==== Sys2Proof/Laws/Batches.lean ====
section
/-! SUPPORT. Law 4 through the shared operations: each keeps `State.BatchLaw`, under the conditions it is called with. -/

namespace Sys2Proof.Machine

/-! ### One domain -/

/-- The law of a domain depends on its state, commit and fill, and on which slots are not FREE. -/
theorem Domain.BatchLaw.less {x y : Domain} (h : x.BatchLaw) (h1 : y.state = x.state) (h2 : y.commit = x.commit)
    (h3 : y.fill = x.fill) (h4 : ∀ k : SlotId, y.slots[k].state = x.slots[k].state ∨ y.slots[k].state = .free) :
    y.BatchLaw := by
  have key : ∀ k : SlotId, ∀ st, st ≠ .free → x.slots[k].state ≠ st → y.slots[k].state ≠ st := by
    intro k st hst hx; rcases h4 k with e | e <;> rw [e]
    · exact hx
    · exact fun hc => hst hc.symm
  refine ⟨?_, ?_, ?_, ?_, ?_⟩
  · rw [h1]; exact fun hs k => key k _ (by decide) (h.unopened hs k)
  · rw [h1]; exact fun hs hs' k => key k _ (by decide) (h.unsealed hs hs' k)
  · rw [h1]; exact fun hs k => key k _ (by decide) (h.uncommitting hs k)
  · rw [h2]; intro k hk
    rcases h4 k with e | e
    · rw [e] at hk; exact h.inFlight k hk
    · rw [e] at hk; cases hk
  · rw [h1, h3]; intro hf
    exact ⟨(h.filling hf).1, fun k => key k _ (by decide) ((h.filling hf).2 k)⟩

/-- A RUN domain whose slots change, none becoming COMMITTING. -/
theorem Domain.BatchLaw.running {x y : Domain} (h : x.BatchLaw) (h0 : x.state = .run) (h1 : y.state = x.state)
    (h2 : y.commit = x.commit) (h3 : y.fill = x.fill)
    (h4 : ∀ k : SlotId, y.slots[k].state = .committing → x.slots[k].state = .committing) : y.BatchLaw := by
  rw [h0] at h1
  refine ⟨by simp [h1], by simp [h1], by simp [h1], ?_, ?_⟩
  · rw [h2]; exact fun k hk => h.inFlight k (h4 k hk)
  · rw [h3]; intro hf; have := (h.filling hf).1; simp [h0] at this

/-! ### The pool's operations -/

theorem batchLaw_pool {s t : State} (h : s.BatchLaw) (hp : PoolOnly s t) (hd : ∀ d, (t.domain d).BatchLaw) : t.BatchLaw := by
  refine ⟨hd, ?_, ?_, ?_, ?_, ?_⟩
  · rw [hp.waiting]; intro w hw; rw [hp.state, hp.cfg, hp.port]; exact h.waiters w hw
  · rw [hp.waiting]; exact h.waitersApart
  · rw [hp.mport]; intro p acc hg; rw [hp.port]; exact h.granted p acc hg
  · intro p c hc; rw [hp.context] at hc; rw [hp.port]; exact h.leadWait p c hc
  · intro p c e hc he; rw [hp.context] at hc he; exact h.oneCapture p c e hc he

/-- An operation of the pool that leaves every slot as it is or frees it. -/
theorem batchLaw_less {s t : State} (h : s.BatchLaw) (hp : PoolOnly s t)
    (hs : ∀ d k, (t.slot d k).state = (s.slot d k).state ∨ (t.slot d k).state = .free) : t.BatchLaw :=
  batchLaw_pool h hp fun d => (h.domains d).less (hp.state d) (hp.commit d) (hp.fill d) (hs d)

theorem batchLaw_raise {s : State} (h : s.BatchLaw) (e : Event) : (s.raise e).BatchLaw :=
  batchLaw_less h (poolOnly_raise s e) fun d k => .inl (by simp)

theorem slot_raises (s : State) (l : List Event) (d : DomainId) (k : SlotId) :
    (l.foldl State.raise s).slot d k = s.slot d k := by
  induction l generalizing s with
  | nil => rfl
  | cons e l ih => exact (ih _).trans (slot_raise s e d k)

theorem batchLaw_raises {s : State} (h : s.BatchLaw) (l : List Event) : (l.foldl State.raise s).BatchLaw :=
  batchLaw_less h (PoolOnly.foldl poolOnly_raise l s) fun d k => .inl (by rw [slot_raises])

theorem batchLaw_raiseMerged {s : State} (h : s.BatchLaw) (ds : List DomainId) (events : DomainId → List Event) :
    (s.raiseMerged ds events).BatchLaw :=
  batchLaw_less h (poolOnly_raiseMerged s ds events) fun d k => .inl (by rw [State.raiseMerged, slot_raises]; rfl)

theorem batchLaw_freeSlot {s : State} (h : s.BatchLaw) (d : DomainId) (k : SlotId) : (s.freeSlot d k).BatchLaw :=
  batchLaw_less h (poolOnly_freeSlot s d k) fun e j => by rw [slot_freeSlot]; split <;> simp

theorem batchLaw_freeSlotsIn {s : State} (h : s.BatchLaw) (d : DomainId) (st : SlotState) :
    (s.freeSlotsIn d st).BatchLaw :=
  batchLaw_less h (poolOnly_freeSlotsIn s d st) fun e j => by rw [slot_freeSlotsIn]; split <;> simp

/-- Staging into a RUN domain, with the seal if there is one. -/
theorem batchLaw_stageWrite {s : State} (h : s.BatchLaw) (d : DomainId) (hd : (s.domain d).state = .run) (acc : Access)
    (b : Bool) : (s.stageWrite d acc b).BatchLaw := by
  have hp := poolOnly_stageWrite s d acc b
  refine batchLaw_pool h hp fun e => ?_
  by_cases he : e = d
  · subst he
    refine (h.domains e).running hd (hp.state e) (hp.commit e) (hp.fill e) fun k hk => ?_
    rcases state_stageWrite s e e acc b k with h1 | ⟨-, h1⟩
    · exact h1 ▸ hk
    · exact absurd hk h1
  · refine (h.domains e).less (hp.state e) (hp.commit e) (hp.fill e) fun k => .inl ?_
    rcases state_stageWrite s d e acc b k with h1 | ⟨h1, -⟩
    · exact h1
    · exact absurd h1 he

theorem batchLaw_sealOpen {s : State} (h : s.BatchLaw) (d : DomainId) (hd : (s.domain d).state = .run) :
    (s.sealOpen d).BatchLaw := by
  have hp := poolOnly_sealOpen s d
  refine batchLaw_pool h hp fun e => ?_
  by_cases he : e = d
  · subst he
    refine (h.domains e).running hd (hp.state e) (hp.commit e) (hp.fill e) fun k hk => ?_
    rcases state_sealOpen s e e k with h1 | ⟨-, -, h1⟩
    · exact h1 ▸ hk
    · exact absurd (h1.symm.trans hk) (by decide)
  · refine (h.domains e).less (hp.state e) (hp.commit e) (hp.fill e) fun k => .inl ?_
    rcases state_sealOpen s d e k with h1 | ⟨h1, -, -⟩
    · exact h1
    · exact absurd h1 he

/-! ### Ports -/

/-- No one waits for this port's record: it is not a waiter, it does not hold the M-port, it has no capture in progress. -/
structure State.Loose (s : State) (p : Port) : Prop where
  waiting : ∀ w ∈ s.waiting, w.port ≠ p
  mport : ∀ acc, s.mport ≠ some ⟨.port p, acc⟩
  contexts : ∀ c, (s.context p c).isCapturing = false

/-- A port in a phase other than HELD, MEMORY and LEAD_WAIT is loose. -/
theorem loose_of_phase {s : State} (h : s.BatchLaw) {p : Port} (h1 : (s.port p).txn.phase ≠ .held)
    (h2 : (s.port p).txn.phase ≠ .memory) (h3 : (s.port p).txn.phase ≠ .leadWait) : s.Loose p := by
  refine ⟨fun w hw hc => ?_, fun acc hg => h2 (h.granted p acc hg), fun c => ?_⟩
  · subst hc; exact h1 (h.waiters w hw).2.2.1
  · rw [← Bool.not_eq_true]; exact fun hc => h3 (h.leadWait p c hc)

/-- A port held under another cause than EXHAUSTED is loose. -/
theorem loose_of_cause {s : State} (h : s.BatchLaw) {p : Port} (h1 : (s.port p).txn.phase = .held)
    (h2 : (s.port p).txn.cause ≠ some .exhausted) : s.Loose p := by
  refine ⟨fun w hw hc => ?_, fun acc hg => ?_, fun c => ?_⟩
  · subst hc; exact h2 (h.waiters w hw).2.2.2
  · have := h.granted p acc hg; rw [h1] at this; cases this
  · rw [← Bool.not_eq_true]; intro hc; have := h.leadWait p c hc; rw [h1] at this; cases this

theorem State.Loose.poolOnly {s t : State} {p : Port} (h : s.Loose p) (hp : PoolOnly s t) : t.Loose p :=
  ⟨fun w hw => h.waiting w (hp.waiting ▸ hw), fun acc => hp.mport ▸ h.mport acc, fun c => by rw [hp.context]; exact h.contexts c⟩

/-- A loose port's unit may be replaced by any that starts no capture. -/
theorem batchLaw_setPort {s : State} (h : s.BatchLaw) {p : Port} (hl : s.Loose p) (u : PortUnit)
    (hu : ∀ c : ContextId, u.contexts[c].isCapturing = false) : (s.setPort p u).BatchLaw := by
  refine ⟨fun d => by rw [State.domain_setPort]; exact h.domains d, ?_, by simpa using h.waitersApart, ?_, ?_, ?_⟩
  · intro w hw
    simp only [State.setPort_waiting] at hw
    rw [State.port_setPort_ne _ (hl.waiting w hw)]
    simpa using h.waiters w hw
  · intro q acc hg
    simp only [State.setPort_mport] at hg
    have hq : q ≠ p := by rintro rfl; exact hl.mport acc hg
    rw [State.port_setPort_ne _ hq]
    exact h.granted q acc hg
  · intro q c hc
    by_cases hq : q = p
    · subst hq
      have e : (s.setPort q u).context q c = u.contexts[c] := by simp [State.context]
      rw [e, hu] at hc; cases hc
    · have e := s.port_setPort_ne hq u
      simp only [State.context, e] at hc ⊢; exact h.leadWait q c hc
  · intro q c e hc he
    by_cases hq : q = p
    · subst hq
      have e : (s.setPort q u).context q c = u.contexts[c] := by simp [State.context]
      rw [e, hu] at hc; cases hc
    · have e := s.port_setPort_ne hq u
      simp only [State.context, e] at hc he; exact h.oneCapture q c _ hc he

theorem batchLaw_setTxn {s : State} (h : s.BatchLaw) {p : Port} (hl : s.Loose p) (t : Txn) : (s.setTxn p t).BatchLaw :=
  batchLaw_setPort h hl _ hl.contexts

theorem batchLaw_respond {s : State} (h : s.BatchLaw) {p : Port} (hl : s.Loose p) (r : Response) :
    (s.respond p r).BatchLaw :=
  batchLaw_setPort h hl _ hl.contexts

theorem State.Loose.setPort {s : State} {p : Port} (hl : s.Loose p) (u : PortUnit)
    (hu : ∀ c : ContextId, u.contexts[c].isCapturing = false) : (s.setPort p u).Loose p :=
  ⟨by simpa using hl.waiting, by simpa using hl.mport, fun c => by simpa [State.context] using hu c⟩

theorem State.Loose.setTxn {s : State} {p : Port} (hl : s.Loose p) (t : Txn) : (s.setTxn p t).Loose p :=
  hl.setPort _ hl.contexts

/-! ### The waiting list -/

theorem batchLaw_leaveWaiting {s : State} (h : s.BatchLaw) (p : Port) : (s.leaveWaiting p).BatchLaw := by
  refine ⟨by simpa using h.domains, ?_, ?_, by simpa using h.granted, by simpa using h.leadWait, by simpa using h.oneCapture⟩
  · intro w hw
    rw [State.leaveWaiting_waiting] at hw
    simpa using h.waiters w (List.mem_filter.mp hw).1
  · rw [State.leaveWaiting_waiting]; exact h.waitersApart.filter _

/-- A held write that leaves the waiting list is loose. -/
theorem loose_leaveWaiting {s : State} (h : s.BatchLaw) {p : Port} (h1 : (s.port p).txn.phase = .held) :
    (s.leaveWaiting p).Loose p := by
  refine ⟨fun w hw => ?_, fun acc hg => ?_, fun c => ?_⟩
  · rw [State.leaveWaiting_waiting] at hw; simpa using (List.mem_filter.mp hw).2
  · have := h.granted p acc (by simpa using hg); rw [h1] at this; cases this
  · rw [← Bool.not_eq_true]; intro hc; have := h.leadWait p c (by simpa using hc); rw [h1] at this; cases this

theorem batchLaw_expireHeld {s : State} (h : s.BatchLaw) {p : Port} (h1 : (s.port p).txn.phase = .held) :
    (s.expireHeld p).BatchLaw :=
  batchLaw_respond (batchLaw_raise (batchLaw_leaveWaiting h p) _)
    ((loose_leaveWaiting h h1).poolOnly (poolOnly_raise _ _)) _

theorem batchLaw_terminate {s : State} (h : s.BatchLaw) {p : Port} (h1 : (s.port p).txn.phase = .held) :
    (s.terminate p).BatchLaw :=
  batchLaw_respond (batchLaw_leaveWaiting h p) (loose_leaveWaiting h h1) _

theorem stallDue_held {s : State} {p : Port} (h : s.stallDue p = true) : (s.port p).txn.phase = .held := by
  simp only [State.stallDue, decide_eq_true_eq] at h; exact h.1

/-- A loose port enters a hold of its own. -/
theorem batchLaw_hold {s : State} (h : s.BatchLaw) {p : Port} (hl : s.Loose p) (c : HoldCause) :
    (s.hold p c).BatchLaw := by
  unfold State.hold
  dsimp only
  have h1 := batchLaw_setTxn h hl
    { (s.port p).txn with phase := .held, cause := some c, startTick := some ((s.port p).txn.startTick.getD s.tick) }
  split
  · exact batchLaw_expireHeld h1 (stallDue_held (by assumption))
  · exact h1

/-- A loose port's write joins the waiting list of its RUN domain and is held under EXHAUSTED (R47). -/
theorem batchLaw_joinHold {s : State} (h : s.BatchLaw) {p : Port} (hl : s.Loose p) (w : Waiter) (hw : w.port = p)
    (hd : (s.domain w.domain).state = .run) (hp : (s.domain w.domain).cfg.writer = p) :
    ((s.joinWaiting w).hold p .exhausted).BatchLaw := by
  subst hw
  unfold State.hold
  dsimp only
  generalize ht : Txn.mk .held ((s.joinWaiting w).port w.port).txn.access (some .exhausted)
    (some (((s.joinWaiting w).port w.port).txn.startTick.getD (s.joinWaiting w).tick)) = t
  have h1 : ((s.joinWaiting w).setTxn w.port t).BatchLaw := by
    have hb := batchLaw_setTxn h hl t
    have hport : ∀ q, ((s.joinWaiting w).setTxn w.port t).port q = (s.setTxn w.port t).port q := by
      intro q; rw [State.port_setTxn, State.port_setTxn]; simp
    refine ⟨by simpa using hb.domains, ?_, ?_, ?_, ?_, ?_⟩
    · intro v hv
      simp only [State.setTxn_waiting, State.joinWaiting_waiting, List.mem_append, List.mem_singleton] at hv
      rw [hport]
      rcases hv with hv | rfl
      · simpa using hb.waiters v (by simpa using hv)
      · refine ⟨by simpa using hd, by simpa using hp, ?_, ?_⟩ <;> simp [State.port_setTxn, ← ht]
    · simp only [State.setTxn_waiting, State.joinWaiting_waiting]
      rw [List.pairwise_append]
      exact ⟨h.waitersApart, List.pairwise_singleton _ _, fun v hv u hu => by
        rw [List.mem_singleton.mp hu]; exact hl.waiting v hv⟩
    · intro q acc hg; rw [hport]; exact hb.granted q acc (by simpa using hg)
    · intro q c hc; simp only [State.context, hport] at hc ⊢; exact hb.leadWait q c hc
    · intro q c e hc he; simp only [State.context, hport] at hc he; exact hb.oneCapture q c e hc he
  split
  · exact batchLaw_expireHeld h1 (stallDue_held (by assumption))
  · exact h1

/-- What an operation on the write of one port leaves of the rest: the other port, the holder of the M-port, the waiters of
the other port. -/
structure OnePort (p : Port) (s t : State) : Prop where
  port : ∀ q, q ≠ p → t.port q = s.port q
  mport : t.mport = s.mport
  waiting : ∀ w ∈ t.waiting, w.port ≠ p → w ∈ s.waiting

theorem OnePort.refl (p : Port) (s : State) : OnePort p s s := ⟨fun _ _ => rfl, rfl, fun _ h _ => h⟩

theorem OnePort.trans {p : Port} {s t u : State} (h : OnePort p s t) (k : OnePort p t u) : OnePort p s u :=
  ⟨fun q hq => (k.port q hq).trans (h.port q hq), k.mport.trans h.mport,
    fun w hw hn => h.waiting w (k.waiting w hw hn) hn⟩

theorem PoolOnly.onePort {s t : State} (h : PoolOnly s t) (p : Port) : OnePort p s t :=
  ⟨fun q _ => h.port q, h.mport, fun _ hw _ => h.waiting ▸ hw⟩

theorem onePort_setPort (s : State) (p : Port) (u : PortUnit) : OnePort p s (s.setPort p u) :=
  ⟨fun _ hq => s.port_setPort_ne hq u, by simp, fun w hw _ => by simpa using hw⟩

theorem onePort_leaveWaiting (s : State) (p : Port) : OnePort p s (s.leaveWaiting p) :=
  ⟨fun _ _ => by simp, by simp, fun w hw _ => by
    rw [State.leaveWaiting_waiting] at hw; exact (List.mem_filter.mp hw).1⟩

theorem onePort_joinWaiting (s : State) (w : Waiter) : OnePort w.port s (s.joinWaiting w) :=
  ⟨fun _ _ => by simp, by simp, fun v hv hn => by
    simp only [State.joinWaiting_waiting, List.mem_append, List.mem_singleton] at hv
    rcases hv with hv | rfl
    · exact hv
    · exact absurd rfl hn⟩

theorem onePort_expireHeld (s : State) (p : Port) : OnePort p s (s.expireHeld p) :=
  ((onePort_leaveWaiting s p).trans ((poolOnly_raise _ _).onePort p)).trans (onePort_setPort _ _ _)

theorem onePort_hold (s : State) (p : Port) (c : HoldCause) : OnePort p s (s.hold p c) := by
  unfold State.hold; dsimp only; split
  · exact (onePort_setPort _ _ _).trans (onePort_expireHeld _ _)
  · exact onePort_setPort _ _ _

theorem onePort_arriveStaged (s : State) (p : Port) (d : DomainId) (b : Bool) : OnePort p s (s.arriveStaged p d b) := by
  unfold State.arriveStaged; dsimp only; split
  · exact ((poolOnly_stageWrite _ _ _ _).onePort p).trans (onePort_setPort _ _ _)
  · split
    · exact ((poolOnly_raise _ _).onePort p).trans (onePort_setPort _ _ _)
    · exact (onePort_joinWaiting s { port := p, domain := d, addr := _, seals := b }).trans (onePort_hold _ _ _)

theorem onePort_applyWrite (s : State) (p : Port) (o : WriteOutcome) : OnePort p s (s.applyWrite p o) := by
  unfold State.applyWrite; dsimp only; split
  · exact onePort_setPort _ _ _
  · exact onePort_arriveStaged _ _ _ _
  · exact onePort_hold _ _ _
  · exact ((poolOnly_raise _ _).onePort p).trans (onePort_setPort _ _ _)
  · exact ((poolOnly_raise _ _).onePort p).trans (onePort_setPort _ _ _)

theorem onePort_reclassify (s : State) (p : Port) : OnePort p s (s.reclassify p) := onePort_applyWrite _ _ _

/-- The other port stays loose. -/
theorem State.Loose.onePort {s t : State} {p q : Port} (h : s.Loose q) (hp : OnePort p s t) (hq : q ≠ p) : t.Loose q :=
  ⟨fun w hw hc => h.waiting w (hp.waiting w hw (hc ▸ hq)) hc, fun acc => hp.mport ▸ h.mport acc,
    fun c => by rw [State.context, hp.port q hq]; exact h.contexts c⟩

/-! ### Classification -/

/-- A write is staged only into a RUN domain whose writer port it is on (R4). -/
theorem classifyWrite_stage {s : State} {p : Port} {a : Addr} {d : DomainId} {b : Bool}
    (h : s.classifyWrite p a = .stage d b) : (s.domain d).state = .run ∧ (s.domain d).cfg.writer = p := by
  unfold State.classifyWrite at h
  split at h
  · split at h <;> cases h
  · unfold State.writeTable at h
    split at h
    · cases h
    · split at h
      · split at h
        · rename_i hw
          unfold stagedOutcome at h
          split at h
          · cases h
          · rename_i hs; cases h; exact ⟨hs, hw⟩
          · cases h
          · cases h
          · cases h
        · cases h
      · split at h <;> cases h

theorem batchLaw_arriveStaged {s : State} (h : s.BatchLaw) {p : Port} (hl : s.Loose p) (d : DomainId) (b : Bool)
    (hd : (s.domain d).state = .run) (hp : (s.domain d).cfg.writer = p) : (s.arriveStaged p d b).BatchLaw := by
  unfold State.arriveStaged; dsimp only; split
  · exact batchLaw_respond (batchLaw_stageWrite h d hd _ _) (hl.poolOnly (poolOnly_stageWrite _ _ _ _)) _
  · split
    · exact batchLaw_respond (batchLaw_raise h _) (hl.poolOnly (poolOnly_raise _ _)) _
    · exact batchLaw_joinHold h hl _ rfl hd hp

/-- The classification of a loose port's write keeps the law. -/
theorem batchLaw_reclassify {s : State} (h : s.BatchLaw) {p : Port} (hl : s.Loose p) : (s.reclassify p).BatchLaw := by
  unfold State.reclassify State.applyWrite; dsimp only; split
  · exact batchLaw_setTxn h hl _
  · rename_i d b hc
    exact batchLaw_arriveStaged h hl d b (classifyWrite_stage hc).1 (classifyWrite_stage hc).2
  · exact batchLaw_hold h hl _
  · exact batchLaw_respond (batchLaw_raise h _) (hl.poolOnly (poolOnly_raise _ _)) _
  · exact batchLaw_respond (batchLaw_raise h _) (hl.poolOnly (poolOnly_raise _ _)) _

/-! ### The examination of the waiting list -/

theorem batchLaw_examineWaiter {s : State} (h : s.BatchLaw) (w : Waiter) (hw : w ∈ s.waiting) :
    (s.examineWaiter w).BatchLaw := by
  unfold State.examineWaiter; split
  · have hs := h.waiters w hw
    refine batchLaw_respond (batchLaw_stageWrite (batchLaw_leaveWaiting h _) _ (by simpa using hs.1) _ _) ?_ _
    exact (loose_leaveWaiting h hs.2.2.1).poolOnly (poolOnly_stageWrite _ _ _ _)
  · exact h

theorem waiting_examineWaiter (s : State) (w v : Waiter) (hv : v ∈ s.waiting) (hn : w.port ≠ v.port) :
    v ∈ (s.examineWaiter w).waiting := by
  unfold State.examineWaiter; split
  · simp only [State.respond_waiting, (poolOnly_stageWrite _ _ _ _).waiting, State.leaveWaiting_waiting]
    exact List.mem_filter.mpr ⟨hv, by simpa using Ne.symm hn⟩
  · exact hv

theorem batchLaw_examine (l : List Waiter) {s : State} (h : s.BatchLaw) (hl : ∀ w ∈ l, w ∈ s.waiting)
    (ha : l.Pairwise fun v w => v.port ≠ w.port) : (l.foldl State.examineWaiter s).BatchLaw := by
  induction l generalizing s with
  | nil => exact h
  | cons w l ih =>
    rw [List.pairwise_cons] at ha
    exact ih (batchLaw_examineWaiter h w (hl w (List.mem_cons_self ..)))
      (fun v hv => waiting_examineWaiter s w v (hl v (List.mem_cons_of_mem _ hv)) (ha.1 v hv)) ha.2

theorem batchLaw_examineWaiting {s : State} (h : s.BatchLaw) : s.examineWaiting.BatchLaw :=
  batchLaw_examine s.waiting h (fun _ hw => hw) h.waitersApart

/-- The control state of every domain is left, and every slot that is not COMMITTING stays so. -/
structure NoNewCommit (s t : State) : Prop where
  state : ∀ d, (t.domain d).state = (s.domain d).state
  commit : ∀ d, (t.domain d).commit = (s.domain d).commit
  fill : ∀ d, (t.domain d).fill = (s.domain d).fill
  slot : ∀ d k, (t.slot d k).state = .committing → (s.slot d k).state = .committing

theorem NoNewCommit.refl (s : State) : NoNewCommit s s := ⟨fun _ => rfl, fun _ => rfl, fun _ => rfl, fun _ _ h => h⟩

theorem NoNewCommit.trans {s t u : State} (h : NoNewCommit s t) (k : NoNewCommit t u) : NoNewCommit s u :=
  ⟨fun d => (k.state d).trans (h.state d), fun d => (k.commit d).trans (h.commit d), fun d => (k.fill d).trans (h.fill d),
    fun d j hj => h.slot d j (k.slot d j hj)⟩

theorem noNewCommit_of_domains {s t : State} (h : ∀ d, t.domain d = s.domain d) : NoNewCommit s t :=
  ⟨fun d => by rw [h], fun d => by rw [h], fun d => by rw [h], fun d k => by unfold State.slot; rw [h]; exact id⟩

theorem noNewCommit_respond (s : State) (p : Port) (r : Response) : NoNewCommit s (s.respond p r) :=
  noNewCommit_of_domains fun _ => by simp

theorem noNewCommit_stageWrite (s : State) (d : DomainId) (acc : Access) (b : Bool) :
    NoNewCommit s (s.stageWrite d acc b) := by
  have hp := poolOnly_stageWrite s d acc b
  refine ⟨hp.state, hp.commit, hp.fill, fun e k hk => ?_⟩
  rcases state_stageWrite s d e acc b k with h | ⟨-, h⟩
  · rw [h] at hk; exact hk
  · exact absurd hk h

theorem noNewCommit_examineWaiter (s : State) (w : Waiter) : NoNewCommit s (s.examineWaiter w) := by
  unfold State.examineWaiter; split
  · exact .trans (t := s.leaveWaiting w.port) (noNewCommit_of_domains fun _ => rfl)
      ((noNewCommit_stageWrite _ _ _ _).trans (noNewCommit_respond _ _ _))
  · exact NoNewCommit.refl s

theorem noNewCommit_hold (s : State) (p : Port) (c : HoldCause) : NoNewCommit s (s.hold p c) :=
  noNewCommit_of_domains fun _ => by unfold State.hold; dsimp only; split <;> simp [State.expireHeld]

/-- A write classified again is staged, or leaves every domain. -/
theorem noNewCommit_reclassify (s : State) (p : Port) : NoNewCommit s (s.reclassify p) := by
  unfold State.reclassify State.applyWrite; dsimp only; split
  · exact noNewCommit_of_domains fun _ => by simp
  · unfold State.arriveStaged; dsimp only; split
    · exact (noNewCommit_stageWrite _ _ _ _).trans (noNewCommit_respond _ _ _)
    · split
      · exact noNewCommit_of_domains fun _ => by simp
      · exact .trans (t := s.joinWaiting _) (noNewCommit_of_domains fun _ => rfl) (noNewCommit_hold _ _ _)
  · exact noNewCommit_hold _ _ _
  · exact noNewCommit_of_domains fun _ => by simp
  · exact noNewCommit_of_domains fun _ => by simp

theorem noNewCommit_examineWaiting (s : State) : NoNewCommit s s.examineWaiting := by
  unfold State.examineWaiting
  generalize s.waiting = l
  induction l generalizing s with
  | nil => exact NoNewCommit.refl s
  | cons w l ih => exact (noNewCommit_examineWaiter s w).trans (ih _)

/-! ### One domain replaced -/

/-- A domain is replaced by a lawful one that stays the writer's RUN domain, or has no waiter. -/
theorem batchLaw_setDomain {s : State} (h : s.BatchLaw) (d : DomainId) (x : Domain) (hx : x.BatchLaw)
    (hw : (∀ w ∈ s.waiting, w.domain ≠ d) ∨ (x.state = (s.domain d).state ∧ x.cfg = (s.domain d).cfg)) :
    (s.setDomain d x).BatchLaw := by
  refine ⟨fun e => ?_, fun w hm => ?_, by simpa using h.waitersApart, by simpa using h.granted, by simpa using h.leadWait,
    by simpa using h.oneCapture⟩
  · rw [State.domain_setDomain]; split
    · exact hx
    · exact h.domains e
  · simp only [State.setDomain_waiting] at hm
    have hh := h.waiters w hm
    rw [State.port_setDomain]
    by_cases hd : w.domain = d
    · rcases hw with hw | ⟨h1, h2⟩
      · exact absurd hd (hw w hm)
      · subst hd; simp only [State.domain_setDomain_self, h1, h2]; exact hh
    · rw [State.domain_setDomain_ne _ hd]; exact hh

/-- A domain outside RUN has no waiter. -/
theorem no_waiter {s : State} (h : s.BatchLaw) {d : DomainId} (hd : (s.domain d).state ≠ .run) :
    ∀ w ∈ s.waiting, w.domain ≠ d := fun w hw hc => hd (hc ▸ (h.waiters w hw).1)

/-- Updates of the order lists, the free count and the last-granted port. -/
theorem batchLaw_lists {s t : State} (h : s.BatchLaw)
    (ht : t = { s with
      startOrder := t.startOrder, expiryStarts := t.expiryStarts, fillOrder := t.fillOrder,
      captureOrder := t.captureOrder, lastPort := t.lastPort, freeCount := t.freeCount }) : t.BatchLaw := by
  rw [ht]; exact ⟨h.domains, h.waiters, h.waitersApart, h.granted, h.leadWait, h.oneCapture⟩

/-! ### Orders left open -/

theorem freeOrderAux_perm {α : Type} (fuel : Nat) (l : List α) (n : Nat) : ((freeOrderAux fuel l n).1).Perm l := by
  induction fuel generalizing l n with
  | zero => exact .refl _
  | succ fuel ih =>
    match l with
    | [] => exact .refl _
    | [x] => exact .refl _
    | x :: y :: l =>
      have hi : Config.pick n % (x :: y :: l).length < (x :: y :: l).length := Nat.mod_lt _ (by simp)
      show ((x :: y :: l).getD (Config.pick n % (x :: y :: l).length) x :: _).Perm _
      refine ((ih _ _).cons _).trans ?_
      rw [List.getD_eq_getElem _ _ hi]
      exact List.getElem_cons_eraseIdx_perm hi

/-- The order is one of the items given, each once. -/
theorem freeOrder_perm {α : Type} (l : List α) (n : Nat) : ((freeOrder l n).1).Perm l := freeOrderAux_perm _ l n

theorem freeMergeAux_spec {α : Type} (fuel : Nat) (ds : List DomainId) (items : DomainId → List α) (n : Nat)
    (hn : ds.Nodup) (hf : (ds.map fun d => (items d).length).sum ≤ fuel) (d : DomainId) :
    ((freeMergeAux fuel ds items n).1.filter fun x => x.1 = d).map Prod.snd = if d ∈ ds then items d else [] := by
  have fits : ∀ (l : List DomainId) (f : DomainId → Nat), (l.map f).sum = 0 → ∀ e ∈ l, f e = 0 := by
    intro l f h e he
    exact Nat.le_zero.mp (h ▸ List.le_sum_of_mem (List.mem_map_of_mem he))
  have own : ∀ (c : DomainId) (l : List α),
      ((l.map fun x => (c, x)).filter fun x => x.1 = d).map Prod.snd = if d = c then l else [] := by
    intro c l
    by_cases h : d = c
    · subst h; simp [List.filter_map, Function.comp_def]
    · simp [List.filter_map, Function.comp_def, h, Ne.symm h]
  induction fuel generalizing ds items n with
  | zero =>
    have := fits ds _ (Nat.le_zero.mp hf) d
    unfold freeMergeAux
    by_cases hd : d ∈ ds
    · simp [List.length_eq_zero_iff.mp (this hd)]
    · simp [hd]
  | succ fuel ih =>
    have hm : ∀ e, e ∈ ds.filter (fun d => !(items d).isEmpty) ↔ e ∈ ds ∧ items e ≠ [] := by
      intro e; simp [List.mem_filter]
    have hsub : ((ds.filter fun d => !(items d).isEmpty).map fun d => (items d).length).sum ≤ fuel + 1 :=
      (List.Sublist.sum_le_sum ((List.filter_sublist).map _) (by simp)).trans hf
    have hnd := hn.filter fun d => !(items d).isEmpty
    have hout : (if d ∈ ds then items d else []) =
        if d ∈ ds.filter (fun d => !(items d).isEmpty) then items d else [] := by
      simp only [hm]; by_cases h1 : d ∈ ds <;> by_cases h2 : items d = [] <;> simp [h1, h2]
    rw [hout]
    unfold freeMergeAux
    generalize ds.filter (fun d => !(items d).isEmpty) = live at hm hsub hnd
    match live with
    | [] => rfl
    | [e] =>
      simp only [own, List.mem_singleton]
      split
      · subst_vars; rfl
      · rfl
    | a :: b :: l =>
      have hi : Config.pick n % (a :: b :: l).length < (a :: b :: l).length := Nat.mod_lt _ (by simp)
      have hc : (a :: b :: l).getD (Config.pick n % (a :: b :: l).length) a ∈ a :: b :: l := by
        rw [List.getD_eq_getElem _ _ hi]; exact List.getElem_mem hi
      simp only
      generalize (a :: b :: l).getD (Config.pick n % (a :: b :: l).length) a = c at hc
      generalize a :: b :: l = live at hsub hnd hc hm
      obtain ⟨x, t, hx⟩ := List.exists_cons_of_ne_nil ((hm c).mp hc).2
      rw [List.filter_append, List.map_append, own, ih live _ _ hnd ?_]
      · by_cases h : d = c
        · subst h; simp [hc, hx]
        · simp [h]
      · have : (live.map fun g => (items g).length).sum =
            (live.map fun g => (if g = c then (items g).tail else items g).length).sum + 1 := by
          obtain ⟨p, q, rfl⟩ := List.append_of_mem hc
          have hp : ∀ g ∈ p ++ q, g ≠ c := by
            rintro g hg rfl
            exact (List.nodup_cons.mp (List.nodup_middle.mp hnd)).1 hg
          have same : ∀ r : List DomainId, (∀ g ∈ r, g ≠ c) →
              (r.map fun g => (if g = c then (items g).tail else items g).length) = r.map fun g => (items g).length :=
            fun r hr => List.map_congr_left fun g hg => by rw [if_neg (hr g hg)]
          simp only [List.map_append, List.map_cons, List.sum_append, List.sum_cons, if_true,
            same p fun g hg => hp g (List.mem_append_left _ hg), same q fun g hg => hp g (List.mem_append_right _ hg), hx,
            List.tail_cons, List.length_cons]
          omega
        omega

/-- Each domain's items stand in the interleaving in their own order, and nothing else does. -/
theorem freeMerge_spec {α : Type} (ds : List DomainId) (items : DomainId → List α) (n : Nat) (hn : ds.Nodup) (d : DomainId) :
    ((freeMerge ds items n).1.filter fun x => x.1 = d).map Prod.snd = if d ∈ ds then items d else [] :=
  freeMergeAux_spec _ ds items n hn le_rfl d

end Sys2Proof.Machine
end

