-- ==== Sys2Proof/Laws/Bits.lean ====
section
/-! SUPPORT. The bits of frames and replies: their number, and the bytes read back from them. -/

namespace Sys2Proof

open Machine

@[simp] theorem length_bitsOfByte (b : Byte) : (bitsOfByte b).length = 8 := rfl

@[simp] theorem bitsOfBytes_nil : bitsOfBytes [] = [] := rfl

@[simp] theorem bitsOfBytes_cons (b : Byte) (l : List Byte) : bitsOfBytes (b :: l) = bitsOfByte b ++ bitsOfBytes l := rfl

@[simp] theorem length_bitsOfBytes (l : List Byte) : (bitsOfBytes l).length = 8 * l.length := by
  induction l with
  | nil => rfl
  | cons b l ih => simp [ih]; omega

@[simp] theorem length_frameBits (l : List Byte) (n : Nat) : (frameBits l n).length = 8 * l.length + n := by
  simp [frameBits]

/-- The complete bytes of a frame are as many as whole eights of its bits. -/
@[simp] theorem length_bytesOfBits : ∀ bits : List Bool, (bytesOfBits bits).length = bits.length / 8
  | _ :: _ :: _ :: _ :: _ :: _ :: _ :: _ :: rest => by
    simp only [bytesOfBits, List.length_cons, length_bytesOfBits rest]
    omega
  | [] => by simp [bytesOfBits]
  | [_] => by simp [bytesOfBits]
  | [_, _] => by simp [bytesOfBits]
  | [_, _, _] => by simp [bytesOfBits]
  | [_, _, _, _] => by simp [bytesOfBits]
  | [_, _, _, _, _] => by simp [bytesOfBits]
  | [_, _, _, _, _, _] => by simp [bytesOfBits]
  | [_, _, _, _, _, _, _] => by simp [bytesOfBits]

/-- The bits of a byte read back as that byte. -/
theorem bytesOfBits_byte (b : Byte) (bits : List Bool) : bytesOfBits (bitsOfByte b ++ bits) = b :: bytesOfBits bits := by
  have h : ∀ b : Byte, byteOfBits (b.getLsbD 7) (b.getLsbD 6) (b.getLsbD 5) (b.getLsbD 4) (b.getLsbD 3) (b.getLsbD 2)
      (b.getLsbD 1) (b.getLsbD 0) = b := by decide +kernel
  simp only [bitsOfByte, List.cons_append, List.nil_append, bytesOfBits, h]

/-- Bytes stand in a frame's bits before what its further bits spell. -/
theorem bytesOfBits_append (l : List Byte) (bits : List Bool) :
    bytesOfBits (bitsOfBytes l ++ bits) = l ++ bytesOfBits bits := by
  induction l with
  | nil => rfl
  | cons b l ih => simp only [bitsOfBytes_cons, List.append_assoc, bytesOfBits_byte, ih, List.cons_append]

end Sys2Proof
end

