-- ==== Sys2Proof/Laws/Controllers.lean ====
section
/-! SUPPORT. Law 4 through the controllers: the safe fill, the commit engine, faults, syncs, stops, the arbiter and the
snapshot unit. -/

namespace Sys2Proof.Machine

/-! ### The safe fill -/

theorem heldForFill_held {s : State} {d : DomainId} {p : Port} (h : s.heldForFill d p = true) :
    (s.port p).txn.phase = .held ∧ (s.port p).txn.cause = some .safeFill := by
  simp only [State.heldForFill, Bool.and_eq_true, decide_eq_true_eq] at h; exact h.1

/-- Ports that are loose are classified again one after the other. -/
theorem batchLaw_reclassifyAll (l : List Port) {s : State} (h : s.BatchLaw) (hl : ∀ p ∈ l, s.Loose p) (hn : l.Nodup) :
    (l.foldl State.reclassify s).BatchLaw := by
  induction l generalizing s with
  | nil => exact h
  | cons p l ih =>
    rw [List.nodup_cons] at hn
    refine ih (batchLaw_reclassify h (hl p (List.mem_cons_self ..))) (fun q hq => ?_) hn.2
    exact (hl q (List.mem_cons_of_mem _ hq)).onePort (onePort_reclassify s p) (by rintro rfl; exact hn.1 hq)

theorem batchLaw_enterSafed {s : State} (h : s.BatchLaw) (d : DomainId) (hd : (s.domain d).state = .safing)
    (hk : ∀ k, (s.slot d k).state ≠ .committing) : (s.enterSafed d).BatchLaw := by
  have hx := h.domains d
  refine batchLaw_lists (batchLaw_setDomain h d { s.domain d with fill := {}, state := .safed } ?_
    (.inl (no_waiter h (by simp [hd])))) (by rfl)
  refine ⟨fun _ => hx.unopened (by simp [hd]), fun _ _ => hx.unsealed (by simp [hd]) (by simp [hd]), fun _ => hk,
    hx.inFlight, ?_⟩
  rintro (hc | hc) <;> cases hc

theorem batchLaw_completeFill {s : State} (h : s.BatchLaw) (d : DomainId) (hd : (s.domain d).state = .safing)
    (hk : ∀ k, (s.slot d k).state ≠ .committing) : (s.completeFill d).BatchLaw := by
  have h1 : ((s.raise (.safeDone d)).enterSafed d).BatchLaw :=
    batchLaw_enterSafed (batchLaw_raise h _) d (by simpa using hd) (by simpa using hk)
  unfold State.completeFill
  generalize (s.raise (.safeDone d)).enterSafed d = t at h1
  unfold State.inFreeOrder
  have hp := freeOrder_perm ([Port.a, Port.b].filter (t.heldForFill d)) t.freeCount
  refine batchLaw_reclassifyAll _ (batchLaw_lists h1 (by rfl)) (fun p hm => ?_) ?_
  · have := (List.mem_filter.mp (hp.mem_iff.mp hm)).2
    have hh := heldForFill_held this
    exact loose_of_cause (batchLaw_lists h1 (by rfl)) (by simpa [State.port] using hh.1) (by
      show (t.port p).txn.cause ≠ _; simp [hh.2])
  · exact hp.nodup_iff.mpr (List.Nodup.filter _ (by decide))

theorem batchLaw_joinFill {s : State} (h : s.BatchLaw) (d : DomainId) : (s.joinFill d).BatchLaw :=
  batchLaw_lists h (by rfl)

theorem batchLaw_setFill {s : State} (h : s.BatchLaw) (d : DomainId) (f : FillRecord)
    (hf : f.phase = .fillRequest ∨ f.phase = .fillWrite →
      (s.domain d).state = .safing ∧ ∀ k, (s.slot d k).state ≠ .committing) :
    (s.setDomain d { s.domain d with fill := f }).BatchLaw := by
  have hx := h.domains d
  exact batchLaw_setDomain h d _ ⟨hx.unopened, hx.unsealed, hx.uncommitting, hx.inFlight, hf⟩ (.inr ⟨rfl, rfl⟩)

theorem batchLaw_openFill {s : State} (h : s.BatchLaw) (d : DomainId) (hd : (s.domain d).state = .safing)
    (hk : ∀ k, (s.slot d k).state ≠ .committing) : (s.openFill d).BatchLaw := by
  unfold State.openFill; split
  · exact batchLaw_enterSafed h d hd hk
  · exact batchLaw_joinFill (batchLaw_setFill h d _ fun _ => ⟨hd, hk⟩) _

theorem batchLaw_beginFill {s : State} (h : s.BatchLaw) (d : DomainId) (hd : (s.domain d).state = .safing)
    (hk : ∀ k, (s.slot d k).state ≠ .committing) : (s.beginFill d).BatchLaw := by
  unfold State.beginFill
  refine batchLaw_openFill (batchLaw_raises h _) d ?_ fun k => ?_
  · rw [(PoolOnly.foldl poolOnly_raise _ s).state]; exact hd
  · rw [slot_raises]; exact hk k

theorem batchLaw_advanceFill {s : State} (h : s.BatchLaw) (d : DomainId) (hf : (s.domain d).fill.phase = .fillWrite) :
    (s.advanceFill d).BatchLaw := by
  have hx := (h.domains d).filling (.inr hf)
  unfold State.advanceFill; split
  · exact batchLaw_completeFill h d hx.1 hx.2
  · exact batchLaw_setFill h d _ fun _ => hx

/-! ### The commit engine -/

/-- The oldest SEALED batch is SEALED. -/
theorem oldestSealed_some {s : State} {d : DomainId} {k : SlotId} (h : s.oldestSealed d = some k) :
    (s.slot d k).state = .sealed := by
  have hm := List.mem_of_head? h
  unfold State.sealedOldestFirst at hm
  rw [List.mem_insertionSort] at hm
  simpa using (List.mem_filter.mp hm).2

theorem oldestSealed_none {s : State} {d : DomainId} (h : s.oldestSealed d = none) (k : SlotId) :
    (s.slot d k).state ≠ .sealed := by
  intro hk
  have hm : k ∈ s.sealedOldestFirst d := by
    unfold State.sealedOldestFirst
    rw [List.mem_insertionSort]
    exact List.mem_filter.mpr ⟨List.mem_finRange k, by simpa using hk⟩
  have h' := List.head?_eq_none_iff.mp h
  rw [h'] at hm; cases hm

theorem batchLaw_joinStart {s : State} (h : s.BatchLaw) (d : DomainId) (b : Bool) : (s.joinStart d b).BatchLaw := by
  unfold State.joinStart; split <;> exact batchLaw_lists h (by rfl)

/-- A commit starts in RUN or STOPPING, with no other COMMITTING batch (R72, R88). -/
theorem batchLaw_startCommit {s : State} (h : s.BatchLaw) (d : DomainId) (k : SlotId) (b : Bool)
    (hd : (s.domain d).state = .run ∨ (s.domain d).state = .stopping) (hc : ∀ j, (s.slot d j).state ≠ .committing)
    : (s.startCommit d k b).BatchLaw := by
  have hx := h.domains d
  unfold State.startCommit
  dsimp only
  refine batchLaw_joinStart ?_ _ _
  have e : ((s.setSlot d k { s.slot d k with state := .committing }).setDomain d
      { (s.setSlot d k { s.slot d k with state := .committing }).domain d with
        commit := { phase := .entryRequest, slot := k, entryCount := (s.slot d k).entries.length, next := 0 } }) =
      s.setDomain d { s.domain d with
        slots := (s.domain d).slots.set k { s.slot d k with state := .committing }
        commit := { phase := .entryRequest, slot := k, entryCount := (s.slot d k).entries.length, next := 0 } } := by
    simp only [State.setSlot, State.setDomain, State.domain]
    congr 1
    ext i hi
    · by_cases hid : (d : Nat) = i <;> simp [hid]
  rw [e]
  have hslot : ∀ j : SlotId, ((s.domain d).slots.set k { s.slot d k with state := .committing })[j] =
      if j = k then { s.slot d k with state := .committing } else (s.domain d).slots[j] := by
    intro j; by_cases hj : j = k
    · subst hj; simp
    · have : (k : Nat) ≠ j := fun hc => hj (Fin.ext hc.symm)
      simp [hj, this]
  refine batchLaw_setDomain h d _ ⟨?_, ?_, ?_, ?_, ?_⟩ (.inr ⟨rfl, rfl⟩)
  · intro hs j; rw [hslot]; split
    · simp
    · exact hx.unopened hs j
  · intro hs hs' j; rcases hd with hd | hd
    · exact absurd hd hs
    · exact absurd hd hs'
  · intro hs; exfalso; dsimp only at hs; rcases hs with hs | hs <;> rcases hd with hd | hd <;> rw [hd] at hs <;> cases hs
  · intro j hj; rw [hslot] at hj; split at hj
    · subst_vars; exact ⟨by simp, rfl⟩
    · exact absurd hj (hc j)
  · intro hf; exfalso
    have := (hx.filling hf).1
    rcases hd with hd | hd <;> rw [hd] at this <;> cases this

theorem batchLaw_commitDecision {s : State} (h : s.BatchLaw) (d : DomainId) (b : Bool) (hd : (s.domain d).state = .run) :
    (s.commitDecision d b).BatchLaw := by
  unfold State.commitDecision; split
  · exact batchLaw_raise h _
  · rename_i hn; split
    · exact batchLaw_startCommit h d _ b (.inl hd) (slotIn_none hn)
    · exact h

theorem stoppingHold_held {s : State} {d : DomainId} (h : s.stoppingHold d = true) :
    (s.port (s.domain d).cfg.writer).txn.phase = .held ∧ (s.port (s.domain d).cfg.writer).txn.cause = some .stopping := by
  simp only [State.stoppingHold, Bool.and_eq_true, decide_eq_true_eq] at h; exact h.1

/-- A STOPPING domain with no SEALED and no COMMITTING batch enters DISABLED (R66). -/
theorem batchLaw_reachDisabled {s : State} (h : s.BatchLaw) (d : DomainId) (hd : (s.domain d).state = .stopping)
    (hs : ∀ k, (s.slot d k).state ≠ .sealed) (hc : ∀ k, (s.slot d k).state ≠ .committing) :
    (s.reachDisabled d).BatchLaw := by
  have hx := h.domains d
  have h1 : ((s.setDomain d { s.domain d with state := .disabled }).raise (.stopDone d)).BatchLaw := by
    refine batchLaw_raise (batchLaw_setDomain h d { s.domain d with state := .disabled }
      ⟨fun _ => hx.unopened (by simp [hd]), fun _ _ => hs, fun _ => hc, hx.inFlight, ?_⟩
      (.inl (no_waiter h (by simp [hd])))) _
    intro hf; have := (hx.filling hf).1; rw [hd] at this; cases this
  unfold State.reachDisabled
  dsimp only
  generalize (s.setDomain d { s.domain d with state := .disabled }).raise (.stopDone d) = t at h1
  split
  · rename_i hh
    exact batchLaw_reclassify h1 (loose_of_cause h1 (stoppingHold_held hh).1 (by simp [(stoppingHold_held hh).2]))
  · exact h1

theorem batchLaw_continueStop {s : State} (h : s.BatchLaw) (d : DomainId) (hd : (s.domain d).state = .stopping)
    (hc : ∀ k, (s.slot d k).state ≠ .committing) : (s.continueStop d).BatchLaw := by
  unfold State.continueStop; split
  · exact batchLaw_startCommit h d _ false (.inr hd) hc
  · rename_i hn; exact batchLaw_reachDisabled h d hd (oldestSealed_none hn) hc

theorem batchLaw_raiseNumber {s : State} (h : s.BatchLaw) (d : DomainId) : (s.raiseNumber d).BatchLaw := by
  have hx := h.domains d
  exact batchLaw_setDomain h d _ ⟨hx.unopened, hx.unsealed, hx.uncommitting, hx.inFlight, hx.filling⟩ (.inr ⟨rfl, rfl⟩)

/-- Once its slot is freed, a completing domain has no COMMITTING batch. -/
theorem freeCommitted_none {s : State} (h : s.BatchLaw) (d : DomainId) (k : SlotId) :
    ((s.freeCommitted d).slot d k).state ≠ .committing := by
  intro hk
  have h1 := (noNewCommit_examineWaiting _).slot d k hk
  rw [slot_freeSlot] at h1
  split at h1
  · cases h1
  · rename_i hn; exact hn ⟨rfl, ((h.domains d).inFlight k h1).2.symm⟩

theorem batchLaw_freeCommitted {s : State} (h : s.BatchLaw) (d : DomainId) : (s.freeCommitted d).BatchLaw :=
  batchLaw_examineWaiting (batchLaw_freeSlot h d _)

theorem notifyCommit_eq (s : State) (d : DomainId) : s.notifyCommit d = s ∨
    s.notifyCommit d = s.raise (.commitDone d (s.domain d).commitNumber) := by
  unfold State.notifyCommit; split
  · exact .inr rfl
  · exact .inl rfl

theorem batchLaw_leaveStart {s : State} (h : s.BatchLaw) (d : DomainId) (hc : ∀ k, (s.slot d k).state ≠ .committing) :
    (s.leaveStart d).BatchLaw := by
  have hx := h.domains d
  exact batchLaw_lists (batchLaw_setDomain h d { s.domain d with commit := {} }
    ⟨hx.unopened, hx.unsealed, hx.uncommitting, fun k hk => absurd hk (hc k), hx.filling⟩ (.inr ⟨rfl, rfl⟩)) (by rfl)

theorem slot_leaveStart (s : State) (d e : DomainId) (k : SlotId) : (s.leaveStart d).slot e k = s.slot e k := by
  show (s.setDomain d { s.domain d with commit := {} }).slot e k = _
  rw [State.slot_setDomain]; split
  · subst_vars; rfl
  · rfl

theorem batchLaw_continueAfter {s : State} (h : s.BatchLaw) (d : DomainId) (hc : ∀ k, (s.slot d k).state ≠ .committing) :
    (s.continueAfter d).BatchLaw := by
  unfold State.continueAfter; split
  · exact batchLaw_continueStop h d (by assumption) hc
  · exact batchLaw_beginFill h d (by assumption) hc
  all_goals exact h

theorem batchLaw_completeCommit {s : State} (h : s.BatchLaw) (d : DomainId) : (s.completeCommit d).BatchLaw := by
  have h1 := batchLaw_raiseNumber h d
  unfold State.completeCommit
  generalize s.raiseNumber d = t at h1
  have h2 := batchLaw_freeCommitted h1 d
  have hc := freeCommitted_none h1 d
  generalize t.freeCommitted d = u at h2 hc
  have h3 : (u.notifyCommit d).BatchLaw ∧ ∀ k, ((u.notifyCommit d).slot d k).state ≠ .committing := by
    rcases notifyCommit_eq u d with e | e <;> rw [e]
    · exact ⟨h2, hc⟩
    · exact ⟨batchLaw_raise h2 _, by simpa using hc⟩
  generalize u.notifyCommit d = v at h3
  exact batchLaw_continueAfter (batchLaw_leaveStart h3.1 d h3.2) d (by simpa [slot_leaveStart] using h3.2)

theorem batchLaw_setCommit {s : State} (h : s.BatchLaw) (d : DomainId) (c : CommitRecord)
    (h1 : (s.domain d).commit.phase ≠ .idle → c.phase ≠ .idle) (h2 : c.slot = (s.domain d).commit.slot) :
    (s.setDomain d { s.domain d with commit := c }).BatchLaw := by
  have hx := h.domains d
  exact batchLaw_setDomain h d _ ⟨hx.unopened, hx.unsealed, hx.uncommitting,
    fun k hk => ⟨h1 (hx.inFlight k hk).1, h2.trans (hx.inFlight k hk).2⟩, hx.filling⟩ (.inr ⟨rfl, rfl⟩)

theorem batchLaw_advanceCommit {s : State} (h : s.BatchLaw) (d : DomainId) : (s.advanceCommit d).BatchLaw := by
  unfold State.advanceCommit; dsimp only; split
  · exact batchLaw_setCommit h d _ (by simp) rfl
  · split
    · exact batchLaw_setCommit h d _ (by simp) rfl
    · exact batchLaw_completeCommit h d

/-! ### Faults, syncs, stops -/

theorem waiterOf_some {s : State} {d : DomainId} {w : Waiter} (h : s.waiterOf d = some w) :
    w ∈ s.waiting ∧ w.domain = d := ⟨List.mem_of_find?_eq_some h, by simpa using List.find?_some h⟩

theorem waiterOf_none {s : State} {d : DomainId} (h : s.waiterOf d = none) : ∀ w ∈ s.waiting, w.domain ≠ d := by
  intro w hw; simpa using List.find?_eq_none.mp h w hw

/-- The waiters of one domain are on its writer port, so there is at most one: with it gone, the domain has none. -/
theorem leave_waiter {s : State} (h : s.BatchLaw) {d : DomainId} {w : Waiter} (hw : s.waiterOf d = some w) :
    ∀ v ∈ (s.leaveWaiting w.port).waiting, v.domain ≠ d := by
  intro v hv hc
  rw [State.leaveWaiting_waiting] at hv
  have hm := List.mem_filter.mp hv
  have h1 := (h.waiters v hm.1).2.1
  have h2 := (h.waiters w (waiterOf_some hw).1).2.1
  rw [(waiterOf_some hw).2] at h2; rw [hc] at h1
  exact (by simpa using hm.2 : v.port ≠ w.port) (h1.symm.trans h2)

/-- The law and the absence of waiters of a domain whose state is about to change, once its waiter is gone. -/
theorem terminateWaiter_spec {s : State} (h : s.BatchLaw) (d : DomainId) :
    (s.terminateWaiter d).BatchLaw ∧ (∀ w ∈ (s.terminateWaiter d).waiting, w.domain ≠ d) ∧
      ∀ e, (s.terminateWaiter d).domain e = s.domain e := by
  unfold State.terminateWaiter
  split
  · rename_i w hw
    refine ⟨batchLaw_terminate h (h.waiters w (waiterOf_some hw).1).2.2.1, ?_, ?_⟩
    · intro v hv
      simp only [State.terminate, State.respond_waiting] at hv
      exact leave_waiter h hw v hv
    · intro e; simp [State.terminate]
  · rename_i hn; exact ⟨h, waiterOf_none hn, fun _ => rfl⟩

theorem waiterToStopping_spec {s : State} (h : s.BatchLaw) (d : DomainId) :
    (s.waiterToStopping d).BatchLaw ∧ (∀ w ∈ (s.waiterToStopping d).waiting, w.domain ≠ d) ∧
      ∀ e, (s.waiterToStopping d).domain e = s.domain e := by
  unfold State.waiterToStopping
  split
  · rename_i hn; exact ⟨h, waiterOf_none hn, fun _ => rfl⟩
  · rename_i w hw
    have hh := (h.waiters w (waiterOf_some hw).1).2.2.1
    refine ⟨batchLaw_setTxn (batchLaw_leaveWaiting h _) (loose_leaveWaiting h hh) _, ?_, by simp⟩
    intro v hv
    simp only [State.setTxn_waiting] at hv
    exact leave_waiter h hw v hv

/-- A change of a domain's state made before its waiter is ended comes to the same as one made after. -/
theorem terminateWaiter_setDomain (s : State) (d : DomainId) (x : Domain) :
    (s.setDomain d x).terminateWaiter d = (s.terminateWaiter d).setDomain d x := by
  have e : (s.setDomain d x).waiterOf d = s.waiterOf d := rfl
  unfold State.terminateWaiter
  rw [e]
  cases s.waiterOf d with
  | none => rfl
  | some w =>
    show (s.setDomain d x).terminate w.port = (s.terminate w.port).setDomain d x
    unfold State.terminate State.respond
    cases w.port <;> rfl

theorem waiterToStopping_setDomain (s : State) (d : DomainId) (x : Domain) :
    (s.setDomain d x).waiterToStopping d = (s.waiterToStopping d).setDomain d x := by
  have e : (s.setDomain d x).waiterOf d = s.waiterOf d := rfl
  unfold State.waiterToStopping
  rw [e]
  cases s.waiterOf d with
  | none => rfl
  | some w => obtain ⟨p, _, _, _⟩ := w; cases p <;> rfl

theorem freeSlotsIn_none (s : State) (d : DomainId) (st : SlotState) (hst : st ≠ .free) (k : SlotId) :
    ((s.freeSlotsIn d st).slot d k).state ≠ st := by
  rw [slot_freeSlotsIn]; split
  · exact fun hc => hst hc.symm
  · rename_i hn; exact fun hc => hn ⟨rfl, hc⟩

/-- Fault acceptance, up to the discards (R104, steps 2 and 3). -/
theorem batchLaw_discardAtFault {s : State} (h : s.BatchLaw) (d : DomainId)
    (hd : (s.domain d).state.acceptsFault = true) : ((s.enterSafing d).discardAtFault d).BatchLaw := by
  unfold State.enterSafing State.discardAtFault
  rw [terminateWaiter_setDomain]
  obtain ⟨h1, hw, he⟩ := terminateWaiter_spec h d
  generalize s.terminateWaiter d = t at h1 hw he
  have hx := h1.domains d
  rw [he] at hx
  generalize hy : ({ s.domain d with state := .safing, monitorPhase := .stopped } : Domain) = y
  have hp : PoolOnly (t.setDomain d y) (((t.setDomain d y).freeSlotsIn d .opened).freeSlotsIn d .sealed) :=
    (poolOnly_freeSlotsIn _ _ _).trans (poolOnly_freeSlotsIn _ _ _)
  have hsl : ∀ e k, ((((t.setDomain d y).freeSlotsIn d .opened).freeSlotsIn d .sealed).slot e k).state =
      (t.slot e k).state ∨ (((((t.setDomain d y).freeSlotsIn d .opened).freeSlotsIn d .sealed).slot e k).state = .free) := by
    intro e k
    rw [slot_freeSlotsIn]
    split
    · exact .inr rfl
    · rw [slot_freeSlotsIn]
      split
      · exact .inr rfl
      · left; rw [State.slot_setDomain]; split
        · subst_vars; rw [State.slot, he]
        · rfl
  have hno : ∀ k, ((((t.setDomain d y).freeSlotsIn d .opened).freeSlotsIn d .sealed).slot d k).state ≠ .opened := by
    intro k; rw [slot_freeSlotsIn]; split
    · simp
    · exact freeSlotsIn_none _ _ _ (by decide) k
  have hns := freeSlotsIn_none ((t.setDomain d y).freeSlotsIn d .opened) d .sealed (by decide)
  generalize ((t.setDomain d y).freeSlotsIn d .opened).freeSlotsIn d .sealed = u at hp hsl hno hns
  have hnf : ¬ ((s.domain d).fill.phase = .fillRequest ∨ (s.domain d).fill.phase = .fillWrite) := by
    intro hf; have := (hx.filling hf).1; rw [this] at hd; cases hd
  have hyd : ∀ e, e ≠ d → ((t.setDomain d y).domain e) = t.domain e := fun e hn => State.domain_setDomain_ne _ hn _
  have hu : u.BatchLaw := by
    refine ⟨fun e => ?_, ?_, ?_, ?_, ?_, ?_⟩
    · by_cases hn : e = d
      · subst hn
        have hst : (u.domain e).state = .safing := by rw [hp.state]; simp [← hy]
        have hcm : (u.domain e).commit = (s.domain e).commit := by rw [hp.commit]; simp [← hy]
        have hfl : (u.domain e).fill = (s.domain e).fill := by rw [hp.fill]; simp [← hy]
        refine ⟨fun _ => hno, fun _ _ => hns, ?_, ?_, ?_⟩
        · rw [hst]; rintro (hc | hc) <;> cases hc
        · rw [hcm]; intro k hk
          rcases hsl e k with e1 | e1
          · refine hx.inFlight k ?_
            rw [← he]; exact e1.symm.trans hk
          · rw [State.slot] at e1; rw [e1] at hk; cases hk
        · rw [hfl]; intro hf; exact absurd hf hnf
      · refine (h1.domains e).less ?_ ?_ ?_ (hsl e)
        · rw [hp.state, hyd e hn]
        · rw [hp.commit, hyd e hn]
        · rw [hp.fill, hyd e hn]
    · rw [hp.waiting]; intro w hm
      simp only [State.setDomain_waiting] at hm
      rw [hp.state, hp.cfg, hp.port, hyd _ (hw w hm)]
      simpa using h1.waiters w hm
    · rw [hp.waiting]; simpa using h1.waitersApart
    · rw [hp.mport]; intro p acc hg; rw [hp.port]; simpa using h1.granted p acc (by simpa using hg)
    · intro p c hc; rw [hp.context] at hc; rw [hp.port]; simpa using h1.leadWait p c (by simpa using hc)
    · intro p c e hc hc'; rw [hp.context] at hc hc'
      exact h1.oneCapture p c e (by simpa using hc) (by simpa using hc')
  exact hu

theorem terminateStopping_spec {s : State} (h : s.BatchLaw) (d : DomainId) :
    (s.terminateStopping d).BatchLaw ∧ ∀ e, (s.terminateStopping d).domain e = s.domain e := by
  unfold State.terminateStopping; split
  · rename_i hh; exact ⟨batchLaw_terminate h (stoppingHold_held hh).1, by simp [State.terminate]⟩
  · exact ⟨h, fun _ => rfl⟩

theorem terminateStopping_domain (s : State) (d e : DomainId) : (s.terminateStopping d).domain e = s.domain e := by
  unfold State.terminateStopping; split
  · simp [State.terminate]
  · rfl

/-- The discards of one domain's acceptance put it in SAFING and leave the state of every other domain. -/
theorem state_takeFault (s : State) (d e : DomainId) :
    ((s.takeFault d).domain e).state = if e = d then .safing else (s.domain e).state := by
  unfold State.takeFault State.discardAtFault
  rw [(poolOnly_freeSlotsIn _ _ _).state, (poolOnly_freeSlotsIn _ _ _).state]
  have hw : ∀ u : State, (u.terminateWaiter d).domain e = u.domain e := by
    intro u; unfold State.terminateWaiter; split
    · simp [State.terminate]
    · rfl
  rw [hw]
  by_cases he : e = d
  · subst he; simp [State.enterSafing]
  · rw [if_neg he, State.enterSafing, State.domain_setDomain_ne _ he]

/-- The end of one domain's acceptance leaves the state of every other domain. -/
theorem state_settleFault (s : State) (d e : DomainId) (h : e ≠ d) :
    ((s.settleFault d).domain e).state = (s.domain e).state := by
  unfold State.settleFault State.fillOrPend
  rw [← terminateStopping_domain s d e]
  generalize s.terminateStopping d = t
  split
  · rw [State.domain_setDomain_ne _ h]
  · unfold State.openFill; split
    all_goals
      show ((t.setDomain d _).domain e).state = _
      rw [State.domain_setDomain_ne _ h]

theorem batchLaw_settleFault {s : State} (h : s.BatchLaw) (d : DomainId) (hd : (s.domain d).state = .safing) :
    (s.settleFault d).BatchLaw := by
  obtain ⟨h1, he⟩ := terminateStopping_spec h d
  unfold State.settleFault
  generalize s.terminateStopping d = t at h1 he
  unfold State.fillOrPend; split
  · refine batchLaw_setFill h1 d _ ?_
    rintro (hc | hc) <;> cases hc
  · rename_i hn
    refine batchLaw_openFill h1 d (by rw [he, hd]) fun k hk => ?_
    have := ((h1.domains d).inFlight k hk).1
    exact hn (by simpa [State.commitInFlight] using this)

/-- The discards of several domains' acceptances (R104, steps 1 to 3). -/
theorem batchLaw_takeFaults (l : List DomainId) (hl : l.Nodup) {s : State} (h : s.BatchLaw)
    (hd : ∀ d ∈ l, (s.domain d).state.acceptsFault = true) :
    (l.foldl State.takeFault s).BatchLaw ∧
      ∀ d, ((l.foldl State.takeFault s).domain d).state = if d ∈ l then .safing else (s.domain d).state := by
  induction l generalizing s with
  | nil => exact ⟨h, fun d => (if_neg List.not_mem_nil).symm⟩
  | cons a l ih =>
    rw [List.nodup_cons] at hl
    have hst := state_takeFault s a
    have h1 : (s.takeFault a).BatchLaw := batchLaw_discardAtFault h a (hd a List.mem_cons_self)
    rw [List.foldl_cons]
    generalize s.takeFault a = t at hst h1
    have hi := ih hl.2 h1 fun d hm => by
      have ha : d ≠ a := by rintro rfl; exact hl.1 hm
      rw [hst, if_neg ha]; exact hd d (List.mem_cons_of_mem _ hm)
    refine ⟨hi.1, fun d => ?_⟩
    rw [hi.2, hst]
    by_cases hm : d ∈ l
    · rw [if_pos hm, if_pos (List.mem_cons_of_mem _ hm)]
    · rw [if_neg hm]; simp [hm]

theorem batchLaw_settleFaults (l : List DomainId) (hl : l.Nodup) {s : State} (h : s.BatchLaw)
    (hd : ∀ d ∈ l, (s.domain d).state = .safing) : (l.foldl State.settleFault s).BatchLaw := by
  induction l generalizing s with
  | nil => exact h
  | cons a l ih =>
    rw [List.nodup_cons] at hl
    refine ih hl.2 (batchLaw_settleFault h a (hd a List.mem_cons_self)) fun d hm => ?_
    have ha : d ≠ a := by rintro rfl; exact hl.1 hm
    rw [state_settleFault _ _ _ ha]
    exact hd d (List.mem_cons_of_mem _ hm)

theorem batchLaw_acceptFaults {s : State} (h : s.BatchLaw) (ds : List DomainId) (notice : DomainId → List Event)
    (hn : ds.Nodup) (hd : ∀ d ∈ ds, (s.domain d).state.acceptsFault = true) : (s.acceptFaults ds notice).BatchLaw := by
  have hp := freeOrder_perm ds
  have h1 : ∀ u : State, u.BatchLaw → (∀ d ∈ ds, (u.domain d).state.acceptsFault = true) →
      (u.inFreeOrder ds State.takeFault).BatchLaw ∧
      ∀ d ∈ ds, ((u.inFreeOrder ds State.takeFault).domain d).state = .safing := by
    intro u hu ha
    have := batchLaw_takeFaults _ ((hp u.freeCount).nodup_iff.mpr hn)
      (s := { u with freeCount := (freeOrder ds u.freeCount).2 }) (batchLaw_lists hu (by rfl))
      fun d hm => ha d ((hp u.freeCount).mem_iff.mp hm)
    exact ⟨this.1, fun d hm => (this.2 d).trans (if_pos ((hp u.freeCount).mem_iff.mpr hm))⟩
  have h2 : ∀ u : State, u.BatchLaw → (∀ d ∈ ds, (u.domain d).state = .safing) →
      (u.inFreeOrder ds State.settleFault).BatchLaw := fun u hu hs =>
    batchLaw_settleFaults _ ((hp u.freeCount).nodup_iff.mpr hn)
      (s := { u with freeCount := (freeOrder ds u.freeCount).2 }) (batchLaw_lists hu (by rfl))
      fun d hm => hs d ((hp u.freeCount).mem_iff.mp hm)
  unfold State.acceptFaults; split
  · exact h
  · rename_i a l
    have h1 := h1 _ (batchLaw_raiseMerged h (a :: l) (s.faultEvents notice)) fun d hm => by
      rw [(poolOnly_raiseMerged _ _ _).state]; exact hd d hm
    exact batchLaw_lists (h2 _ (batchLaw_examineWaiting h1.1) fun d hm =>
      ((noNewCommit_examineWaiting _).state d).trans (h1.2 d hm)) (by rfl)

theorem batchLaw_setRuntime {s : State} (h : s.BatchLaw) (d : DomainId) (x : Domain) (h1 : x.state = (s.domain d).state)
    (h2 : x.cfg = (s.domain d).cfg) (h3 : x.commit = (s.domain d).commit) (h4 : x.fill = (s.domain d).fill)
    (h5 : x.slots = (s.domain d).slots) : (s.setDomain d x).BatchLaw :=
  batchLaw_setDomain h d x ((h.domains d).less h1 h3 h4 fun k => .inl (by rw [h5])) (.inr ⟨h1, h2⟩)

theorem batchLaw_syncEvent {s : State} (h : s.BatchLaw) (d : DomainId) : (s.syncEvent d).BatchLaw := by
  unfold State.syncEvent; split
  · rename_i hd
    exact batchLaw_commitDecision (batchLaw_setRuntime h d (s.domain d).recordPeriod rfl rfl rfl rfl rfl) d _
      (by simpa [Domain.recordPeriod] using hd)
  all_goals exact h

theorem monitorDue_run {s : State} {d : DomainId} (h : s.monitorDue d = true) : (s.domain d).state = .run := by
  simp only [State.monitorDue, decide_eq_true_eq] at h; exact h.1

theorem batchLaw_expireMonitor {s : State} (h : s.BatchLaw) (d : DomainId) (hd : (s.domain d).state = .run) :
    (s.expireMonitor d).BatchLaw := by
  have h1 := batchLaw_raise h (.syncLost d)
  have hd1 : ((s.raise (.syncLost d)).domain d).state = .run := by simpa using hd
  unfold State.expireMonitor; dsimp only; split
  · exact batchLaw_setRuntime h1 d _ (by rfl) (by rfl) (by rfl) (by rfl) (by rfl)
  · exact batchLaw_commitDecision (batchLaw_setRuntime h1 d { (s.raise (.syncLost d)).domain d with monitorCount := 0 }
      rfl rfl rfl rfl rfl) d _ (by simpa using hd1)
  · refine batchLaw_acceptFaults h _ _ (List.Nodup.filter _ (List.nodup_finRange 4)) fun e he => ?_
    have hm := (Bool.and_eq_true _ _ ▸ (List.mem_filter.mp he).2 : _ ∧ _).1
    rw [monitorDue_run hm]; rfl

theorem batchLaw_stopDomain {s : State} (h : s.BatchLaw) (d : DomainId) (hd : (s.domain d).state = .run) :
    (s.stopDomain d).BatchLaw := by
  unfold State.stopDomain State.enterStopping State.discardAtStop
  rw [waiterToStopping_setDomain]
  obtain ⟨h1, hw, he⟩ := waiterToStopping_spec h d
  generalize s.waiterToStopping d = t at h1 hw he
  have hx := h1.domains d
  rw [he] at hx
  generalize hy : ({ s.domain d with state := .stopping, monitorPhase := .stopped } : Domain) = y
  have hp := poolOnly_freeSlotsIn (t.setDomain d y) d .opened
  have hsl : ∀ e k, ((t.setDomain d y).freeSlotsIn d .opened).slot e k =
      if e = d ∧ ((t.setDomain d y).slot e k).state = .opened then {} else (t.setDomain d y).slot e k :=
    fun e k => slot_freeSlotsIn _ _ _ _ _
  have hno := freeSlotsIn_none (t.setDomain d y) d .opened (by decide)
  have hts : ∀ e k, ((t.setDomain d y).slot e k) = t.slot e k := by
    intro e k; rw [State.slot_setDomain]; split
    · subst_vars; rw [State.slot, he]
    · rfl
  generalize (t.setDomain d y).freeSlotsIn d .opened = u at hp hsl hno
  have hyd : ∀ e, e ≠ d → ((t.setDomain d y).domain e) = t.domain e := fun e hn => State.domain_setDomain_ne _ hn _
  have hst : (u.domain d).state = .stopping := by rw [hp.state]; simp [← hy]
  have hsl' : ∀ e k, (u.slot e k).state = (t.slot e k).state ∨ (u.slot e k).state = .free := by
    intro e k; rw [hsl, hts]; split
    · exact .inr rfl
    · exact .inl rfl
  have hu : u.BatchLaw := by
    refine ⟨fun e => ?_, ?_, ?_, ?_, ?_, ?_⟩
    · by_cases hn : e = d
      · subst hn
        have hcm : (u.domain e).commit = (s.domain e).commit := by rw [hp.commit]; simp [← hy]
        have hfl : (u.domain e).fill = (s.domain e).fill := by rw [hp.fill]; simp [← hy]
        refine ⟨fun _ => hno, fun _ hc => absurd hst hc, ?_, ?_, ?_⟩
        · rw [hst]; rintro (hc | hc) <;> cases hc
        · rw [hcm]; intro k hk
          rcases hsl' e k with e1 | e1
          · refine hx.inFlight k ?_
            rw [← he]; exact e1.symm.trans hk
          · rw [State.slot] at e1; rw [e1] at hk; cases hk
        · rw [hfl]; intro hf; have := (hx.filling hf).1; rw [hd] at this; cases this
      · refine (h1.domains e).less ?_ ?_ ?_ (hsl' e)
        · rw [hp.state, hyd e hn]
        · rw [hp.commit, hyd e hn]
        · rw [hp.fill, hyd e hn]
    · rw [hp.waiting]; intro w hm
      simp only [State.setDomain_waiting] at hm
      rw [hp.state, hp.cfg, hp.port, hyd _ (hw w hm)]
      simpa using h1.waiters w hm
    · rw [hp.waiting]; simpa using h1.waitersApart
    · rw [hp.mport]; intro p acc hg; rw [hp.port]; simpa using h1.granted p acc (by simpa using hg)
    · intro p c hc; rw [hp.context] at hc; rw [hp.port]; simpa using h1.leadWait p c (by simpa using hc)
    · intro p c e hc hc'; rw [hp.context] at hc hc'
      exact h1.oneCapture p c e (by simpa using hc) (by simpa using hc')
  unfold State.awaitOrContinue
  have h3 := batchLaw_examineWaiting hu
  have hst3 : (u.examineWaiting.domain d).state = .stopping := by rw [(noNewCommit_examineWaiting u).state, hst]
  generalize u.examineWaiting = v at h3 hst3
  split
  · exact h3
  · rename_i hn; exact batchLaw_continueStop h3 d hst3 (slotIn_none hn)

/-! ### The arbiter -/

/-- The grant is for a pending request. -/
theorem nextGrant_some {s : State} {g : Grant} (h : s.nextGrant = some g) : s.request g.holder = some g.access := by
  unfold State.nextGrant at h
  obtain ⟨r, -, hr⟩ := List.exists_of_findSome?_eq_some h
  cases hq : s.request r with
  | none => rw [hq] at hr; cases hr
  | some acc => rw [hq] at hr; cases hr; exact hq

theorem isCapturing_granted (x : Context) : x.granted.isCapturing = x.isCapturing := by
  unfold Context.granted; split <;> rfl

/-- Contexts of one port replaced, none starting or ending a capture. -/
theorem batchLaw_contexts {s : State} (h : s.BatchLaw) (p : Port) (f : Context → Context)
    (hf : ∀ x, (f x).isCapturing = x.isCapturing) :
    (s.setPort p { s.port p with contexts := (s.port p).contexts.map f }).BatchLaw := by
  have ht : ∀ q, ((s.setPort p { s.port p with contexts := (s.port p).contexts.map f }).port q).txn = (s.port q).txn := by
    intro q; rw [State.port_setPort]; split
    · subst_vars; rfl
    · rfl
  have hc : ∀ q c, ((s.setPort p { s.port p with contexts := (s.port p).contexts.map f }).context q c).isCapturing =
      (s.context q c).isCapturing := by
    intro q c; unfold State.context; rw [State.port_setPort]; split
    · subst_vars; simp [hf]
    · rfl
  refine ⟨by simpa using h.domains, ?_, by simpa using h.waitersApart, ?_, ?_, ?_⟩
  · intro w hw; rw [ht]; simpa using h.waiters w (by simpa using hw)
  · intro q acc hg; rw [ht]; exact h.granted q acc (by simpa using hg)
  · intro q c hq; rw [hc] at hq; rw [ht]; exact h.leadWait q c hq
  · intro q c e h1 h2; rw [hc] at h1 h2; exact h.oneCapture q c e h1 h2

theorem granted_not_idle (c : CommitRecord) (h : c.phase ≠ .idle) : c.granted.phase ≠ .idle := by
  unfold CommitRecord.granted; split <;> simp_all

theorem granted_slot (c : CommitRecord) : c.granted.slot = c.slot := by
  unfold CommitRecord.granted; split <;> rfl

theorem batchLaw_arbitrate {s : State} (h : s.BatchLaw) : s.arbitrate.BatchLaw := by
  unfold State.arbitrate
  split
  · exact h
  · rename_i hm
    split
    · exact h
    · rename_i g hg
      have hr := nextGrant_some hg
      obtain ⟨r, acc⟩ := g
      have build : ∀ t : State, t.BatchLaw → (∀ p, r = .port p → (t.port p).txn.phase = .memory) →
          ({ t with mport := some ⟨r, acc⟩ } : State).BatchLaw := by
        intro t ht hp
        refine ⟨ht.domains, ht.waiters, ht.waitersApart, ?_, ht.leadWait, ht.oneCapture⟩
        intro p a ha
        have e : r = .port p := by simpa using congrArg (fun o => o.map Grant.holder) ha
        exact hp p e
      cases r with
      | fill d =>
        refine build _ (batchLaw_setFill h d _ fun _ => ?_) (by intro p hp; cases hp)
        simp only [State.request, State.fillRequest] at hr
        split at hr
        · rename_i hf; exact (h.domains d).filling (.inl hf)
        · cases hr
      | commit d =>
        exact build _ (batchLaw_setCommit h d _ (granted_not_idle _) (granted_slot _)) (by intro p hp; cases hp)
      | capture p =>
        exact build _ (batchLaw_contexts h p _ isCapturing_granted) (by intro p hp; cases hp)
      | port p =>
        have hph : (s.port p).txn.phase = .request := by
          simp only [State.request, State.portRequest] at hr
          split at hr
          · assumption
          · cases hr
        refine build _ (batchLaw_lists (batchLaw_setTxn h ?_ _) (by rfl)) ?_
        · exact loose_of_phase h (by simp [hph]) (by simp [hph]) (by simp [hph])
        · intro q hq; cases hq
          show ((s.setTxn p { (s.port p).txn with phase := .memory }).port p).txn.phase = .memory
          simp [State.port_setTxn]

/-! ### The snapshot unit -/

theorem set_context (u : Vector Context 2) (c e : ContextId) (x : Context) :
    (u.set c x)[e] = if e = c then x else u[e] := by
  by_cases h : e = c
  · subst h; simp
  · have : (c : Nat) ≠ e := fun hc => h (Fin.ext hc.symm)
    simp [h, this]

theorem batchLaw_useContext {s : State} (h : s.BatchLaw) (p : Port) (c : ContextId) : (s.useContext p c).BatchLaw := by
  have := batchLaw_contexts h p id fun _ => rfl
  have hq : ∀ q, ((s.useContext p c).port q).txn = (s.port q).txn ∧ ((s.useContext p c).port q).contexts =
      (s.port q).contexts := by
    intro q; rw [State.port_useContext]; split
    · subst_vars; exact ⟨rfl, rfl⟩
    · exact ⟨rfl, rfl⟩
  refine ⟨by simpa using h.domains, ?_, by simpa using h.waitersApart, ?_, ?_, ?_⟩
  · intro w hw; rw [(hq _).1]; simpa using h.waiters w (by simpa using hw)
  · intro q acc hg; rw [(hq _).1]; exact h.granted q acc (by simpa using hg)
  · intro q e he; rw [(hq _).1]; unfold State.context at he; rw [(hq q).2] at he; exact h.leadWait q e he
  · intro q e f h1 h2; unfold State.context at h1 h2; rw [(hq q).2] at h1 h2; exact h.oneCapture q e f h1 h2

/-- A context takes a value that is not CAPTURING, or goes on capturing. -/
theorem batchLaw_setContext {s : State} (h : s.BatchLaw) (p : Port) (c : ContextId) (x : Context)
    (hx : x.isCapturing = true → (s.context p c).isCapturing = true) : (s.setContext p c x).BatchLaw := by
  have ht : ∀ q, ((s.setContext p c x).port q).txn = (s.port q).txn := by
    intro q; rw [State.port_setContext]; split
    · subst_vars; rfl
    · rfl
  have hc : ∀ q e, ((s.setContext p c x).context q e).isCapturing = true → (s.context q e).isCapturing = true := by
    intro q e; unfold State.context; rw [State.port_setContext]; split
    · subst_vars; dsimp only; rw [set_context]; split
      · subst_vars; exact hx
      · exact id
    · exact id
  refine ⟨by simpa using h.domains, ?_, by simpa using h.waitersApart, ?_, ?_, ?_⟩
  · intro w hw; rw [ht]; simpa using h.waiters w (by simpa using hw)
  · intro q acc hg; rw [ht]; exact h.granted q acc (by simpa using hg)
  · intro q e he; rw [ht]; exact h.leadWait q e (hc q e he)
  · intro q e f h1 h2; exact h.oneCapture q e f (hc q e h1) (hc q f h2)

theorem evict_eq (s : State) (p : Port) (c : ContextId) (w : WindowId) : PoolOnly s (s.evict p c w) := by
  unfold State.evict; split
  · split
    · exact PoolOnly.refl s
    · exact poolOnly_raise _ _
  · exact PoolOnly.refl s

theorem batchLaw_evict {s : State} (h : s.BatchLaw) (p : Port) (c : ContextId) (w : WindowId) :
    (s.evict p c w).BatchLaw := by
  unfold State.evict; split
  · split
    · exact h
    · exact batchLaw_raise h _
  · exact h

theorem batchLaw_beginCapture {s : State} (h : s.BatchLaw) {p : Port} (hl : s.Loose p) (w : WindowId) :
    (s.beginCapture p w).BatchLaw := by
  unfold State.beginCapture
  dsimp only
  generalize s.chooseContext p w = c
  generalize (if s.writeOnItsWay (s.window w).writer w then CapturePhase.writerWait else CapturePhase.readRequest) = ph
  have h1 := batchLaw_evict h p c w
  have hl1 := hl.poolOnly (evict_eq s p c w)
  generalize s.evict p c w = t at h1 hl1
  refine batchLaw_lists (s := ((t.setContext p c (.capturing w [] ph)).setTxn p _)) ?_ (by rfl)
  have hport : ∀ q, q ≠ p → (((t.setContext p c (.capturing w [] ph)).setTxn p
      { ((t.setContext p c (.capturing w [] ph)).port p).txn with phase := .leadWait }).port q) = t.port q := by
    intro q hq; rw [State.port_setTxn, if_neg hq, State.port_setContext, if_neg hq]
  have hp : (((t.setContext p c (.capturing w [] ph)).setTxn p
      { ((t.setContext p c (.capturing w [] ph)).port p).txn with phase := .leadWait }).port p) =
      { t.port p with contexts := (t.port p).contexts.set c (.capturing w [] ph),
                      txn := { (t.port p).txn with phase := .leadWait } } := by
    rw [State.port_setTxn, if_pos rfl, State.port_setContext, if_pos rfl]
  refine ⟨by simpa using h1.domains, ?_, by simpa using h1.waitersApart, ?_, ?_, ?_⟩
  · intro v hv
    have hv' : v ∈ t.waiting := by simpa using hv
    rw [hport _ (hl1.waiting v hv')]; simpa using h1.waiters v hv'
  · intro q acc hg
    have hg' : t.mport = some ⟨.port q, acc⟩ := by simpa using hg
    have hq : q ≠ p := by rintro rfl; exact hl1.mport acc hg'
    rw [hport q hq]; exact h1.granted q acc hg'
  · intro q e he
    by_cases hq : q = p
    · subst hq; rw [hp]
    · unfold State.context at he; rw [hport q hq] at he ⊢; exact h1.leadWait q e he
  · intro q e f he hf
    by_cases hq : q = p
    · subst hq
      unfold State.context at he hf
      rw [hp] at he hf
      dsimp only at he hf
      rw [set_context] at he hf
      split at he
      · split at hf
        · subst_vars; rfl
        · have := hl1.contexts f; unfold State.context at this; rw [this] at hf; cases hf
      · have := hl1.contexts e; unfold State.context at this; rw [this] at he; cases he
    · unfold State.context at he hf; rw [hport q hq] at he hf; exact h1.oneCapture q e f he hf

theorem batchLaw_serve {s : State} (h : s.BatchLaw) {p : Port} (hl : s.Loose p) (w : WindowId) (c : ContextId) :
    (s.serve p w c).BatchLaw := by
  unfold State.serve; split
  · dsimp only
    have h1 := batchLaw_useContext h p c
    have hl1 : (s.useContext p c).Loose p := hl.setPort _ hl.contexts
    have h2 := fun r => batchLaw_respond h1 hl1 r
    split
    · exact batchLaw_setContext (h2 _) p c .idle (by intro hc; cases hc)
    · exact h2 _
  · exact h

theorem batchLaw_applyRead {s : State} (h : s.BatchLaw) {p : Port} (hl : s.Loose p) (r : ReadPath) :
    (s.applyRead p r).BatchLaw := by
  unfold State.applyRead; split
  · exact batchLaw_setTxn h hl _
  · exact batchLaw_serve h hl _ _
  · exact batchLaw_beginCapture h hl _

theorem batchLaw_expireContext {s : State} (h : s.BatchLaw) (p : Port) (c : ContextId) : (s.expireContext p c).BatchLaw := by
  unfold State.expireContext; split
  · exact batchLaw_setContext (batchLaw_raise h _) p c .idle (by intro hc; cases hc)
  · exact h

theorem heldForCapture_held {s : State} {p : Port} {w : WindowId} (h : s.heldForCapture p w = true) :
    (s.port p).txn.phase = .held ∧ (s.port p).txn.cause = some .capture := by
  simp only [State.heldForCapture, Bool.and_eq_true, decide_eq_true_eq] at h; exact h.1

/-- The end of a capture (R128): its own context was CAPTURING. -/
theorem batchLaw_completeCapture {s : State} (h : s.BatchLaw) (p : Port) (c : ContextId) (w : WindowId) (l : List Word)
    (hc : (s.context p c).isCapturing = true) : (s.completeCapture p c w l).BatchLaw := by
  have hlw := h.leadWait p c hc
  have h1 := batchLaw_useContext (batchLaw_setContext h p c (.held w l s.tick) (by intro hx; cases hx)) p c
  have hl1 : ((s.setContext p c (.held w l s.tick)).useContext p c).Loose p := by
    refine ⟨?_, ?_, ?_⟩
    · intro v hv hn
      have := (h.waiters v (by simpa using hv)).2.2.1
      rw [hn, hlw] at this; cases this
    · intro acc hg
      have := h.granted p acc (by simpa using hg)
      rw [hlw] at this; cases this
    · intro e
      unfold State.context
      rw [State.port_useContext, if_pos rfl, State.port_setContext, if_pos rfl]
      dsimp only
      rw [set_context]; split
      · rfl
      · rename_i hn
        rw [← Bool.not_eq_true]; intro he
        exact hn (h.oneCapture p e c he hc)
  unfold State.completeCapture
  dsimp only
  generalize (s.setContext p c (.held w l s.tick)).useContext p c = t at h1 hl1
  have h2 : ({ t with captureOrder := t.captureOrder.filter (· ≠ p) } : State).BatchLaw := batchLaw_lists h1 (by rfl)
  have hl2 : ({ t with captureOrder := t.captureOrder.filter (· ≠ p) } : State).Loose p :=
    ⟨hl1.waiting, hl1.mport, hl1.contexts⟩
  have h3 := batchLaw_respond h2 hl2 (.okayRead (copyWord l 0))
  generalize ({ t with captureOrder := t.captureOrder.filter (· ≠ p) } : State).respond p (.okayRead (copyWord l 0)) = u at h3
  split
  · rename_i hh
    have := heldForCapture_held hh
    exact batchLaw_reclassify h3 (loose_of_cause h3 this.1 (by simp [this.2]))
  · exact h3

theorem batchLaw_storeCapture {s : State} (h : s.BatchLaw) (p : Port) (x : Word) : (s.storeCapture p x).BatchLaw := by
  unfold State.storeCapture; split
  · exact h
  · rename_i c _
    split
    · rename_i w copy hctx
      have hcap : (s.context p c).isCapturing = true := by rw [hctx]; rfl
      split
      · exact batchLaw_setContext h p c _ fun _ => hcap
      · exact batchLaw_completeCapture h p c w _ hcap
    · exact h

/-! ### The completed access -/

theorem batchLaw_completeAccess {s : State} (h : s.BatchLaw) (g : Grant) : (s.completeAccess g).BatchLaw :=
  ⟨h.domains, h.waiters, h.waitersApart, fun _ _ hg => (by cases hg), h.leadWait, h.oneCapture⟩

theorem loose_completeAccess {s : State} (h : s.BatchLaw) {p : Port} {acc : Access} (hg : s.mport = some ⟨.port p, acc⟩)
    (g : Grant) : (s.completeAccess g).Loose p := by
  have hm := h.granted p acc hg
  refine ⟨fun w hw hc => ?_, fun a ha => (by cases ha), fun c => ?_⟩
  · have := (h.waiters w hw).2.2.1; rw [hc, hm] at this; cases this
  · rw [← Bool.not_eq_true]; intro hc; have := h.leadWait p c hc; rw [hm] at this; cases this

theorem isCapturing_patched (s : State) (a : Addr) (m : Lanes) (d : Word) (x : Context) :
    (s.patched a m d x).isCapturing = x.isCapturing := by
  unfold State.patched; split
  · split <;> rfl
  · rfl

theorem isCapturing_writerDone (x : Context) : x.writerDone.isCapturing = x.isCapturing := by
  unfold Context.writerDone; split <;> rfl

theorem batchLaw_finishPortWrite {s : State} (h : s.BatchLaw) {p : Port} (hl : s.Loose p) (acc : Access) :
    (s.finishPortWrite p acc).BatchLaw := by
  have h1 : (s.patchCopies p acc).BatchLaw := batchLaw_contexts h p _ (isCapturing_patched s _ _ _)
  have hl1 : (s.patchCopies p acc).Loose p := hl.setPort _ fun c => by
    have := hl.contexts c
    simpa [isCapturing_patched, State.context] using this
  exact batchLaw_arbitrate (batchLaw_contexts (batchLaw_respond h1 hl1 _) _ _ isCapturing_writerDone)

theorem batchLaw_takeTimed {s : State} (h : s.BatchLaw) (e : TimedEvent) : (s.takeTimed e).BatchLaw := by
  unfold State.takeTimed; split
  · rename_i hd
    cases e with
    | stall p => exact batchLaw_expireHeld h (stallDue_held hd)
    | monitor d => exact batchLaw_arbitrate (batchLaw_expireMonitor h d (monitorDue_run hd))
    | holdLimit p c => exact batchLaw_expireContext h p c
  · exact h

theorem batchLaw_foldl {α : Type} {f : State → α → State} (hf : ∀ s x, s.BatchLaw → (f s x).BatchLaw) (l : List α) {s : State}
    (h : s.BatchLaw) : (l.foldl f s).BatchLaw := by
  induction l generalizing s with
  | nil => exact h
  | cons x l ih => exact ih (hf s x h)

theorem batchLaw_inFreeOrder {α : Type} {s : State} (h : s.BatchLaw) (l : List α) (f : State → α → State)
    (hf : ∀ s x, s.BatchLaw → (f s x).BatchLaw) : (s.inFreeOrder l f).BatchLaw :=
  batchLaw_foldl hf _ (batchLaw_lists h (by rfl))

theorem batchLaw_advanceTick {s : State} (h : s.BatchLaw) : s.advanceTick.BatchLaw := by
  have hd : ∀ d, (s.advanceTick.domain d) = (s.domain d).ticked := by
    intro d; simp [State.advanceTick, State.domain]
  have he : ∀ x : Domain, x.ticked.state = x.state ∧ x.ticked.cfg = x.cfg ∧ x.ticked.commit = x.commit ∧
      x.ticked.fill = x.fill ∧ x.ticked.slots = x.slots := by
    intro x; unfold Domain.ticked; split <;> exact ⟨rfl, rfl, rfl, rfl, rfl⟩
  refine ⟨fun d => ?_, fun w hw => ?_, h.waitersApart, h.granted, h.leadWait, h.oneCapture⟩
  · rw [hd]; obtain ⟨h1, -, h3, h4, h5⟩ := he (s.domain d)
    exact (h.domains d).less h1 h3 h4 fun k => .inl (by rw [h5])
  · rw [hd]; obtain ⟨h1, h2, -⟩ := he (s.domain w.domain)
    rw [h1, h2]; exact h.waiters w hw

theorem batchLaw_expireIfDue {s : State} (h : s.BatchLaw) (p : Port) : (s.expireIfDue p).BatchLaw := by
  unfold State.expireIfDue; split
  · exact batchLaw_expireHeld h (stallDue_held (by assumption))
  · exact h

end Sys2Proof.Machine
end

