-- ==== Sys2Proof/Laws/Ports.lean ====
section
/-! SUPPORT. READY and the response through the shared operations: a port is upright when READY is high exactly while its record
is IDLE and a transaction in progress has no response yet. -/

namespace Sys2Proof.Machine

/-- READY follows the record while RESET is high. -/
def PortUnit.Upright (u : PortUnit) : Prop :=
  u.ready = decide (u.txn.phase = .idle) ∧ (u.txn.phase ≠ .idle → u.response = none)

/-- A transaction is in progress: READY is low and there is no response. -/
def PortUnit.Busy (u : PortUnit) : Prop := u.ready = false ∧ u.response = none

/-- Both ports are upright. -/
def State.Upright (s : State) : Prop := ∀ p, (s.port p).Upright

theorem PortUnit.Upright.busy {u : PortUnit} (h : u.Upright) (hp : u.txn.phase ≠ .idle) : u.Busy :=
  ⟨by rw [h.1]; simpa using hp, h.2 hp⟩

/-- A busy unit whose record is in progress is upright. -/
theorem PortUnit.Busy.upright {u : PortUnit} (h : u.Busy) (hp : u.txn.phase ≠ .idle) : u.Upright :=
  ⟨by rw [h.1]; simpa using hp, fun _ => h.2⟩

theorem State.Upright.onePort {s t : State} {p : Port} (h : s.Upright) (hp : OnePort p s t) (ht : (t.port p).Upright) :
    t.Upright := by
  intro q; by_cases hq : q = p
  · subst hq; exact ht
  · rw [hp.port q hq]; exact h q

theorem State.Upright.pool {s t : State} (h : s.Upright) (hp : PoolOnly s t) : t.Upright := by
  intro q; rw [hp.port]; exact h q

theorem upright_of_ports {s t : State} (h : s.Upright) (ha : t.portA = s.portA) (hb : t.portB = s.portB) : t.Upright := by
  intro p; cases p
  · show t.portA.Upright; rw [ha]; exact h .a
  · show t.portB.Upright; rw [hb]; exact h .b

theorem upright_setDomain {s : State} (h : s.Upright) (d : DomainId) (x : Domain) : (s.setDomain d x).Upright :=
  upright_of_ports h rfl rfl

theorem upright_respond_self (s : State) (p : Port) (r : Response) : ((s.respond p r).port p).Upright := by
  rw [State.port_respond, if_pos rfl]; exact ⟨rfl, fun hc => absurd rfl hc⟩

theorem upright_respond {s : State} (h : s.Upright) (p : Port) (r : Response) : (s.respond p r).Upright :=
  h.onePort (onePort_setPort _ _ _) (upright_respond_self s p r)

theorem upright_expireHeld {s : State} (h : s.Upright) (p : Port) : (s.expireHeld p).Upright :=
  h.onePort (onePort_expireHeld s p) (upright_respond_self _ _ _)

theorem upright_terminate {s : State} (h : s.Upright) (p : Port) : (s.terminate p).Upright :=
  upright_respond (upright_of_ports h rfl rfl : (s.leaveWaiting p).Upright) _ _

theorem busy_pool {s t : State} {p : Port} (h : (s.port p).Busy) (hp : PoolOnly s t) : (t.port p).Busy := by
  rw [hp.port]; exact h

theorem upright_hold_self {s : State} {p : Port} (h : (s.port p).Busy) (c : HoldCause) : ((s.hold p c).port p).Upright := by
  unfold State.hold; dsimp only; split
  · exact upright_respond_self _ _ _
  · rw [State.port_setTxn, if_pos rfl]; exact PortUnit.Busy.upright h (by simp)

theorem upright_arriveStaged_self {s : State} {p : Port} (h : (s.port p).Busy) (d : DomainId) (b : Bool) :
    ((s.arriveStaged p d b).port p).Upright := by
  unfold State.arriveStaged; dsimp only; split
  · exact upright_respond_self _ _ _
  · split
    · exact upright_respond_self _ _ _
    · exact upright_hold_self (by simpa using h) _

/-- The classification of a write in progress leaves its port upright. -/
theorem upright_reclassify_self {s : State} {p : Port} (h : (s.port p).Busy) : ((s.reclassify p).port p).Upright := by
  unfold State.reclassify State.applyWrite; dsimp only; split
  · rw [State.port_setTxn, if_pos rfl]; exact PortUnit.Busy.upright h (by simp)
  · exact upright_arriveStaged_self h _ _
  · exact upright_hold_self h _
  · exact upright_respond_self _ _ _
  · exact upright_respond_self _ _ _

theorem upright_reclassify {s : State} (h : s.Upright) {p : Port} (hp : (s.port p).txn.phase ≠ .idle) :
    (s.reclassify p).Upright :=
  h.onePort (onePort_reclassify s p) (upright_reclassify_self ((h p).busy hp))

theorem upright_foldl {α : Type} {f : State → α → State} (hf : ∀ s x, s.Upright → (f s x).Upright) (l : List α) {s : State}
    (h : s.Upright) : (l.foldl f s).Upright := by
  induction l generalizing s with
  | nil => exact h
  | cons x l ih => exact ih (hf s x h)

theorem upright_inFreeOrder {α : Type} {s : State} (h : s.Upright) (l : List α) (f : State → α → State)
    (hf : ∀ s x, s.Upright → (f s x).Upright) : (s.inFreeOrder l f).Upright :=
  upright_foldl hf _ (upright_of_ports h rfl rfl)

theorem upright_examineWaiter {s : State} (h : s.Upright) (w : Waiter) : (s.examineWaiter w).Upright := by
  unfold State.examineWaiter; split
  · exact upright_respond ((upright_of_ports h rfl rfl : (s.leaveWaiting w.port).Upright).pool
      (poolOnly_stageWrite _ _ _ _)) _ _
  · exact h

theorem upright_examineWaiting {s : State} (h : s.Upright) : s.examineWaiting.Upright :=
  upright_foldl (fun _ w hs => upright_examineWaiter hs w) _ h

/-! ### The controllers -/

/-- Both ports, classified again one after the other, while their records are in progress. -/
theorem upright_reclassifyAll (l : List Port) {s : State} (h : s.Upright) (hl : ∀ p ∈ l, (s.port p).txn.phase ≠ .idle)
    (hn : l.Nodup) : (l.foldl State.reclassify s).Upright := by
  induction l generalizing s with
  | nil => exact h
  | cons p l ih =>
    rw [List.nodup_cons] at hn
    refine ih (upright_reclassify h (hl p (List.mem_cons_self ..))) (fun q hq => ?_) hn.2
    rw [(onePort_reclassify s p).port q (by rintro rfl; exact hn.1 hq)]
    exact hl q (List.mem_cons_of_mem _ hq)

theorem upright_completeFill {s : State} (h : s.Upright) (d : DomainId) : (s.completeFill d).Upright := by
  have h1 : ((s.raise (.safeDone d)).enterSafed d).Upright := upright_of_ports (h.pool (poolOnly_raise _ _)) rfl rfl
  unfold State.completeFill
  generalize (s.raise (.safeDone d)).enterSafed d = t at h1
  have hp := freeOrder_perm ([Port.a, Port.b].filter (t.heldForFill d)) t.freeCount
  refine upright_reclassifyAll _ (upright_of_ports h1 rfl rfl) (fun p hm => ?_) ?_
  · have hh := heldForFill_held (List.mem_filter.mp (hp.mem_iff.mp hm)).2
    show (t.port p).txn.phase ≠ _; simp [hh.1]
  · exact hp.nodup_iff.mpr (List.Nodup.filter _ (by decide))

theorem upright_joinFill {s : State} (h : s.Upright) (d : DomainId) : (s.joinFill d).Upright :=
  upright_of_ports h rfl rfl

theorem upright_openFill {s : State} (h : s.Upright) (d : DomainId) : (s.openFill d).Upright := by
  unfold State.openFill; split
  · exact upright_of_ports (upright_setDomain h d { s.domain d with fill := {}, state := .safed }) rfl rfl
  · exact upright_joinFill (upright_setDomain h d _) _

theorem upright_beginFill {s : State} (h : s.Upright) (d : DomainId) : (s.beginFill d).Upright :=
  upright_openFill (h.pool (PoolOnly.foldl poolOnly_raise _ _)) d

theorem upright_advanceFill {s : State} (h : s.Upright) (d : DomainId) : (s.advanceFill d).Upright := by
  unfold State.advanceFill; split
  · exact upright_completeFill h d
  · exact upright_of_ports h rfl rfl

theorem upright_startCommit {s : State} (h : s.Upright) (d : DomainId) (k : SlotId) (b : Bool) :
    (s.startCommit d k b).Upright := by
  unfold State.startCommit State.joinStart; dsimp only; split <;> exact upright_of_ports h rfl rfl

theorem upright_commitDecision {s : State} (h : s.Upright) (d : DomainId) (b : Bool) : (s.commitDecision d b).Upright := by
  unfold State.commitDecision; split
  · exact h.pool (poolOnly_raise _ _)
  · split
    · exact upright_startCommit h _ _ _
    · exact h

theorem upright_continueStop {s : State} (h : s.Upright) (d : DomainId) : (s.continueStop d).Upright := by
  unfold State.continueStop; split
  · exact upright_startCommit h _ _ _
  · unfold State.reachDisabled; dsimp only
    have h1 : ((s.setDomain d { s.domain d with state := .disabled }).raise (.stopDone d)).Upright :=
      (upright_of_ports h rfl rfl : (s.setDomain d { s.domain d with state := .disabled }).Upright).pool (poolOnly_raise _ _)
    generalize (s.setDomain d { s.domain d with state := .disabled }).raise (.stopDone d) = t at h1
    split
    · rename_i hh; exact upright_reclassify h1 (by simp [(stoppingHold_held hh).1])
    · exact h1

theorem upright_completeCommit {s : State} (h : s.Upright) (d : DomainId) : (s.completeCommit d).Upright := by
  have h1 : ((s.raiseNumber d).freeCommitted d).Upright :=
    upright_examineWaiting ((upright_of_ports h rfl rfl : (s.raiseNumber d).Upright).pool (poolOnly_freeSlot _ _ _))
  unfold State.completeCommit
  generalize (s.raiseNumber d).freeCommitted d = t at h1
  have h2 : (t.notifyCommit d).Upright := by
    rcases notifyCommit_eq t d with e | e <;> rw [e]
    · exact h1
    · exact h1.pool (poolOnly_raise _ _)
  have h3 : ((t.notifyCommit d).leaveStart d).Upright := upright_of_ports h2 rfl rfl
  generalize (t.notifyCommit d).leaveStart d = u at h3
  unfold State.continueAfter; split
  · exact upright_continueStop h3 d
  · exact upright_beginFill h3 d
  all_goals exact h3

theorem upright_advanceCommit {s : State} (h : s.Upright) (d : DomainId) : (s.advanceCommit d).Upright := by
  unfold State.advanceCommit; dsimp only; split
  · exact upright_of_ports h rfl rfl
  · split
    · exact upright_of_ports h rfl rfl
    · exact upright_completeCommit h d

theorem upright_takeFault {s : State} (h : s.Upright) (d : DomainId) : (s.takeFault d).Upright := by
  have h1 : (s.enterSafing d).Upright := upright_setDomain h d _
  unfold State.takeFault State.discardAtFault
  generalize s.enterSafing d = t at h1
  have h2 : (t.terminateWaiter d).Upright := by
    unfold State.terminateWaiter; split
    · exact upright_terminate h1 _
    · exact h1
  exact (h2.pool (poolOnly_freeSlotsIn _ _ _)).pool (poolOnly_freeSlotsIn _ _ _)

theorem upright_settleFault {s : State} (h : s.Upright) (d : DomainId) : (s.settleFault d).Upright := by
  have h1 : (s.terminateStopping d).Upright := by
    unfold State.terminateStopping; split
    · exact upright_terminate h _
    · exact h
  unfold State.settleFault State.fillOrPend; split
  · exact upright_setDomain h1 d _
  · exact upright_openFill h1 d

theorem upright_acceptFaults {s : State} (h : s.Upright) (ds : List DomainId) (notice : DomainId → List Event) :
    (s.acceptFaults ds notice).Upright := by
  unfold State.acceptFaults; split
  · exact h
  · rename_i d l
    have h1 := upright_inFreeOrder (h.pool (poolOnly_raiseMerged s (d :: l) (s.faultEvents notice))) (d :: l) State.takeFault
      fun s d hs => upright_takeFault hs d
    have h2 := upright_inFreeOrder (upright_examineWaiting h1) (d :: l) State.settleFault fun s d hs => upright_settleFault hs d
    exact upright_of_ports h2 rfl rfl

theorem upright_syncEvent {s : State} (h : s.Upright) (d : DomainId) : (s.syncEvent d).Upright := by
  unfold State.syncEvent; split
  · exact upright_commitDecision (upright_setDomain h d _) _ _
  all_goals exact h

theorem upright_expireMonitor {s : State} (h : s.Upright) (d : DomainId) : (s.expireMonitor d).Upright := by
  have h1 := h.pool (poolOnly_raise s (.syncLost d))
  unfold State.expireMonitor; dsimp only; split
  · exact upright_setDomain h1 d _
  · exact upright_commitDecision (upright_setDomain h1 d _) _ _
  · exact upright_acceptFaults h _ _

theorem upright_stopDomain {s : State} (h : s.Upright) (d : DomainId) : (s.stopDomain d).Upright := by
  have h1 : (s.enterStopping d).Upright := upright_of_ports h rfl rfl
  unfold State.stopDomain
  generalize s.enterStopping d = t at h1
  have h2 : (t.waiterToStopping d).Upright := by
    unfold State.waiterToStopping; split
    · exact h1
    · refine (upright_of_ports h1 rfl rfl : (t.leaveWaiting _).Upright).onePort (onePort_setPort _ _ _) ?_
      rw [State.port_setTxn, if_pos rfl]
      exact ⟨(h1 _).1, (h1 _).2⟩
  have h3 : (t.discardAtStop d).Upright := upright_examineWaiting (h2.pool (poolOnly_freeSlotsIn _ _ _))
  unfold State.awaitOrContinue; split
  · exact h3
  · exact upright_continueStop h3 d

/-! ### The arbiter and the snapshot unit -/

theorem upright_contexts {s : State} (h : s.Upright) (p : Port) (v : Vector Context 2) :
    (s.setPort p { s.port p with contexts := v }).Upright :=
  h.onePort (onePort_setPort _ _ _) (by rw [State.port_setPort, if_pos rfl]; exact ⟨(h p).1, (h p).2⟩)

theorem upright_useContext {s : State} (h : s.Upright) (p : Port) (c : ContextId) : (s.useContext p c).Upright :=
  h.onePort (onePort_setPort _ _ _) (by rw [State.port_useContext, if_pos rfl]; exact ⟨(h p).1, (h p).2⟩)

theorem upright_arbitrate {s : State} (h : s.Upright) : s.arbitrate.Upright := by
  unfold State.arbitrate; split
  · exact h
  · split
    · exact h
    · rename_i g hg
      have hr := nextGrant_some hg
      obtain ⟨r, acc⟩ := g
      cases r with
      | fill d => exact upright_of_ports h rfl rfl
      | commit d => exact upright_of_ports h rfl rfl
      | capture p => exact upright_of_ports (upright_contexts h p ((s.port p).contexts.map Context.granted)) rfl rfl
      | port p =>
        have hph : (s.port p).txn.phase ≠ .idle := by
          simp only [State.request, State.portRequest] at hr
          split at hr
          · simp_all
          · cases hr
        refine upright_of_ports (s := s.setTxn p { (s.port p).txn with phase := .memory }) ?_ rfl rfl
        refine h.onePort (onePort_setPort _ _ _) ?_
        rw [State.port_setTxn, if_pos rfl]
        exact PortUnit.Busy.upright ((h p).busy hph) (by simp)

theorem upright_applyRead_self {s : State} {p : Port} (h : (s.port p).Busy) (a : Addr) :
    ((s.applyRead p (s.classifyRead p a)).port p).Upright := by
  unfold State.classifyRead State.applyRead
  split
  · rw [State.port_setTxn, if_pos rfl]; exact PortUnit.Busy.upright h (by simp)
  · rename_i w c hs
    have hh : ∃ l t, s.context p c = .held w l t := by
      split at hs
      · cases hs
      · split at hs
        · cases hs
        · split at hs
          · cases hs
          · split at hs
            · rename_i hc; cases hs
              have := List.find?_some hc
              unfold Context.holds at this
              split at this
              · rename_i w' l t hx
                have e : w' = w := by simpa using this
                exact ⟨l, t, by rw [hx, e]⟩
              · cases this
            · cases hs
    obtain ⟨l, t, hx⟩ := hh
    unfold State.serve
    rw [hx]
    dsimp only
    split
    · rw [State.port_setContext, if_pos rfl]; exact upright_respond_self _ _ _
    · exact upright_respond_self _ _ _
  · rename_i w hs
    unfold State.beginCapture
    dsimp only
    generalize s.chooseContext p w = c
    generalize (if s.writeOnItsWay (s.window w).writer w then CapturePhase.writerWait else CapturePhase.readRequest) = ph
    have hb : (((s.evict p c w).setContext p c (.capturing w [] ph)).port p).Busy := by
      rw [State.port_setContext, if_pos rfl, (evict_eq s p c w).port]; exact h
    generalize (s.evict p c w).setContext p c (.capturing w [] ph) = t at hb
    have : ({ (t.setTxn p { (t.port p).txn with phase := .leadWait }) with
        captureOrder := (t.setTxn p { (t.port p).txn with phase := .leadWait }).captureOrder ++ [p] } : State).port p =
      (t.setTxn p { (t.port p).txn with phase := .leadWait }).port p := by cases p <;> rfl
    rw [this, State.port_setTxn, if_pos rfl]
    exact PortUnit.Busy.upright hb (by simp)

theorem onePort_lists {s t : State} (p : Port) (ha : t.portA = s.portA) (hb : t.portB = s.portB) (hm : t.mport = s.mport)
    (hw : t.waiting = s.waiting) : OnePort p s t :=
  ⟨fun q _ => by cases q <;> [exact ha; exact hb], hm, fun w h _ => hw ▸ h⟩

theorem onePort_applyRead (s : State) (p : Port) (r : ReadPath) : OnePort p s (s.applyRead p r) := by
  unfold State.applyRead; split
  · exact onePort_setPort _ _ _
  · unfold State.serve; split
    · dsimp only; split
      · exact ((onePort_setPort _ _ _).trans (onePort_setPort _ _ _)).trans (onePort_setPort _ _ _)
      · exact (onePort_setPort _ _ _).trans (onePort_setPort _ _ _)
    · exact OnePort.refl _ _
  · unfold State.beginCapture; dsimp only
    exact ((((evict_eq s p _ _).onePort p).trans (onePort_setPort _ _ _)).trans (onePort_setPort _ _ _)).trans
      (onePort_lists p rfl rfl rfl rfl)

theorem upright_storeCapture {s : State} (h : s.Upright) (p : Port) (x : Word) : (s.storeCapture p x).Upright := by
  unfold State.storeCapture; split
  · exact h
  · split
    · split
      · exact upright_contexts h _ _
      · rename_i c _ _ w copy _ _
        unfold State.completeCapture
        dsimp only
        have h1 : ((s.setContext p c (.held w (copy ++ [x]) s.tick)).useContext p c).Upright :=
          upright_useContext (upright_contexts h _ _) _ _
        generalize (s.setContext p c (.held w (copy ++ [x]) s.tick)).useContext p c = t at h1
        have h2 := upright_respond (upright_of_ports h1 rfl rfl : ({ t with
          captureOrder := t.captureOrder.filter (· ≠ p) } : State).Upright) p (.okayRead (copyWord (copy ++ [x]) 0))
        generalize ({ t with captureOrder := t.captureOrder.filter (· ≠ p) } : State).respond p
          (.okayRead (copyWord (copy ++ [x]) 0)) = u at h2
        split
        · rename_i hh; exact upright_reclassify h2 (by simp [(heldForCapture_held hh).1])
        · exact h2
    · exact h

theorem upright_expireContext {s : State} (h : s.Upright) (p : Port) (c : ContextId) : (s.expireContext p c).Upright := by
  unfold State.expireContext; split
  · exact upright_contexts (h.pool (poolOnly_raise _ _)) _ _
  · exact h

theorem upright_takeTimed {s : State} (h : s.Upright) (e : TimedEvent) : (s.takeTimed e).Upright := by
  unfold State.takeTimed; split
  · cases e with
    | stall p => exact upright_expireHeld h p
    | monitor d => exact upright_arbitrate (upright_expireMonitor h d)
    | holdLimit p c => exact upright_expireContext h p c
  · exact h

theorem upright_expireIfDue {s : State} (h : s.Upright) (p : Port) : (s.expireIfDue p).Upright := by
  unfold State.expireIfDue; split
  · exact upright_expireHeld h p
  · exact h

end Sys2Proof.Machine
end

