-- ==== Sys2Proof/Laws/Captures.lean ====
section
/-! SUPPORT. Law 9 through the shared operations: captures in progress and the writes on their way to memory. -/

namespace Sys2Proof.Machine

/-- The captures' part of `State.CaptureLaw`. -/
structure State.Guarded (s : State) : Prop where
  apart : s.WindowsApart
  captured : ∀ p c w copy phase, s.context p c = .capturing w copy phase →
    (s.window w).enabled = true ∧ (s.window w).kind = .snapshot ∧ (s.window w).writer = p.other
  excluded : ∀ p c w copy phase, s.context p c = .capturing w copy phase → phase ≠ .writerWait →
    s.writeOnItsWay p.other w = false

/-- From `s` to `t` the window table is the same, no capture began or left WRITER_WAIT, and no write set out for memory. -/
structure Calm (s t : State) : Prop where
  windows : t.windows = s.windows
  contexts : ∀ p c w copy phase, t.context p c = .capturing w copy phase →
    ∃ copy' phase', s.context p c = .capturing w copy' phase' ∧ (phase ≠ .writerWait → phase' ≠ .writerWait)
  writes : ∀ q w, t.writeOnItsWay q w = true → s.writeOnItsWay q w = true

theorem Calm.refl (s : State) : Calm s s := ⟨rfl, fun _ _ _ l ph h => ⟨l, ph, h, id⟩, fun _ _ h => h⟩

theorem Calm.trans {s t u : State} (h : Calm s t) (k : Calm t u) : Calm s u := by
  refine ⟨k.windows.trans h.windows, fun p c w l ph hc => ?_, fun q w hq => h.writes q w (k.writes q w hq)⟩
  obtain ⟨l', ph', h1, h2⟩ := k.contexts p c w l ph hc
  obtain ⟨l'', ph'', h3, h4⟩ := h.contexts p c w l' ph' h1
  exact ⟨l'', ph'', h3, fun hn => h4 (h2 hn)⟩

theorem window_eq {s t : State} (h : t.windows = s.windows) (w : WindowId) : t.window w = s.window w := by
  simp [State.window, h]

theorem State.Guarded.calm {s t : State} (h : s.Guarded) (k : Calm s t) : t.Guarded := by
  refine ⟨?_, ?_, ?_⟩
  · intro i j hij a; rw [window_eq k.windows, window_eq k.windows]; exact h.apart i j hij a
  · intro p c w l ph hc
    obtain ⟨l', ph', h1, -⟩ := k.contexts p c w l ph hc
    rw [window_eq k.windows]; exact h.captured p c w l' ph' h1
  · intro p c w l ph hc hn
    obtain ⟨l', ph', h1, h2⟩ := k.contexts p c w l ph hc
    have := h.excluded p c w l' ph' h1 (h2 hn)
    cases hw : t.writeOnItsWay p.other w with
    | false => rfl
    | true => rw [k.writes _ _ hw] at this; cases this

/-- Nothing of the snapshot unit, the windows or the ports changed. -/
theorem calm_of_ports {s t : State} (hw : t.windows = s.windows) (ha : t.portA = s.portA) (hb : t.portB = s.portB) :
    Calm s t := by
  have hp : ∀ p, t.port p = s.port p := by intro p; cases p <;> [exact ha; exact hb]
  have hc : ∀ p c, t.context p c = s.context p c := by intro p c; simp [State.context, hp]
  refine ⟨hw, fun p c w l ph h => ⟨l, ph, hc p c ▸ h, id⟩, fun q w h => ?_⟩
  simpa [State.writeOnItsWay, hp, window_eq hw] using h

theorem calm_raise (s : State) (e : Event) : Calm s (s.raise e) := by
  unfold State.raise; split
  · exact calm_of_ports rfl rfl rfl
  · exact Calm.refl s

theorem calm_pool {s t : State} (h : PoolOnly s t) (k : Steady s t) : Calm s t :=
  calm_of_ports k.windows (h.port .a) (h.port .b)

theorem calm_setDomain (s : State) (d : DomainId) (x : Domain) : Calm s (s.setDomain d x) := calm_of_ports rfl rfl rfl

/-- A port's unit replaced by one that captures nothing new and whose write, if it has one, is not on its way anew. -/
theorem calm_setPort (s : State) (p : Port) (u : PortUnit)
    (hc : ∀ c w copy phase, u.contexts[c] = .capturing w copy phase →
      ∃ copy' phase', s.context p c = .capturing w copy' phase' ∧ (phase ≠ .writerWait → phase' ≠ .writerWait))
    (ht : u.txn.phase = .request ∨ u.txn.phase = .memory →
      u.txn.access = (s.port p).txn.access ∧ ((s.port p).txn.phase = .request ∨ (s.port p).txn.phase = .memory) ∨
      accessWrites u.txn.access = false) :
    Calm s (s.setPort p u) := by
  refine ⟨by simp, fun q c w l ph h => ?_, fun q w h => ?_⟩
  · by_cases hq : q = p
    · subst hq; unfold State.context at h; rw [State.port_setPort, if_pos rfl] at h; exact hc c w l ph h
    · unfold State.context at h; rw [State.port_setPort, if_neg hq] at h; exact ⟨l, ph, h, id⟩
  · by_cases hq : q = p
    · subst hq
      simp only [State.writeOnItsWay, State.port_setPort, if_pos, State.window_setPort, Bool.and_eq_true,
        decide_eq_true_eq] at h ⊢
      rcases ht h.2 with ⟨e1, e2⟩ | e
      · rw [e1] at h; exact ⟨h.1, e2⟩
      · rw [e] at h; exact absurd h.1.1 (by simp)
    · simpa [State.writeOnItsWay, State.port_setPort, hq] using h

/-- A transaction record replaced by one that is not on its way to memory. -/
theorem calm_setTxn (s : State) (p : Port) (t : Txn) (h1 : t.phase ≠ .request) (h2 : t.phase ≠ .memory) :
    Calm s (s.setTxn p t) :=
  calm_setPort s p _ (fun _ _ l ph h => ⟨l, ph, h, id⟩) fun hc => by rcases hc with hc | hc <;> contradiction

theorem calm_respond (s : State) (p : Port) (r : Response) : Calm s (s.respond p r) :=
  calm_setPort s p _ (fun _ _ l ph h => ⟨l, ph, h, id⟩) fun hc => by rcases hc with hc | hc <;> cases hc

theorem calm_expireHeld (s : State) (p : Port) : Calm s (s.expireHeld p) :=
  ((calm_of_ports rfl rfl rfl : Calm s (s.leaveWaiting p)).trans (calm_raise _ _)).trans (calm_respond _ _ _)

theorem calm_terminate (s : State) (p : Port) : Calm s (s.terminate p) :=
  (calm_of_ports rfl rfl rfl : Calm s (s.leaveWaiting p)).trans (calm_respond _ _ _)

theorem calm_hold (s : State) (p : Port) (c : HoldCause) : Calm s (s.hold p c) := by
  unfold State.hold; dsimp only
  split
  · exact (calm_setTxn s p _ (by simp) (by simp)).trans (calm_expireHeld _ _)
  · exact calm_setTxn s p _ (by simp) (by simp)

theorem calm_arriveStaged (s : State) (p : Port) (d : DomainId) (b : Bool) : Calm s (s.arriveStaged p d b) := by
  unfold State.arriveStaged; dsimp only; split
  · exact (calm_pool (poolOnly_stageWrite _ _ _ _) (steady_stageWrite _ _ _ _)).trans (calm_respond _ _ _)
  · split
    · exact (calm_raise _ _).trans (calm_respond _ _ _)
    · exact (calm_of_ports rfl rfl rfl : Calm s (s.joinWaiting _)).trans (calm_hold _ _ _)

/-! ### Classification -/

theorem captureAt_of_context {s : State} {p : Port} {c : ContextId} {w : WindowId} {l : List Word} {ph : CapturePhase}
    (h : s.context p c = .capturing w l ph) : s.captureAt p w = true := by
  unfold State.captureAt
  rw [List.any_eq_true]
  refine ⟨s.context p c, ?_, by simp [h, Context.captures]⟩
  unfold State.context
  rw [Vector.mem_toList_iff]
  exact Vector.getElem_mem _

/-- With the windows apart, the covering record of a word of an enabled window is that window. -/
theorem covering_of_covers {s : State} (ha : s.WindowsApart) {w : WindowId} {a : Addr} (h : (s.window w).covers a = true) :
    s.covering a = some w := by
  unfold State.covering
  cases hf : (List.finRange 16).find? fun i => (s.window i).covers a with
  | none =>
    have := List.find?_eq_none.mp hf w (List.mem_finRange w)
    simp [h] at this
  | some i =>
    have hi := List.find?_some hf
    by_cases hiw : i = w
    · rw [hiw]
    · exact absurd ⟨by simpa using hi, h⟩ (ha i w hiw a)

/-- A write of the writer port to a word under capture is not plain (R4, R129). -/
theorem classifyWrite_captured {s : State} (ha : s.WindowsApart) {q : Port} {a : Addr} {w : WindowId}
    (hk : (s.window w).kind = .snapshot) (hw : (s.window w).writer = q) (hc : s.captureAt q.other w = true)
    (hv : (s.window w).covers a = true) : s.classifyWrite q a ≠ .plain := by
  unfold State.classifyWrite
  split
  · split <;> simp
  · unfold State.writeTable
    rw [covering_of_covers ha hv]
    simp [hk, hw, hc]

/-- The classification of a write guards every capture in progress. -/
theorem guarded_reclassify {s : State} (h : s.Guarded) (p : Port) : (s.reclassify p).Guarded := by
  unfold State.reclassify State.applyWrite; dsimp only; split
  · rename_i hplain
    refine ⟨?_, ?_, ?_⟩
    · intro i j hij a; simpa using h.apart i j hij a
    · intro q c w l ph hc
      have hc' : s.context q c = .capturing w l ph := by
        unfold State.context at hc ⊢; rw [State.port_setTxn] at hc; split at hc
        · subst_vars; exact hc
        · exact hc
      simpa using h.captured q c w l ph hc'
    · intro q c w l ph hc hn
      have hc' : s.context q c = .capturing w l ph := by
        unfold State.context at hc ⊢; rw [State.port_setTxn] at hc; split at hc
        · subst_vars; exact hc
        · exact hc
      by_cases hq : q.other = p
      · have hcap := h.captured q c w l ph hc'
        rw [← Bool.not_eq_true]
        intro hway
        simp only [State.writeOnItsWay, State.port_setTxn, hq, if_pos, State.window_setTxn, Bool.and_eq_true] at hway
        refine classifyWrite_captured h.apart hcap.2.1 (hcap.2.2.trans hq) ?_ hway.1.2 hplain
        rw [← hq, Port.other_other]
        exact captureAt_of_context hc'
      · have := h.excluded q c w l ph hc' hn
        simpa [State.writeOnItsWay, State.port_setTxn, hq] using this
  · exact h.calm (calm_arriveStaged _ _ _ _)
  · exact h.calm (calm_hold _ _ _)
  · exact h.calm ((calm_raise _ _).trans (calm_respond _ _ _))
  · exact h.calm ((calm_raise _ _).trans (calm_respond _ _ _))

theorem guarded_foldl {α : Type} {f : State → α → State} (hf : ∀ s x, s.Guarded → (f s x).Guarded) (l : List α) {s : State}
    (h : s.Guarded) : (l.foldl f s).Guarded := by
  induction l generalizing s with
  | nil => exact h
  | cons x l ih => exact ih (hf s x h)

theorem guarded_inFreeOrder {α : Type} {s : State} (h : s.Guarded) (l : List α) (f : State → α → State)
    (hf : ∀ s x, s.Guarded → (f s x).Guarded) : (s.inFreeOrder l f).Guarded :=
  guarded_foldl hf _ (h.calm (calm_of_ports rfl rfl rfl))

/-! ### The pool and the controllers -/

theorem calm_foldl {α : Type} {f : State → α → State} (hf : ∀ s x, Calm s (f s x)) (l : List α) (s : State) :
    Calm s (l.foldl f s) := by
  induction l generalizing s with
  | nil => exact Calm.refl s
  | cons x l ih => exact (hf s x).trans (ih _)

theorem calm_examineWaiting (s : State) : Calm s s.examineWaiting := by
  apply calm_foldl; intro s w
  unfold State.examineWaiter; split
  · exact ((calm_of_ports rfl rfl rfl : Calm s (s.leaveWaiting w.port)).trans
      (calm_pool (poolOnly_stageWrite _ _ _ _) (steady_stageWrite _ _ _ _))).trans (calm_respond _ _ _)
  · exact Calm.refl s

theorem guarded_completeFill {s : State} (h : s.Guarded) (d : DomainId) : (s.completeFill d).Guarded := by
  have h1 : ((s.raise (.safeDone d)).enterSafed d).Guarded :=
    h.calm ((calm_raise _ _).trans (calm_of_ports rfl rfl rfl))
  exact guarded_inFreeOrder h1 _ _ fun s p hs => guarded_reclassify hs p

theorem calm_openFill (s : State) (d : DomainId) : Calm s (s.openFill d) := by
  unfold State.openFill; split <;> exact calm_of_ports rfl rfl rfl

theorem guarded_beginFill {s : State} (h : s.Guarded) (d : DomainId) : (s.beginFill d).Guarded :=
  h.calm ((calm_foldl calm_raise _ _).trans (calm_openFill _ d))

theorem guarded_advanceFill {s : State} (h : s.Guarded) (d : DomainId) : (s.advanceFill d).Guarded := by
  unfold State.advanceFill; split
  · exact guarded_completeFill h d
  · exact h.calm (calm_of_ports rfl rfl rfl)

theorem calm_startCommit (s : State) (d : DomainId) (k : SlotId) (b : Bool) : Calm s (s.startCommit d k b) := by
  unfold State.startCommit State.joinStart; dsimp only; split <;> exact calm_of_ports rfl rfl rfl

theorem calm_commitDecision (s : State) (d : DomainId) (b : Bool) : Calm s (s.commitDecision d b) := by
  unfold State.commitDecision; split
  · exact calm_raise _ _
  · split
    · exact calm_startCommit _ _ _ _
    · exact Calm.refl s

theorem guarded_continueStop {s : State} (h : s.Guarded) (d : DomainId) : (s.continueStop d).Guarded := by
  unfold State.continueStop; split
  · exact h.calm (calm_startCommit _ _ _ _)
  · unfold State.reachDisabled; dsimp only
    have h1 : ((s.setDomain d { s.domain d with state := .disabled }).raise (.stopDone d)).Guarded :=
      h.calm ((calm_setDomain _ _ _).trans (calm_raise _ _))
    generalize (s.setDomain d { s.domain d with state := .disabled }).raise (.stopDone d) = t at h1
    split
    · exact guarded_reclassify h1 _
    · exact h1

theorem guarded_completeCommit {s : State} (h : s.Guarded) (d : DomainId) : (s.completeCommit d).Guarded := by
  have h1 : ((s.raiseNumber d).freeCommitted d).Guarded :=
    h.calm (((calm_setDomain s d _).trans (calm_pool (poolOnly_freeSlot _ _ _) (steady_freeSlot _ _ _))).trans
      (calm_examineWaiting _))
  unfold State.completeCommit
  generalize (s.raiseNumber d).freeCommitted d = t at h1
  have h2 : (t.notifyCommit d).Guarded := by
    rcases notifyCommit_eq t d with e | e <;> rw [e]
    · exact h1
    · exact h1.calm (calm_raise _ _)
  have h3 : ((t.notifyCommit d).leaveStart d).Guarded := h2.calm (calm_of_ports rfl rfl rfl)
  generalize (t.notifyCommit d).leaveStart d = u at h3
  unfold State.continueAfter; split
  · exact guarded_continueStop h3 d
  · exact guarded_beginFill h3 d
  all_goals exact h3

theorem guarded_advanceCommit {s : State} (h : s.Guarded) (d : DomainId) : (s.advanceCommit d).Guarded := by
  unfold State.advanceCommit; dsimp only; split
  · exact h.calm (calm_setDomain _ _ _)
  · split
    · exact h.calm (calm_setDomain _ _ _)
    · exact guarded_completeCommit h d

theorem calm_raiseMerged (s : State) (ds : List DomainId) (events : DomainId → List Event) :
    Calm s (s.raiseMerged ds events) :=
  (calm_of_ports rfl rfl rfl : Calm s { s with freeCount := (freeMerge ds events s.freeCount).2 }).trans
    (calm_foldl calm_raise _ _)

theorem calm_takeFault (s : State) (d : DomainId) : Calm s (s.takeFault d) := by
  have h1 : Calm s (s.enterSafing d) := calm_setDomain _ _ _
  unfold State.takeFault State.discardAtFault
  refine h1.trans ?_
  generalize s.enterSafing d = t
  have h2 : Calm t (t.terminateWaiter d) := by
    unfold State.terminateWaiter; split
    · exact calm_terminate _ _
    · exact Calm.refl _
  exact (h2.trans (calm_pool (poolOnly_freeSlotsIn _ _ _) (steady_freeSlotsIn _ _ _))).trans
    (calm_pool (poolOnly_freeSlotsIn _ _ _) (steady_freeSlotsIn _ _ _))

theorem calm_settleFault (s : State) (d : DomainId) : Calm s (s.settleFault d) := by
  have h1 : Calm s (s.terminateStopping d) := by
    unfold State.terminateStopping; split
    · exact calm_terminate _ _
    · exact Calm.refl s
  unfold State.settleFault State.fillOrPend; split
  · exact h1.trans (calm_setDomain _ _ _)
  · exact h1.trans (calm_openFill _ _)

theorem guarded_acceptFaults {s : State} (h : s.Guarded) (ds : List DomainId) (notice : DomainId → List Event) :
    (s.acceptFaults ds notice).Guarded := by
  unfold State.acceptFaults; split
  · exact h
  · rename_i d l
    have h1 := guarded_inFreeOrder (h.calm (calm_raiseMerged s (d :: l) (s.faultEvents notice))) (d :: l) State.takeFault
      fun s d hs => hs.calm (calm_takeFault s d)
    have h2 := guarded_inFreeOrder (h1.calm (calm_examineWaiting _)) (d :: l) State.settleFault
      fun s d hs => hs.calm (calm_settleFault s d)
    exact h2.calm (calm_of_ports rfl rfl rfl)

theorem calm_syncEvent (s : State) (d : DomainId) : Calm s (s.syncEvent d) := by
  unfold State.syncEvent; split
  · exact (calm_setDomain s d _).trans (calm_commitDecision _ _ _)
  all_goals exact Calm.refl s

theorem guarded_expireMonitor {s : State} (h : s.Guarded) (d : DomainId) : (s.expireMonitor d).Guarded := by
  have h1 := h.calm (calm_raise s (.syncLost d))
  unfold State.expireMonitor; dsimp only; split
  · exact h1.calm (calm_setDomain _ d _)
  · exact h1.calm ((calm_setDomain _ d _).trans (calm_commitDecision _ _ _))
  · exact guarded_acceptFaults h _ _

theorem guarded_stopDomain {s : State} (h : s.Guarded) (hb : s.BatchLaw) (d : DomainId) : (s.stopDomain d).Guarded := by
  have h2 : ((s.enterStopping d).waiterToStopping d).Guarded := by
    unfold State.enterStopping
    rw [waiterToStopping_setDomain]
    refine State.Guarded.calm ?_ (calm_setDomain _ _ _)
    unfold State.waiterToStopping; split
    · exact h
    · rename_i w hw
      have hh := (hb.waiters w (waiterOf_some hw).1).2.2.1
      exact h.calm ((calm_of_ports rfl rfl rfl : Calm s (s.leaveWaiting w.port)).trans
        (calm_setTxn _ _ _ (by simp [hh]) (by simp [hh])))
  have h3 : ((s.enterStopping d).discardAtStop d).Guarded :=
    h2.calm ((calm_pool (poolOnly_freeSlotsIn _ _ _) (steady_freeSlotsIn _ _ _)).trans (calm_examineWaiting _))
  unfold State.stopDomain State.awaitOrContinue; split
  · exact h3
  · exact guarded_continueStop h3 d

/-! ### The arbiter -/

theorem guarded_arbitrate {s : State} (h : s.Guarded) : s.arbitrate.Guarded := by
  unfold State.arbitrate; split
  · exact h
  · split
    · exact h
    · rename_i g hg
      have hr := nextGrant_some hg
      obtain ⟨r, acc⟩ := g
      refine State.Guarded.calm (s := s.markGranted r) ?_ (calm_of_ports rfl rfl rfl)
      cases r with
      | fill d => exact h.calm (calm_setDomain _ _ _)
      | commit d => exact h.calm (calm_setDomain _ _ _)
      | capture p =>
        refine h.calm (calm_setPort s p _ (fun c w l ph hc => ?_) fun hp => .inl ⟨rfl, hp⟩)
        have e : ((s.port p).contexts.map Context.granted)[c] = (s.context p c).granted := by simp [State.context]
        dsimp only at hc
        rw [e] at hc
        unfold Context.granted at hc
        split at hc
        · rename_i w' l' hx; cases hc; exact ⟨l, _, hx, fun _ => by simp⟩
        · exact ⟨l, ph, hc, id⟩
      | port p =>
        have hph : (s.port p).txn.phase = .request := by
          simp only [State.request, State.portRequest] at hr
          split at hr
          · assumption
          · cases hr
        refine h.calm ((calm_setPort s p { s.port p with txn := { (s.port p).txn with phase := .memory } }
          (fun c w l ph hc => ⟨l, ph, hc, id⟩) fun _ => .inl ⟨rfl, .inl hph⟩).trans (calm_of_ports rfl rfl rfl))

/-! ### The snapshot unit -/

theorem calm_useContext (s : State) (p : Port) (c : ContextId) : Calm s (s.useContext p c) :=
  calm_setPort s p _ (fun _ _ l ph h => ⟨l, ph, h, id⟩) fun hp => .inl ⟨rfl, hp⟩

/-- A context takes a value that goes on with the same capture, or that captures nothing. -/
theorem calm_setContext (s : State) (p : Port) (c : ContextId) (x : Context)
    (hx : ∀ w copy phase, x = .capturing w copy phase →
      ∃ copy' phase', s.context p c = .capturing w copy' phase' ∧ (phase ≠ .writerWait → phase' ≠ .writerWait)) :
    Calm s (s.setContext p c x) := by
  refine calm_setPort s p _ (fun e w l ph h => ?_) fun hp => .inl ⟨rfl, hp⟩
  dsimp only at h
  rw [set_context] at h; split at h
  · subst_vars; exact hx w l ph rfl
  · exact ⟨l, ph, h, id⟩

theorem guarded_storeCapture {s : State} (h : s.Guarded) (p : Port) (x : Word) : (s.storeCapture p x).Guarded := by
  unfold State.storeCapture; split
  · exact h
  · split
    · rename_i c _ _ w copy hctx
      split
      · refine h.calm (calm_setContext s p c _ fun w' l' ph' he => ?_)
        cases he; exact ⟨copy, _, hctx, fun _ => by simp⟩
      · unfold State.completeCapture
        dsimp only
        have h1 : ((s.setContext p c (.held w (copy ++ [x]) s.tick)).useContext p c).Guarded :=
          h.calm ((calm_setContext s p c _ fun _ _ _ he => by cases he).trans (calm_useContext _ _ _))
        generalize (s.setContext p c (.held w (copy ++ [x]) s.tick)).useContext p c = t at h1
        have h2 : (({ t with captureOrder := t.captureOrder.filter (· ≠ p) } : State).respond p
            (.okayRead (copyWord (copy ++ [x]) 0))).Guarded :=
          h1.calm ((calm_of_ports rfl rfl rfl : Calm t { t with captureOrder := t.captureOrder.filter (· ≠ p) }).trans
            (calm_respond _ _ _))
        generalize ({ t with captureOrder := t.captureOrder.filter (· ≠ p) } : State).respond p
          (.okayRead (copyWord (copy ++ [x]) 0)) = u at h2
        split
        · exact guarded_reclassify h2 _
        · exact h2
    · exact h

theorem calm_expireContext (s : State) (p : Port) (c : ContextId) : Calm s (s.expireContext p c) := by
  unfold State.expireContext; split
  · exact (calm_raise _ _).trans (calm_setContext _ p c .idle fun _ _ _ he => by cases he)
  · exact Calm.refl s

theorem calm_serve (s : State) (p : Port) (w : WindowId) (c : ContextId) : Calm s (s.serve p w c) := by
  unfold State.serve; split
  · dsimp only; split
    · exact ((calm_useContext s p c).trans (calm_respond _ _ _)).trans
        (calm_setContext _ p c .idle fun _ _ _ he => by cases he)
    · exact (calm_useContext s p c).trans (calm_respond _ _ _)
  · exact Calm.refl s

theorem calm_evict (s : State) (p : Port) (c : ContextId) (w : WindowId) : Calm s (s.evict p c w) := by
  unfold State.evict; split
  · split
    · exact Calm.refl s
    · exact calm_raise _ _
  · exact Calm.refl s

/-- A capture begins guarded (R126): it waits for a write on its way, or there is none. -/
theorem guarded_beginCapture {s : State} (h : s.Guarded) (p : Port) (w : WindowId) (he : (s.window w).enabled = true)
    (hk : (s.window w).kind = .snapshot) (hw : (s.window w).writer = p.other) : (s.beginCapture p w).Guarded := by
  unfold State.beginCapture
  dsimp only
  generalize hc : s.chooseContext p w = c
  generalize hph : (if s.writeOnItsWay (s.window w).writer w then CapturePhase.writerWait else CapturePhase.readRequest) = ph
  have k := calm_evict s p c w
  have hev := evict_eq s p c w
  have h1 := h.calm k
  have hway : ph ≠ .writerWait → (s.evict p c w).writeOnItsWay p.other w = false := by
    intro hn
    have : s.writeOnItsWay p.other w = false := by
      rw [← hw, ← Bool.not_eq_true]; intro ht; rw [if_pos ht] at hph; exact hn hph.symm
    rw [← Bool.not_eq_true]; intro ht; rw [k.writes _ _ ht] at this; cases this
  have hwin : (s.evict p c w).window w = s.window w := window_eq k.windows w
  generalize s.evict p c w = t at k hev h1 hway hwin
  refine State.Guarded.calm (s := (t.setContext p c (.capturing w [] ph)).setTxn p
    { ((t.setContext p c (.capturing w [] ph)).port p).txn with phase := .leadWait }) ?_ (calm_of_ports rfl rfl rfl)
  refine State.Guarded.calm (s := t.setContext p c (.capturing w [] ph)) ?_ (calm_setTxn _ _ _ (by simp) (by simp))
  have hctx : ∀ q e, (t.setContext p c (.capturing w [] ph)).context q e =
      if q = p ∧ e = c then .capturing w [] ph else t.context q e := by
    intro q e; unfold State.context; rw [State.port_setContext]
    by_cases hq : q = p
    · subst hq; simp only [if_pos, true_and]; rw [set_context]
    · simp [hq]
  have hwy : ∀ q v, (t.setContext p c (.capturing w [] ph)).writeOnItsWay q v = t.writeOnItsWay q v := by
    intro q v
    have : ((t.setContext p c (.capturing w [] ph)).port q).txn = (t.port q).txn := by
      rw [State.port_setContext]; split
      · subst_vars; rfl
      · rfl
    simp [State.writeOnItsWay, this]
  refine ⟨?_, ?_, ?_⟩
  · intro i j hij a; simpa using h1.apart i j hij a
  · intro q e v l ph' hx
    rw [hctx] at hx; split at hx
    · rename_i hqe; cases hx; rw [State.window_setContext, hwin, hqe.1]; exact ⟨he, hk, hw⟩
    · simpa using h1.captured q e v l ph' hx
  · intro q e v l ph' hx hn
    rw [hwy]
    rw [hctx] at hx; split at hx
    · rename_i hqe; cases hx; rw [hqe.1]; exact hway hn
    · exact h1.excluded q e v l ph' hx hn

theorem covering_some {s : State} {a : Addr} {w : WindowId} (h : s.covering a = some w) :
    (s.window w).covers a = true := by
  have := List.find?_some h; simpa using this

/-- A read is classified as a lead-word read only in an enabled SNAPSHOT window whose writer is the other port (R5). -/
theorem classifyRead_capture {s : State} {p : Port} {a : Addr} {w : WindowId} (h : s.classifyRead p a = .capture w) :
    (s.window w).enabled = true ∧ (s.window w).kind = .snapshot ∧ (s.window w).writer = p.other := by
  unfold State.classifyRead at h
  split at h
  · cases h
  · rename_i i hcov
    split at h
    · cases h
    · rename_i hn
      split at h
      · cases h
        refine ⟨?_, ?_, ?_⟩
        · have := covering_some hcov; simp only [WindowRecord.covers, Bool.and_eq_true] at this; exact this.1
        · cases hk : (s.window w).kind with
          | staged => exact absurd (.inl hk) hn
          | snapshot => rfl
        · rcases Port.eq_or_other p (s.window w).writer with e | e
          · exact absurd (.inr e) hn
          · exact e
      · split at h <;> cases h

theorem guarded_applyRead {s : State} (h : s.Guarded) (p : Port) (a : Addr) (hp : (s.port p).txn.access = .read a) :
    (s.applyRead p (s.classifyRead p a)).Guarded := by
  cases hc : s.classifyRead p a with
  | memory => exact h.calm (calm_setPort s p _ (fun _ _ l ph hx => ⟨l, ph, hx, id⟩) fun _ => .inr (by simp [hp, accessWrites]))
  | serve w c => exact h.calm (calm_serve s p w c)
  | capture w =>
    have := classifyRead_capture hc
    exact guarded_beginCapture h p w this.1 this.2.1 this.2.2

/-- A port's write has completed, and the captures at the other port that waited for it go on (R126). -/
theorem guarded_finishPortWrite {s : State} (h : s.Guarded) (p : Port) (acc : Access) : (s.finishPortWrite p acc).Guarded := by
  refine guarded_arbitrate ?_
  have h1 : (s.patchCopies p acc).Guarded := by
    refine h.calm (calm_setPort s p _ (fun c w l ph hx => ?_) fun hp => .inl ⟨rfl, hp⟩)
    dsimp only at hx
    have e : ((s.port p).contexts.map (s.patched (accessAddr acc) (accessLanes acc) (accessData acc)))[c] =
        s.patched (accessAddr acc) (accessLanes acc) (accessData acc) (s.context p c) := by simp [State.context]
    rw [e] at hx
    unfold State.patched at hx
    split at hx
    · split at hx <;> cases hx
    · exact ⟨l, ph, hx, id⟩
  have h2 := h1.calm (calm_respond (s.patchCopies p acc) p .okayWrite)
  have hidle : (((s.patchCopies p acc).respond p .okayWrite).port p).txn.phase = .idle := by
    rw [State.port_respond, if_pos rfl]
  generalize (s.patchCopies p acc).respond p .okayWrite = t at h2 hidle
  unfold State.endWriterWait
  have hctx : ∀ q c, (t.setPort p.other { t.port p.other with contexts := (t.port p.other).contexts.map Context.writerDone }).context q c =
      if q = p.other then (t.context q c).writerDone else t.context q c := by
    intro q c; unfold State.context; rw [State.port_setPort]; split
    · subst_vars; simp
    · rfl
  have htx : ∀ q, ((t.setPort p.other { t.port p.other with contexts := (t.port p.other).contexts.map Context.writerDone }).port q).txn =
      (t.port q).txn := by
    intro q; rw [State.port_setPort]; split
    · subst_vars; rfl
    · rfl
  refine ⟨?_, ?_, ?_⟩
  · intro i j hij a; simpa using h2.apart i j hij a
  · intro q c w l ph hx
    rw [hctx] at hx
    have : ∃ ph', t.context q c = .capturing w l ph' := by
      split at hx
      · unfold Context.writerDone at hx; split at hx
        · rename_i hy; cases hx; exact ⟨_, hy⟩
        · exact ⟨_, hx⟩
      · exact ⟨_, hx⟩
    obtain ⟨ph', hy⟩ := this
    simpa using h2.captured q c w l ph' hy
  · intro q c w l ph hx hn
    have hw : ∀ v, (t.setPort p.other { t.port p.other with contexts := (t.port p.other).contexts.map Context.writerDone }).writeOnItsWay q.other v =
        t.writeOnItsWay q.other v := by
      intro v; unfold State.writeOnItsWay; rw [htx]; simp
    rw [hw]
    rw [hctx] at hx
    by_cases hq : q = p.other
    · rw [hq, Port.other_other]; unfold State.writeOnItsWay; simp [hidle]
    · rw [if_neg hq] at hx; exact h2.excluded q c w l ph hx hn

theorem guarded_takeTimed {s : State} (h : s.Guarded) (e : TimedEvent) : (s.takeTimed e).Guarded := by
  unfold State.takeTimed; split
  · cases e with
    | stall p => exact h.calm (calm_expireHeld s p)
    | monitor d => exact guarded_arbitrate (guarded_expireMonitor h d)
    | holdLimit p c => exact h.calm (calm_expireContext s p c)
  · exact h

end Sys2Proof.Machine
end

