-- ==== Sys2Proof/Laws/PoolLaw.lean ====
section
/-! SUPPORT. Laws 1 to 3 through the shared operations: what leaves entries and slots alone, and what the four operations
that change them make of `State.PoolLaw`. -/

namespace Sys2Proof.Machine

/-! ### Operations that touch no entry and no slot -/

/-- From `s` to `t` no staging entry and no batch slot changed. -/
structure SamePool (s t : State) : Prop where
  entries : t.entries = s.entries
  slots : ∀ d k, t.slot d k = s.slot d k

theorem SamePool.refl (s : State) : SamePool s s := ⟨rfl, fun _ _ => rfl⟩

theorem SamePool.trans {s t u : State} (h : SamePool s t) (k : SamePool t u) : SamePool s u :=
  ⟨k.entries.trans h.entries, fun d j => (k.slots d j).trans (h.slots d j)⟩

/-- The pool's laws are carried from `s` to `t`. -/
def KeepsPool (s t : State) : Prop := s.PoolLaw → t.PoolLaw

theorem KeepsPool.refl (s : State) : KeepsPool s s := id

theorem KeepsPool.trans {s t u : State} (h : KeepsPool s t) (k : KeepsPool t u) : KeepsPool s u := fun hs => k (h hs)

theorem KeepsPool.foldl {α : Type} {f : State → α → State} (hf : ∀ s x, KeepsPool s (f s x)) (l : List α) (s : State) :
    KeepsPool s (l.foldl f s) := by
  induction l generalizing s with
  | nil => exact KeepsPool.refl s
  | cons x l ih => exact (hf s x).trans (ih _)

/-- The laws speak of entries and slots alone. -/
theorem SamePool.keeps {s t : State} (h : SamePool s t) : KeepsPool s t := fun p =>
  { listed := by simpa only [h.slots, h.entries] using p.listed
    inUse := by simpa only [h.slots, h.entries] using p.inUse
    oneWord := by simpa only [h.slots, h.entries] using p.oneWord
    empty := by simpa only [h.slots] using p.empty
    ranked := by simpa only [h.slots] using p.ranked
    oneOpen := by simpa only [h.slots] using p.oneOpen }

theorem samePool_setPort (s : State) (p : Port) (u : PortUnit) : SamePool s (s.setPort p u) := ⟨by simp, by simp⟩

theorem samePool_raise (s : State) (e : Event) : SamePool s (s.raise e) := by
  unfold State.raise
  split
  · exact ⟨rfl, fun _ _ => rfl⟩
  · exact SamePool.refl s

/-- A domain replaced by one with the same slots. -/
theorem samePool_setDomain (s : State) (d : DomainId) (x : Domain) (h : x.slots = (s.domain d).slots) :
    SamePool s (s.setDomain d x) := by
  refine ⟨rfl, fun e k => ?_⟩
  rw [State.slot_setDomain]
  split
  · rename_i he
    rw [he, h]
    rfl
  · rfl

/-! ### The operations that change the pool -/

/-- A new entry at the tail of a batch that is OPEN, or of a FREE slot that it opens (R41). -/
theorem State.PoolLaw.staged {s t : State} (h : s.PoolLaw) {d : DomainId} {k : SlotId} {i : EntryId} {a : Addr} {x : Word}
    {m : Lanes} (hi : s.entries[i] = none)
    (hb : (s.slot d k).state = .opened ∨ ((s.slot d k).state = .free ∧ ∀ j, (s.slot d j).state ≠ .opened))
    (ha : ∀ j ∈ (s.slot d k).entries, ∀ f, s.entries[j] = some f → f.addr ≠ a)
    (he : t.entries = s.entries.set i (some { addr := a, data := x, lanes := m, domain := d, slot := k,
                                              position := (s.slot d k).entries.length }))
    (hs : ∀ e j, t.slot e j = if e = d ∧ j = k then
      { s.slot d k with state := .opened, entries := (s.slot d k).entries ++ [i] } else s.slot e j) : t.PoolLaw := by
  have hne : ∀ (e : DomainId) (j : SlotId) (n : Nat) (q : EntryId), (s.slot e j).entries[n]? = some q → q ≠ i := by
    intro e j n q hq hc
    subst hc
    obtain ⟨f, hf, -⟩ := h.listed e j n q hq
    rw [hi] at hf
    cases hf
  have hent : ∀ q : EntryId, q ≠ i → t.entries[q] = s.entries[q] := by
    intro q hq
    rw [he]
    exact Vector.getElem_set_ne _ _ (fun hc => hq (Fin.ext hc.symm))
  have hnew : t.entries[i] = some { addr := a, data := x, lanes := m, domain := d, slot := k,
                                    position := (s.slot d k).entries.length } := by
    rw [he]
    exact Vector.getElem_set_self _
  have hmem : ∀ e j (q : EntryId), q ∈ (s.slot e j).entries → q ≠ i := by
    intro e j q hq
    obtain ⟨n, hn⟩ := List.getElem?_of_mem hq
    exact hne e j n q hn
  constructor
  · intro e j n q hq
    rw [hs] at hq
    by_cases hc : e = d ∧ j = k
    · rw [if_pos hc] at hq
      obtain ⟨rfl, rfl⟩ := hc
      by_cases hn : n < (s.slot e j).entries.length
      · rw [List.getElem?_append_left hn] at hq
        obtain ⟨f, hf, h'⟩ := h.listed e j n q hq
        exact ⟨f, by rw [hent q (hne _ _ _ _ hq)]; exact hf, h'⟩
      · rw [List.getElem?_append_right (by omega)] at hq
        obtain ⟨hz, rfl⟩ : n - (s.slot e j).entries.length = 0 ∧ i = q := by
          rcases hk : n - (s.slot e j).entries.length with _ | w
          · rw [hk] at hq
            exact ⟨rfl, by simpa using hq⟩
          · rw [hk] at hq
            simp at hq
        exact ⟨_, hnew, rfl, rfl, by dsimp only; omega⟩
    · rw [if_neg hc] at hq
      obtain ⟨f, hf, h'⟩ := h.listed e j n q hq
      exact ⟨f, by rw [hent q (hne _ _ _ _ hq)]; exact hf, h'⟩
  · intro q f hf
    by_cases hq : q = i
    · subst hq
      rw [hnew] at hf
      cases hf
      dsimp only
      rw [hs, if_pos ⟨rfl, rfl⟩]
      dsimp only
      rw [List.getElem?_append_right (le_refl _)]
      simp
    · rw [hent q hq] at hf
      have := h.inUse q f hf
      rw [hs]
      split
      · rename_i hc
        obtain ⟨rfl, rfl⟩ := hc
        dsimp only
        rw [List.getElem?_append_left]
        · exact this
        · exact (List.getElem?_eq_some_iff.mp this).1
      · exact this
  · intro e j p q f g hp hq hf hg hfg
    rw [hs] at hp hq
    by_cases hc : e = d ∧ j = k
    · rw [if_pos hc] at hp hq
      obtain ⟨rfl, rfl⟩ := hc
      simp only [List.mem_append, List.mem_singleton] at hp hq
      rcases hp with hp | rfl <;> rcases hq with hq | rfl
      · rw [hent p (hmem _ _ _ hp)] at hf
        rw [hent q (hmem _ _ _ hq)] at hg
        exact h.oneWord e j p q f g hp hq hf hg hfg
      · rw [hent p (hmem _ _ _ hp)] at hf
        rw [hnew] at hg
        cases hg
        exact absurd hfg (ha p hp f hf)
      · rw [hent q (hmem _ _ _ hq)] at hg
        rw [hnew] at hf
        cases hf
        exact absurd hfg.symm (ha q hq g hg)
      · rfl
    · rw [if_neg hc] at hp hq
      rw [hent p (hmem _ _ _ hp)] at hf
      rw [hent q (hmem _ _ _ hq)] at hg
      exact h.oneWord e j p q f g hp hq hf hg hfg
  · intro e j
    rw [hs]
    split
    · simp
    · exact h.empty e j
  · intro e j
    rw [hs]
    split
    · have := h.ranked d k
      rcases hb with hb | ⟨hb, -⟩ <;> simp_all
    · exact h.ranked e j
  · intro e j l hj hl
    rw [hs] at hj hl
    by_cases he' : e = d
    · subst he'
      by_cases hjk : j = k <;> by_cases hlk : l = k
      · rw [hjk, hlk]
      · rw [if_neg (by simp [hlk])] at hl
        rcases hb with hb | ⟨-, hb⟩
        · exact hjk.trans (h.oneOpen e k l hb hl)
        · exact absurd hl (hb l)
      · rw [if_neg (by simp [hjk])] at hj
        rcases hb with hb | ⟨-, hb⟩
        · exact (h.oneOpen e j k hj hb).trans hlk.symm
        · exact absurd hj (hb j)
      · rw [if_neg (by simp [hjk])] at hj
        rw [if_neg (by simp [hlk])] at hl
        exact h.oneOpen e j l hj hl
    · rw [if_neg (by simp [he'])] at hj hl
      exact h.oneOpen e j l hj hl

/-- A batch keeps its entries while its slot goes from one state to another, neither FREE nor newly OPEN (R43, R51). -/
theorem State.PoolLaw.slotMoved {s t : State} (h : s.PoolLaw) {d : DomainId} {k : SlotId} {st : SlotState} {r : Option Count}
    (hf : (s.slot d k).state ≠ .free) (hst : st = .sealed ∨ st = .committing) (hr : r.isSome = true)
    (he : t.entries = s.entries)
    (hs : ∀ e j, t.slot e j = if e = d ∧ j = k then { s.slot d k with state := st, rank := r } else s.slot e j) :
    t.PoolLaw := by
  have hent : ∀ e j, (t.slot e j).entries = (s.slot e j).entries := by
    intro e j
    rw [hs]
    split
    · rename_i hc
      rw [hc.1, hc.2]
    · rfl
  have hop : ∀ e j, (t.slot e j).state = .opened → (s.slot e j).state = .opened := by
    intro e j hj
    rw [hs] at hj
    split at hj
    · rcases hst with rfl | rfl <;> cases hj
    · exact hj
  refine ⟨by simpa only [hent, he] using h.listed, by simpa only [hent, he] using h.inUse,
    by simpa only [hent, he] using h.oneWord, fun e j => ?_, fun e j => ?_,
    fun e j l hj hl => h.oneOpen e j l (hop e j hj) (hop e l hl)⟩
  · rw [hent, ← h.empty e j, hs]
    split
    · rename_i hc
      rw [hc.1, hc.2]
      rcases hst with rfl | rfl <;> simp [hf]
    · rfl
  · rw [hs]
    split
    · rcases hst with rfl | rfl <;> simp [hr]
    · exact h.ranked e j

/-- A batch whose slot and entries become FREE (R51, R52). -/
theorem State.PoolLaw.freed {s t : State} (h : s.PoolLaw) {d : DomainId} {k : SlotId}
    (he : ∀ i : EntryId, t.entries[i] = if i ∈ (s.slot d k).entries then none else s.entries[i])
    (hs : ∀ e j, t.slot e j = if e = d ∧ j = k then {} else s.slot e j) : t.PoolLaw := by
  have hkeep : ∀ (e : DomainId) (j : SlotId) (n : Nat) (q : EntryId), ¬ (e = d ∧ j = k) → (s.slot e j).entries[n]? = some q → q ∉ (s.slot d k).entries := by
    intro e j n q hc hq hm
    obtain ⟨n', hn'⟩ := List.getElem?_of_mem hm
    obtain ⟨f, hf, h1, h2, -⟩ := h.listed e j n q hq
    obtain ⟨g, hg, h3, h4, -⟩ := h.listed d k n' q hn'
    rw [hf] at hg
    cases hg
    exact hc ⟨h1.symm.trans h3, h2.symm.trans h4⟩
  constructor
  · intro e j n q hq
    rw [hs] at hq
    split at hq
    · simp at hq
    · rename_i hc
      rw [he, if_neg (hkeep e j n q hc hq)]
      exact h.listed e j n q hq
  · intro q f hf
    rw [he] at hf
    split at hf
    · cases hf
    · rename_i hq
      have := h.inUse q f hf
      rw [hs, if_neg]
      · exact this
      · rintro ⟨hd, hk⟩
        rw [hd, hk] at this
        exact hq (List.mem_of_getElem? this)
  · intro e j p q f g hp hq hf hg hfg
    rw [hs] at hp hq
    split at hp
    · simp at hp
    · rename_i hc
      rw [if_neg hc] at hq
      rw [he] at hf hg
      split at hf
      · cases hf
      · split at hg
        · cases hg
        · exact h.oneWord e j p q f g hp hq hf hg hfg
  · intro e j
    rw [hs]
    split
    · simp
    · exact h.empty e j
  · intro e j
    rw [hs]
    split
    · simp
    · exact h.ranked e j
  · intro e j l hj hl
    rw [hs] at hj hl
    split at hj
    · cases hj
    · split at hl
      · cases hl
      · exact h.oneOpen e j l hj hl

/-- A merge changes an entry's data and mask and nothing else (R40). -/
theorem State.PoolLaw.merged {s t : State} (h : s.PoolLaw) {i : EntryId} {e : StagingEntry} {x : Word} {m : Lanes}
    (hi : s.entries[i] = some e) (he : t.entries = s.entries.set i (some { e with data := x, lanes := m }))
    (hs : ∀ d k, t.slot d k = s.slot d k) : t.PoolLaw := by
  have hnew : t.entries[i] = some { e with data := x, lanes := m } := by
    rw [he]
    exact Vector.getElem_set_self _
  have hent : ∀ q : EntryId, q ≠ i → t.entries[q] = s.entries[q] := by
    intro q hq
    rw [he]
    exact Vector.getElem_set_ne _ _ (fun hc => hq (Fin.ext hc.symm))
  have hback : ∀ (q : EntryId) f, t.entries[q] = some f → ∃ g, s.entries[q] = some g ∧ g.addr = f.addr ∧
      g.domain = f.domain ∧ g.slot = f.slot ∧ g.position = f.position := by
    intro q f hf
    by_cases hq : q = i
    · subst hq
      rw [hnew] at hf
      cases hf
      exact ⟨e, hi, rfl, rfl, rfl, rfl⟩
    · exact ⟨f, by rw [← hent q hq]; exact hf, rfl, rfl, rfl, rfl⟩
  refine ⟨fun d k n q hq => ?_, fun q f hf => ?_, fun d k p q f g hp hq hf hg hfg => ?_, by simpa only [hs] using h.empty,
    by simpa only [hs] using h.ranked, by simpa only [hs] using h.oneOpen⟩
  · rw [hs] at hq
    obtain ⟨f, hf, h'⟩ := h.listed d k n q hq
    by_cases hqi : q = i
    · subst hqi
      rw [hi] at hf
      cases hf
      exact ⟨_, hnew, h'⟩
    · exact ⟨f, by rw [hent q hqi]; exact hf, h'⟩
  · obtain ⟨g, hg, -, h1, h2, h3⟩ := hback q f hf
    rw [hs, ← h1, ← h2, ← h3]
    exact h.inUse q g hg
  · rw [hs] at hp hq
    obtain ⟨f', hf', h1, -⟩ := hback p f hf
    obtain ⟨g', hg', h2, -⟩ := hback q g hg
    exact h.oneWord d k p q f' g' hp hq hf' hg' (h1.trans (hfg.trans h2.symm))

/-! ### The shared operations -/

/-- The entries after every entry of a list is freed. -/
theorem entries_foldl_free (l : List EntryId) (s : State) (i : EntryId) :
    (l.foldl (fun s j => s.setEntry j none) s).entries[i] = if i ∈ l then none else s.entries[i] := by
  induction l generalizing s with
  | nil => simp
  | cons j l ih =>
    rw [List.foldl_cons, ih]
    by_cases hl : i ∈ l
    · simp [hl]
    · by_cases hj : i = j
      · subst hj
        simp [hl, State.setEntry]
      · have : (s.setEntry j none).entries[i] = s.entries[i] := by
          simp only [State.setEntry, Fin.getElem_fin]
          exact Vector.getElem_set_ne _ _ (fun hc => hj (Fin.ext hc.symm))
        rw [if_neg hl, if_neg (by simp [hl, hj])]
        exact this

theorem entries_freeSlot (s : State) (d : DomainId) (k : SlotId) (i : EntryId) :
    (s.freeSlot d k).entries[i] = if i ∈ (s.slot d k).entries then none else s.entries[i] :=
  entries_foldl_free _ _ _

theorem keepsPool_freeSlot (s : State) (d : DomainId) (k : SlotId) : KeepsPool s (s.freeSlot d k) := fun h =>
  h.freed (entries_freeSlot s d k) (fun e j => slot_freeSlot s d e k j)

theorem keepsPool_freeSlotsIn (s : State) (d : DomainId) (st : SlotState) : KeepsPool s (s.freeSlotsIn d st) := by
  apply KeepsPool.foldl
  intro s k
  split
  · exact keepsPool_freeSlot s d k
  · exact KeepsPool.refl s

theorem freeEntry_some {s : State} {i : EntryId} (h : s.freeEntry = some i) : s.entries[i] = none := by
  have := List.find?_some h
  simpa using this

theorem entryFor_none {s : State} {d : DomainId} {k : SlotId} {a : Addr} (h : s.entryFor d k a = none) (j : EntryId)
    (hj : j ∈ (s.slot d k).entries) (f : StagingEntry) (hf : s.entries[j] = some f) : f.addr ≠ a := by
  have := List.find?_eq_none.mp h j hj
  unfold State.entryNames at this
  rw [hf] at this
  simpa using this

theorem keepsPool_stage (s : State) (d : DomainId) (a : Addr) (m : Lanes) (x : Word) : KeepsPool s (s.stage d a m x) := by
  intro h
  unfold State.stage
  split
  · rename_i k hk
    split
    · rename_i i hi
      unfold State.mergeEntry
      split
      · exact h
      · rename_i e he
        exact h.merged he rfl (fun _ _ => rfl)
    · rename_i hn
      split
      · rename_i i hi
        refine h.staged (freeEntry_some hi) (.inl (slotIn_some hk)) (entryFor_none hn) rfl (fun e j => ?_)
        unfold State.newEntry
        rw [State.slot_setSlot]
        split
        · have := slotIn_some hk
          simp [← this]
        · rfl
      · exact h
  · rename_i hn
    split
    · rename_i i k hi hk
      have hf := slotIn_some hk
      have hempty := (h.empty d k).mp hf
      have hrank : (s.slot d k).rank = none := by
        have := h.ranked d k
        rw [hf] at this
        simpa using this
      have hslot : (s.setSlot d k { state := .opened }).slot d k = { state := .opened } := by simp
      refine h.staged (a := a) (x := maskedData x m) (m := m) (freeEntry_some hi) (.inr ⟨hf, slotIn_none hn⟩)
        (by rw [hempty]; simp) ?_ (fun e j => ?_)
      · unfold State.newEntry
        simp only [hslot, hempty]
        rfl
      · unfold State.newEntry
        rw [State.slot_setSlot, hslot]
        split
        · rw [hempty]
          simp only [hrank]
        · rename_i hc
          rw [State.slot_setEntry, State.slot_setSlot, if_neg hc]
    · exact h

theorem keepsPool_sealOpen (s : State) (d : DomainId) : KeepsPool s (s.sealOpen d) := by
  intro h
  unfold State.sealOpen
  split
  · exact h
  · rename_i k hk
    dsimp only
    refine h.slotMoved (d := d) (k := k) (st := .sealed) (r := some ((s.domain d).sealCount + 1))
      (by rw [slotIn_some hk]; decide) (.inl rfl) rfl rfl (fun e j => ?_)
    rw [← State.slot_setSlot]
    exact (samePool_setDomain _ _ _ (by rfl)).slots e j

theorem keepsPool_stageWrite (s : State) (d : DomainId) (acc : Access) (b : Bool) : KeepsPool s (s.stageWrite d acc b) := by
  unfold State.stageWrite
  dsimp only
  split
  · exact (keepsPool_stage _ _ _ _ _).trans (keepsPool_sealOpen _ _)
  · exact keepsPool_stage _ _ _ _ _

theorem samePool_respond (s : State) (p : Port) (r : Response) : SamePool s (s.respond p r) := samePool_setPort s p _

theorem samePool_leaveWaiting (s : State) (p : Port) : SamePool s (s.leaveWaiting p) := ⟨rfl, fun _ _ => rfl⟩

theorem samePool_expireHeld (s : State) (p : Port) : SamePool s (s.expireHeld p) :=
  ((samePool_leaveWaiting s p).trans (samePool_raise _ _)).trans (samePool_respond _ _ _)

theorem samePool_terminate (s : State) (p : Port) : SamePool s (s.terminate p) :=
  (samePool_leaveWaiting s p).trans (samePool_respond _ _ _)

theorem samePool_hold (s : State) (p : Port) (c : HoldCause) : SamePool s (s.hold p c) := by
  unfold State.hold
  dsimp only
  split
  · exact (samePool_setPort s p _).trans (samePool_expireHeld _ _)
  · exact samePool_setPort s p _

theorem keepsPool_examineWaiter (s : State) (w : Waiter) : KeepsPool s (s.examineWaiter w) := by
  unfold State.examineWaiter
  split
  · exact ((samePool_leaveWaiting s _).keeps.trans (keepsPool_stageWrite _ _ _ _)).trans (samePool_respond _ _ _).keeps
  · exact KeepsPool.refl s

theorem keepsPool_examineWaiting (s : State) : KeepsPool s s.examineWaiting :=
  KeepsPool.foldl keepsPool_examineWaiter _ _

theorem keepsPool_arriveStaged (s : State) (p : Port) (d : DomainId) (b : Bool) : KeepsPool s (s.arriveStaged p d b) := by
  unfold State.arriveStaged
  dsimp only
  split
  · exact (keepsPool_stageWrite _ _ _ _).trans (samePool_respond _ _ _).keeps
  · split
    · exact ((samePool_raise _ _).trans (samePool_respond _ _ _)).keeps
    · exact ((show SamePool s (s.joinWaiting _) from ⟨rfl, fun _ _ => rfl⟩).trans (samePool_hold _ _ _)).keeps

theorem keepsPool_applyWrite (s : State) (p : Port) (o : WriteOutcome) : KeepsPool s (s.applyWrite p o) := by
  unfold State.applyWrite
  dsimp only
  split
  · exact (samePool_setPort s p _).keeps
  · exact keepsPool_arriveStaged _ _ _ _
  · exact (samePool_hold _ _ _).keeps
  · exact ((samePool_raise _ _).trans (samePool_respond _ _ _)).keeps
  · exact ((samePool_raise _ _).trans (samePool_respond _ _ _)).keeps

theorem keepsPool_reclassify (s : State) (p : Port) : KeepsPool s (s.reclassify p) := keepsPool_applyWrite _ _ _

/-- Items handled in a free order keep what each of them keeps. -/
theorem keepsPool_inFreeOrder {α : Type} (s : State) (l : List α) {f : State → α → State}
    (hf : ∀ s x, KeepsPool s (f s x)) : KeepsPool s (s.inFreeOrder l f) :=
  (show SamePool s { s with freeCount := (freeOrder l s.freeCount).2 } from ⟨rfl, fun _ _ => rfl⟩).keeps.trans
    (KeepsPool.foldl hf _ _)

/-! ### Snapshots -/

theorem samePool_evict (s : State) (p : Port) (c : ContextId) (w : WindowId) : SamePool s (s.evict p c w) := by
  unfold State.evict
  split
  · split
    · exact SamePool.refl s
    · exact samePool_raise _ _
  · exact SamePool.refl s

theorem samePool_beginCapture (s : State) (p : Port) (w : WindowId) : SamePool s (s.beginCapture p w) := by
  unfold State.beginCapture
  dsimp only
  exact (((samePool_evict s p _ w).trans (samePool_setPort _ p _)).trans (samePool_setPort _ p _)).trans
    ⟨rfl, fun _ _ => rfl⟩

theorem samePool_serve (s : State) (p : Port) (w : WindowId) (c : ContextId) : SamePool s (s.serve p w c) := by
  unfold State.serve
  split
  · dsimp only
    split
    · exact ((samePool_setPort s p _).trans (samePool_respond _ _ _)).trans (samePool_setPort _ p _)
    · exact (samePool_setPort s p _).trans (samePool_respond _ _ _)
  · exact SamePool.refl s

theorem samePool_applyRead (s : State) (p : Port) (path : ReadPath) : SamePool s (s.applyRead p path) := by
  cases path
  · exact samePool_setPort s p _
  · exact samePool_serve _ _ _ _
  · exact samePool_beginCapture _ _ _

theorem keepsPool_storeCapture (s : State) (p : Port) (x : Word) : KeepsPool s (s.storeCapture p x) := by
  unfold State.storeCapture
  split
  · exact KeepsPool.refl s
  · split
    · split
      · exact (samePool_setPort s p _).keeps
      · unfold State.completeCapture
        dsimp only
        have h : ∀ (c : ContextId) (y : Context), SamePool s { ((s.setContext p c y).useContext p c) with
            captureOrder := ((s.setContext p c y).useContext p c).captureOrder.filter (· ≠ p) } := fun c y =>
          ((samePool_setPort s p _).trans (samePool_setPort _ p _)).trans ⟨rfl, fun _ _ => rfl⟩
        split
        · exact ((h _ _).trans (samePool_respond _ _ _)).keeps.trans (keepsPool_reclassify _ _)
        · exact ((h _ _).trans (samePool_respond _ _ _)).keeps
    · exact KeepsPool.refl s

/-! ### Fills, commits, faults and syncs -/

theorem keepsPool_completeFill (s : State) (d : DomainId) : KeepsPool s (s.completeFill d) := by
  unfold State.completeFill
  dsimp only
  refine KeepsPool.trans (SamePool.keeps ?_) (keepsPool_inFreeOrder _ _ fun s p => keepsPool_reclassify s p)
  exact ((samePool_raise s _).trans (samePool_setDomain _ d _ (by rfl))).trans ⟨rfl, fun _ _ => rfl⟩

theorem samePool_joinFill (s : State) (d : DomainId) : SamePool s (s.joinFill d) := ⟨rfl, fun _ _ => rfl⟩

theorem samePool_joinStart (s : State) (d : DomainId) (b : Bool) : SamePool s (s.joinStart d b) := by
  cases b <;> exact ⟨rfl, fun _ _ => rfl⟩

theorem samePool_openFill (s : State) (d : DomainId) : SamePool s (s.openFill d) := by
  unfold State.openFill
  split
  · exact (samePool_setDomain s d { s.domain d with fill := {}, state := .safed } (by rfl)).trans ⟨rfl, fun _ _ => rfl⟩
  · exact (samePool_setDomain s d _ (by rfl)).trans (samePool_joinFill _ _)

theorem keepsPool_beginFill (s : State) (d : DomainId) : KeepsPool s (s.beginFill d) :=
  (KeepsPool.foldl (fun u e => (samePool_raise u e).keeps) _ _).trans (samePool_openFill _ d).keeps

theorem keepsPool_advanceFill (s : State) (d : DomainId) : KeepsPool s (s.advanceFill d) := by
  unfold State.advanceFill
  split
  · exact keepsPool_completeFill _ _
  · exact (samePool_setDomain s d _ (by rfl)).keeps

theorem oldestSealed_sealed {s : State} {d : DomainId} {k : SlotId} (h : s.oldestSealed d = some k) :
    (s.slot d k).state = .sealed := by
  have := List.mem_of_mem_head? h
  unfold State.sealedOldestFirst at this
  rw [List.mem_insertionSort, List.mem_filter] at this
  simpa using this.2

/-- A commit starts with a SEALED batch (R88). -/
theorem keepsPool_startCommit (s : State) (d : DomainId) (k : SlotId) (b : Bool) (hk : (s.slot d k).state = .sealed) :
    KeepsPool s (s.startCommit d k b) := by
  intro h
  unfold State.startCommit
  dsimp only
  have hr := (h.ranked d k).mpr (.inl hk)
  have h1 : (s.setSlot d k { s.slot d k with state := .committing }).PoolLaw := by
    refine h.slotMoved (d := d) (k := k) (st := .committing) (r := (s.slot d k).rank) (by rw [hk]; decide) (.inr rfl) hr rfl
      (fun e j => ?_)
    rw [State.slot_setSlot]
  exact ((samePool_setDomain _ d _ (by rfl)).trans (samePool_joinStart _ _ _)).keeps h1

theorem keepsPool_commitDecision (s : State) (d : DomainId) (b : Bool) : KeepsPool s (s.commitDecision d b) := by
  unfold State.commitDecision
  split
  · exact (samePool_raise _ _).keeps
  · split
    · rename_i k hk
      exact keepsPool_startCommit s d k b (oldestSealed_sealed hk)
    · exact KeepsPool.refl s

theorem keepsPool_continueStop (s : State) (d : DomainId) : KeepsPool s (s.continueStop d) := by
  unfold State.continueStop
  split
  · rename_i k hk
    exact keepsPool_startCommit s d k false (oldestSealed_sealed hk)
  · unfold State.reachDisabled
    dsimp only
    split
    · exact ((samePool_setDomain s d _ (by rfl)).trans (samePool_raise _ _)).keeps.trans (keepsPool_reclassify _ _)
    · exact ((samePool_setDomain s d _ (by rfl)).trans (samePool_raise _ _)).keeps

theorem keepsPool_freeCommitted (s : State) (d : DomainId) : KeepsPool s (s.freeCommitted d) :=
  (keepsPool_freeSlot _ _ _).trans (keepsPool_examineWaiting _)

theorem samePool_notifyCommit (s : State) (d : DomainId) : SamePool s (s.notifyCommit d) := by
  unfold State.notifyCommit
  split
  · exact samePool_raise _ _
  · exact SamePool.refl _

theorem samePool_leaveStart (s : State) (d : DomainId) : SamePool s (s.leaveStart d) :=
  (samePool_setDomain s d { s.domain d with commit := {} } (by rfl)).trans ⟨rfl, fun _ _ => rfl⟩

theorem keepsPool_continueAfter (s : State) (d : DomainId) : KeepsPool s (s.continueAfter d) := by
  unfold State.continueAfter
  split
  · exact keepsPool_continueStop _ _
  · exact keepsPool_beginFill _ _
  all_goals exact KeepsPool.refl _

theorem keepsPool_completeCommit (s : State) (d : DomainId) : KeepsPool s (s.completeCommit d) :=
  ((((samePool_setDomain s d _ (by rfl)).keeps.trans (keepsPool_freeCommitted (s.raiseNumber d) d)).trans
    (samePool_notifyCommit _ d).keeps).trans (samePool_leaveStart _ d).keeps).trans (keepsPool_continueAfter _ d)

theorem keepsPool_advanceCommit (s : State) (d : DomainId) : KeepsPool s (s.advanceCommit d) := by
  unfold State.advanceCommit
  dsimp only
  split
  · exact (samePool_setDomain s d _ (by rfl)).keeps
  · split
    · exact (samePool_setDomain s d _ (by rfl)).keeps
    · exact keepsPool_completeCommit _ _

theorem samePool_terminateWaiter (s : State) (d : DomainId) : SamePool s (s.terminateWaiter d) := by
  unfold State.terminateWaiter
  split
  · exact samePool_terminate _ _
  · exact SamePool.refl _

theorem keepsPool_discardAtFault (s : State) (d : DomainId) : KeepsPool s (s.discardAtFault d) :=
  ((samePool_terminateWaiter s d).keeps.trans (keepsPool_freeSlotsIn _ d .opened)).trans (keepsPool_freeSlotsIn _ d .sealed)

theorem samePool_terminateStopping (s : State) (d : DomainId) : SamePool s (s.terminateStopping d) := by
  unfold State.terminateStopping
  split
  · exact samePool_terminate _ _
  · exact SamePool.refl _

theorem samePool_enterSafing (s : State) (d : DomainId) : SamePool s (s.enterSafing d) := samePool_setDomain s d _ (by rfl)

theorem keepsPool_fillOrPend (s : State) (d : DomainId) : KeepsPool s (s.fillOrPend d) := by
  unfold State.fillOrPend
  split
  · exact (samePool_setDomain s d _ (by rfl)).keeps
  · exact (samePool_openFill _ _).keeps

theorem keepsPool_raiseMerged (s : State) (ds : List DomainId) (events : DomainId → List Event) :
    KeepsPool s (s.raiseMerged ds events) :=
  (show SamePool s { s with freeCount := (freeMerge ds events s.freeCount).2 } from ⟨rfl, fun _ _ => rfl⟩).keeps.trans
    (KeepsPool.foldl (fun u e => (samePool_raise u e).keeps) _ _)

theorem keepsPool_takeFault (s : State) (d : DomainId) : KeepsPool s (s.takeFault d) :=
  (samePool_enterSafing s d).keeps.trans (keepsPool_discardAtFault _ d)

theorem keepsPool_settleFault (s : State) (d : DomainId) : KeepsPool s (s.settleFault d) :=
  (samePool_terminateStopping s d).keeps.trans (keepsPool_fillOrPend _ d)

theorem keepsPool_acceptFaults (s : State) (ds : List DomainId) (notice : DomainId → List Event) :
    KeepsPool s (s.acceptFaults ds notice) := by
  unfold State.acceptFaults; split
  · exact KeepsPool.refl s
  · exact ((((keepsPool_raiseMerged _ _ _).trans (keepsPool_inFreeOrder _ _ keepsPool_takeFault)).trans
      (keepsPool_examineWaiting _)).trans (keepsPool_inFreeOrder _ _ keepsPool_settleFault)).trans
      (SamePool.keeps ⟨rfl, fun _ _ => rfl⟩)

theorem keepsPool_syncEvent (s : State) (d : DomainId) : KeepsPool s (s.syncEvent d) := by
  unfold State.syncEvent
  split
  · exact (samePool_setDomain s d _ (by rfl)).keeps.trans (keepsPool_commitDecision _ _ _)
  all_goals exact KeepsPool.refl s

theorem keepsPool_expireMonitor (s : State) (d : DomainId) : KeepsPool s (s.expireMonitor d) := by
  have h := (samePool_raise s (.syncLost d)).keeps
  unfold State.expireMonitor; dsimp only; split
  · exact h.trans (samePool_setDomain _ d _ (by rfl)).keeps
  · exact (h.trans (samePool_setDomain _ d _ (by rfl)).keeps).trans (keepsPool_commitDecision _ _ _)
  · exact keepsPool_acceptFaults _ _ _

theorem samePool_arbitrate (s : State) : SamePool s s.arbitrate := by
  unfold State.arbitrate
  split
  · exact SamePool.refl s
  · split
    · exact SamePool.refl s
    · rename_i g _
      refine SamePool.trans (t := s.markGranted g.holder) ?_ ⟨rfl, fun _ _ => rfl⟩
      cases g.holder
      · exact samePool_setDomain s _ _ rfl
      · exact samePool_setDomain s _ _ rfl
      · exact samePool_setPort s _ _
      · exact (samePool_setPort s _ _).trans ⟨rfl, fun _ _ => rfl⟩

theorem samePool_waiterToStopping (s : State) (d : DomainId) : SamePool s (s.waiterToStopping d) := by
  unfold State.waiterToStopping
  split
  · exact SamePool.refl _
  · exact (samePool_leaveWaiting _ _).trans (samePool_setPort _ _ _)

theorem keepsPool_discardAtStop (s : State) (d : DomainId) : KeepsPool s (s.discardAtStop d) :=
  ((samePool_waiterToStopping s d).keeps.trans (keepsPool_freeSlotsIn _ d .opened)).trans (keepsPool_examineWaiting _)

theorem keepsPool_stopDomain (s : State) (d : DomainId) : KeepsPool s (s.stopDomain d) := by
  have h : KeepsPool ((s.enterStopping d).discardAtStop d) (((s.enterStopping d).discardAtStop d).awaitOrContinue d) := by
    unfold State.awaitOrContinue
    split
    · exact KeepsPool.refl _
    · exact keepsPool_continueStop _ _
  exact ((samePool_setDomain s d _ (by rfl)).keeps.trans (keepsPool_discardAtStop (s.enterStopping d) d)).trans h

theorem keepsPool_doStop (s : State) (d : DomainId) : KeepsPool s (s.doStop d).1 := by
  have h : KeepsPool s (s.stopDomain d).arbitrate := (keepsPool_stopDomain s d).trans (samePool_arbitrate (s.stopDomain d)).keeps
  unfold State.doStop
  generalize (s.stopDomain d).arbitrate = u at h ⊢
  cases (s.domain d).state
  case run => exact h
  all_goals exact KeepsPool.refl s

/-- With every entry and every slot FREE the laws hold (R55). -/
theorem poolLaw_of_free {s : State} (he : ∀ i : EntryId, s.entries[i] = none) (hs : ∀ d k, s.slot d k = {}) : s.PoolLaw := by
  refine ⟨fun d k n i h => ?_, fun i e h => ?_, fun d k i j e f hi => ?_, fun d k => ?_, fun d k => ?_,
    fun d j k hj => ?_⟩
  · rw [hs] at h
    simp at h
  · rw [he] at h
    cases h
  · rw [hs] at hi
    simp at hi
  · rw [hs]
    simp
  · rw [hs]
    simp
  · rw [hs] at hj
    cases hj

end Sys2Proof.Machine
end

