-- ==== Sys2Proof/Laws/Lookup.lean ====
section
/-! SUPPORT. What each search over windows, slots and entries finds, said once in the words of `Safety`, so that a later
proof cites it in place of unfolding the search. -/

namespace Sys2Proof.Machine

/-! ### Windows and safe-write entries -/

theorem covers_iff (s : State) (i : WindowId) (a : Addr) : (s.window i).covers a = true ↔ s.InWindow i a := by
  simp only [WindowRecord.covers, State.InWindow, Bool.and_eq_true, decide_eq_true_eq]

theorem covering_none_iff (s : State) (a : Addr) : s.covering a = none ↔ ∀ i, ¬ s.InWindow i a := by
  simp only [State.covering, List.find?_eq_none, List.mem_finRange, true_implies, covers_iff]

/-- The enabled record over a word is the one the search finds (R13: there is no second). -/
theorem covering_iff {s : State} (h : s.WindowsApart) (i : WindowId) (a : Addr) :
    s.covering a = some i ↔ s.InWindow i a :=
  ⟨fun hc => (covers_iff s i a).1 (covering_some hc), fun hi => covering_of_covers h ((covers_iff s i a).2 hi)⟩

theorem named_iff (s : State) (d : DomainId) (a : Addr) :
    s.named d a = true ↔ ∃ j, (s.safeEntry j).enabled = true ∧ (s.safeEntry j).domain = d ∧ (s.safeEntry j).addr = a := by
  simp only [State.named, List.any_eq_true, List.mem_finRange, true_and, Bool.and_eq_true, decide_eq_true_eq]

theorem safingNames_iff (s : State) (d : DomainId) (a : Addr) : s.safingNames a d = true ↔ s.NamedBySafing d a := by
  simp only [State.safingNames, State.NamedBySafing, Bool.and_eq_true, decide_eq_true_eq, named_iff]

/-- A write to a stored window is held for a capture exactly where one context of the reading port captures it. -/
theorem captureAt_iff (s : State) (p : Port) (w : WindowId) :
    s.captureAt p w = true ↔ ∃ c copy phase, s.context p c = .capturing w copy phase := by
  simp only [State.captureAt, List.any_eq_true, Vector.mem_toList_iff]
  constructor
  · rintro ⟨x, hx, hc⟩
    obtain ⟨i, hi, rfl⟩ := Vector.mem_iff_getElem.1 hx
    cases he : (s.port p).contexts[i] with
    | capturing v l ph =>
      rw [he] at hc
      simp only [Context.captures, decide_eq_true_eq] at hc
      exact ⟨⟨i, hi⟩, l, ph, by rw [← hc, ← he]; rfl⟩
    | held _ _ _ => rw [he] at hc; contradiction
    | idle => rw [he] at hc; contradiction
  · rintro ⟨c, l, ph, h⟩
    refine ⟨(s.port p).contexts[c], by simp, ?_⟩
    unfold State.context at h
    rw [h]; simp [Context.captures]

/-! ### Slots -/

theorem slotIn_none_iff (s : State) (d : DomainId) (st : SlotState) :
    s.slotIn d st = none ↔ ∀ i, (s.slot d i).state ≠ st :=
  ⟨slotIn_none, fun h => by unfold State.slotIn; rw [List.find?_eq_none]; intro i _; simpa using h i⟩

/-- The search takes the lowest slot in the state asked for. -/
theorem slotIn_lowest {s : State} {d : DomainId} {k : SlotId} {st : SlotState} (h : (s.slot d k).state = st)
    (hu : ∀ i, i < k → (s.slot d i).state ≠ st) : s.slotIn d st = some k := by
  unfold State.slotIn
  rw [List.find?_eq_some_iff_getElem]
  refine ⟨by simpa using h, k.val, by simp, by simp, fun j hj => ?_⟩
  simp
  exact hu _ (by simpa [Fin.lt_def] using hj)

theorem slotIn_unique {s : State} {d : DomainId} {k : SlotId} {st : SlotState} (h : (s.slot d k).state = st)
    (hu : ∀ i, (s.slot d i).state = st → i = k) : s.slotIn d st = some k :=
  slotIn_lowest h fun i hi hs => by rw [hu i hs] at hi; exact absurd hi (lt_irrefl k)

/-- No sealed slot is older than the one the search takes. -/
theorem oldestSealed_oldest {s : State} {d : DomainId} {k : SlotId} (h : s.oldestSealed d = some k) {j : SlotId}
    (hj : (s.slot d j).state = .sealed) : s.sealAge d j ≤ s.sealAge d k := by
  unfold State.oldestSealed State.sealedOldestFirst at h
  have hp := List.pairwise_insertionSort (fun j k => s.sealAge d k ≤ s.sealAge d j)
    ((List.finRange 4).filter fun k => (s.slot d k).state = .sealed)
  have hm : j ∈ ((List.finRange 4).filter fun k => (s.slot d k).state = .sealed).insertionSort
      (fun j k => s.sealAge d k ≤ s.sealAge d j) := by
    rw [List.mem_insertionSort]; simp [hj]
  cases hx : ((List.finRange 4).filter fun k => (s.slot d k).state = .sealed).insertionSort
      (fun j k => s.sealAge d k ≤ s.sealAge d j) with
  | nil => rw [hx] at hm; simp at hm
  | cons y l =>
    rw [hx] at h hm hp
    simp only [List.head?_cons, Option.some.injEq] at h; subst h
    rcases List.mem_cons.1 hm with rfl | hm
    · exact Nat.le_refl _
    · exact (List.pairwise_cons.1 hp).1 j hm

theorem oldestSealed_of {s : State} {d : DomainId} {k : SlotId} (h : s.IsOldestSealed d k) : s.oldestSealed d = some k := by
  cases hx : s.oldestSealed d with
  | none => exact absurd h.1 (oldestSealed_none hx k)
  | some j =>
    by_contra hne
    have hne : j ≠ k := fun q => hne (by rw [q])
    have := h.2 j hne (oldestSealed_some hx)
    have := oldestSealed_oldest hx h.1
    omega

theorem oldestSealed_none_iff (s : State) (d : DomainId) :
    s.oldestSealed d = none ↔ ∀ k, (s.slot d k).state ≠ .sealed :=
  ⟨oldestSealed_none, fun h => by
    cases hx : s.oldestSealed d with
    | none => rfl
    | some j => exact absurd (oldestSealed_some hx) (h j)⟩

/-! ### Entries -/

theorem freeEntry_none_iff (s : State) : s.freeEntry = none ↔ ∀ i : EntryId, s.entries[i] ≠ none := by
  unfold State.freeEntry
  rw [List.find?_eq_none]
  refine ⟨fun h i hi => h i (List.mem_finRange i) (by simp at hi; simp [hi]), fun h i _ hi => h i ?_⟩
  simpa using hi

/-- The search takes the lowest free entry. -/
theorem freeEntry_lowest {s : State} {j : EntryId} (h : s.entries[j] = none)
    (hu : ∀ i : EntryId, i < j → s.entries[i] ≠ none) : s.freeEntry = some j := by
  unfold State.freeEntry
  rw [List.find?_eq_some_iff_getElem]
  refine ⟨by simp at h; simp [h], j.val, by simp, by simp, fun i hi => ?_⟩
  have := hu ⟨i, by omega⟩ (by simpa [Fin.lt_def] using hi)
  simp at this ⊢; exact Option.isSome_iff_ne_none.2 this

theorem entryNames_iff (s : State) (a : Addr) (i : EntryId) :
    s.entryNames a i = true ↔ ∃ e, s.entries[i] = some e ∧ e.addr = a := by
  unfold State.entryNames; split <;> simp [*]

theorem entryFor_some {s : State} {d : DomainId} {k : SlotId} {a : Addr} {j : EntryId} (h : s.entryFor d k a = some j) :
    j ∈ (s.slot d k).entries ∧ ∃ e, s.entries[j] = some e ∧ e.addr = a :=
  ⟨List.mem_of_find?_eq_some h, (entryNames_iff s a j).1 (List.find?_some h)⟩

theorem entryFor_none_of {s : State} {d : DomainId} {k : SlotId} {a : Addr}
    (hu : ∀ i ∈ (s.slot d k).entries, ∀ f, s.entries[i] = some f → f.addr ≠ a) : s.entryFor d k a = none := by
  unfold State.entryFor
  rw [List.find?_eq_none]
  intro i hi hn
  obtain ⟨f, hf, hfa⟩ := (entryNames_iff s a i).1 hn
  exact hu i hi f hf hfa

theorem entryFor_unique {s : State} {d : DomainId} {k : SlotId} {a : Addr} {j : EntryId} {e : StagingEntry}
    (hj : j ∈ (s.slot d k).entries) (he : s.entries[j] = some e) (ha : e.addr = a)
    (hu : ∀ i ∈ (s.slot d k).entries, ∀ f, s.entries[i] = some f → f.addr = a → i = j) : s.entryFor d k a = some j := by
  cases hx : s.entryFor d k a with
  | none => exact absurd ((entryNames_iff s a j).2 ⟨e, he, ha⟩) (List.find?_eq_none.1 hx j hj)
  | some i =>
    obtain ⟨hi, f, hf, hfa⟩ := entryFor_some hx
    rw [hu i hi f hf hfa]

/-! ### What the controllers' operations make of the state -/

theorem sealOpen_eq {s : State} {d : DomainId} {k : SlotId} (h : s.slotIn d .opened = some k) :
    s.sealOpen d = s.slotSealed d k := by
  simp only [State.sealOpen, h, State.slotSealed, State.setSlot]
  simp [State.setDomain, State.domain, State.slot]

theorem startCommit_eq (s : State) (d : DomainId) (k : SlotId) :
    s.startCommit d k false =
      { (s.setDomain d ((s.domain d).committing k)) with startOrder := s.startOrder ++ [d] } := by
  simp only [State.startCommit, State.joinStart, Bool.false_eq_true, if_false, State.setSlot, Domain.committing]
  simp [State.setDomain, State.domain, State.slot]

theorem startCommit_expiry_eq (s : State) (d : DomainId) (k : SlotId) :
    s.startCommit d k true =
      { (s.setDomain d ((s.domain d).committing k)) with
        startOrder := joinExpiry s.expiryStarts d s.startOrder, expiryStarts := d :: s.expiryStarts } := by
  simp only [State.startCommit, State.joinStart, if_true, State.setSlot, Domain.committing]
  simp [State.setDomain, State.domain, State.slot]

theorem setEntry_foldl (l : List EntryId) (u : State) :
    l.foldl (fun s i => s.setEntry i none) u =
      { u with entries := Vector.ofFn fun i => if i ∈ l then none else u.entries[i] } := by
  induction l generalizing u with
  | nil =>
    rw [List.foldl_nil, show (Vector.ofFn fun i => if i ∈ ([] : List EntryId) then none else u.entries[i]) = u.entries by
      apply Vector.ext; intro i hi; simp]
  | cons a l ih =>
    rw [List.foldl_cons, ih]
    refine congrArg (fun e => ({ u with entries := e } : State)) ?_
    apply Vector.ext; intro i hi
    simp only [Vector.getElem_ofFn, List.mem_cons, State.setEntry]
    by_cases h1 : (⟨i, hi⟩ : EntryId) ∈ l
    · simp [h1]
    · by_cases h2 : (⟨i, hi⟩ : EntryId) = a
      · subst h2; simp
      · have : a.val ≠ i := fun q => h2 (Fin.ext q.symm)
        simp [h1, h2, this]

/-- Freeing a slot frees its entries and leaves the slot vacant. -/
theorem freeSlot_eq (s : State) (d : DomainId) (k : SlotId) :
    s.freeSlot d k =
      { (s.setDomain d { s.domain d with slots := (s.domain d).slots.set k .vacant }) with entries := s.entriesFreed d k } := by
  rw [State.freeSlot, setEntry_foldl]
  simp only [State.setSlot, State.setDomain, State.entriesFreed, State.domain, State.slot, BatchSlot.vacant]

/-- A held write of the writer of domain `d` waits for the stop exactly where its word lies in a staged window of `d`. -/
theorem stoppingHold_iff {s : State} (h : s.WindowsApart) (d : DomainId) :
    s.stoppingHold d = true ↔
      (s.port (s.domain d).cfg.writer).txn.phase = .held ∧ (s.port (s.domain d).cfg.writer).txn.cause = some .stopping ∧
        ∃ i, s.InWindow i (accessAddr (s.port (s.domain d).cfg.writer).txn.access) ∧ (s.window i).kind = .staged ∧
          (s.window i).domain = d := by
  unfold State.stoppingHold
  simp only [Bool.and_eq_true, decide_eq_true_eq, and_assoc]
  refine and_congr_right fun _ => and_congr_right fun _ => ?_
  split
  · rename_i hc
    rw [covering_none_iff] at hc
    simp only [Bool.false_eq_true, false_iff]
    rintro ⟨i, hi, _⟩; exact hc i hi
  · rename_i i hc
    simp only [decide_eq_true_eq]
    constructor
    · intro hk; exact ⟨i, (covering_iff h i _).1 hc, hk⟩
    · rintro ⟨j, hj, hk⟩
      rw [(covering_iff h j _).2 hj] at hc; cases hc; exact hk

end Sys2Proof.Machine
end

