-- ==== Sys2Proof/Tests/Slice0.lean ====
section
/-! SUPPORT. The model's own tests: one step on a small state each, expected results worked out from the rules and worked
sequences of spec/, and for each statement that has hypotheses a state and operands that meet them. -/

namespace Sys2Proof.Tests

open Machine

set_option Elab.async false

/-! ## Helpers -/

/-- The state a command leaves. -/
def after (c : Instr) (s : State) : State :=
  match exec c s with
  | .next t => t
  | .fault _ => s
  | .refused _ => s

/-- A domain's part changed. -/
def onDomain (d : DomainId) (f : Domain → Domain) (s : State) : State := s.setDomain d (f (s.domain d))

/-- A port with a transaction in progress. -/
def withTxn (p : Port) (t : Txn) (s : State) : State :=
  s.setPort p { s.port p with txn := t, ready := false, response := none }

/-- A window record put in the table. -/
def withWindow (i : WindowId) (w : WindowRecord) (s : State) : State := { s with windows := s.windows.set i w }

/-- The M-port busy with an access of a requester. -/
def granted (r : Requester) (acc : Access) (s : State) : State := { s with mport := some ⟨r, acc⟩ }

/-- A safe entry put in the table. -/
def withSafe (i : SafeId) (e : SafeEntry) (s : State) : State := { s with safe := s.safe.set i e }

/-- A batch of one entry put in a slot. -/
def withBatch (d : DomainId) (k : SlotId) (st : SlotState) (rank : Option Count) (i : EntryId) (a : Addr) (x : Word)
    (m : Lanes) (s : State) : State :=
  (s.setEntry i (some { addr := a, data := x, lanes := m, domain := d, slot := k, position := 0 })).setSlot d k
    { state := st, entries := [i], rank := rank }

/-- Window 3: words 16 to 19, STAGED, domain 0, its last word a seal word. -/
def staged : WindowRecord := { enabled := true, kind := .staged, base := 16, length := 4, sealOffset := some 3 }

/-- Window 4: words 32 and 33, SNAPSHOT, writer port A, so reader port B. -/
def snap : WindowRecord :=
  { enabled := true, kind := .snapshot, base := 32, length := 2, writer := .a, holdLimit := 5, autoRelease := true }

/-- The part after reset with windows 3 and 4 and every domain DISABLED. -/
def tables : State := withWindow 4 snap (withWindow 3 staged State.reset)

/-- The part with windows 3 and 4 and domain 0 in RUN, writer port A. -/
def running : State := onDomain 0 (fun x => { x with state := .run, monitorPhase := .counting }) tables

/-- Domain 0 has an OPEN batch in slot 0 that stages lane 0 of word 17. -/
def opened : State := withBatch 0 0 .opened none 0 17 0x11 1 running

/-- Domain 0 has a SEALED batch in slot 1. -/
def sealed : State :=
  onDomain 0 (fun x => { x with sealCount := 1 }) (withBatch 0 1 .sealed (some 1) 1 18 0x22 0xF running)

/-- Domain 0 has a COMMITTING batch in slot 1, its entry requested. -/
def committing : State :=
  { onDomain 0 (fun x => { x with
      sealCount := 1, commit := { phase := .entryRequest, slot := 1, entryCount := 1, next := 0 } })
      (withBatch 0 1 .committing (some 1) 1 18 0x22 0xF running) with startOrder := [0] }

/-- Two monitors are due: domain 0's under COMMIT with a SEALED batch, domain 2's under SAFE with a safe entry. -/
def bothDue : State :=
  let f : LossPolicy → Domain → Domain := fun policy x => { x with
    cfg := { x.cfg with maxInterval := 9, lossPolicy := policy }, state := .run, monitorPhase := .counting, monitorCount := 9 }
  withSafe 3 { enabled := true, domain := 2, addr := 1100, data := 1, lanes := 1 }
    (onDomain 2 (f .safe) (onDomain 0 (f .commit) sealed))

/-- The pool is full, domain 0 has an OPEN batch and domain 1's write of Port B waits; both name FAULT0 and a safe entry. -/
def crowded : State :=
  let f : Domain → Domain := fun x => { x with cfg := { x.cfg with binding := .fault0, writer := .b }, state := .run }
  let g : Domain → Domain := fun x => { x with cfg := { x.cfg with binding := .fault0 } }
  let s := withTxn .b { phase := .held, access := .write 40 1 7, cause := some .exhausted, startTick := some 0 }
    (onDomain 1 f (onDomain 0 g opened))
  withSafe 5 { enabled := true, domain := 0, addr := 17, data := 0x55, lanes := 1 }
    (withSafe 3 { enabled := true, domain := 1, addr := 1100, data := 1, lanes := 1 }
      { s with waiting := [{ port := .b, domain := 1, addr := 40, seals := false }]
               entries := s.entries.map fun e => e.or
                 (some { addr := 60, data := 0, lanes := 1, domain := 3, slot := 0, position := 0 }) })

/-- The entry write of that commit is in memory. -/
def commitWriting : State :=
  granted (.commit 0) (.write 18 0xF 0x22)
    (onDomain 0 (fun x => { x with commit := { x.commit with phase := .entryWrite } }) committing)

/-- Domain 0 in SAFING, its fill of safe entry 5 in memory. -/
def filling : State :=
  granted (.fill 0) (.write 17 1 0x55)
    { onDomain 0 (fun x => { x with state := .safing, fill := { phase := .fillWrite, next := 5 } })
        (withSafe 5 { enabled := true, domain := 0, addr := 17, data := 0x55, lanes := 1 } tables) with fillOrder := [0] }

/-- Port B captures window 4 in context 0, with the words read so far, in a phase. -/
def capturing (copy : List Word) (phase : CapturePhase) : State :=
  { (withTxn .b { phase := .leadWait, access := .read 32 } tables).setContext .b 0 (.capturing 4 copy phase) with
    captureOrder := [.b] }

/-- Port B holds a copy of window 4 in context 0, taken at tick 0. -/
def holding : State := tables.setContext .b 0 (.held 4 [7, 8] 0)

/-- A plain write of Port A is in memory. -/
def portWriting : State :=
  granted (.port .a) (.write 100 3 0xABCD) (withTxn .a { phase := .memory, access := .write 100 3 0xABCD } tables)

/-- A read of Port A is in memory. -/
def portReading (a : Addr) (s : State) : State :=
  granted (.port .a) (.read a) (withTxn .a { phase := .memory, access := .read a } s)

/-- A write of Port A to word 17 is HELD under a cause since tick 0. -/
def heldA (c : HoldCause) (s : State) : State :=
  withTxn .a { phase := .held, access := .write 17 1 0x99, cause := some c, startTick := some 0 } s

/-- RESET is low. -/
def low : State := after .resetFall State.reset

/-- A domain record that names SYNC2 rising, fault line FAULT0 and sequence word 1000. -/
def bound : DomainRecord :=
  { syncLine := some 2, binding := .fault0, sequenceWord := some 1000, notify := true }

/-- The window record of window 3 as SET_WINDOW carries it. -/
def stagedPayload : WindowPayload :=
  { enabled := 1, kind := 0, base := 16, length := 4, domain := 0, sealOffset := 3, writerPort := 0, holdLimit := 0
    autoRelease := 0 }

/-- A domain record as SET_DOMAIN carries it: writer port B, no sync line, sequence word 4096. -/
def domainPayload : DomainPayload :=
  { writerPort := 1, syncLine := 4, syncEdge := 0, maxInterval := 0, lossPolicy := 0, exhaustionPolicy := 0
    faultBinding := 0, sequenceWord := 0x001000, notifyCommits := 0 }

/-- A safe entry as SET_SAFE carries it: domain 2, word 1100, data 1 in lane 0. -/
def safePayload : SafePayload := { enabled := 1, domain := 2, addr := 0x00044C, data := 1, lanes := 1 }

/-- Enabled windows whose ranges do not meet lie apart. -/
theorem apart_of_ranges {s : State}
    (h : ∀ i j : WindowId, i = j ∨
      ((s.window i).enabled && (s.window j).enabled && rangesMeet (s.window i) (s.window j)) = false) : s.WindowsApart := by
  intro i j hij a
  simp only [WindowRecord.covers, Bool.and_eq_true, decide_eq_true_eq]
  rintro ⟨⟨h1, h2, h3⟩, h4, h5, h6⟩
  have hm : rangesMeet (s.window i) (s.window j) = true := by
    simp only [rangesMeet, decide_eq_true_eq]
    omega
  have hf := (h i j).resolve_left hij
  rw [h1, h4, hm] at hf
  cases hf

/-- A context that is IDLE is not HELD. -/
theorem not_held {x : Context} (h : x = .idle) (w : WindowId) (copy : List Word) (t0 : Tick) : x ≠ .held w copy t0 := by
  rw [h]
  nofun

/-! ## WellFormed refuses what R164 would not find so -/

/-- SEAL is a command code. -/
theorem test_refused_unknown : (Instr.unknownCommand [0x24, 0x02, 0xDA]).wellFormed = false := by decide +kernel
/-- The frame holds its whole request. -/
theorem test_refused_short : (Instr.shortFrame [0x24, 0x02, 0xDA]).wellFormed = false := by decide +kernel
/-- Its bytes sum to 0. -/
theorem test_refused_badCheck : (Instr.badCheck [0x24, 0x02, 0xDA]).wellFormed = false := by decide +kernel
/-- An empty frame is none of the three. -/
theorem test_refused_empty : (Instr.unknownCommand []).wellFormed = false ∧ (Instr.shortFrame []).wellFormed = false ∧
    (Instr.badCheck []).wellFormed = false := by decide +kernel
theorem test_accepted_frames : (Instr.unknownCommand [0x7F]).wellFormed = true ∧
    (Instr.shortFrame [0x24, 0x02]).wellFormed = true ∧ (Instr.badCheck [0x24, 0x02, 0xDB]).wellFormed = true := by
  decide +kernel

/-! ## Frames written out byte by byte from R163 to R170, R184 and R185 -/

/-- The example of section 12.2: SEAL of domain 2. -/
theorem test_frame_seal : decodeFrame [0x24, 0x02, 0xDA] 0 = .sealBatch 2 0 := by decide +kernel
theorem test_frame_empty : decodeFrame [] 0 = .emptyFrame := by decide +kernel
theorem test_frame_unknown : decodeFrame [0x7F, 0x00] 0 = .unknownCommand [0x7F, 0x00] := by decide +kernel
theorem test_frame_short : decodeFrame [0x24, 0x02] 0 = .shortFrame [0x24, 0x02] := by decide +kernel
theorem test_frame_badCheck : decodeFrame [0x24, 0x02, 0xDB] 0 = .badCheck [0x24, 0x02, 0xDB] := by decide +kernel
/-- Bytes beyond the request only clock the reply out. -/
theorem test_frame_nop : decodeFrame [0x01, 0xFF, 0x33, 0x44] 0 = .nop 16 := by decide +kernel
theorem test_frame_getGlobal : decodeFrame [0x02, 0xFE] 0 = .getGlobal 0 := by decide +kernel
theorem test_frame_setGlobal : decodeFrame [0x03, 0x0F, 0xFF, 0x01, 0x00, 0x64, 0x8A] 0 =
    .setGlobal { mask := 0x0FFF, irqEnable := 1, stallLimit := 100 } 0 := by decide +kernel
theorem test_frame_popEvent : decodeFrame [0x04, 0xFC] 0 = .popEvent 0 := by decide +kernel
theorem test_frame_resetPart : decodeFrame [0x05, 0xFB] 0 = .resetPart 0 := by decide +kernel
theorem test_frame_getWindow : decodeFrame [0x10, 0x03, 0xED] 0 = .getWindow 3 0 := by decide +kernel
theorem test_frame_setWindow :
    decodeFrame [0x11, 0x03, 0x01, 0x00, 0x00, 0x00, 0x10, 0x00, 0x04, 0x00, 0x00, 0x03, 0x00, 0x00, 0x00, 0x00, 0xD4] 0 =
      .setWindow 3 stagedPayload 0 := by decide +kernel
theorem test_frame_getDomain : decodeFrame [0x20, 0x02, 0xDE] 0 = .getDomain 2 0 := by decide +kernel
theorem test_frame_setDomain :
    decodeFrame [0x21, 0x01, 0x01, 0x04, 0x00, 0x00, 0x00, 0x00, 0x00, 0x00, 0x00, 0x10, 0x00, 0x00, 0xC9] 0 =
      .setDomain 1 domainPayload 0 := by decide +kernel
theorem test_frame_start : decodeFrame [0x22, 0x01, 0xDD] 0 = .start 1 0 := by decide +kernel
theorem test_frame_stop : decodeFrame [0x23, 0x03, 0xDA] 0 = .stop 3 0 := by decide +kernel
theorem test_frame_sync : decodeFrame [0x25, 0x00, 0xDB] 0 = .sync 0 0 := by decide +kernel
theorem test_frame_getSafe : decodeFrame [0x30, 0x1F, 0xB1] 0 = .getSafe 31 0 := by decide +kernel
/-- SET_SAFE of entry 5. -/
theorem test_frame_setSafe :
    decodeFrame [0x31, 0x05, 0x01, 0x02, 0x00, 0x04, 0x4C, 0x00, 0x00, 0x00, 0x01, 0x01, 0x75] 0 =
      .setSafe 5 safePayload 0 := by decide +kernel
theorem test_frame_arm : decodeFrame [0x32, 0x00, 0xCE] 0 = .arm 0 0 := by decide +kernel
theorem test_frame_getBatch : decodeFrame [0x40, 0x01, 0x02, 0xBD] 0 = .getBatch 1 2 0 := by decide +kernel
theorem test_frame_peekStaging : decodeFrame [0x41, 0x3F, 0x80] 0 = .peekStaging 63 0 := by decide +kernel
/-- Twelve bits sampled: one byte and a partial byte that is discarded. -/
theorem test_frame_bits : bytesOfBits [false, false, true, false, false, true, false, false, true, true, true, true] =
    [0x24] := by decide +kernel
/-- A frame that breaks off in its second byte is short and has four more bits. -/
theorem test_frame_broken_off :
    decodeBits [false, false, true, false, false, true, false, false, true, true, true, true] = .shortFrame [0x24] 4 := by
  decide +kernel
/-- The replies OK without a report, EMPTY and NONE with their checksums. -/
theorem test_reply_bytes : (bare .ok).bytes = [0x00, 0x00] ∧ (bare .empty).bytes = [0x08, 0xF8] ∧
    (bare .none).bytes = [0x0C, 0xF4] := by decide +kernel

/-! ## One step of each command -/

/-- A write to word 17 of a RUN domain on its writer port opens slot 0 with entry 0 and is answered at once. -/
theorem test_transactionAccept_stages : let t := after (.transactionAccept .a (.write 17 0x3 0xAABBCCDD)) running
    t.entries[0] = some { addr := 17, data := 0xCCDD, lanes := 3, domain := 0, slot := 0, position := 0 } ∧
      (t.slot 0 0).state = .opened ∧ (t.port .a).response = some .okayWrite := by decide +kernel
/-- A write of the foreign port is refused with FOREIGN_WRITE. -/
theorem test_transactionAccept_foreign : let t := after (.transactionAccept .b (.write 17 0xF 5)) running
    (t.port .b).response = some .errorWrite ∧ (t.queue.map (·.kind)) = [.foreignWrite] := by decide +kernel
theorem test_portWriteComplete : let t := after .portWriteComplete portWriting
    t.mem = [(400, 0xCD), (401, 0xAB)] ∧ t.mport = none ∧ (t.port .a).response = some .okayWrite := by decide +kernel
/-- The writer port reads its staged lane 0 over memory's 0xEE, and lane 1 from memory. -/
theorem test_portReadComplete :
    let s := portReading 17 { opened with mem := [(68, 0xEE), (69, 0x44), (70, 0), (71, 0)] }
    ((after .portReadComplete s).port .a).response = some (.okayRead 0x4411) := by decide +kernel
theorem test_commitWriteComplete : let t := after .commitWriteComplete commitWriting
    Memory.read? t.mem 72 = some 0x22 ∧ (t.domain 0).commitNumber = 1 ∧ (t.slot 0 1).state = .free ∧
      t.entries[1] = none ∧ t.startOrder = [] := by decide +kernel
/-- With a sequence word, the next position is the entry count once the last entry is written (R87). -/
theorem test_commitWriteComplete_last :
    let t := after .commitWriteComplete (onDomain 0 (fun x => { x with cfg := bound }) commitWriting)
    (t.domain 0).commit.next = 1 ∧ t.mport = some ⟨.commit 0, .write 1000 0xF 1⟩ := by decide +kernel
/-- With the sequence word written, COMMIT_DONE carries the new number 11 (section 11.6, tick 5006). -/
theorem test_sequenceWriteComplete :
    let s := granted (.commit 0) (.write 1000 0xF 11)
      (onDomain 0 (fun x => { x with
        cfg := bound, commitNumber := 10, commit := { x.commit with phase := .sequenceWrite } }) committing)
    let t := after .sequenceWriteComplete s
    (t.domain 0).commitNumber = 11 ∧ t.queue.map (fun e => (e.kind, e.addr)) = [(.commitDone, some 11)] := by
  decide +kernel
theorem test_fillWriteComplete : let t := after .fillWriteComplete filling
    Memory.read? t.mem 68 = some 0x55 ∧ (t.domain 0).state = .safed ∧ t.queue.map (·.kind) = [.safeDone] := by
  decide +kernel
/-- The last word of the copy is read: the lead-word read is answered with offset 0. -/
theorem test_captureReadComplete :
    let s := granted (.capture .b) (.read 33)
      { capturing [7] .read with mem := [(132, 9), (133, 0), (134, 0), (135, 0)] }
    let t := after .captureReadComplete s
    t.context .b 0 = .held 4 [7, 9] 0 ∧ (t.port .b).response = some (.okayRead 7) ∧ t.captureOrder = [] := by
  decide +kernel
/-- At the stall limit of 100 the held write ends with ERROR and STALL_TIMEOUT. -/
theorem test_stallTimeout : let t := after (.stallTimeout .a) (heldA .capture { running with tick := 100 })
    (t.port .a).response = some .errorWrite ∧ t.queue.map (fun e => (e.kind, e.cause)) =
      [(.stallTimeout, some .capture)] := by decide +kernel
theorem test_stallTimeout_not_due :
    (after (.stallTimeout .a) (heldA .capture { running with tick := 99 })).queue = [] := by decide +kernel
theorem test_tick : let t := after .tick running
    t.tick = 1 ∧ (t.domain 0).periodCount = 1 ∧ (t.domain 0).monitorCount = 1 ∧ (t.domain 1).periodCount = 0 := by
  decide +kernel
/-- Loss policy HOLD lapses the monitor; COMMIT starts the oldest SEALED batch. -/
theorem test_syncMonitorExpiry :
    let f : LossPolicy → Domain → Domain := fun policy x => { x with
      cfg := { x.cfg with maxInterval := 75, lossPolicy := policy }, monitorCount := 75 }
    let t := after (.syncMonitorExpiry 0) (onDomain 0 (f .hold) running)
    let u := after (.syncMonitorExpiry 0) (onDomain 0 (f .commit) sealed)
    ((t.domain 0).monitorPhase = .lapsed ∧ (t.domain 0).monitorCount = 75 ∧ t.queue.map (·.kind) = [.syncLost]) ∧
    (u.domain 0).monitorCount = 0 ∧ (u.slot 0 1).state = .committing ∧
      u.mport = some ⟨.commit 0, .write 18 0xF 0x22⟩ := by decide +kernel
/-- A COMMIT expiry and a SAFE expiry of one tick are two events: the first taken is granted at a FREE M-port (R146). -/
theorem test_syncMonitorExpiry_apart :
    (after (.syncMonitorExpiry 2) (after (.syncMonitorExpiry 0) bothDue)).mport = some ⟨.commit 0, .write 18 0xF 0x22⟩ ∧
    (after (.syncMonitorExpiry 0) (after (.syncMonitorExpiry 2) bothDue)).mport = some ⟨.fill 2, .write 1100 1 1⟩ := by
  decide +kernel
theorem test_holdLimitExpiry : let t := after (.holdLimitExpiry .b 0) { holding with tick := 5 }
    t.context .b 0 = .idle ∧ t.queue.map (fun e => (e.kind, e.index, e.port)) = [(.snapExpired, some 4, some .b)] := by
  decide +kernel
theorem test_syncEdge :
    let s := onDomain 0 (fun x => { x with cfg := bound, periodCount := 50, longestPeriod := 49 }) sealed
    let t := after (.syncEdge 2 .rising) s
    (t.domain 0).lastPeriod = 50 ∧ (t.domain 0).longestPeriod = 50 ∧ (t.domain 0).periodCount = 0 ∧
      t.startOrder = [0] ∧ t.syncLevels[2] = true := by decide +kernel
/-- Section 11.6, tick 5002: the commit in flight goes on, the OPEN batch is discarded, the fill is PENDING. -/
theorem test_faultEdge :
    let s := onDomain 0 (fun x => { x with cfg := bound }) (withBatch 0 2 .opened none 6 19 1 0xF commitWriting)
    let t := after (.faultEdge 0) s
    (t.domain 0).state = .safing ∧ (t.domain 0).fill.phase = .pending ∧ (t.slot 0 1).state = .committing ∧
      (t.slot 0 2).state = .free ∧ t.entries[6] = none ∧
      t.queue.map (fun e => (e.kind, e.cause)) = [(.faultTaken, some .fault0)] := by decide +kernel
/-- At one edge every discard comes first, so the waiter of a bound domain is not granted in either order of the domains
(R52, R54); their fills stand in ascending order (R111). The records of each domain stand in the order of R104, and SAFE_DONE
is among those of a domain whose fill has nothing to write (R112). -/
theorem test_faultEdge_together :
    (∀ order ∈ [[(0 : DomainId), 1], [1, 0]],
      let t := (order.foldl State.takeFault crowded).examineWaiting
      let u := order.foldl State.settleFault t
      (t.port .b).response = some .errorWrite ∧ t.waiting = [] ∧ t.entries[0] = none ∧
        ascendTail 0 u.fillOrder = [0, 1]) ∧
    (let kinds := fun (s : State) d => (s.faultEvents (fun d => [.faultTaken d .fault0]) d).map (·.kind)
     kinds crowded 0 = [.faultTaken] ∧ kinds crowded 1 = [.faultTaken, .faultLock] ∧
      kinds opened 0 = [.faultTaken, .safeDone] ∧ kinds commitWriting 0 = [.faultTaken]) := by decide +kernel
theorem test_resetFall : let t := after .resetFall opened
    t.resetLow = true ∧ (t.port .a).ready = false ∧ (t.domain 0).state = .disabled ∧ t.entries[0] = none := by
  decide +kernel
theorem test_resetRise : let t := after (.resetRise (Vector.replicate 4 true) (Vector.replicate 2 false) false) low
    t.resetLow = false ∧ (t.port .b).ready = true ∧ t.syncLevels[3] = true ∧ t.faultLevels[1] = false ∧
      t.receiver = .ignoring ∧ t.reply = some (bare .none) := by decide +kernel
/-- An empty frame of five bits keeps the pending reply, whose code 0x0C has shifted out its first five bits. -/
theorem test_emptyFrame : let t := after (.emptyFrame 5) State.reset
    t.reply = some (bare .none) ∧ t.msdo = [false, false, false, false, true] := by decide +kernel
theorem test_unknownCommand : let t := after (.unknownCommand [0x7F, 0x00, 0x00]) State.reset
    t.reply = some (bare .unknown) ∧ t.msdo = bitsOfBytes [0x0C, 0xF4, 0x00] := by decide +kernel
theorem test_shortFrame : (after (.shortFrame [0x24, 0x02]) State.reset).reply = some (bare .shortFrame) := by
  decide +kernel
theorem test_badCheck : (after (.badCheck [0x24, 0x02, 0xDB]) State.reset).reply = some (bare .badCheck) := by
  decide +kernel
theorem test_ignoredFrameEnd : (after .ignoredFrameEnd { State.reset with receiver := .ignoring }).receiver = .idle := by
  decide +kernel
/-- Domain 0 in RUN, one entry in use, no event, both fault lines high. -/
theorem test_nop : (after (.nop 0) opened).reply = some (reported [1, 0, 0, 0, 1, 0, 3]) := by decide +kernel
theorem test_getGlobal : (after (.getGlobal 0) State.reset).reply = some (reported [0x0F, 0xFF, 0, 0, 100]) := by
  decide +kernel
/-- A limit of 0 is BAD_VALUE, and nothing is written. -/
theorem test_setGlobal_badValue : let t := after (.setGlobal { mask := 0, irqEnable := 1, stallLimit := 0 } 0) State.reset
    t.reply = some (bare .badValue) ∧ t.irqEnable = false := by decide +kernel
/-- The held write of 50 ticks expires when the limit falls to 50. -/
theorem test_setGlobal_expires :
    let t := after (.setGlobal { mask := 1, irqEnable := 1, stallLimit := 50 } 0) (heldA .capture { running with tick := 50 })
    t.stallLimit = 50 ∧ t.irq = true ∧ (t.port .a).response = some .errorWrite := by decide +kernel
/-- A SET_GLOBAL that repeats the limit leaves a due held write to its own event. -/
theorem test_setGlobal_same_limit :
    let t := after (.setGlobal { mask := 1, irqEnable := 1, stallLimit := 100 } 0) (heldA .capture { running with tick := 100 })
    t.mask = 1 ∧ (t.port .a).txn.phase = .held ∧ t.queue = [] := by decide +kernel
theorem test_popEvent : let r : EventRecord :=
      { kind := .commitDone, tick := 0x01020304, index := some 2, port := none, addr := some 11, cause := none, lost := true }
    let t := after (.popEvent 0) { State.reset with queue := [r], irqEnable := true, irq := true }
    t.queue = [] ∧ t.irq = false ∧ t.reply = some (reported [8, 0x85, 1, 2, 3, 4, 2, 0, 0, 0, 11, 0]) := by decide +kernel
theorem test_resetPart : let t := after (.resetPart 0) opened
    (t.domain 0).state = .disabled ∧ (t.window 3).enabled = true ∧ t.entries[0] = none ∧ t.reply = some (bare .ok) := by
  decide +kernel
/-- A read that a soft reset ends is answered ERROR with data 0. -/
theorem test_resetPart_read :
    let t := after (.resetPart 0) (withTxn .b { phase := .request, access := .read 100 } tables)
    (t.port .b).response = some { err := true, rdata := some 0 } := by decide +kernel
theorem test_resetPart_busy : (after (.resetPart 0) committing).reply = some (bare .busy) := by decide +kernel
theorem test_getWindow : (after (.getWindow 3 0) tables).reply =
    some (reported [1, 0, 0, 0, 16, 0, 4, 0, 0, 3, 0, 0, 0, 0]) := by decide +kernel
theorem test_setWindow : let t := after (.setWindow 3 stagedPayload 0) State.reset
    t.window 3 = staged ∧ t.reply = some (bare .ok) := by decide +kernel
/-- The window of a RUN domain is BUSY. -/
theorem test_setWindow_busy : (after (.setWindow 3 stagedPayload 0) running).reply = some (bare .busy) := by decide +kernel
theorem test_getDomain : (after (.getDomain 0 0) opened).reply = some (reported
    [0, 4, 0, 0, 0, 0, 0, 0, 0xFF, 0xFF, 0xFF, 0, 1, 1, 1, 0, 0, 0, 0, 0, 0, 0, 0, 0, 0, 0, 0, 0, 0]) := by decide +kernel
theorem test_setDomain : let t := after (.setDomain 1 domainPayload 0) State.reset
    (t.domain 1).cfg.writer = .b ∧ (t.domain 1).cfg.sequenceWord = some 4096 ∧ t.reply = some (bare .ok) := by
  decide +kernel
theorem test_start : let t := after (.start 1 0) State.reset
    (t.domain 1).state = .run ∧ (t.domain 1).monitorPhase = .counting := by decide +kernel
/-- The OPEN batch is discarded, and with nothing to commit the domain is DISABLED at once. -/
theorem test_stop : let t := after (.stop 0 0) opened
    (t.domain 0).state = .disabled ∧ t.entries[0] = none ∧ t.reply = some (bare .accepted) ∧
      t.queue.map (·.kind) = [.stopDone] := by decide +kernel
theorem test_stop_busy : (after (.stop 0 0) (onDomain 0 (fun x => { x with state := .stopping }) committing)).reply =
    some (bare .busy) := by decide +kernel
theorem test_sealBatch : let t := after (.sealBatch 0 0) opened
    (t.slot 0 0).state = .sealed ∧ (t.slot 0 0).rank = some 1 ∧ (t.domain 0).sealCount = 1 := by decide +kernel
theorem test_sync : let t := after (.sync 0 0) sealed
    (t.slot 0 1).state = .committing ∧ t.mport = some ⟨.commit 0, .write 18 0xF 0x22⟩ := by decide +kernel
theorem test_sync_overrun : (after (.sync 0 0) committing).queue.map (·.kind) = [.syncOverrun] := by decide +kernel
theorem test_getSafe : (after (.getSafe 5 0) filling).reply = some (reported [1, 0, 0, 0, 17, 0, 0, 0, 0x55, 1]) := by
  decide +kernel
/-- Lanes outside the mask are stored as 0. -/
theorem test_setSafe : (after (.setSafe 5 { safePayload with data := 0xAABBCCDD } 0) State.reset).safeEntry 5 =
    { enabled := true, domain := 2, addr := 1100, data := 0xDD, lanes := 1 } := by decide +kernel
theorem test_arm : let s := onDomain 0 (fun x => { x with state := .safed }) State.reset
    ((after (.arm 0 0) s).domain 0).state = .disabled := by decide +kernel
theorem test_getBatch : (after (.getBatch 0 1 0) sealed).reply = some (reported [2, 1, 1, 0, 1]) := by decide +kernel
theorem test_peekStaging : (after (.peekStaging 1 0) sealed).reply =
    some (reported [1, 0, 0, 18, 0, 0, 0, 0x22, 0xF, 0, 1, 0]) := by decide +kernel
/-- A release of a fault line changes its level and nothing of a domain. -/
theorem test_faultLineRelease : let s := { running with faultLevels := Vector.replicate 2 false }
    let t := after (.faultLineRelease 1) s
    t.faultLevels[1] = true ∧ t.faultLevels[0] = false ∧ t.domains = s.domains := by decide +kernel

/-! ## States and operands that meet the hypotheses of the statements -/

/-- Every command answers a next state. -/
theorem exec_after (c : Instr) (s : State) : exec c s = .next (after c s) := by cases c <;> rfl

/-- A context that is IDLE is not CAPTURING. -/
theorem not_capturing {x : Context} (h : x = .idle) (w : WindowId) (copy : List Word) (phase : CapturePhase) :
    x ≠ .capturing w copy phase := by
  rw [h]
  nofun

/-- With no transaction, no grant, no waiter and no capture, the law of batches is the law of each domain. -/
theorem batchLaw_of_quiet {s : State} (hd : ∀ d, (s.domain d).BatchLaw) (hw : s.waiting = [])
    (hm : ∀ p acc, s.mport ≠ some ⟨.port p, acc⟩) (hc : ∀ c : ContextId, (s.context .a c).isCapturing = false ∧
      (s.context .b c).isCapturing = false) : s.BatchLaw where
  domains := hd
  waiters := by simp [hw]
  waitersApart := by simp [hw]
  granted p acc h := absurd h (hm p acc)
  leadWait p c h := by cases p <;> simp [hc c] at h
  oneCapture p c e h := by cases p <;> simp [hc c] at h

/-- The law of batches of one domain, by its parts. -/
theorem batchLaw_of_parts {x : Domain} (h1 : x.state ≠ .run → ∀ k : SlotId, x.slots[k].state ≠ .opened)
    (h2 : x.state ≠ .run → x.state ≠ .stopping → ∀ k : SlotId, x.slots[k].state ≠ .sealed)
    (h3 : x.state = .disabled ∨ x.state = .safed → ∀ k : SlotId, x.slots[k].state ≠ .committing)
    (h4 : ∀ k : SlotId, x.slots[k].state = .committing → x.commit.phase ≠ .idle ∧ x.commit.slot = k)
    (h5 : x.fill.phase = .fillRequest ∨ x.fill.phase = .fillWrite →
      x.state = .safing ∧ ∀ k : SlotId, x.slots[k].state ≠ .committing) : x.BatchLaw := ⟨h1, h2, h3, h4, h5⟩

theorem committing_batchLaw : committing.BatchLaw :=
  batchLaw_of_quiet
    (fun d => batchLaw_of_parts (by revert d; decide +kernel) (by revert d; decide +kernel) (by revert d; decide +kernel)
      (by revert d; decide +kernel) (by revert d; decide +kernel))
    rfl (fun _ _ => nofun) (by decide +kernel)

theorem opened_batchLaw : opened.BatchLaw :=
  batchLaw_of_quiet
    (fun d => batchLaw_of_parts (by revert d; decide +kernel) (by revert d; decide +kernel) (by revert d; decide +kernel)
      (by revert d; decide +kernel) (by revert d; decide +kernel))
    rfl (fun _ _ => nofun) (by decide +kernel)

theorem tables_apart : tables.WindowsApart := apart_of_ranges (by decide +kernel)
theorem running_apart : running.WindowsApart := apart_of_ranges (by decide +kernel)

theorem test_meets_StepRunsFrontCommand : State.reset.pending = [] := rfl

theorem test_meets_CommandsChangeOnlyWhatIsTheirs :
    (exec .tick State.reset = .next (after .tick State.reset) ∧ Instr.tick ≠ .resetFall) ∧
    (after .tick State.reset).tick ≠ State.reset.tick ∧
    (after (.setWindow 3 stagedPayload 0) State.reset).windows ≠ State.reset.windows ∧
    (after (.setSafe 5 safePayload 0) State.reset).safe ≠ State.reset.safe ∧
    ((after (.setDomain 1 domainPayload 0) State.reset).domain 1).cfg ≠ (State.reset.domain 1).cfg ∧
    (after (.setGlobal { mask := 0, irqEnable := 0, stallLimit := 1 } 0) State.reset).mask ≠ State.reset.mask ∧
    (after .portWriteComplete portWriting).mem ≠ portWriting.mem ∧
    (after (.syncEdge 3 .rising) State.reset).syncLevels ≠ State.reset.syncLevels ∧
    (after (.faultEdge 1) State.reset).faultLevels ≠ State.reset.faultLevels :=
  ⟨⟨rfl, by decide⟩, by decide +kernel⟩

theorem test_meets_EventsThatCannotAriseChangeNothing :
    low.resetLow = true ∧ ((heldA .capture running).port .a).txn.phase ≠ .idle ∧
    (∀ p a m x, (portReading 17 tables).mport ≠ some ⟨.port p, .write a m x⟩) ∧
    (∀ p a, portWriting.mport ≠ some ⟨.port p, .read a⟩) ∧
    (∀ d acc, State.reset.mport ≠ some ⟨.commit d, acc⟩) ∧ (∀ d acc, State.reset.mport ≠ some ⟨.fill d, acc⟩) ∧
    (∀ p a, commitWriting.mport ≠ some ⟨.capture p, .read a⟩) ∧
    (let s := heldA .capture { running with tick := 99 }
     (s.port .a).txn.phase = .held ∧ s.waitingTime (s.port .a).txn < s.stallLimit.toNat) ∧
    (running.domain 0).cfg.maxInterval = 0 ∧ (running.domain 1).state ≠ .run ∧
    (∀ w copy t0, { holding with tick := 4 }.context .b 0 = .held w copy t0 →
      ({ holding with tick := 4 }.window w).holdLimit = 0 ∨
        ((4 : Tick) - t0).toNat < ({ holding with tick := 4 }.window w).holdLimit.toNat) ∧
    State.reset.syncLevels[0] = false ∧ (after (.syncEdge 3 .rising) State.reset).syncLevels[3] = true ∧
    State.reset.faultLevels[0] = true ∧ (after (.faultEdge 1) State.reset).faultLevels[1] = false ∧
    State.reset.resetLow = false ∧ State.reset.receiver ≠ .ignoring := by
  refine ⟨by decide +kernel, by decide +kernel, nofun, nofun, nofun, nofun, nofun, by decide +kernel, by decide +kernel,
    by decide +kernel, fun w copy t0 h => ?_, by decide +kernel, by decide +kernel, by decide +kernel, by decide +kernel,
    by decide +kernel, by decide +kernel⟩
  have h' : Context.held 4 [7, 8] 0 = .held w copy t0 := h
  cases h'
  decide +kernel

theorem test_meets_DecodeOfEncodedFrame : (Instr.sealBatch 2 3).wellFormed = true ∧
    encodeFrame (.sealBatch 2 3) = some (bitsOfBytes [0x24, 0x02, 0xDA] ++ [false, false, false]) := by decide +kernel

theorem test_meets_EncodeOfDecodedFrame : frameVerdict [0x24, 0x02] ≠ .carriedOut ∧ requestLength 0x24 = some 3 ∧
    frameVerdict [0x24, 0x02, 0xDA, 0x55] = .carriedOut := by decide +kernel

theorem test_meets_PartialByteIsDiscarded : (List.replicate 7 true).length < 8 ∧ (bare .ok).bytes.length * 8 - 1 < 16 := by
  decide

/-- The part takes frames right after reset. -/
theorem reset_listening : State.reset.Listening := ⟨rfl, by decide⟩

theorem test_meets_FrameNotCarriedOutOnlyAnswers : State.reset.Listening ∧ requestLength 0x7F = none ∧
    (requestLength 0x24 = some 3 ∧ [(0x02 : Byte)].length + 1 < 3) ∧
    (3 ≤ [(0x02 : Byte), 0xDB].length + 1 ∧ byteSum ([(0x24 : Byte), 0x02, 0xDB].take 3) ≠ 0) :=
  ⟨reset_listening, by decide +kernel⟩

theorem test_meets_FramesIgnoredWhileLowOrIgnoring : encodeFrame (.nop 0) = some (bitsOfBytes [0x01, 0xFF]) ∧ low.resetLow = true ∧
    (let s := { State.reset with receiver := .ignoring }
     s.resetLow = false ∧ s.receiver = .ignoring) := by decide +kernel

theorem test_meets_StatusAndSettingsReported : State.reset.Listening := reset_listening

/-- Each clause at the last index in range and the first beyond it. -/
theorem test_meets_TablesAndPoolReported : State.reset.Listening ∧ sealed.Listening ∧
    15 < (16 : Byte).toNat ∧ (15 : Byte).toNat = (15 : WindowId).val ∧
    31 < (32 : Byte).toNat ∧ (31 : Byte).toNat = (31 : SafeId).val ∧
    3 < (4 : Byte).toNat ∧ (3 : Byte).toNat = (3 : DomainId).val ∧ (3 : Byte).toNat = (3 : SlotId).val ∧
    63 < (64 : Byte).toNat ∧ (63 : Byte).toNat = (63 : EntryId).val ∧
    State.reset.entries[(63 : EntryId)] = none ∧ ∃ e, sealed.entries[(1 : EntryId)] = some e :=
  ⟨reset_listening, ⟨rfl, by decide⟩, by decide, by decide, by decide, by decide, by decide, by decide, by decide, by decide,
    by decide, by decide +kernel, ⟨_, rfl⟩⟩

theorem test_meets_ReportsDetermineTheirRecords : staged.report = staged.report ∧ bound.report = bound.report := ⟨rfl, rfl⟩

theorem test_meets_GlobalSettingsWritten : State.reset.Listening ∧
    (4095 < (4096 : BitVec 16).toNat ∧ 1 < (2 : Byte).toNat ∧ (0 : BitVec 16).toNat = 0) ∧
    (0 < (1 : BitVec 16).toNat ∧ (4095 : BitVec 16).toNat ≤ 4095 ∧ (1 : Byte).toNat ≤ 1) :=
  ⟨reset_listening, by decide⟩

/-- The limit repeated while a held write is due, a lower limit, and all three values repeated. -/
theorem test_meets_GlobalSettingsWritten_limits :
    (let s := heldA .capture { running with tick := 100 }
     s.Listening ∧ s.stallDue .a = true ∧ (100 : BitVec 16).toNat = s.stallLimit.toNat ∧
      (50 : BitVec 16).toNat ≠ s.stallLimit.toNat ∧ (50 : BitVec 16).toNat ≤ s.waitingTime (s.port .a).txn) ∧
    (0x0FFF : BitVec 16).toNat = State.reset.mask.toNat ∧ decide ((0 : Byte) = 1) = State.reset.irqEnable ∧
    State.reset.IrqFollowsQueue := by
  unfold State.Listening State.IrqFollowsQueue
  decide +kernel

theorem test_meets_PopEventTakesTheHead : State.reset.Listening ∧ State.reset.queue = [] ∧
    (∃ r rest, (after (.transactionAccept .b (.write 17 0xF 5)) running).queue = r :: rest) ∧
    (after (.transactionAccept .b (.write 17 0xF 5)) running).Listening :=
  ⟨reset_listening, rfl, ⟨_, _, rfl⟩, by decide +kernel, by decide +kernel⟩

/-- The record of a SNAPSHOT window of two words at the last two addresses, with reader port B. -/
def snapPayload : WindowPayload :=
  { stagedPayload with kind := 1, base := 0x3FFFFE, length := 2, domain := 0xFF, sealOffset := 0xFFFF }

theorem test_meets_WindowRecordWritten_ranges : State.reset.Listening ∧ 15 < (16 : Byte).toNat ∧
    (15 : Byte).toNat = (15 : WindowId).val ∧
    -- out of range: kind 2; one word beyond the last address; seal offset equal to the length
    (1 : Byte) ≠ 0 ∧ 1 < (2 : Byte).toNat ∧ 4194303 < (0x3FFFFF : BitVec 24).toNat + (2 : BitVec 16).toNat - 1 ∧
    ((4 : BitVec 16) ≠ 0xFFFF ∧ (4 : BitVec 16).toNat ≤ (4 : BitVec 16).toNat) ∧
    -- in range: the last two words of the address space
    ¬ 1 < snapPayload.kind.toNat ∧ ¬ 4194303 < snapPayload.base.toNat + snapPayload.length.toNat - 1 ∧
    ¬ (snapPayload.length.toNat < 2 ∨ 16 < snapPayload.length.toNat ∨ 1 < snapPayload.writerPort.toNat) :=
  ⟨reset_listening, by decide +kernel⟩

theorem test_meets_WindowRecordWritten_busy : running.Listening ∧
    ((running.window 3).enabled = true ∧ (running.window 3).kind = .staged ∧
      (running.domain (running.window 3).domain).state ≠ .disabled) ∧
    (capturing [] .read).Listening ∧ (∃ p c copy phase, (capturing [] .read).context p c = .capturing 4 copy phase) ∧
    (capturing [] .read).window 4 = snap :=
  ⟨⟨rfl, by decide⟩, by decide +kernel, ⟨rfl, by decide⟩, ⟨.b, 0, [], .read, rfl⟩, by decide +kernel⟩

theorem test_meets_WindowRecordWritten_overlap : tables.Listening ∧ (tables.window 5).enabled = false ∧
    (∀ p c copy phase, tables.context p c ≠ .capturing 5 copy phase) ∧
    (let w := { stagedPayload with base := 19, length := 1, sealOffset := 0 }
     w.stored.enabled = true ∧ (3 : WindowId) ≠ 5 ∧ (tables.window 3).enabled = true ∧
      (tables.window 3).base.toNat < w.stored.base.toNat + w.stored.length.toNat ∧
      w.stored.base.toNat < (tables.window 3).base.toNat + (tables.window 3).length.toNat) ∧
    (tables.domain 0).state = .disabled :=
  ⟨⟨rfl, by decide⟩, by decide +kernel,
    fun p c => not_capturing (by cases p <;> (revert c; decide +kernel)) 5, by decide +kernel, by decide +kernel⟩

/-- Word 20 lies just behind window 3, so nothing meets it. -/
theorem test_meets_WindowRecordWritten_free : tables.Listening ∧
    (∀ j : WindowId, j ≠ 5 → (tables.window j).enabled = true →
      ¬ ((tables.window j).base.toNat < 20 + 1 ∧ 20 < (tables.window j).base.toNat + (tables.window j).length.toNat)) ∧
    (∀ d : DomainId, (tables.domain d).state = .disabled) :=
  ⟨⟨rfl, by decide⟩, by decide +kernel, by decide +kernel⟩

theorem test_meets_StoredWindowRecord : snapPayload.kind = 1 ∧ stagedPayload.kind ≠ 1 := by decide

theorem test_meets_DomainRecordWritten : State.reset.Listening ∧ running.Listening ∧ 3 < (4 : Byte).toNat ∧
    (3 : Byte).toNat = (3 : DomainId).val ∧
    (1 < (2 : Byte).toNat ∧ 4 < (5 : Byte).toNat ∧ ((0x400000 : BitVec 24) ≠ 0xFFFFFF ∧ 4194303 < (0x400000 : BitVec 24).toNat)) ∧
    ¬ (1 < domainPayload.writerPort.toNat ∨ 4 < domainPayload.syncLine.toNat ∨ 1 < domainPayload.syncEdge.toNat ∨
      2 < domainPayload.lossPolicy.toNat ∨ 1 < domainPayload.exhaustionPolicy.toNat ∨ 3 < domainPayload.faultBinding.toNat ∨
      (domainPayload.sequenceWord ≠ 0xFFFFFF ∧ 4194303 < domainPayload.sequenceWord.toNat)) ∧
    (running.domain 0).state ≠ .disabled ∧ (State.reset.domain 3).state = .disabled :=
  ⟨reset_listening, ⟨rfl, by decide⟩, by decide +kernel⟩

theorem test_meets_SafeEntryWritten : State.reset.Listening ∧ filling.Listening ∧ 31 < (32 : Byte).toNat ∧
    (31 : Byte).toNat = (31 : SafeId).val ∧
    (3 < (4 : Byte).toNat ∧ 4194303 < (0x400000 : BitVec 24).toNat ∧ ((0xF0 : Byte).setWidth 4 : Lanes) = 0) ∧
    ¬ (3 < safePayload.domain.toNat ∨ 4194303 < safePayload.addr.toNat ∨
      (safePayload.enabled ≠ 0 ∧ (safePayload.lanes.setWidth 4 : Lanes) = 0)) ∧
    safePayload.domain.toNat = (2 : DomainId).val ∧
    (filling.domain (filling.safeEntry 5).domain).state = .safing ∧
    ((State.reset.domain (State.reset.safeEntry 31).domain).state ≠ .safing ∧ (State.reset.domain 2).state ≠ .safing) :=
  ⟨reset_listening, ⟨rfl, by decide⟩, by decide +kernel⟩

theorem test_meets_DomainStartedAndArmed : 3 < (4 : Byte).toNat ∧ (3 : Byte).toNat = (3 : DomainId).val ∧
    running.Listening ∧ (running.domain 0).state ≠ .disabled ∧ (running.domain 0).state ≠ .safed ∧
    (let s := { onDomain 0 (fun x => { x with cfg := bound }) tables with faultLevels := Vector.replicate 2 false }
     s.Listening ∧ (s.domain 0).state = .disabled ∧ (s.domain 0).cfg.binding = .fault0 ∧ s.faultLevels[0] = false) ∧
    (let s := onDomain 0 (fun x => { x with cfg := { sequenceWord := some 19 } }) tables
     s.Listening ∧ (s.domain 0).state = .disabled ∧ (s.domain 0).cfg.binding = .none ∧ s.InWindow 3 19) ∧
    (let s := onDomain 0 (fun x => { x with state := .safed }) tables
     s.Listening ∧ (s.domain 0).state = .safed ∧ (s.domain 0).cfg.binding = .none ∧ (s.domain 0).cfg.sequenceWord = none) := by
  unfold State.Listening State.InWindow
  decide +kernel

theorem test_meets_SealSealsTheOpenBatch : opened.Listening ∧ running.Listening ∧ tables.Listening ∧ 3 < (4 : Byte).toNat ∧
    (0 : Byte).toNat = (0 : DomainId).val ∧ (tables.domain 0).state ≠ .run ∧
    ((running.domain 0).state = .run ∧ ∀ k, (running.slot 0 k).state ≠ .opened) ∧
    ((opened.domain 0).state = .run ∧ (opened.slot 0 0).state = .opened ∧
      ∀ j, (opened.slot 0 j).state = .opened → j = 0) := by
  unfold State.Listening
  decide +kernel

theorem test_meets_StopEndsAtTheLastBatch_answers : tables.Listening ∧ 3 < (4 : Byte).toNat ∧
    (0 : Byte).toNat = (0 : DomainId).val ∧ (tables.domain 0).state = .disabled ∧
    (let s := onDomain 0 (fun x => { x with state := .stopping }) committing
     s.Listening ∧ (s.domain 0).state = .stopping) := by
  unfold State.Listening
  decide +kernel

/-- The writer port's write of word 19 waits for an entry of domain 0. -/
def waitingFor0 (s : State) : State :=
  { withTxn .a { phase := .held, access := .write 19 1 0x99, cause := some .exhausted, startTick := some 0 } s with
    waiting := [{ port := .a, domain := 0, addr := 19, seals := true }] }

/-- It waits while domain 0 commits. -/
def waitingWrite : State := waitingFor0 committing

/-- Domain 1, writer port B, owns window 5, word 20, and its write of that word waits. -/
def waitingFor1 (s : State) : State :=
  { withTxn .b { phase := .held, access := .write 20 1 0x99, cause := some .exhausted, startTick := some 0 }
      (onDomain 1 (fun x => { x with state := .run, cfg := { x.cfg with writer := .b } })
        (withWindow 5 { staged with base := 20, length := 1, domain := 1, sealOffset := none } s)) with
    waiting := [{ port := .b, domain := 1, addr := 20, seals := false }] }

/-- A domain in RUN with nothing staged, with an OPEN batch alone, with a COMMITTING and with a SEALED batch; a waiter of the
domain, and one of another domain. -/
theorem test_meets_StopEndsAtTheLastBatch_run :
    (running.Listening ∧ (running.domain 0).state = .run ∧ running.WindowsApart ∧ (∀ w ∈ running.waiting, w.domain ≠ 0) ∧
      ∀ j, (running.slot 0 j).state ≠ .committing ∧ (running.slot 0 j).state ≠ .sealed ∧ (running.slot 0 j).state ≠ .opened) ∧
    (opened.Listening ∧ (opened.domain 0).state = .run ∧ (opened.slot 0 0).state = .opened ∧
      (∀ j, (opened.slot 0 j).state = .opened → j = 0) ∧
      ∀ j, (opened.slot 0 j).state ≠ .committing ∧ (opened.slot 0 j).state ≠ .sealed) ∧
    (waitingWrite.Listening ∧ (waitingWrite.domain 0).state = .run ∧ (∃ k, (waitingWrite.slot 0 k).state = .committing) ∧
      (∃ w ∈ waitingWrite.waiting, w.domain = 0 ∧ ∀ x ∈ waitingWrite.waiting, x.domain = 0 → x = w)) ∧
    (sealed.Listening ∧ (sealed.domain 0).state = .run ∧ (∀ j, (sealed.slot 0 j).state ≠ .committing) ∧
      sealed.IsOldestSealed 0 1) ∧
    (let s := waitingFor1 opened
     s.Listening ∧ ∀ w ∈ s.waiting, w.domain ≠ 0) := by
  refine ⟨⟨⟨rfl, by decide⟩, rfl, running_apart, by decide +kernel⟩, ?_⟩
  unfold State.Listening State.IsOldestSealed
  decide +kernel

/-- The waiter of a domain with nothing to commit is held under STOPPING when the stop ends. -/
theorem test_meets_StopEndsAtTheLastBatch_hold :
    let s := waitingFor0 running
    let p := (s.domain 0).cfg.writer
    let t := { s.setPort .a { s.port .a with txn := { (s.port .a).txn with cause := some .stopping } } with waiting := [] }
    (t.port p).txn.phase = .held ∧ (t.port p).txn.cause = some .stopping ∧
      s.InWindow 3 (accessAddr (t.port p).txn.access) ∧ (s.window 3).kind = .staged ∧ (s.window 3).domain = 0 := by
  unfold State.InWindow
  decide +kernel

/-- The law of batches with one waiter and no grant or capture. -/
theorem batchLaw_of_waiter {s : State} (w : Waiter) (hd : ∀ d, (s.domain d).BatchLaw) (hw : s.waiting = [w])
    (h : (s.domain w.domain).state = .run ∧ (s.domain w.domain).cfg.writer = w.port ∧
      (s.port w.port).txn.phase = .held ∧ (s.port w.port).txn.cause = some .exhausted)
    (hm : s.mport = none) (hc : ∀ c : ContextId, (s.context .a c).isCapturing = false ∧
      (s.context .b c).isCapturing = false) : s.BatchLaw where
  domains := hd
  waiters := by simpa [hw] using h
  waitersApart := by simp [hw]
  granted p acc hg := by simp [hm] at hg
  leadWait p c h := by cases p <;> simp [hc c] at h
  oneCapture p c e h := by cases p <;> simp [hc c] at h

theorem waitingFor0_batchLaw : ∀ s ∈ [committing, sealed, running], (waitingFor0 s).BatchLaw := by
  simp only [List.forall_mem_cons, List.not_mem_nil, false_imp_iff, implies_true, and_true]
  refine ⟨?_, ?_, ?_⟩ <;>
    exact batchLaw_of_waiter { port := .a, domain := 0, addr := 19, seals := true }
      (fun d => batchLaw_of_parts (by revert d; decide +kernel) (by revert d; decide +kernel) (by revert d; decide +kernel)
        (by revert d; decide +kernel) (by revert d; decide +kernel))
      rfl (by decide +kernel) rfl (by decide +kernel)

/-- The domain's waiter while it has a COMMITTING batch, a SEALED one and neither. -/
theorem test_meets_StopTurnsTheWaiterIntoAStoppingHold : (0 : Byte).toNat = (0 : DomainId).val ∧
    (∀ s ∈ [committing, sealed, running], (waitingFor0 s).Listening ∧ (waitingFor0 s).BatchLaw ∧
      ((waitingFor0 s).domain 0).state = .run ∧ ∃ w ∈ (waitingFor0 s).waiting, w.domain = 0) ∧
    (∃ k, ((waitingFor0 committing).slot 0 k).state = .committing) ∧
    ((∀ j, ((waitingFor0 sealed).slot 0 j).state ≠ .committing) ∧ (waitingFor0 sealed).IsOldestSealed 0 1) ∧
    (let s := waitingFor0 running
     (∀ k, (s.slot 0 k).state ≠ .committing ∧ (s.slot 0 k).state ≠ .sealed) ∧ s.WindowsApart ∧
      (s.port .a).txn.access = .write 19 1 0x99 ∧ (∀ e, ¬ s.NamedBySafing e 19) ∧ s.InWindow 3 19 ∧
      (s.window 3).kind = .staged ∧ (s.window 3).domain = 0) := by
  have hl : ∀ s ∈ [committing, sealed, running], (waitingFor0 s).Listening ∧ ((waitingFor0 s).domain 0).state = .run ∧
      ∃ w ∈ (waitingFor0 s).waiting, w.domain = 0 := by
    unfold State.Listening
    decide +kernel
  refine ⟨rfl, fun s hs => ⟨(hl s hs).1, waitingFor0_batchLaw s hs, (hl s hs).2⟩, by decide +kernel, ?_, by decide +kernel,
    apart_of_ranges (by decide +kernel), rfl, ?_⟩
  · unfold State.IsOldestSealed
    decide +kernel
  · unfold State.NamedBySafing State.InWindow
    decide +kernel

/-- Port B's write waits for domain 1 while domain 0 stages. -/
theorem test_meets_StopTurnsTheWaiterIntoAStoppingHold_other :
    let s := waitingFor1 opened
    s.Listening ∧ s.BatchLaw ∧ (s.domain 0).state = .run ∧
      ∃ v ∈ s.waiting, v.domain ≠ 0 ∧ (∀ w ∈ s.waiting, w.domain = 0 ∨ w = v) ∧
        (∃ k, (s.slot 0 k).state = .opened ∧ (s.slot 0 k).entries ≠ []) ∧
        ∃ k, (s.slot v.domain k).state = .opened ∨ (s.slot v.domain k).state = .free := by
  refine ⟨⟨rfl, by decide⟩, ?_, by decide +kernel⟩
  exact batchLaw_of_waiter { port := .b, domain := 1, addr := 20, seals := false }
    (fun d => batchLaw_of_parts (by revert d; decide +kernel) (by revert d; decide +kernel) (by revert d; decide +kernel)
      (by revert d; decide +kernel) (by revert d; decide +kernel))
    rfl (by decide +kernel) rfl (by decide +kernel)

theorem test_meets_ResetLineFallsAndRises : State.reset.resetLow = false ∧ low.resetLow = true := by decide +kernel

theorem test_meets_SoftResetEndsTheWork : committing.Listening ∧ (committing.slot 0 1).state = .committing ∧
    opened.Listening ∧ (∀ d, (opened.domain d).state ≠ .stopping ∧ (opened.domain d).state ≠ .safing) ∧
    (∀ d k, (opened.slot d k).state ≠ .committing) := by
  unfold State.Listening
  decide +kernel

/-- The part with the OPEN batch of domain 0 is a state of the laws, and a command waits. -/
def openedWithCommand : State := { opened with pending := [.sealBatch 0 0] }

theorem openedWithCommand_poolLaw : openedWithCommand.PoolLaw where
  listed := by
    have h : ∀ (d : DomainId) (k : SlotId), (openedWithCommand.slot d k).entries = [] ∨
        (d = 0 ∧ k = 0 ∧ (openedWithCommand.slot d k).entries = [0]) := by decide +kernel
    intro d k n i hi
    obtain he | ⟨rfl, rfl, he⟩ := h d k
    · simp [he] at hi
    · rw [he] at hi
      obtain _ | n := n
      · obtain rfl : 0 = i := by simpa using hi
        exact ⟨_, rfl, rfl, rfl, rfl⟩
      · simp at hi
  inUse := by
    have h : ∀ i : EntryId, i = 0 ∨ openedWithCommand.entries[i] = none := by decide +kernel
    intro i e he
    obtain rfl | hn := h i
    · have he' : some { addr := 17, data := 0x11, lanes := 1, domain := 0, slot := 0, position := 0 } = some e := he
      cases he'
      decide +kernel
    · rw [hn] at he
      cases he
  oneWord := by
    have h : ∀ (d : DomainId) (k : SlotId) (i j : EntryId), i ∈ (openedWithCommand.slot d k).entries →
        j ∈ (openedWithCommand.slot d k).entries → i = j := by
      have h' : ∀ (d : DomainId) (k : SlotId), (openedWithCommand.slot d k).entries = [] ∨
        (openedWithCommand.slot d k).entries = [0] := by decide +kernel
      intro d k i j hi hj
      obtain he | he := h' d k <;> simp_all
    intro d k i j e f hi hj _ _ _
    exact h d k i j hi hj
  empty := by decide +kernel
  ranked := by decide +kernel
  oneOpen := by decide +kernel

theorem openedWithCommand_batchLaw : openedWithCommand.BatchLaw :=
  { domains := opened_batchLaw.domains, waiters := opened_batchLaw.waiters, waitersApart := opened_batchLaw.waitersApart
    granted := opened_batchLaw.granted, leadWait := opened_batchLaw.leadWait, oneCapture := opened_batchLaw.oneCapture }

/-- A law's statement has no hypothesis but the law and the step. -/
theorem test_meets_StepKeeps : openedWithCommand.MemoryCanonical ∧ openedWithCommand.IrqFollowsQueue ∧
    openedWithCommand.WindowsApart ∧ openedWithCommand.LimitInRange ∧ openedWithCommand.ReadyFollowsRecord ∧
    openedWithCommand.QuietWhileLow ∧ openedWithCommand.PoolLaw ∧ openedWithCommand.BatchLaw ∧
    openedWithCommand.CaptureLaw ∧ ∃ t, step openedWithCommand = .next t :=
  have apart : openedWithCommand.WindowsApart := apart_of_ranges (by decide +kernel)
  have idle : ∀ p c, openedWithCommand.context p c = .idle := by intro p; cases p <;> decide +kernel
  ⟨by unfold State.MemoryCanonical; decide +kernel, by unfold State.IrqFollowsQueue; decide +kernel, apart,
    by unfold State.LimitInRange; decide +kernel, fun p => by cases p <;> decide +kernel, fun h => absurd h (by decide),
    openedWithCommand_poolLaw, openedWithCommand_batchLaw,
    ⟨openedWithCommand_batchLaw, apart, fun p c w copy phase h => absurd h (not_capturing (idle p c) w copy phase),
      fun p c w copy phase h => absurd h (not_capturing (idle p c) w copy phase)⟩, ⟨_, rfl⟩⟩

theorem test_meets_CommitNumbersFollowCommits :
    exec .commitWriteComplete commitWriting = .next (after .commitWriteComplete commitWriting) := rfl

/-- A kind masked off, a queue of one record less than full, and a full queue. -/
theorem test_meets_QueueTakesAnEvent :
    let r : EventRecord :=
      { kind := .stopDone, tick := 0, index := some 0, port := none, addr := none, cause := none, lost := false }
    ({ State.reset with mask := 0 }).mask.getLsbD EventKind.snapEvicted.code = false ∧
    State.reset.mask.getLsbD EventKind.snapEvicted.code = true ∧
    ({ State.reset with queue := List.replicate 15 r }).queue.length < 16 ∧
    ({ State.reset with queue := List.replicate 16 r }).queue = List.replicate 15 r ++ [r] ∧
    16 ≤ ({ State.reset with queue := List.replicate 16 r }).queue.length := by decide +kernel

/-- A granted access, no request, and the best claim in each class; Port B's claim stands behind Port A's place. -/
theorem test_meets_ArbiterGrantsTheBestClaim :
    (∃ g, commitWriting.mport = some g) ∧ (∀ r ∈ State.reset.arbiterOrder, State.reset.request r = none) ∧
    (let s := { onDomain 0 (fun x => { x with fill := { x.fill with phase := .fillRequest } }) filling with mport := none }
     s.mport = none ∧ s.arbiterOrder = [] ++ .fill 0 :: [.port .a, .port .b] ∧
      s.request (.fill 0) = some (.write 17 1 0x55)) ∧
    (committing.mport = none ∧ committing.arbiterOrder = [] ++ .commit 0 :: [.port .a, .port .b] ∧
      committing.request (.commit 0) = some (.write 18 0xF 0x22)) ∧
    (let s := capturing [7] .readRequest
     s.mport = none ∧ s.arbiterOrder = [] ++ .capture .b :: [.port .a, .port .b] ∧
      s.request (.capture .b) = some (.read 33)) ∧
    (let s := withTxn .b { phase := .request, access := .read 100 } tables
     s.mport = none ∧ s.arbiterOrder = [.port .a] ++ .port .b :: [] ∧ (∀ q ∈ [Requester.port .a], s.request q = none) ∧
      s.request (.port .b) = some (.read 100)) :=
  ⟨⟨_, rfl⟩, by decide +kernel⟩

/-- The safe entry of `filling` names word 17: locked for Port A, held for Port B; words 15 and 20 lie beside window 3. -/
theorem test_meets_AccessesAreClassified_safing : filling.WindowsApart ∧ running.WindowsApart ∧
    (filling.NamedBySafing 0 17 ∧ (filling.domain 0).cfg.writer = .a ∧ filling.InWindow 3 17 ∧
      (filling.window 3).kind = .staged ∧ (filling.window 3).domain = 0) ∧
    (∀ d, ¬ (filling.domain d).cfg.writer = .b) ∧
    (∀ d, ¬ running.NamedBySafing d 17) ∧ (∀ i, ¬ running.InWindow i 15) ∧ (∀ i, ¬ running.InWindow i 20) := by
  refine ⟨apart_of_ranges (by decide +kernel), running_apart, ?_⟩
  unfold State.NamedBySafing State.InWindow
  decide +kernel

/-- Words 16 and 19 are the first and the last of window 3, the last its seal word; every state of its domain. -/
theorem test_meets_AccessesAreClassified_staged : running.InWindow 3 16 ∧ running.InWindow 3 19 ∧
    (running.window 3).kind = .staged ∧ (running.domain 0).cfg.writer ≠ .b ∧ (running.domain 0).cfg.writer = .a ∧
    (running.window 3).sealOffset = some 3 ∧ (19 : Addr).toNat = (running.window 3).base.toNat + (3 : Byte).toNat ∧
    (tables.domain 0).state = .disabled ∧ (running.domain 0).state = .run ∧
    ∀ st ∈ [DomainState.stopping, .safing, .safed],
      let s := onDomain 0 (fun x => { x with state := st }) tables
      (s.domain 0).state = st ∧ (∀ d, ¬ s.NamedBySafing d 16) ∧ s.InWindow 3 16 := by
  unfold State.NamedBySafing State.InWindow
  decide +kernel

theorem test_meets_AccessesAreClassified_snapshot : tables.WindowsApart ∧ (∀ d, ¬ tables.NamedBySafing d 33) ∧
    tables.InWindow 4 32 ∧ tables.InWindow 4 33 ∧ (tables.window 4).kind = .snapshot ∧ (tables.window 4).writer = .a ∧
    (32 : Addr) = (tables.window 4).base ∧ (33 : Addr) ≠ (tables.window 4).base ∧
    (∃ c copy phase, (capturing [] .read).context .b c = .capturing 4 copy phase) ∧
    (∀ c copy phase, tables.context .b c ≠ .capturing 4 copy phase) ∧
    (∀ c copy t0, tables.context .b c ≠ .held 4 copy t0) ∧
    (holding.context .b 0 = .held 4 [7, 8] 0 ∧ ∀ e : ContextId, e < 0 → ∀ l u, holding.context .b e ≠ .held 4 l u) := by
  refine ⟨tables_apart, ?_, ?_, ?_, by decide +kernel, by decide +kernel, by decide +kernel, by decide +kernel,
    ⟨0, [], .read, rfl⟩, fun c => not_capturing (by revert c; decide +kernel) 4,
    fun c => not_held (by revert c; decide +kernel) 4, rfl, fun e he => absurd he (by revert e; decide)⟩
  · unfold State.NamedBySafing
    decide +kernel
  all_goals
    unfold State.InWindow
    decide +kernel

/-- Port B's read of word 18 while a batch commits, with and without an OPEN batch beside it. -/
theorem test_meets_ForeignReadSeesNoStagedBytes :
    let g : State → State := fun s =>
      granted (.port .b) (.read 18) (withTxn .b { phase := .memory, access := .read 18 } s)
    let s := g (withBatch 0 2 .opened none 6 18 0x77 0xF committing)
    let t := g committing
    s.mport = some ⟨.port .b, .read 18⟩ ∧ t.mport = some ⟨.port .b, .read 18⟩ ∧ s.WindowsApart ∧ s.InWindow 3 18 ∧
    (s.window 3).kind = .staged ∧ (s.window 3).domain = 0 ∧ (s.domain 0).cfg.writer ≠ .b ∧
    (t.domain 0).cfg.writer = (s.domain 0).cfg.writer ∧ t.windows = s.windows ∧ t.safe = s.safe ∧ t.mem = s.mem ∧
    (∀ e, (t.domain e).state = (s.domain e).state) ∧
    (∀ k, (s.slot 0 k).state = .committing ∨ (t.slot 0 k).state = .committing →
      t.slot 0 k = s.slot 0 k ∧ ∀ j ∈ (s.slot 0 k).entries, t.entries[j] = s.entries[j]) := by
  refine ⟨rfl, rfl, apart_of_ranges (by decide +kernel), ?_⟩
  unfold State.InWindow
  decide +kernel

/-- Word 18 is staged in the SEALED batch of slot 1, word 17 in none of its domain's batches. -/
theorem test_meets_WriterReadsItsNewestBytes : sealed.WindowsApart ∧ sealed.InWindow 3 18 ∧ sealed.InWindow 3 17 ∧
    (sealed.window 3).kind = .staged ∧ (sealed.window 3).domain = 0 ∧ (sealed.domain 0).cfg.writer = .a ∧
    (sealed.domain 0).state = .run ∧ (∀ e, ¬ sealed.NamedBySafing e 18) ∧ (∀ e, ¬ sealed.NamedBySafing e 17) ∧
    sealed.slotsIn 0 .committing ++ sealed.sealedOldestFirst 0 ++ sealed.slotsIn 0 .opened = [] ++ 1 :: [] ∧
    (sealed.entryFor 0 1 18 = some 1 ∧ sealed.entries[(1 : EntryId)] =
      some { addr := 18, data := 0x22, lanes := 0xF, domain := 0, slot := 1, position := 0 }) ∧
    (∀ k, sealed.entryFor 0 k 17 = none) := by
  refine ⟨apart_of_ranges (by decide +kernel), ?_⟩
  unfold State.InWindow State.NamedBySafing
  decide +kernel

theorem test_meets_SafeOverlayComesLast :
    let gives : SafeId → Prop := fun j => (filling.safeEntry j).enabled = true ∧ (filling.safeEntry j).addr = 17 ∧
      (filling.domain (filling.safeEntry j).domain).state = .safing ∧
      (filling.safeEntry j).lanes.getLsbD (0 : Fin 4).val = true
    gives 5 ∧ ∀ j, 5 < j → ¬ gives j := by decide +kernel

theorem test_meets_ZeroLaneWriteAnsweredAtOnce :
    State.reset.resetLow = false ∧ (State.reset.port .b).txn.phase = .idle := by decide +kernel

theorem test_meets_ClassifiedAccessRequestsWaitsOrIsRefused :
    (tables.resetLow = false ∧ (tables.port .a).txn.phase = .idle ∧ tables.classifyRead .a 100 = .memory ∧
      tables.classifyWrite .a 100 = .plain) ∧ (1 : Lanes) ≠ 0 ∧
    (let s := capturing [] .read
     s.resetLow = false ∧ (s.port .a).txn.phase = .idle ∧ 0 < s.stallLimit.toNat ∧
      s.classifyWrite .a 32 = .hold .capture) ∧
    (running.resetLow = false ∧ (running.port .b).txn.phase = .idle ∧ running.classifyWrite .b 17 = .foreignWrite 3) ∧
    (filling.resetLow = false ∧ (filling.port .a).txn.phase = .idle ∧ filling.classifyWrite .a 17 = .faultLock 0) := by
  decide +kernel

/-- A held write of word 17 whose domain is DISABLED, STOPPING, in RUN, under another writer port and in SAFING. -/
theorem test_meets_ClassifiedAccessRequestsWaitsOrIsRefused_released :
    let held (f : Domain → Domain) : State := heldA .stopping (onDomain 0 f tables)
    (∀ f : Domain → Domain, ((held f).port .a).txn =
      { phase := .held, access := .write 17 1 0x99, cause := some .stopping, startTick := some 0 }) ∧
    (held id).classifyWrite .a 17 = .plain ∧
    ((held fun x => { x with state := .stopping }).classifyWrite .a 17 = .hold .stopping ∧
      ((held id).tick - 0).toNat < (held id).stallLimit.toNat) ∧
    (held fun x => { x with state := .run, cfg := { x.cfg with writer := .b } }).classifyWrite .a 17 = .foreignWrite 3 ∧
    (held fun x => { x with state := .safing }).classifyWrite .a 17 = .faultLock 0 ∧
    (let s := held fun x => { x with state := .run }
     s.classifyWrite .a 17 = .stage 0 false ∧ s.resetLow = false ∧ (1 : Lanes) ≠ 0 ∧
      (∀ j k, (s.slot 0 j).state = .opened → (s.slot 0 k).state = .opened → j = k) ∧
      (∃ i : EntryId, s.entries[i] = none) ∧ ∃ k, (s.slot 0 k).state = .free) ∧
    ∀ policy ∈ [ExhaustionPolicy.refuse, .stall],
      let s := held fun x => { x with
        state := .run, cfg := { x.cfg with exhaustion := policy }
        slots := Vector.replicate 4 { state := .sealed, entries := [], rank := some 1 } }
      s.classifyWrite .a 17 = .stage 0 false ∧ (s.domain 0).cfg.exhaustion = policy ∧
        ∀ k, (s.slot 0 k).state ≠ .opened ∧ (s.slot 0 k).state ≠ .free := by
  refine ⟨fun _ => rfl, ?_⟩
  decide +kernel

/-- A merge at a word that does not seal, and one at the seal word. -/
theorem test_meets_StagedWriteMerges :
    let meets (s : State) (a : Addr) (seals : Bool) (e : StagingEntry) : Prop :=
      s.resetLow = false ∧ (s.port .a).txn.phase = .idle ∧ (0xF : Lanes) ≠ 0 ∧ s.classifyWrite .a a = .stage 0 seals ∧
      (s.slot 0 0).state = .opened ∧ (∀ i, (s.slot 0 i).state = .opened → i = 0) ∧ (0 : EntryId) ∈ (s.slot 0 0).entries ∧
      s.entries[(0 : EntryId)] = some e ∧ e.addr = a ∧ (∀ i ∈ (s.slot 0 0).entries, i = 0)
    meets opened 17 false { addr := 17, data := 0x11, lanes := 1, domain := 0, slot := 0, position := 0 } ∧
    meets (withBatch 0 0 .opened none 0 19 0x11 1 running) 19 true
      { addr := 19, data := 0x11, lanes := 1, domain := 0, slot := 0, position := 0 } := by
  decide +kernel

/-- A new word of the OPEN batch, and the first word of a new batch at the seal word. -/
theorem test_meets_StagedWriteTakesANewEntry :
    (opened.resetLow = false ∧ (opened.port .a).txn.phase = .idle ∧ opened.classifyWrite .a 18 = .stage 0 false ∧
      opened.entries[(1 : EntryId)] = none ∧ (∀ i : EntryId, i < 1 → opened.entries[i] ≠ none) ∧
      (opened.slot 0 0).state = .opened ∧ (∀ i, (opened.slot 0 i).state = .opened → i = 0) ∧
      (∀ i ∈ (opened.slot 0 0).entries, i = 0) ∧
      opened.entries[(0 : EntryId)] =
        some { addr := 17, data := 0x11, lanes := 1, domain := 0, slot := 0, position := 0 }) ∧
    (running.resetLow = false ∧ (running.port .a).txn.phase = .idle ∧ running.classifyWrite .a 19 = .stage 0 true ∧
      running.entries[(0 : EntryId)] = none ∧ (∀ i : EntryId, i < 0 → running.entries[i] ≠ none) ∧
      (∀ i, (running.slot 0 i).state ≠ .opened) ∧ (running.slot 0 0).state = .free ∧
      (∀ i, i < 0 → (running.slot 0 i).state ≠ .free)) := by decide +kernel

/-- A pool with no FREE entry, and a domain whose four slots are SEALED, under each policy. -/
theorem test_meets_StagedWriteWithoutRoom :
    (let e : StagingEntry := { addr := 99, data := 0, lanes := 1, domain := 1, slot := 0, position := 0 }
     let s := { running with entries := Vector.replicate 64 (some e) }
     s.resetLow = false ∧ (s.port .a).txn.phase = .idle ∧ 0 < s.stallLimit.toNat ∧
      s.classifyWrite .a 17 = .stage 0 false ∧ (∀ k, (s.slot 0 k).state ≠ .opened) ∧ (∀ i : EntryId, s.entries[i] ≠ none) ∧
      (s.domain 0).cfg.exhaustion = .stall) ∧
    (let s := onDomain 0 (fun x => { x with
        cfg := { x.cfg with exhaustion := .refuse }
        slots := Vector.replicate 4 { state := .sealed, entries := [], rank := some 1 } }) running
     s.classifyWrite .a 19 = .stage 0 true ∧ (∀ k, (s.slot 0 k).state ≠ .opened ∧ (s.slot 0 k).state ≠ .free) ∧
      (s.domain 0).cfg.exhaustion = .refuse) ∧
    (waitingWrite.port .a).txn.access = .write 19 1 0x99 := by decide +kernel

/-- A waiter whose word the OPEN batch holds, one with a free slot and one with neither entry nor slot. -/
theorem test_meets_StagedWriteWithoutRoom_waiter :
    (let s := waitingFor0 (withBatch 0 0 .opened none 0 19 0x11 1 running)
     (s.slot 0 0).state = .opened ∧ (∀ i, (s.slot 0 i).state = .opened → i = 0) ∧ (0 : EntryId) ∈ (s.slot 0 0).entries ∧
      s.entries[(0 : EntryId)] = some { addr := 19, data := 0x11, lanes := 1, domain := 0, slot := 0, position := 0 } ∧
      ∀ i ∈ (s.slot 0 0).entries, i = 0) ∧
    (let s := waitingFor0 opened
     s.entries[(1 : EntryId)] = none ∧ (∀ i : EntryId, i < 1 → s.entries[i] ≠ none) ∧ (s.slot 0 0).state = .opened ∧
      (∀ i, (s.slot 0 i).state = .opened → i = 0) ∧ (∀ i ∈ (s.slot 0 0).entries, i = 0) ∧
      s.entries[(0 : EntryId)] = some { addr := 17, data := 0x11, lanes := 1, domain := 0, slot := 0, position := 0 }) ∧
    (let s := waitingFor0 running
     s.entries[(0 : EntryId)] = none ∧ (∀ i, (s.slot 0 i).state ≠ .opened) ∧ (s.slot 0 0).state = .free) ∧
    (let s := waitingFor0 (onDomain 0 (fun x => { x with
        slots := Vector.replicate 4 { state := .sealed, entries := [], rank := some 1 } }) running)
     ∀ k, (s.slot 0 k).state ≠ .opened ∧ (s.slot 0 k).state ≠ .free) := by decide +kernel

theorem test_meets_SnapshotReadServed : holding.resetLow = false ∧ (holding.port .b).txn.phase = .idle ∧
    holding.classifyRead .b 33 = .serve 4 0 ∧ holding.context .b 0 = .held 4 [7, 8] 0 := by decide +kernel

/-- Port B reads the lead word with a copy of the window held, with IDLE contexts, and with both held for others. -/
theorem test_meets_LeadWordReadBeginsCapture :
    (holding.resetLow = false ∧ (holding.port .b).txn.phase = .idle ∧ (holding.window 4).writer = Port.b.other ∧
      holding.classifyRead .b 32 = .capture 4 ∧ holding.context .b 0 = .held 4 [7, 8] 0 ∧ holding.context .b 1 = .idle) ∧
    (tables.classifyRead .b 32 = .capture 4 ∧ (∀ c, tables.context .b c = .idle)) ∧
    (let s := (tables.setContext .b 0 (.held 6 [1, 2] 0)).setContext .b 1 (.held 7 [3, 4] 0)
     s.resetLow = false ∧ (s.port .b).txn.phase = .idle ∧ s.classifyRead .b 32 = .capture 4 ∧ 0 = (s.port .b).lru ∧
      s.context .b 0 = .held 6 [1, 2] 0 ∧ s.context .b 1 = .held 7 [3, 4] 0 ∧ (6 : WindowId) ≠ 4 ∧ (7 : WindowId) ≠ 4) := by
  decide +kernel

theorem test_meets_PortWriteCompletes : portWriting.mport = some ⟨.port .a, .write 100 3 0xABCD⟩ ∧
    Memory.wf portWriting.mem = true := by decide +kernel

theorem test_meets_PortReadCompletes : (portReading 17 opened).mport = some ⟨.port .a, .read 17⟩ := rfl

/-- Word 100 is in no window, word 32 in the SNAPSHOT window, words 17 and 18 in the STAGED window of domain 0. -/
theorem test_meets_PortReadCompletes_values : committing.WindowsApart ∧
    (∀ i, ¬ committing.InWindow i 100) ∧ (committing.InWindow 4 32 ∧ (committing.window 4).kind = .snapshot) ∧
    (committing.InWindow 3 17 ∧ committing.InWindow 3 18 ∧ (committing.window 3).kind = .staged ∧
      (committing.window 3).domain = 0) ∧
    (tables.domain 0).state = .disabled ∧
    ((committing.domain 0).state = .run ∧ (committing.domain 0).cfg.writer ≠ .b) ∧
    (∀ j, (committing.safeEntry j).enabled = false) ∧
    ((committing.slot 0 1).state = .committing ∧ (∀ j, (committing.slot 0 j).state = .committing → j = 1) ∧
      (1 : EntryId) ∈ (committing.slot 0 1).entries ∧ (∀ i ∈ (committing.slot 0 1).entries, i = 1) ∧
      committing.entries[(1 : EntryId)] =
        some { addr := 18, data := 0x22, lanes := 0xF, domain := 0, slot := 1, position := 0 }) ∧
    -- in SAFING, a lane that the safe entry of word 17 does not name, with and without a commit in flight
    (filling.WindowsApart ∧ (filling.domain 0).state = .safing ∧ filling.InWindow 3 17 ∧
      (∀ j, (filling.safeEntry j).enabled = true → (filling.safeEntry j).lanes.getLsbD (2 : Fin 4).val = false) ∧
      ∀ k, (filling.slot 0 k).state ≠ .committing) ∧
    (let s := onDomain 0 (fun x => { x with state := .safing }) committing
     (s.domain 0).state = .safing ∧ (s.slot 0 1).state = .committing) := by
  refine ⟨apart_of_ranges (by decide +kernel), ?_, ?_, ?_, by decide +kernel, by decide +kernel, by decide +kernel,
    by decide +kernel, ⟨apart_of_ranges (by decide +kernel), ?_⟩, by decide +kernel⟩
  all_goals
    unfold State.InWindow
    decide +kernel

/-- A held write at the limit of 100 ticks, and a copy at its window's limit of 5. -/
theorem test_meets_ExpiriesEndHoldsAndCopies :
    (let s := heldA .capture { running with tick := 100 }
     (s.port .a).txn.phase = .held ∧ (s.port .a).txn.startTick = some 0 ∧ s.stallLimit.toNat ≤ (s.tick - 0).toNat) ∧
    (let s := { holding with tick := 5 }
     s.context .b 0 = .held 4 [7, 8] 0 ∧ (s.window 4).holdLimit ≠ 0 ∧
      (s.window 4).holdLimit.toNat ≤ (s.tick - 0).toNat) ∧
    (let s := heldA .safeFill (onDomain 0 (fun x => { x with state := .stopping }) { tables with tick := 100 })
     (s.port .a).txn.startTick = some 0 ∧ s.stallLimit.toNat ≤ (s.tick - 0).toNat ∧
      s.classifyWrite .a (accessAddr (s.port .a).txn.access) = .hold .stopping) := by decide +kernel

theorem test_meets_CommitWritesEntryAfterEntry :
    ((committing.domain 0).commit.phase = .entryRequest ∧
      (committing.slot 0 (committing.domain 0).commit.slot).entries[(committing.domain 0).commit.next]? = some 1 ∧
      (committing.entries[(1 : EntryId)]).isSome = true) ∧
    (let s := onDomain 0 (fun x => { x with
        cfg := bound, commitNumber := 0xFFFF, commit := { x.commit with phase := .sequenceRequest } }) committing
     (s.domain 0).commit.phase = .sequenceRequest ∧ (s.domain 0).cfg.sequenceWord = some 1000) ∧
    (commitWriting.mport = some ⟨.commit 0, .write 18 0xF 0x22⟩ ∧ (commitWriting.domain 0).commit.phase = .entryWrite) ∧
    (let s := onDomain 0 (fun x => { x with commit := { x.commit with entryCount := 2 } }) commitWriting
     (s.domain 0).commit.next + 1 < (s.domain 0).commit.entryCount) ∧
    (let s := onDomain 0 (fun x => { x with cfg := bound }) commitWriting
     (s.domain 0).commit.entryCount ≤ (s.domain 0).commit.next + 1 ∧ (s.domain 0).cfg.sequenceWord ≠ none ∧
      (s.domain 0).commit.next < 63) ∧
    (let s := onDomain 0 (fun x => { x with cfg := bound, commit := { x.commit with entryCount := 64, next := 63 } })
       commitWriting
     s.mport = some ⟨.commit 0, .write 18 0xF 0x22⟩ ∧ (s.domain 0).commit.phase = .entryWrite ∧
      (s.domain 0).commit.entryCount ≤ (s.domain 0).commit.next + 1 ∧ (s.domain 0).cfg.sequenceWord ≠ none ∧
      (s.domain 0).commit.next = 63) := by
  decide +kernel

/-- The last entry's write and the sequence word's, and in SAFING a lowest safe entry of the domain and none. -/
theorem test_meets_CommitCompletes :
    (commitWriting.mport = some ⟨.commit 0, .write 18 0xF 0x22⟩ ∧ (commitWriting.domain 0).commit.phase = .entryWrite ∧
      (commitWriting.domain 0).commit.entryCount ≤ (commitWriting.domain 0).commit.next + 1 ∧
      (commitWriting.domain 0).cfg.sequenceWord = none ∧ (commitWriting.domain 0).state = .run) ∧
    ∀ st ∈ [DomainState.stopping, .safing],
      let s := onDomain 0 (fun x => { x with state := st, commit := { x.commit with phase := .sequenceWrite } }) commitWriting
      s.mport = some ⟨.commit 0, .write 18 0xF 0x22⟩ ∧ (s.domain 0).commit.phase = .sequenceWrite ∧
        (s.domain 0).state = st ∧ (∀ j, ¬ ((s.safeEntry j).enabled = true ∧ (s.safeEntry j).domain = 0)) ∧
        let u := withSafe 31 { enabled := true, domain := 0, addr := 1100, data := 1, lanes := 1 } s
        (u.safeEntry 31).enabled = true ∧ (u.safeEntry 31).domain = 0 ∧
          ∀ i, i < 31 → ¬ ((u.safeEntry i).enabled = true ∧ (u.safeEntry i).domain = 0) := by decide +kernel

theorem test_meets_StopContinuesOrEnds : sealed.WindowsApart ∧ sealed.IsOldestSealed 0 1 ∧ running.WindowsApart ∧
    (∀ k, (running.slot 0 k).state ≠ .sealed) ∧
    (let s := heldA .stopping (onDomain 0 (fun x => { x with state := .stopping }) tables)
     (s.port .a).txn.phase = .held ∧ (s.port .a).txn.cause = some .stopping ∧
      s.InWindow 3 (accessAddr (s.port .a).txn.access) ∧ (s.window 3).kind = .staged ∧ (s.window 3).domain = 0) := by
  refine ⟨apart_of_ranges (by decide +kernel), ?_, running_apart, ?_⟩
  · unfold State.IsOldestSealed
    decide +kernel
  · unfold State.InWindow
    decide +kernel

/-- A fill before its last entry, at its last entry, and with a write of Port B held for it. -/
theorem test_meets_FillWritesEntryAfterEntry :
    (let s := onDomain 0 (fun x => { x with fill := { x.fill with phase := .fillRequest } }) filling
     (s.domain 0).fill.phase = .fillRequest) ∧
    (filling.mport = some ⟨.fill 0, .write 17 1 0x55⟩ ∧ (filling.domain 0).fill.phase = .fillWrite ∧
      ∀ j, (filling.domain 0).fill.next < j → ¬ ((filling.safeEntry j).enabled = true ∧ (filling.safeEntry j).domain = 0)) ∧
    (let s := withSafe 31 { enabled := true, domain := 0, addr := 1100, data := 1, lanes := 1 } filling
     (s.domain 0).fill.next < 31 ∧ (s.safeEntry 31).enabled = true ∧ (s.safeEntry 31).domain = 0 ∧
      ∀ i, (s.domain 0).fill.next < i → i < 31 → ¬ ((s.safeEntry i).enabled = true ∧ (s.safeEntry i).domain = 0)) ∧
    (let s := withTxn .b { phase := .held, access := .write 17 1 0x99, cause := some .safeFill, startTick := some 0 } filling
     (s.port .b).txn.phase = .held ∧ (s.port .b).txn.cause = some .safeFill ∧
      (s.safeEntry 5).addr = accessAddr (s.port .b).txn.access) := by decide +kernel

/-- A read whose capture a soft reset ended, without and with a new capture of the port, a read before the last word, the
last read, and a write held for it. -/
theorem test_meets_CaptureReadsWordAfterWord :
    (let s := granted (.capture .b) (.read 32) tables
     s.mport = some ⟨.capture .b, .read 32⟩ ∧ ∀ c w copy phase, s.context .b c ≠ .capturing w copy phase) ∧
    (let s := granted (.capture .b) (.read 32) (capturing [] .readRequest)
     s.mport = some ⟨.capture .b, .read 32⟩ ∧ s.context .b 0 = .capturing 4 [] .readRequest ∧
       ∀ c w copy, s.context .b c ≠ .capturing w copy .read) ∧
    (∀ copy ∈ [([] : List Word), [7]],
      let s := granted (.capture .b) (.read 33) (capturing copy .read)
      s.mport = some ⟨.capture .b, .read 33⟩ ∧ s.context .b 0 = .capturing 4 copy .read ∧ s.context .b 1 = .idle ∧
        (s.window 4).writer = Port.b.other) ∧
    ((capturing [] .readRequest).context .b 0 = .capturing 4 [] .readRequest ∧
      (capturing [] .readRequest).context .b 1 = .idle) ∧
    ([] : List Word).length + 1 < (tables.window 4).length.toNat ∧
    (tables.window 4).length.toNat ≤ [(7 : Word)].length + 1 ∧
    (let s := withTxn .a { phase := .held, access := .write 33 1 0x99, cause := some .capture, startTick := some 0 }
        (capturing [7] .read)
     (s.port .a).txn.phase = .held ∧ (s.port .a).txn.cause = some .capture ∧ s.InWindow 4 33) := by
  refine ⟨⟨rfl, fun c w => not_capturing (by revert c; decide +kernel) w⟩, ⟨rfl, rfl, fun c w copy h => ?_⟩, ?_⟩
  · match c with
    | 0 => cases h
    | 1 => cases h
  · unfold State.InWindow
    decide +kernel

theorem test_meets_TickCounts : running.resetLow = false ∧ (∀ p, running.stallDue p = false) ∧
    (∀ d, running.monitorDue d = false) ∧ (∀ p c, running.holdLimitDue p c = false) := by
  refine ⟨by decide +kernel, fun p => ?_, by decide +kernel, fun p => ?_⟩ <;> cases p <;> decide +kernel

theorem test_meets_SyncEventRecordsAndDecides : running.Listening ∧ sealed.Listening ∧ committing.Listening ∧
    3 < (4 : Byte).toNat ∧ (0 : Byte).toNat = (0 : DomainId).val ∧ (tables.domain 0).state ≠ .run ∧
    ((committing.domain 0).state = .run ∧ ∃ k, (committing.slot 0 k).state = .committing) ∧
    ((running.domain 0).state = .run ∧
      ∀ k, (running.slot 0 k).state ≠ .committing ∧ (running.slot 0 k).state ≠ .sealed) ∧
    ((sealed.domain 0).state = .run ∧ (∀ j, (sealed.slot 0 j).state ≠ .committing) ∧ sealed.IsOldestSealed 0 1) := by
  unfold State.Listening State.IsOldestSealed
  decide +kernel

/-- Domain 0 names SYNC2 rising and has a SEALED batch; SYNC3 is high and falls. -/
theorem test_meets_SyncEdgeReachesEveryNamingDomain :
    (let s := onDomain 0 (fun x => { x with cfg := bound }) sealed
     s.resetLow = false ∧ s.syncLevels[2] = false ∧ (s.domain 0).state = .run ∧ (s.domain 0).cfg.syncLine = some 2 ∧
      (s.domain 0).cfg.syncEdge = .rising ∧ (∀ j, (s.slot 0 j).state ≠ .committing) ∧ s.IsOldestSealed 0 1) ∧
    (let s := onDomain 0 (fun x => { x with cfg := bound }) committing
     (s.domain 0).state = .run ∧ (s.domain 0).cfg.syncLine = some 2 ∧ (s.domain 0).cfg.syncEdge = .rising ∧
      ∃ j, (s.slot 0 j).state = .committing) ∧
    (let s := after (.syncEdge 3 .rising) State.reset
     s.resetLow = false ∧ s.syncLevels[3] = true) := by
  unfold State.IsOldestSealed
  decide +kernel

/-- A monitor at its maximum interval, under each loss policy. -/
theorem test_meets_SyncMonitorExpires : ∀ policy ∈ [LossPolicy.hold, .commit, .safe],
    let f : Domain → Domain := fun x => { x with
      cfg := { x.cfg with maxInterval := 65535, lossPolicy := policy }, monitorCount := 65535 }
    (∀ s ∈ [onDomain 0 f running, onDomain 0 f sealed, onDomain 0 f committing],
      (s.domain 0).state = .run ∧ (s.domain 0).cfg.maxInterval ≠ 0 ∧ (s.domain 0).monitorPhase = .counting ∧
        (s.domain 0).monitorCount = (s.domain 0).cfg.maxInterval ∧ (s.domain 0).cfg.lossPolicy = policy) ∧
    (onDomain 0 f sealed).IsOldestSealed 0 1 ∧ ∃ k, ((onDomain 0 f committing).slot 0 k).state = .committing := by
  unfold State.IsOldestSealed
  decide +kernel

/-- Domain 0 with a commit in flight; domain 0 with an OPEN batch and no safe entry, and with one, and domain 1 DISABLED. -/
theorem test_meets_FaultAcceptanceLeavesNothingStaged : [(0 : DomainId), 1].Nodup ∧
    (committing.BatchLaw ∧ committing.WindowsApart ∧ (committing.domain 0).state = .run ∧
      (committing.domain 0).commit.phase ≠ .idle) ∧
    (opened.BatchLaw ∧ opened.WindowsApart ∧ (opened.domain 0).state = .run ∧ (opened.domain 1).state = .disabled ∧
      (opened.domain 0).commit.phase = .idle ∧ opened.fillOrder = [] ∧
      ∀ j, ¬ ((opened.safeEntry j).enabled = true ∧ (opened.safeEntry j).domain = 0)) ∧
    (let s := withSafe 5 { enabled := true, domain := 0, addr := 17, data := 0x55, lanes := 1 } opened
     s.BatchLaw ∧ s.WindowsApart ∧ (s.domain 0).state = .run ∧ (s.domain 0).commit.phase = .idle ∧
      (s.safeEntry 5).enabled = true ∧ (s.safeEntry 5).domain = 0 ∧
      ∀ i, i < 5 → ¬ ((s.safeEntry i).enabled = true ∧ (s.safeEntry i).domain = 0)) := by
  refine ⟨by decide, ⟨committing_batchLaw, apart_of_ranges (by decide +kernel), by decide +kernel⟩,
    ⟨opened_batchLaw, apart_of_ranges (by decide +kernel), by decide +kernel⟩, ?_, apart_of_ranges (by decide +kernel),
    by decide +kernel⟩
  exact { domains := opened_batchLaw.domains, waiters := opened_batchLaw.waiters
          waitersApart := opened_batchLaw.waitersApart, granted := opened_batchLaw.granted
          leadWait := opened_batchLaw.leadWait, oneCapture := opened_batchLaw.oneCapture }

/-- A waiter of the domain, a STOPPING hold of it, and a port that has neither; the events that end there. -/
theorem test_meets_FaultAcceptanceLeavesNothingStaged_ended :
    (waitingWrite.BatchLaw ∧ waitingWrite.WindowsApart ∧ (waitingWrite.domain 0).state = .run ∧
      waitingWrite.waiting.map (fun w => (w.domain, w.port)) = [(0, .a)]) ∧
    (let s := heldA .stopping (onDomain 0 (fun x => { x with state := .stopping }) tables)
     s.BatchLaw ∧ s.WindowsApart ∧ (s.domain 0).state = .stopping ∧ (s.domain 0).cfg.writer = .a ∧
      (s.port .a).txn.phase = .held ∧ (s.port .a).txn.cause = some .stopping ∧
      s.InWindow 3 (accessAddr (s.port .a).txn.access) ∧ (s.window 3).kind = .staged ∧ (s.window 3).domain = 0) ∧
    opened.WindowsApart ∧ opened.waiting = [] ∧ ∀ p, (opened.port p).txn.phase ≠ .held := by
  refine ⟨⟨waitingFor0_batchLaw _ (by simp), apart_of_ranges (by decide +kernel), by decide +kernel⟩, ⟨?_,
    apart_of_ranges (by decide +kernel), ?_⟩, apart_of_ranges (by decide +kernel), rfl, by intro p; cases p <;> decide +kernel⟩
  · exact batchLaw_of_quiet
      (fun d => batchLaw_of_parts (by revert d; decide +kernel) (by revert d; decide +kernel) (by revert d; decide +kernel)
        (by revert d; decide +kernel) (by revert d; decide +kernel))
      rfl (fun _ _ => nofun) (by decide +kernel)
  · unfold State.InWindow
    decide +kernel

/-- An edge that no domain takes, one that domains 0 and 1 take, and a release. -/
theorem test_meets_FaultEdgeReachesEveryBoundDomain :
    (running.resetLow = false ∧ running.faultLevels[(0 : FaultLine)] = true ∧
      ∀ d, (running.domain d).cfg.binding = .none) ∧
    (crowded.resetLow = false ∧ crowded.faultLevels[(0 : FaultLine)] = true ∧
      ∀ d ∈ [(0 : DomainId), 1], (crowded.domain d).cfg.binding = .fault0 ∧ (crowded.domain d).state = .run) ∧
    (let s := after (.faultEdge 1) running
     s.resetLow = false ∧ s.faultLevels[(1 : FaultLine)] = false) := by decide +kernel

end Sys2Proof.Tests
end

section
/-! SUPPORT. What every command makes of the state, in terms of the shared operations: one inversion of `exec`, from which
the laws that every step keeps are derived. -/

namespace Sys2Proof.Machine

/-! ### The inversion of exec -/

/-- What an accepted management command makes of the state its frame leaves (R165), its reply apart. -/
inductive Managed (c : Instr) (s t : State) : Prop where
  | same (h : t = s)
  | settings (g : GlobalPayload) (b : Bool) (hc : ∃ g n, c = .setGlobal g n) (h : t = s.setGlobals g b)
  | pop (q : List EventRecord) (h : t = s.setQueue q)
  | softReset (hc : ∃ n, c = .resetPart n) (h : t = s.softReset)
  | window (i : WindowId) (w : WindowPayload) (hc : ∃ b w n, c = .setWindow b w n)
      (hb : (s.captureAt .a i || s.captureAt .b i) = false) (ho : (w.stored.enabled && s.overlaps i w.stored) = false)
      (h : t = s.writeWindow i w.stored)
  | domain (d : DomainId) (x : DomainRecord) (hc : ∃ b r n, c = .setDomain b r n) (hd : (s.domain d).state = .disabled)
      (h : t = s.setDomain d { s.domain d with cfg := x })
  | start (d : DomainId) (hd : (s.domain d).state = .disabled) (h : t = s.setDomain d (s.domain d).started)
  | stop (d : DomainId) (hd : (s.domain d).state = .run) (h : t = (s.stopDomain d).arbitrate)
  | sealBatch (d : DomainId) (hd : (s.domain d).state = .run) (h : t = s.sealOpen d)
  | sync (d : DomainId) (h : t = (s.syncEvent d).arbitrate)
  | safe (i : SafeId) (x : SafeEntry) (hc : ∃ b e n, c = .setSafe b e n) (h : t = { s with safe := s.safe.set i x })
  | arm (d : DomainId) (hd : (s.domain d).state = .safed)
      (h : t = s.setDomain d { s.domain d with state := .disabled })

/-- What a command makes of the state: nothing, or the event it stands for, which can then arise. -/
inductive Move (c : Instr) (s t : State) : Prop where
  | idle (h : t = s)
  | accept (p : Port) (acc : Access) (hf : s.portFree p = true) (h : t = (s.accept p acc).takeAccess p acc)
  | portWrite (p : Port) (a : Addr) (m : Lanes) (x : Word) (hc : c = .portWriteComplete)
      (hg : s.mport = some ⟨.port p, .write a m x⟩)
      (h : t = (s.completeAccess ⟨.port p, .write a m x⟩).finishPortWrite p (.write a m x))
  | portRead (p : Port) (a : Addr) (r : Response) (hg : s.mport = some ⟨.port p, .read a⟩)
      (h : t = ((s.completeAccess ⟨.port p, .read a⟩).respond p r).arbitrate)
  | commitWrite (d : DomainId) (acc : Access) (hc : c = .commitWriteComplete) (hg : s.mport = some ⟨.commit d, acc⟩)
      (h : t = ((s.completeAccess ⟨.commit d, acc⟩).advanceCommit d).arbitrate)
  | sequenceWrite (d : DomainId) (acc : Access) (hc : c = .sequenceWriteComplete) (hg : s.mport = some ⟨.commit d, acc⟩)
      (h : t = ((s.completeAccess ⟨.commit d, acc⟩).completeCommit d).arbitrate)
  | fillWrite (d : DomainId) (acc : Access) (hc : c = .fillWriteComplete) (hg : s.mport = some ⟨.fill d, acc⟩)
      (hp : (s.domain d).fill.phase = .fillWrite) (h : t = ((s.completeAccess ⟨.fill d, acc⟩).advanceFill d).arbitrate)
  | captureRead (p : Port) (a : Addr) (x : Word) (hg : s.mport = some ⟨.capture p, .read a⟩)
      (h : t = ((s.completeAccess ⟨.capture p, .read a⟩).storeCapture p x).arbitrate)
  | stall (p : Port) (hd : s.stallDue p = true) (h : t = s.expireHeld p)
  | tick (hc : c = .tick) (hl : s.resetLow = false) (h : t = s.takeDue.advanceTick)
  | monitor (d : DomainId) (hd : s.monitorDue d = true) (h : t = (s.expireMonitor d).arbitrate)
  | holdLimit (p : Port) (e : ContextId) (hd : s.holdLimitDue p e = true) (h : t = s.expireContext p e)
  | syncEdge (l : SyncLine) (e : Edge) (hc : c = .syncEdge l e) (hl : s.resetLow = false)
      (h : t = (s.takeSyncEdge l e).arbitrate)
  | faultEdge (l : FaultLine) (hc : c = .faultEdge l) (hl : s.resetLow = false) (h : t = (s.takeFaultEdge l).arbitrate)
  | faultRelease (l : FaultLine) (hc : c = .faultLineRelease l) (hl : s.resetLow = false)
      (h : t = { s with faultLevels := s.faultLevels.set l true })
  | fall (hc : c = .resetFall) (hl : s.resetLow = false) (h : t = s.abandonAccess.powerOn)
  | rise (v : Vector Bool 4) (w : Vector Bool 2) (b : Bool) (hc : c = .resetRise v w b) (hl : s.resetLow = true)
      (h : t = s.rise v w b)
  | ignored (hl : s.resetLow = false) (h : t = { s with receiver := .idle })
  | frame (n : Nat) (u : State) (r : Option Reply) (hl : s.resetLow = false) (hu : Managed c (s.shiftFrame n) u)
      (h : t = { u with reply := r })

theorem frameTaken_high {s : State} (h : s.frameTaken = true) : s.resetLow = false := by
  simp only [State.frameTaken, Bool.and_eq_true, Bool.not_eq_true'] at h; exact h.1

theorem portFree_iff {s : State} {p : Port} :
    s.portFree p = true ↔ s.resetLow = false ∧ (s.port p).txn.phase = .idle := by
  simp only [State.portFree, Bool.and_eq_true, Bool.not_eq_true', decide_eq_true_eq]

/-- A frame's move is that of the command it carries out. -/
theorem move_carryOut {c : Instr} (s : State) (n : Nat) (f : State → State × Reply) (hf : ∀ u, Managed c u (f u).1) :
    Move c s (s.carryOut n f) := by
  unfold State.carryOut; split
  · exact .frame n _ (some (f (s.shiftFrame n)).2) (frameTaken_high ‹_›) (hf _) rfl
  · exact .idle rfl

theorem managed_onDomain {c : Instr} (s : State) (b : Byte) (f : DomainId → State × Reply)
    (hf : ∀ d, Managed c s (f d).1) : Managed c s (s.onDomain b f).1 := by
  unfold State.onDomain; split
  · exact .same rfl
  · exact hf _

theorem managed_doSetGlobal (s : State) (g : GlobalPayload) (n : Nat) : Managed (.setGlobal g n) s (s.doSetGlobal g).1 := by
  unfold State.doSetGlobal; split
  · exact .same rfl
  · rename_i b _
    split
    · exact .same rfl
    · exact .settings g b ⟨g, n, rfl⟩ rfl

theorem managed_doPopEvent {c : Instr} (s : State) : Managed c s s.doPopEvent.1 := by
  unfold State.doPopEvent; split
  · exact .same rfl
  · exact .pop _ rfl

theorem managed_doResetPart (s : State) (n : Nat) : Managed (.resetPart n) s s.doResetPart.1 := by
  unfold State.doResetPart; split
  · exact .same rfl
  · exact .softReset ⟨n, rfl⟩ rfl

theorem managed_doSetWindow (s : State) (b : Byte) (w : WindowPayload) (n : Nat) :
    Managed (.setWindow b w n) s (s.doSetWindow b w).1 := by
  unfold State.doSetWindow; split
  · exact .same rfl
  · rename_i i _
    split
    · exact .same rfl
    · split
      · exact .same rfl
      · split
        · exact .same rfl
        · split
          · exact .same rfl
          · rename_i hb ho
            exact .window i w ⟨b, w, n, rfl⟩ (Bool.eq_false_iff.mpr hb) (Bool.eq_false_iff.mpr ho) rfl

theorem managed_doSetDomain (s : State) (b : Byte) (r : DomainPayload) (n : Nat) (d : DomainId) :
    Managed (.setDomain b r n) s (s.doSetDomain r d).1 := by
  unfold State.doSetDomain; split
  · exact .same rfl
  · split
    · rename_i x _ hd; exact .domain d x ⟨b, r, n, rfl⟩ hd rfl
    · exact .same rfl

theorem managed_doStart {c : Instr} (s : State) (d : DomainId) : Managed c s (s.doStart d).1 := by
  unfold State.doStart; split
  · exact .same rfl
  · rename_i hd
    split
    · exact .same rfl
    · split
      · exact .same rfl
      · exact .start d (not_not.1 hd) rfl

theorem managed_doStop {c : Instr} (s : State) (d : DomainId) : Managed c s (s.doStop d).1 := by
  have h : (s.domain d).state = .run → Managed c s ((s.stopDomain d).arbitrate) := fun hd => .stop d hd rfl
  unfold State.doStop
  generalize (s.stopDomain d).arbitrate = u at h
  cases hs : (s.domain d).state with
  | run => exact h hs
  | stopping => exact .same rfl
  | disabled => exact .same rfl
  | safing => exact .same rfl
  | safed => exact .same rfl

theorem managed_doSeal {c : Instr} (s : State) (d : DomainId) : Managed c s (s.doSeal d).1 := by
  unfold State.doSeal; split
  · rename_i hd
    split
    · exact .same rfl
    · exact .sealBatch d hd rfl
  · exact .same rfl

theorem managed_doSync {c : Instr} (s : State) (d : DomainId) : Managed c s (s.doSync d).1 := by
  unfold State.doSync; split
  · exact .sync d rfl
  · exact .same rfl

theorem managed_doArm {c : Instr} (s : State) (d : DomainId) : Managed c s (s.doArm d).1 := by
  unfold State.doArm; split
  · exact .same rfl
  · rename_i hd
    split
    · exact .same rfl
    · exact .arm d (not_not.1 hd) rfl

theorem managed_doSetSafe (s : State) (b : Byte) (e : SafePayload) (n : Nat) :
    Managed (.setSafe b e n) s (s.doSetSafe b e).1 := by
  unfold State.doSetSafe; split
  · exact .same rfl
  · rename_i i _
    split
    · exact .same rfl
    · rename_i x _
      split
      · exact .same rfl
      · exact .safe i x ⟨b, e, n, rfl⟩ rfl

theorem managed_doGetWindow {c : Instr} (s : State) (b : Byte) : Managed c s (s.doGetWindow b).1 :=
  .same (by unfold State.doGetWindow; split <;> rfl)

theorem managed_doGetSafe {c : Instr} (s : State) (b : Byte) : Managed c s (s.doGetSafe b).1 :=
  .same (by unfold State.doGetSafe; split <;> rfl)

theorem managed_doGetBatch {c : Instr} (s : State) (b k : Byte) : Managed c s (s.doGetBatch b k).1 :=
  .same (by unfold State.doGetBatch; split <;> rfl)

theorem managed_doPeekStaging {c : Instr} (s : State) (b : Byte) : Managed c s (s.doPeekStaging b).1 :=
  .same (by unfold State.doPeekStaging; split <;> rfl)

/-- Every command answers a next state, and its move is one of the above. -/
theorem exec_move (c : Instr) (s : State) : ∃ t, exec c s = .next t ∧ Move c s t := by
  cases c with
  | transactionAccept p acc =>
    refine ⟨_, rfl, ?_⟩
    split
    · exact .accept p acc ‹_› rfl
    · exact .idle rfl
  | portWriteComplete =>
    refine ⟨_, rfl, ?_⟩
    split
    · exact .portWrite _ _ _ _ rfl ‹_› rfl
    · exact .idle rfl
  | portReadComplete =>
    refine ⟨_, rfl, ?_⟩
    split
    · exact .portRead _ _ _ ‹_› rfl
    · exact .idle rfl
  | commitWriteComplete =>
    refine ⟨_, rfl, ?_⟩
    split
    · split
      · exact .commitWrite _ _ rfl ‹_› rfl
      · exact .idle rfl
    · exact .idle rfl
  | sequenceWriteComplete =>
    refine ⟨_, rfl, ?_⟩
    split
    · split
      · exact .sequenceWrite _ _ rfl ‹_› rfl
      · exact .idle rfl
    · exact .idle rfl
  | fillWriteComplete =>
    refine ⟨_, rfl, ?_⟩
    split
    · split
      · exact .fillWrite _ _ rfl ‹_› ‹_› rfl
      · exact .idle rfl
    · exact .idle rfl
  | captureReadComplete =>
    refine ⟨_, rfl, ?_⟩
    split
    · exact .captureRead _ _ _ ‹_› rfl
    · exact .idle rfl
  | stallTimeout p =>
    refine ⟨_, rfl, ?_⟩
    split
    · exact .stall p ‹_› rfl
    · exact .idle rfl
  | tick =>
    refine ⟨_, rfl, ?_⟩
    split
    · exact .idle rfl
    · rename_i h; exact .tick rfl (by simpa using h) rfl
  | syncMonitorExpiry d =>
    refine ⟨_, rfl, ?_⟩
    split
    · exact .monitor d ‹_› rfl
    · exact .idle rfl
  | holdLimitExpiry p e =>
    refine ⟨_, rfl, ?_⟩
    split
    · exact .holdLimit p e ‹_› rfl
    · exact .idle rfl
  | syncEdge l e =>
    refine ⟨_, rfl, ?_⟩
    split
    · rename_i h
      simp only [State.syncEdgeOccurs, Bool.and_eq_true, Bool.not_eq_true'] at h
      exact .syncEdge l e rfl h.1 rfl
    · exact .idle rfl
  | faultEdge l =>
    refine ⟨_, rfl, ?_⟩
    split
    · rename_i h
      simp only [Bool.and_eq_true, Bool.not_eq_true'] at h
      exact .faultEdge l rfl h.1 rfl
    · exact .idle rfl
  | faultLineRelease l =>
    refine ⟨_, rfl, ?_⟩
    split
    · rename_i h
      simp only [Bool.and_eq_true, Bool.not_eq_true'] at h
      exact .faultRelease l rfl h.1 rfl
    · exact .idle rfl
  | resetFall =>
    refine ⟨_, rfl, ?_⟩
    split
    · exact .idle rfl
    · rename_i h; exact .fall rfl (by simpa using h) rfl
  | resetRise v w b =>
    refine ⟨_, rfl, ?_⟩
    split
    · exact .rise v w b rfl ‹_› rfl
    · exact .idle rfl
  | ignoredFrameEnd =>
    refine ⟨_, rfl, ?_⟩
    split
    · rename_i h
      simp only [Bool.and_eq_true, Bool.not_eq_true'] at h
      exact .ignored h.1 rfl
    · exact .idle rfl
  | emptyFrame r =>
    refine ⟨_, rfl, ?_⟩
    split
    · exact .frame r.val _ s.reply (frameTaken_high ‹_›) (.same rfl) rfl
    · exact .idle rfl
  | unknownCommand f r =>
    refine ⟨_, rfl, ?_⟩
    split
    · exact move_carryOut s _ _ fun _ => .same rfl
    · exact .idle rfl
  | shortFrame f r =>
    refine ⟨_, rfl, ?_⟩
    split
    · exact move_carryOut s _ _ fun _ => .same rfl
    · exact .idle rfl
  | badCheck f r =>
    refine ⟨_, rfl, ?_⟩
    split
    · exact move_carryOut s _ _ fun _ => .same rfl
    · exact .idle rfl
  | nop n => exact ⟨_, rfl, move_carryOut s _ _ fun _ => .same rfl⟩
  | getGlobal n => exact ⟨_, rfl, move_carryOut s _ _ fun _ => .same rfl⟩
  | setGlobal g n => exact ⟨_, rfl, move_carryOut s _ _ fun u => managed_doSetGlobal u g n⟩
  | popEvent n => exact ⟨_, rfl, move_carryOut s _ _ fun u => managed_doPopEvent u⟩
  | resetPart n => exact ⟨_, rfl, move_carryOut s _ _ fun u => managed_doResetPart u n⟩
  | getWindow i n => exact ⟨_, rfl, move_carryOut s _ _ fun u => managed_doGetWindow u i⟩
  | setWindow i w n => exact ⟨_, rfl, move_carryOut s _ _ fun u => managed_doSetWindow u i w n⟩
  | getDomain d n => exact ⟨_, rfl, move_carryOut s _ _ fun u => managed_onDomain u d _ fun _ => .same rfl⟩
  | setDomain d r n => exact ⟨_, rfl, move_carryOut s _ _ fun u => managed_onDomain u d _ (managed_doSetDomain u d r n)⟩
  | start d n => exact ⟨_, rfl, move_carryOut s _ _ fun u => managed_onDomain u d _ (managed_doStart u)⟩
  | stop d n => exact ⟨_, rfl, move_carryOut s _ _ fun u => managed_onDomain u d _ (managed_doStop u)⟩
  | sealBatch d n => exact ⟨_, rfl, move_carryOut s _ _ fun u => managed_onDomain u d _ (managed_doSeal u)⟩
  | sync d n => exact ⟨_, rfl, move_carryOut s _ _ fun u => managed_onDomain u d _ (managed_doSync u)⟩
  | getSafe i n => exact ⟨_, rfl, move_carryOut s _ _ fun u => managed_doGetSafe u i⟩
  | setSafe i e n => exact ⟨_, rfl, move_carryOut s _ _ fun u => managed_doSetSafe u i e n⟩
  | arm d n => exact ⟨_, rfl, move_carryOut s _ _ fun u => managed_onDomain u d _ (managed_doArm u)⟩
  | getBatch d k n => exact ⟨_, rfl, move_carryOut s _ _ fun u => managed_doGetBatch u d k⟩
  | peekStaging i n => exact ⟨_, rfl, move_carryOut s _ _ fun u => managed_doPeekStaging u i⟩

/-- A command whose next state is `t` makes one of the moves. -/
theorem move_of_exec {c : Instr} {s t : State} (h : exec c s = .next t) : Move c s t := by
  obtain ⟨u, hu, hm⟩ := exec_move c s
  rw [hu] at h; cases h; exact hm

/-- A law that the queue of commands does not touch and every command keeps is kept by every step. -/
theorem step_keeps {P : State → Prop} (hp : ∀ s l, P s → P { s with pending := l })
    (hc : ∀ c s t, P s → exec c s = .next t → P t) {s t : State} (h : P s) (ht : step s = .next t) : P t := by
  unfold step at ht
  split at ht
  · cases ht; exact h
  · exact hc _ _ t (hp s _ h) ht

end Sys2Proof.Machine
end

section
/-! SUPPORT. Every move keeps Law 4 with what carries it, and Law 9 with what carries it (O32). -/

namespace Sys2Proof.Machine

/-! ### Law 4 through every move -/

theorem port_congr {s t : State} (ha : t.portA = s.portA) (hb : t.portB = s.portB) (p : Port) : t.port p = s.port p := by
  cases p
  · exact ha
  · exact hb

/-- Law 4 is about domains, waiting list, ports and the M-port's holder alone. -/
theorem batchLaw_congr {s t : State} (h : s.BatchLaw) (hd : t.domains = s.domains) (hw : t.waiting = s.waiting)
    (ha : t.portA = s.portA) (hb : t.portB = s.portB) (hm : t.mport = s.mport) : t.BatchLaw := by
  have dom : ∀ d, t.domain d = s.domain d := fun d => by simp [State.domain, hd]
  have port := port_congr ha hb
  have ctx : ∀ p c, t.context p c = s.context p c := fun p c => by simp [State.context, port]
  refine ⟨fun d => dom d ▸ h.domains d, fun w hwt => ?_, hw ▸ h.waitersApart, fun p acc hg => ?_, fun p c hc => ?_,
    fun p c e hc he => ?_⟩
  · rw [dom, port]; exact h.waiters w (hw ▸ hwt)
  · rw [port]; exact h.granted p acc (hm ▸ hg)
  · rw [port]; exact h.leadWait p c (ctx p c ▸ hc)
  · exact h.oneCapture p c e (ctx p c ▸ hc) (ctx p e ▸ he)

/-- A domain in a state without batches and fills, put into another state, keeps its law. -/
theorem Domain.BatchLaw.restated {x y : Domain} (h : x.BatchLaw) (hx : x.state = .disabled ∨ x.state = .safed)
    (h1 : y.slots = x.slots) (h2 : y.fill = x.fill) : y.BatchLaw := by
  have hnc : ∀ k : SlotId, x.slots[k].state ≠ .committing := h.uncommitting hx
  have hnr : x.state ≠ .run ∧ x.state ≠ .stopping ∧ x.state ≠ .safing := by rcases hx with e | e <;> simp [e]
  refine ⟨fun _ k => ?_, fun _ _ k => ?_, fun _ k => ?_, fun k hk => ?_, fun hf => ?_⟩
  · rw [h1]; exact h.unopened hnr.1 k
  · rw [h1]; exact h.unsealed hnr.1 hnr.2.1 k
  · rw [h1]; exact hnc k
  · rw [h1] at hk; exact absurd hk (hnc k)
  · rw [h2] at hf; exact absurd (h.filling hf).1 hnr.2.2

theorem isCapturing_released (w : WindowId) (x : Context) : (x.released w).isCapturing = x.isCapturing := by
  cases x with
  | idle => rfl
  | capturing v l ph => rfl
  | held v l t0 => unfold Context.released; split <;> rfl

theorem batchLaw_setGlobals {s : State} (h : s.BatchLaw) (g : GlobalPayload) (b : Bool) : (s.setGlobals g b).BatchLaw := by
  have hw : (s.writeGlobals g b).BatchLaw := batchLaw_congr h rfl rfl rfl rfl rfl
  unfold State.setGlobals; split
  · exact hw
  · exact batchLaw_inFreeOrder hw _ _ fun _ p hs => batchLaw_expireIfDue hs p

theorem port_softReset (s : State) (p : Port) : s.softReset.port p = (s.port p).softReset := by cases p <;> rfl

theorem context_softReset (s : State) (p : Port) (c : ContextId) : s.softReset.context p c = .idle := by
  simp [State.context, port_softReset, PortUnit.softReset]

theorem domain_softReset (s : State) (d : DomainId) : s.softReset.domain d = (s.domain d).softReset := by
  simp [State.domain, State.softReset]

/-- A domain with every batch gone and nothing under way. -/
theorem Domain.batchLaw_softReset (x : Domain) : x.softReset.BatchLaw := by
  refine ⟨fun _ k => ?_, fun _ _ k => ?_, fun _ k => ?_, fun k hk => ?_, fun hf => ?_⟩
  · simp [Domain.softReset]
  · simp [Domain.softReset]
  · simp [Domain.softReset]
  · simp [Domain.softReset] at hk
  · simp [Domain.softReset] at hf

/-- A transaction in MEMORY is kept by a soft reset (R31). -/
theorem softReset_memory {u : PortUnit} (h : u.txn.phase = .memory) : u.softReset.txn = u.txn := by
  simp [PortUnit.softReset, PortUnit.endTxn, h]

theorem batchLaw_softReset {s : State} (h : s.BatchLaw) : s.softReset.BatchLaw := by
  refine ⟨fun d => ?_, fun w hw => ?_, List.Pairwise.nil, fun p acc hg => ?_, fun p c hc => ?_, fun p c e hc _ => ?_⟩
  · rw [domain_softReset]; exact (s.domain d).batchLaw_softReset
  · cases hw
  · rw [port_softReset, softReset_memory (h.granted p acc hg)]; exact h.granted p acc hg
  · rw [context_softReset] at hc; cases hc
  · rw [context_softReset] at hc; cases hc

theorem batchLaw_releaseWindow {s : State} (h : s.BatchLaw) (i : WindowId) (w : WindowRecord) :
    (s.writeWindow i w).BatchLaw :=
  batchLaw_congr (batchLaw_contexts (batchLaw_contexts h .a _ (isCapturing_released i)) .b _ (isCapturing_released i))
    rfl rfl rfl rfl rfl

theorem batchLaw_managed {c : Instr} {s t : State} (h : s.BatchLaw) (m : Managed c s t) : t.BatchLaw := by
  cases m with
  | same ht => exact ht ▸ h
  | settings g b _ ht => exact ht ▸ batchLaw_setGlobals h g b
  | pop q ht => exact ht ▸ batchLaw_congr h rfl rfl rfl rfl rfl
  | softReset _ ht => exact ht ▸ batchLaw_softReset h
  | window i w _ _ _ ht => exact ht ▸ batchLaw_releaseWindow h i _
  | domain d x _ hd ht =>
    exact ht ▸ batchLaw_setDomain h d _ ((h.domains d).restated (.inl hd) rfl rfl) (.inl (no_waiter h (by simp [hd])))
  | start d hd ht =>
    exact ht ▸ batchLaw_setDomain h d _ ((h.domains d).restated (.inl hd) rfl rfl) (.inl (no_waiter h (by simp [hd])))
  | stop d hd ht => exact ht ▸ batchLaw_arbitrate (batchLaw_stopDomain h d hd)
  | sealBatch d hd ht => exact ht ▸ batchLaw_sealOpen h d hd
  | sync d ht => exact ht ▸ batchLaw_arbitrate (batchLaw_syncEvent h d)
  | safe i x _ ht => exact ht ▸ batchLaw_congr h rfl rfl rfl rfl rfl
  | arm d hd ht =>
    exact ht ▸ batchLaw_setDomain h d _ ((h.domains d).restated (.inr hd) rfl rfl) (.inl (no_waiter h (by simp [hd])))

theorem batchLaw_takeAccess {s : State} (h : s.BatchLaw) {p : Port} (hl : s.Loose p) (acc : Access) :
    (s.takeAccess p acc).BatchLaw := by
  unfold State.takeAccess; split
  · exact batchLaw_arbitrate (batchLaw_applyRead h hl _)
  · split
    · exact batchLaw_respond h hl _
    · exact batchLaw_arbitrate (batchLaw_reclassify h hl)

theorem batchLaw_accept {s : State} (h : s.BatchLaw) {p : Port} (hf : s.portFree p = true) (acc : Access) :
    ((s.accept p acc).takeAccess p acc).BatchLaw := by
  have hi := (portFree_iff.1 hf).2
  have hl : s.Loose p := loose_of_phase h (by simp [hi]) (by simp [hi]) (by simp [hi])
  have ha : (s.accept p acc).BatchLaw := batchLaw_setPort h hl _ hl.contexts
  have hla : (s.accept p acc).Loose p := hl.setPort _ hl.contexts
  exact batchLaw_takeAccess ha hla acc

theorem batchLaw_takeSyncEdge {s : State} (h : s.BatchLaw) (l : SyncLine) (e : Edge) : (s.takeSyncEdge l e).BatchLaw :=
  batchLaw_lists (batchLaw_inFreeOrder
    (batchLaw_congr h rfl rfl rfl rfl rfl : State.BatchLaw { s with syncLevels := s.syncLevels.set l (edgeLevel e) })
    _ _ fun _ d hs => batchLaw_syncEvent hs d) (by rfl)

theorem faultedDomains_spec (s : State) (l : FaultLine) :
    (s.faultedDomains l).Nodup ∧ ∀ d ∈ s.faultedDomains l, (s.domain d).state.acceptsFault = true := by
  refine ⟨(List.nodup_finRange 4).filter _, fun d hd => ?_⟩
  simp only [State.faultedDomains, List.mem_filter, Bool.and_eq_true] at hd
  exact hd.2.2

theorem batchLaw_takeFaultEdge {s : State} (h : s.BatchLaw) (l : FaultLine) : (s.takeFaultEdge l).BatchLaw :=
  batchLaw_acceptFaults (s := { s with faultLevels := s.faultLevels.set l false })
    (batchLaw_congr h rfl rfl rfl rfl rfl) _ _ (faultedDomains_spec s l).1 (faultedDomains_spec s l).2

theorem context_powerOn (s : State) (p : Port) (c : ContextId) : s.powerOn.context p c = .idle := by
  cases p <;> simp [State.context, State.port, State.powerOn, PortUnit.inReset]

theorem domain_powerOn (s : State) (d : DomainId) : s.powerOn.domain d = {} := by simp [State.domain, State.powerOn]

theorem batchLaw_powerOn (s : State) : s.powerOn.BatchLaw := by
  refine ⟨fun d => ?_, fun w hw => ?_, List.Pairwise.nil, fun p acc hg => ?_, fun p c hc => ?_, fun p c e hc _ => ?_⟩
  · rw [domain_powerOn]; exact Domain.batchLaw_softReset {}
  · cases hw
  · cases hg
  · rw [context_powerOn] at hc; cases hc
  · rw [context_powerOn] at hc; cases hc

theorem batchLaw_rise {s : State} (h : s.BatchLaw) (v : Vector Bool 4) (w : Vector Bool 2) (b : Bool) :
    (s.rise v w b).BatchLaw := by
  have txn : ∀ p, ((s.rise v w b).port p).txn = (s.port p).txn := by rintro ⟨⟩ <;> rfl
  have ctx : ∀ p c, (s.rise v w b).context p c = s.context p c := by rintro ⟨⟩ c <;> rfl
  refine ⟨h.domains, fun w' hw => ?_, h.waitersApart, fun p acc hg => ?_, fun p c hc => ?_, fun p c e hc he => ?_⟩
  · rw [txn]; exact h.waiters w' hw
  · rw [txn]; exact h.granted p acc hg
  · rw [txn]; exact h.leadWait p c (ctx p c ▸ hc)
  · exact h.oneCapture p c e (ctx p c ▸ hc) (ctx p e ▸ he)

theorem batchLaw_move {c : Instr} {s t : State} (h : s.BatchLaw) (m : Move c s t) : t.BatchLaw := by
  have done : ∀ g, (s.completeAccess g).BatchLaw := batchLaw_completeAccess h
  cases m with
  | idle ht => exact ht ▸ h
  | accept p acc hf ht => exact ht ▸ batchLaw_accept h hf acc
  | portWrite p a m x _ hg ht => exact ht ▸ batchLaw_finishPortWrite (done _) (loose_completeAccess h hg _) _
  | portRead p a r hg ht =>
    exact ht ▸ batchLaw_arbitrate (batchLaw_respond (done _) (loose_completeAccess h hg _) _)
  | commitWrite d acc _ _ ht => exact ht ▸ batchLaw_arbitrate (batchLaw_advanceCommit (done _) d)
  | sequenceWrite d acc _ _ ht => exact ht ▸ batchLaw_arbitrate (batchLaw_completeCommit (done _) d)
  | fillWrite d acc _ _ hp ht => exact ht ▸ batchLaw_arbitrate (batchLaw_advanceFill (done _) d hp)
  | captureRead p a x _ ht => exact ht ▸ batchLaw_arbitrate (batchLaw_storeCapture (done _) p x)
  | stall p hd ht => exact ht ▸ batchLaw_expireHeld h (stallDue_held hd)
  | tick _ _ ht => exact ht ▸ batchLaw_advanceTick (batchLaw_inFreeOrder h _ _ fun _ e hs => batchLaw_takeTimed hs e)
  | monitor d hd ht => exact ht ▸ batchLaw_arbitrate (batchLaw_expireMonitor h d (monitorDue_run hd))
  | holdLimit p e _ ht => exact ht ▸ batchLaw_expireContext h p e
  | syncEdge l e _ _ ht => exact ht ▸ batchLaw_arbitrate (batchLaw_takeSyncEdge h l e)
  | faultEdge l _ _ ht => exact ht ▸ batchLaw_arbitrate (batchLaw_takeFaultEdge h l)
  | faultRelease l _ _ ht => exact ht ▸ batchLaw_congr h rfl rfl rfl rfl rfl
  | fall _ _ ht => exact ht ▸ batchLaw_powerOn _
  | rise v w b _ _ ht => exact ht ▸ batchLaw_rise h v w b
  | ignored _ ht => exact ht ▸ batchLaw_congr h rfl rfl rfl rfl rfl
  | frame n u r _ hu ht =>
    have hf : (s.shiftFrame n).BatchLaw := batchLaw_congr h rfl rfl rfl rfl rfl
    exact ht ▸ batchLaw_congr (batchLaw_managed hf hu) rfl rfl rfl rfl rfl

/-! ### Law 9 through every move -/

theorem guarded_congr {s t : State} (h : s.Guarded) (hw : t.windows = s.windows) (ha : t.portA = s.portA)
    (hb : t.portB = s.portB) : t.Guarded := h.calm (calm_of_ports hw ha hb)

/-- A state that captures nothing is guarded when no two windows meet. -/
theorem guarded_of_no_capture {s : State} (ha : s.WindowsApart) (hc : ∀ p c w l ph, s.context p c ≠ .capturing w l ph) :
    s.Guarded :=
  ⟨ha, fun p c w l ph h => absurd h (hc p c w l ph), fun p c w l ph h => absurd h (hc p c w l ph)⟩

theorem windowsApart_congr {s t : State} (h : s.WindowsApart) (hw : t.windows = s.windows) : t.WindowsApart := by
  intro i j hij a; rw [window_eq hw, window_eq hw]; exact h i j hij a

/-- Two records that cover a word have ranges that meet. -/
theorem rangesMeet_of_covers {v w : WindowRecord} {a : Addr} (hv : v.covers a = true) (hw : w.covers a = true) :
    rangesMeet v w = true := by
  simp only [WindowRecord.covers, Bool.and_eq_true, decide_eq_true_eq] at hv hw
  simp only [rangesMeet, decide_eq_true_eq]
  omega

theorem covers_enabled {w : WindowRecord} {a : Addr} (h : w.covers a = true) : w.enabled = true := by
  simp only [WindowRecord.covers, Bool.and_eq_true] at h; exact h.1

theorem window_writeWindow (s : State) (i j : WindowId) (w : WindowRecord) :
    (s.writeWindow i w).window j = if j = i then w else s.window j := by
  unfold State.window State.writeWindow
  by_cases h : j = i
  · subst h; simp
  · have : (i : Nat) ≠ j := fun hc => h (Fin.ext hc.symm)
    simp [h, this]

/-- The check of R10 against the other enabled windows keeps windows apart (R13). -/
theorem windowsApart_writeWindow {s : State} (h : s.WindowsApart) {i : WindowId} {w : WindowRecord}
    (ho : (w.enabled && s.overlaps i w) = false) : (s.writeWindow i w).WindowsApart := by
  have apart : ∀ j, j ≠ i → ∀ a, ¬ ((s.window j).covers a = true ∧ w.covers a = true) := by
    rintro j hj a ⟨h1, h2⟩
    have : s.overlaps i w = true := by
      simp only [State.overlaps, Bool.or_eq_true, List.any_eq_true, Bool.and_eq_true, decide_eq_true_eq]
      exact .inl ⟨j, List.mem_finRange j, ⟨hj, covers_enabled h1⟩, rangesMeet_of_covers h1 h2⟩
    rw [covers_enabled h2, this] at ho; cases ho
  intro j k hjk a
  rw [window_writeWindow, window_writeWindow]
  by_cases hj : j = i
  · rw [if_pos hj, if_neg (hj ▸ hjk.symm)]
    exact fun hc => apart k (hj ▸ hjk.symm) a hc.symm
  · rw [if_neg hj]
    by_cases hk : k = i
    · rw [if_pos hk]; exact apart j hj a
    · rw [if_neg hk]; exact h j k hjk a

theorem port_writeWindow (s : State) (i : WindowId) (w : WindowRecord) (p : Port) :
    (s.writeWindow i w).port p = (s.port p).releaseWindow i := by cases p <;> rfl

theorem context_writeWindow (s : State) (i : WindowId) (w : WindowRecord) (p : Port) (c : ContextId) :
    (s.writeWindow i w).context p c = (s.context p c).released i := by
  simp [State.context, port_writeWindow, PortUnit.releaseWindow]

theorem released_capturing {i v : WindowId} {x : Context} {l : List Word} {ph : CapturePhase}
    (h : x.released i = .capturing v l ph) : x = .capturing v l ph := by
  unfold Context.released at h; split at h
  · cases h
  · exact h

/-- A record no capture reads may be written: the captures in progress are of other windows (R10, R12). -/
theorem guarded_writeWindow {s : State} (h : s.Guarded) {i : WindowId} {w : WindowRecord}
    (hb : (s.captureAt .a i || s.captureAt .b i) = false) (ho : (w.enabled && s.overlaps i w) = false) :
    (s.writeWindow i w).Guarded := by
  have hno : ∀ p c v l ph, s.context p c = .capturing v l ph → v ≠ i := by
    rintro p c v l ph hc rfl
    simp only [Bool.or_eq_false_iff] at hb
    cases p
    · exact absurd (captureAt_of_context hc) (by simp [hb.1])
    · exact absurd (captureAt_of_context hc) (by simp [hb.2])
  refine ⟨windowsApart_writeWindow h.apart ho, fun p c v l ph hc => ?_, fun p c v l ph hc hn => ?_⟩
  · rw [context_writeWindow] at hc
    have hc := released_capturing hc
    rw [window_writeWindow, if_neg (hno p c v l ph hc)]
    exact h.captured p c v l ph hc
  · rw [context_writeWindow] at hc
    have hc := released_capturing hc
    have hv : (s.writeWindow i w).writeOnItsWay p.other v = s.writeOnItsWay p.other v := by
      simp only [State.writeOnItsWay, port_writeWindow, window_writeWindow, if_neg (hno p c v l ph hc),
        PortUnit.releaseWindow]
    rw [hv]; exact h.excluded p c v l ph hc hn

theorem guarded_setGlobals {s : State} (h : s.Guarded) (g : GlobalPayload) (b : Bool) : (s.setGlobals g b).Guarded := by
  have hw : (s.writeGlobals g b).Guarded := guarded_congr h rfl rfl rfl
  unfold State.setGlobals; split
  · exact hw
  · refine guarded_inFreeOrder hw _ _ fun u p hu => ?_
    unfold State.expireIfDue; split
    · exact hu.calm (calm_expireHeld u p)
    · exact hu

theorem guarded_managed {c : Instr} {s t : State} (h : s.Guarded) (hb : s.BatchLaw) (m : Managed c s t) : t.Guarded := by
  cases m with
  | same ht => exact ht ▸ h
  | settings g b _ ht => exact ht ▸ guarded_setGlobals h g b
  | pop q ht => exact ht ▸ guarded_congr h rfl rfl rfl
  | softReset _ ht =>
    exact ht ▸ guarded_of_no_capture (windowsApart_congr h.apart rfl) fun p c w l ph hc => by
      rw [context_softReset] at hc; cases hc
  | window i w _ hc ho ht => exact ht ▸ guarded_writeWindow h hc ho
  | domain d x _ _ ht => exact ht ▸ h.calm (calm_setDomain s d _)
  | start d _ ht => exact ht ▸ h.calm (calm_setDomain s d _)
  | stop d _ ht => exact ht ▸ guarded_arbitrate (guarded_stopDomain h hb d)
  | sealBatch d _ ht => exact ht ▸ h.calm (calm_pool (poolOnly_sealOpen s d) (steady_sealOpen s d))
  | sync d ht => exact ht ▸ guarded_arbitrate (h.calm (calm_syncEvent s d))
  | safe i x _ ht => exact ht ▸ guarded_congr h rfl rfl rfl
  | arm d _ ht => exact ht ▸ h.calm (calm_setDomain s d _)

theorem guarded_accept {s : State} (h : s.Guarded) (p : Port) (acc : Access) :
    ((s.accept p acc).takeAccess p acc).Guarded := by
  have ha : (s.accept p acc).Guarded := h.calm <| calm_setPort s p _ (fun _ _ l ph hx => ⟨l, ph, hx, id⟩)
    fun hp => by rcases hp with hp | hp <;> cases hp
  cases acc with
  | read a => exact guarded_arbitrate (guarded_applyRead ha p a (by simp [State.accept]))
  | write a m x =>
    unfold State.takeAccess; dsimp only; split
    · exact ha.calm (calm_respond _ _ _)
    · exact guarded_arbitrate (guarded_reclassify ha p)

theorem guarded_takeSyncEdge {s : State} (h : s.Guarded) (l : SyncLine) (e : Edge) : (s.takeSyncEdge l e).Guarded :=
  guarded_congr (guarded_inFreeOrder
    (guarded_congr h rfl rfl rfl : State.Guarded { s with syncLevels := s.syncLevels.set l (edgeLevel e) })
    _ _ fun u d hu => hu.calm (calm_syncEvent u d)) rfl rfl rfl

theorem guarded_takeFaultEdge {s : State} (h : s.Guarded) (l : FaultLine) : (s.takeFaultEdge l).Guarded :=
  guarded_acceptFaults (s := { s with faultLevels := s.faultLevels.set l false }) (guarded_congr h rfl rfl rfl) _ _

theorem windowsApart_powerOn (s : State) : s.powerOn.WindowsApart := by
  intro i j _ a h; simp [State.window, State.powerOn, WindowRecord.covers] at h

theorem guarded_rise {s : State} (h : s.Guarded) (v : Vector Bool 4) (w : Vector Bool 2) (b : Bool) :
    (s.rise v w b).Guarded := by
  have way : ∀ p i, (s.rise v w b).writeOnItsWay p i = s.writeOnItsWay p i := by rintro ⟨⟩ i <;> rfl
  have ctx : ∀ p c, (s.rise v w b).context p c = s.context p c := by rintro ⟨⟩ c <;> rfl
  exact ⟨h.apart, fun p c i l ph hc => h.captured p c i l ph (ctx p c ▸ hc),
    fun p c i l ph hc hn => way p.other i ▸ h.excluded p c i l ph (ctx p c ▸ hc) hn⟩

theorem guarded_move {c : Instr} {s t : State} (h : s.Guarded) (hb : s.BatchLaw) (m : Move c s t) : t.Guarded := by
  have done : ∀ g, (s.completeAccess g).Guarded := fun g => guarded_congr h rfl rfl rfl
  cases m with
  | idle ht => exact ht ▸ h
  | accept p acc _ ht => exact ht ▸ guarded_accept h p acc
  | portWrite p a m x _ _ ht => exact ht ▸ guarded_finishPortWrite (done _) p _
  | portRead p a r _ ht => exact ht ▸ guarded_arbitrate ((done _).calm (calm_respond _ p r))
  | commitWrite d acc _ _ ht => exact ht ▸ guarded_arbitrate (guarded_advanceCommit (done _) d)
  | sequenceWrite d acc _ _ ht => exact ht ▸ guarded_arbitrate (guarded_completeCommit (done _) d)
  | fillWrite d acc _ _ _ ht => exact ht ▸ guarded_arbitrate (guarded_advanceFill (done _) d)
  | captureRead p a x _ ht => exact ht ▸ guarded_arbitrate (guarded_storeCapture (done _) p x)
  | stall p _ ht => exact ht ▸ h.calm (calm_expireHeld s p)
  | tick _ _ ht =>
    exact ht ▸ guarded_congr (guarded_inFreeOrder h _ _ fun _ e hs => guarded_takeTimed hs e) rfl rfl rfl
  | monitor d _ ht => exact ht ▸ guarded_arbitrate (guarded_expireMonitor h d)
  | holdLimit p e _ ht => exact ht ▸ h.calm (calm_expireContext s p e)
  | syncEdge l e _ _ ht => exact ht ▸ guarded_arbitrate (guarded_takeSyncEdge h l e)
  | faultEdge l _ _ ht => exact ht ▸ guarded_arbitrate (guarded_takeFaultEdge h l)
  | faultRelease l _ _ ht => exact ht ▸ guarded_congr h rfl rfl rfl
  | fall _ _ ht =>
    exact ht ▸ guarded_of_no_capture (windowsApart_powerOn _) fun p c w l ph hc => by
      rw [context_powerOn] at hc; cases hc
  | rise v w b _ _ ht => exact ht ▸ guarded_rise h v w b
  | ignored _ ht => exact ht ▸ guarded_congr h rfl rfl rfl
  | frame n u r _ hu ht =>
    have hg : (s.shiftFrame n).Guarded := guarded_congr h rfl rfl rfl
    have hl : (s.shiftFrame n).BatchLaw := batchLaw_congr hb rfl rfl rfl rfl rfl
    exact ht ▸ guarded_congr (guarded_managed hg hl hu) rfl rfl rfl

theorem State.CaptureLaw.guarded {s : State} (h : s.CaptureLaw) : s.Guarded := ⟨h.apart, h.captured, h.excluded⟩

theorem captureLaw_of {s : State} (hb : s.BatchLaw) (hg : s.Guarded) : s.CaptureLaw :=
  ⟨hb, hg.apart, hg.captured, hg.excluded⟩

/-- Settles O32: each move keeps Law 4 and, with it, the captures' part of Law 9. -/
theorem stepKeepsCaptureLaw : Obligations.StepKeepsCaptureLaw := by
  intro s t h ht
  refine step_keeps (P := State.CaptureLaw) (fun u l hu => ?_) (fun c u v hu hv => ?_) h ht
  · exact captureLaw_of (batchLaw_congr hu.batches rfl rfl rfl rfl rfl) (guarded_congr hu.guarded rfl rfl rfl)
  · have m := move_of_exec hv
    exact captureLaw_of (batchLaw_move hu.batches m) (guarded_move hu.guarded hu.batches m)

end Sys2Proof.Machine
end

section
/-! SUPPORT. What belongs to which command (O2), and what every step keeps of the window table and the settings (O28). -/

namespace Sys2Proof.Machine

/-! ### Ownership (O2) -/

/-- From `s` to `t` the command changed only what is its own: tables, settings, memory, timebase and line levels. -/
structure Owned (c : Instr) (s t : State) : Prop where
  pending : t.pending = s.pending
  windows : t.windows = s.windows ∨ ∃ i w n, c = .setWindow i w n
  safe : t.safe = s.safe ∨ ∃ i e n, c = .setSafe i e n
  cfg : ∀ d, (t.domain d).cfg = (s.domain d).cfg ∨ (s.domain d).state = .disabled ∧ ∃ b r n, c = .setDomain b r n
  settings : (t.mask = s.mask ∧ t.irqEnable = s.irqEnable ∧ t.stallLimit = s.stallLimit) ∨ ∃ g n, c = .setGlobal g n
  mem : t.mem = s.mem ∨ c = .portWriteComplete ∨ c = .commitWriteComplete ∨ c = .sequenceWriteComplete ∨
    c = .fillWriteComplete
  tick : t.tick = s.tick ∨ c = .tick ∨ ∃ n, c = .resetPart n
  syncLevels : t.syncLevels = s.syncLevels ∨ (∃ l e, c = .syncEdge l e) ∨ ∃ v w m, c = .resetRise v w m
  faultLevels : t.faultLevels = s.faultLevels ∨ (∃ l, c = .faultEdge l) ∨ (∃ l, c = .faultLineRelease l) ∨
    ∃ v w m, c = .resetRise v w m

theorem Owned.refl (c : Instr) (s : State) : Owned c s s :=
  ⟨rfl, .inl rfl, .inl rfl, fun _ => .inl rfl, .inl ⟨rfl, rfl, rfl⟩, .inl rfl, .inl rfl, .inl rfl, .inl rfl⟩

/-- What is steady changes nothing that any command owns. -/
theorem Owned.steady {c : Instr} {s u t : State} (h : Owned c s u) (k : Steady u t) : Owned c s t := by
  obtain ⟨pending, windows, safe, cfg, settings, mem, tick, syncLevels, faultLevels⟩ := h
  exact ⟨k.pending ▸ pending, k.windows ▸ windows, k.safe ▸ safe, fun d => k.cfg d ▸ cfg d,
    by rw [k.mask, k.irqEnable, k.stallLimit]; exact settings, k.mem ▸ mem, k.tick ▸ tick, k.syncLevels ▸ syncLevels,
    k.faultLevels ▸ faultLevels⟩

theorem owned_of_steady {c : Instr} {s t : State} (k : Steady s t) : Owned c s t := (Owned.refl c s).steady k

/-- Only the M-port's holder and the SRAM change at a completion, and a read changes no byte. -/
theorem owned_completeAccess {c : Instr} (s : State) (g : Grant)
    (h : (∃ a, g.access = .read a) ∨ c = .portWriteComplete ∨ c = .commitWriteComplete ∨ c = .sequenceWriteComplete ∨
      c = .fillWriteComplete) : Owned c s (s.completeAccess g) := by
  refine { Owned.refl c s with mem := ?_ }
  rcases h with ⟨a, ha⟩ | hc
  · exact .inl (by simp [State.completeAccess, ha, Memory.complete])
  · exact .inr hc

theorem domain_raiseNumber_cfg (s : State) (d e : DomainId) : ((s.raiseNumber d).domain e).cfg = (s.domain e).cfg := by
  unfold State.raiseNumber
  rw [State.domain_setDomain]; split
  · subst_vars; rfl
  · rfl

theorem owned_raiseNumber {c : Instr} {s u : State} (h : Owned c s u) (d : DomainId) : Owned c s (u.raiseNumber d) :=
  ⟨h.pending, h.windows, h.safe, fun e => domain_raiseNumber_cfg u d e ▸ h.cfg e, h.settings, h.mem, h.tick,
    h.syncLevels, h.faultLevels⟩

theorem owned_advanceCommit {c : Instr} {s u : State} (h : Owned c s u) (d : DomainId) : Owned c s (u.advanceCommit d) := by
  rcases steady_advanceCommit u d with hs | hs
  · exact h.steady hs
  · rw [hs]; exact (owned_raiseNumber h d).steady (steady_completeCommit u d)

theorem owned_managed {c : Instr} {s t : State} (m : Managed c s t) : Owned c s t := by
  cases m with
  | same ht => exact ht ▸ Owned.refl c s
  | settings g b hc ht =>
    have hw : Owned c s (s.writeGlobals g b) := { Owned.refl c s with settings := .inr hc }
    exact ht ▸ hw.steady (steady_setGlobals s g b)
  | pop q ht => exact ht ▸ { Owned.refl c s with }
  | softReset hc ht =>
    have cfg : ∀ d, (s.softReset.domain d).cfg = (s.domain d).cfg := fun d => by rw [domain_softReset]; rfl
    exact ht ▸ { Owned.refl c s with cfg := fun d => .inl (cfg d), tick := .inr (.inr hc) }
  | window i w hc _ _ ht => exact ht ▸ { Owned.refl c s with windows := .inr hc }
  | domain d x hc hd ht =>
    refine ht ▸ { Owned.refl c s with cfg := fun e => ?_ }
    by_cases he : e = d
    · exact .inr ⟨he ▸ hd, hc⟩
    · exact .inl (by rw [State.domain_setDomain_ne _ he])
  | start d _ ht => exact ht ▸ owned_of_steady (steady_setDomain s d _ rfl rfl)
  | stop d _ ht => exact ht ▸ owned_of_steady ((steady_stopDomain s d).trans (steady_arbitrate _))
  | sealBatch d _ ht => exact ht ▸ owned_of_steady (steady_sealOpen s d)
  | sync d ht => exact ht ▸ owned_of_steady ((steady_syncEvent s d).trans (steady_arbitrate _))
  | safe i x hc ht => exact ht ▸ { Owned.refl c s with safe := .inr hc }
  | arm d _ ht => exact ht ▸ owned_of_steady (steady_setDomain s d _ rfl rfl)

theorem domain_advanceTick_cfg (s : State) (d : DomainId) : (s.advanceTick.domain d).cfg = (s.domain d).cfg := by
  have : s.advanceTick.domain d = (s.domain d).ticked := by simp [State.advanceTick, State.domain]
  rw [this]; unfold Domain.ticked; split <;> rfl

theorem steady_takeSyncEdge (s : State) (l : SyncLine) (e : Edge) :
    Steady { s with syncLevels := s.syncLevels.set l (edgeLevel e) } (s.takeSyncEdge l e) :=
  (steady_inFreeOrder _ _ _ steady_syncEvent).trans (steady_of_lists (by rfl))

theorem steady_takeFaultEdge (s : State) (l : FaultLine) :
    Steady { s with faultLevels := s.faultLevels.set l false } (s.takeFaultEdge l) := steady_acceptFaults _ _ _

/-- Every move but the fall of RESET changes only what is its command's own. -/
theorem owned_move {c : Instr} {s t : State} (m : Move c s t) (hn : ¬ (c = .resetFall ∧ t = s.abandonAccess.powerOn)) :
    Owned c s t := by
  cases m with
  | idle ht => exact ht ▸ Owned.refl c s
  | accept p acc _ ht => exact ht ▸ owned_of_steady ((steady_setPort s p _).trans (steady_takeAccess _ p acc))
  | portWrite p a m x hc _ ht =>
    exact ht ▸ (owned_completeAccess s _ (.inr (.inl hc))).steady
      ((((steady_patchCopies _ _ _).trans (steady_respond _ _ _)).trans (steady_endWriterWait _ _)).trans
        (steady_arbitrate _))
  | portRead p a r _ ht =>
    exact ht ▸ (owned_completeAccess s _ (.inl ⟨a, rfl⟩)).steady ((steady_respond _ p r).trans (steady_arbitrate _))
  | commitWrite d acc hc _ ht =>
    exact ht ▸ (owned_advanceCommit (owned_completeAccess s _ (.inr (.inr (.inl hc)))) d).steady (steady_arbitrate _)
  | sequenceWrite d acc hc _ ht =>
    exact ht ▸ (owned_raiseNumber (owned_completeAccess s _ (.inr (.inr (.inr (.inl hc))))) d).steady
      ((steady_completeCommit _ d).trans (steady_arbitrate _))
  | fillWrite d acc hc _ _ ht =>
    exact ht ▸ (owned_completeAccess s _ (.inr (.inr (.inr (.inr hc))))).steady
      ((steady_advanceFill _ d).trans (steady_arbitrate _))
  | captureRead p a x _ ht =>
    exact ht ▸ (owned_completeAccess s _ (.inl ⟨a, rfl⟩)).steady ((steady_storeCapture _ p x).trans (steady_arbitrate _))
  | stall p _ ht => exact ht ▸ owned_of_steady (steady_expireHeld s p)
  | tick hc _ ht =>
    have hd : Owned c s s.takeDue := owned_of_steady (steady_takeDue s)
    exact ht ▸ { hd with cfg := fun d => domain_advanceTick_cfg s.takeDue d ▸ hd.cfg d, tick := .inr (.inl hc) }
  | monitor d _ ht => exact ht ▸ owned_of_steady ((steady_expireMonitor s d).trans (steady_arbitrate _))
  | holdLimit p e _ ht => exact ht ▸ owned_of_steady (steady_expireContext s p e)
  | syncEdge l e hc _ ht =>
    have hl : Owned c s { s with syncLevels := s.syncLevels.set l (edgeLevel e) } :=
      { Owned.refl c s with syncLevels := .inr (.inl ⟨l, e, hc⟩) }
    exact ht ▸ hl.steady ((steady_takeSyncEdge s l e).trans (steady_arbitrate _))
  | faultEdge l hc _ ht =>
    have hl : Owned c s { s with faultLevels := s.faultLevels.set l false } :=
      { Owned.refl c s with faultLevels := .inr (.inl ⟨l, hc⟩) }
    exact ht ▸ hl.steady ((steady_takeFaultEdge s l).trans (steady_arbitrate _))
  | faultRelease l hc _ ht => exact ht ▸ { Owned.refl c s with faultLevels := .inr (.inr (.inl ⟨l, hc⟩)) }
  | fall hc _ ht => exact absurd ⟨hc, ht⟩ hn
  | rise v w b hc _ ht =>
    exact ht ▸ { Owned.refl c s with
      syncLevels := .inr (.inr ⟨v, w, b, hc⟩), faultLevels := .inr (.inr (.inr ⟨v, w, b, hc⟩)) }
  | ignored _ ht => exact ht ▸ { Owned.refl c s with }
  | frame n u r _ hu ht =>
    obtain ⟨pending, windows, safe, cfg, settings, mem, tick, syncLevels, faultLevels⟩ := owned_managed hu
    exact ht ▸ ⟨pending, windows, safe, cfg, settings, mem, tick, syncLevels, faultLevels⟩

theorem pending_powerOn (s : State) : s.abandonAccess.powerOn.pending = s.pending := by
  unfold State.abandonAccess State.powerOn; split <;> rfl

/-- No command touches the queue of commands. -/
theorem pending_move {c : Instr} {s t : State} (m : Move c s t) : t.pending = s.pending := by
  by_cases hf : c = .resetFall ∧ t = s.abandonAccess.powerOn
  · rw [hf.2]; exact pending_powerOn s
  · exact (owned_move m hf).pending

/-- Settles O2: a command's move changes only what `Owned` grants it, and the fall of RESET keeps the queue. -/
theorem commandsChangeOnlyWhatIsTheirs : Obligations.CommandsChangeOnlyWhatIsTheirs := by
  intro c s t ht
  have m := move_of_exec ht
  refine ⟨pending_move m, fun hc => ?_⟩
  obtain ⟨-, windows, safe, cfg, settings, mem, tick, syncLevels, faultLevels⟩ := owned_move m fun hf => hc hf.1
  refine ⟨windows.resolve_left, safe.resolve_left, fun d => (cfg d).resolve_left, fun hne => settings.resolve_left ?_,
    mem.resolve_left, tick.resolve_left, syncLevels.resolve_left, faultLevels.resolve_left⟩
  rintro ⟨h1, h2, h3⟩
  exact hne.elim (absurd h1) (Or.elim · (absurd h2) (absurd h3))

/-! ### Windows apart and the stall limit (O28) -/

/-- The window table after a command is as it was, or has one record written under the checks of R10, or is empty. -/
theorem windowsApart_effect {c : Instr} {s t : State} (h : s.WindowsApart) (e : Effect c s t) : t.WindowsApart := by
  cases e with
  | steady k => exact windowsApart_congr h k.windows
  | access _ _ k => exact windowsApart_congr h k.windows
  | commit _ _ _ _ k => exact windowsApart_congr h k.windows
  | tick u _ _ k ht => exact windowsApart_congr h (by rw [ht]; exact k.windows)
  | sync _ _ k => exact windowsApart_congr h k.windows
  | fault _ _ k => exact windowsApart_congr h k.windows
  | frame _ _ _ k => exact windowsApart_congr h k.windows
  | pop _ _ _ _ _ _ ht => exact windowsApart_congr h (by rw [ht]; rfl)
  | settings _ _ _ _ _ _ _ _ k => exact windowsApart_congr h k.windows
  | window m r i _ w _ _ _ _ _ ho ht =>
    exact ht ▸ windowsApart_writeWindow (windowsApart_congr h rfl : (s.framed m r).WindowsApart) ho
  | domain _ _ _ _ _ _ _ _ _ _ ht => exact windowsApart_congr h (by rw [ht]; rfl)
  | safe _ _ _ _ _ _ _ _ _ ht => exact windowsApart_congr h (by rw [ht]; rfl)
  | softReset _ _ _ _ _ _ ht => exact windowsApart_congr h (by rw [ht]; rfl)
  | fall _ _ ht => exact ht ▸ windowsApart_powerOn _
  | rise _ _ _ _ _ ht => exact windowsApart_congr h (by rw [ht]; rfl)
  | ignored _ ht => exact windowsApart_congr h (by rw [ht])

theorem limitInRange_congr {s t : State} (h : s.LimitInRange) (hl : t.stallLimit = s.stallLimit) : t.LimitInRange := by
  unfold State.LimitInRange; rw [hl]; exact h

/-- The limit a SET_GLOBAL writes passed the check of R174. -/
theorem limitInRange_writeGlobals (s : State) {g : GlobalPayload} (b : Bool) (hg : globalsOutOfRange g = false) :
    (s.writeGlobals g b).LimitInRange := by
  simp only [globalsOutOfRange, decide_eq_false_iff_not, not_or] at hg
  have hw : (g.stallLimit.setWidth 12).toNat = g.stallLimit.toNat := by
    rw [BitVec.toNat_setWidth]; exact Nat.mod_eq_of_lt (by omega)
  show 1 ≤ (g.stallLimit.setWidth 12).toNat ∧ (g.stallLimit.setWidth 12).toNat ≤ 4095
  omega

theorem limitInRange_effect {c : Instr} {s t : State} (h : s.LimitInRange) (e : Effect c s t) : t.LimitInRange := by
  cases e with
  | steady k => exact limitInRange_congr h k.stallLimit
  | access _ _ k => exact limitInRange_congr h k.stallLimit
  | commit _ _ _ _ k => exact limitInRange_congr h k.stallLimit
  | tick u _ _ k ht => exact limitInRange_congr h (by rw [ht]; exact k.stallLimit)
  | sync _ _ k => exact limitInRange_congr h k.stallLimit
  | fault _ _ k => exact limitInRange_congr h k.stallLimit
  | frame _ _ _ k => exact limitInRange_congr h k.stallLimit
  | pop _ _ _ _ _ _ ht => exact limitInRange_congr h (by rw [ht]; rfl)
  | settings m r g b _ _ _ hg k => exact limitInRange_congr (limitInRange_writeGlobals _ b hg) k.stallLimit
  | window _ _ _ _ _ _ _ _ _ _ _ ht => exact limitInRange_congr h (by rw [ht]; rfl)
  | domain _ _ _ _ _ _ _ _ _ _ ht => exact limitInRange_congr h (by rw [ht]; rfl)
  | safe _ _ _ _ _ _ _ _ _ ht => exact limitInRange_congr h (by rw [ht]; rfl)
  | softReset _ _ _ _ _ _ ht => exact limitInRange_congr h (by rw [ht]; rfl)
  | fall _ _ ht =>
    have power : 1 ≤ (100 : BitVec 12).toNat ∧ (100 : BitVec 12).toNat ≤ 4095 := by decide
    rw [ht]; exact power
  | rise _ _ _ _ _ ht => exact limitInRange_congr h (by rw [ht]; rfl)
  | ignored _ ht => exact limitInRange_congr h (by rw [ht])

/-- Settles O28: the checks of SET_WINDOW and of SET_GLOBAL keep the two laws, and nothing else writes the records. -/
theorem stepKeepsWindowsApartAndTheLimitInRange : Obligations.StepKeepsWindowsApartAndTheLimitInRange := by
  refine ⟨fun s t h ht => ?_, fun s t h ht => ?_⟩
  · exact step_keeps (fun _ _ hu => windowsApart_congr hu rfl)
      (fun _ _ _ hu hv => windowsApart_effect hu (effect_of_exec hv)) h ht
  · exact step_keeps (fun _ _ hu => limitInRange_congr hu rfl)
      (fun _ _ _ hu hv => limitInRange_effect hu (effect_of_exec hv)) h ht

end Sys2Proof.Machine
end

section
/-! SUPPORT. READY and the response through every move, and the power-on values while RESET is low (O29); the laws right
after reset (O23). -/

namespace Sys2Proof.Machine

/-! ### Upright ports through every move -/

theorem upright_softReset {s : State} (h : s.Upright) : s.softReset.Upright := by
  intro p
  rw [port_softReset]
  have hp := h p
  generalize s.port p = u at hp
  have ended : u.endTxn.Upright := by
    unfold PortUnit.endTxn; split
    · exact hp
    · exact hp
    all_goals exact ⟨rfl, fun hc => absurd rfl hc⟩
  exact ⟨ended.1, ended.2⟩

theorem upright_writeWindow {s : State} (h : s.Upright) (i : WindowId) (w : WindowRecord) :
    (s.writeWindow i w).Upright := by
  intro p; rw [port_writeWindow]; exact ⟨(h p).1, (h p).2⟩

theorem upright_setGlobals {s : State} (h : s.Upright) (g : GlobalPayload) (b : Bool) : (s.setGlobals g b).Upright := by
  have hw : (s.writeGlobals g b).Upright := upright_of_ports h rfl rfl
  unfold State.setGlobals; split
  · exact hw
  · exact upright_inFreeOrder hw _ _ fun _ p hu => upright_expireIfDue hu p

theorem upright_managed {c : Instr} {s t : State} (h : s.Upright) (m : Managed c s t) : t.Upright := by
  cases m with
  | same ht => exact ht ▸ h
  | settings g b _ ht => exact ht ▸ upright_setGlobals h g b
  | pop q ht => exact ht ▸ upright_of_ports h rfl rfl
  | softReset _ ht => exact ht ▸ upright_softReset h
  | window i w _ _ _ ht => exact ht ▸ upright_writeWindow h i _
  | domain d x _ _ ht => exact ht ▸ upright_setDomain h d _
  | start d _ ht => exact ht ▸ upright_setDomain h d _
  | stop d _ ht => exact ht ▸ upright_arbitrate (upright_stopDomain h d)
  | sealBatch d _ ht => exact ht ▸ h.pool (poolOnly_sealOpen s d)
  | sync d ht => exact ht ▸ upright_arbitrate (upright_syncEvent h d)
  | safe i x _ ht => exact ht ▸ upright_of_ports h rfl rfl
  | arm d _ ht => exact ht ▸ upright_setDomain h d _

theorem upright_accept {s : State} (h : s.Upright) (p : Port) (acc : Access) :
    ((s.accept p acc).takeAccess p acc).Upright := by
  have hb : ((s.accept p acc).port p).Busy := by
    unfold State.accept; rw [State.port_setPort_self]; exact ⟨rfl, rfl⟩
  have ho : OnePort p s (s.accept p acc) := onePort_setPort s p _
  generalize s.accept p acc = u at hb ho
  unfold State.takeAccess; split
  · exact upright_arbitrate (h.onePort (ho.trans (onePort_applyRead u p _)) (upright_applyRead_self hb _))
  · split
    · exact h.onePort (ho.trans (onePort_setPort u p _)) (upright_respond_self u p _)
    · exact upright_arbitrate (h.onePort (ho.trans (onePort_reclassify u p)) (upright_reclassify_self hb))

theorem upright_finishPortWrite {s : State} (h : s.Upright) (p : Port) (acc : Access) : (s.finishPortWrite p acc).Upright :=
  upright_arbitrate (upright_contexts (upright_respond (upright_contexts h p _) p _) p.other _)

theorem upright_takeSyncEdge {s : State} (h : s.Upright) (l : SyncLine) (e : Edge) : (s.takeSyncEdge l e).Upright :=
  upright_of_ports (upright_inFreeOrder
    (upright_of_ports h rfl rfl : State.Upright { s with syncLevels := s.syncLevels.set l (edgeLevel e) })
    _ _ fun _ d hu => upright_syncEvent hu d) rfl rfl

theorem upright_takeFaultEdge {s : State} (h : s.Upright) (l : FaultLine) : (s.takeFaultEdge l).Upright :=
  upright_acceptFaults (s := { s with faultLevels := s.faultLevels.set l false }) (upright_of_ports h rfl rfl) _ _

/-- While RESET stays high every move leaves both ports upright. -/
theorem upright_move {c : Instr} {s t : State} (h : s.Upright) (hs : s.resetLow = false) (ht : t.resetLow = false)
    (m : Move c s t) : t.Upright := by
  have done : ∀ g, (s.completeAccess g).Upright := fun g => upright_of_ports h rfl rfl
  cases m with
  | idle ht => exact ht ▸ h
  | accept p acc _ ht => exact ht ▸ upright_accept h p acc
  | portWrite p a m x _ _ ht => exact ht ▸ upright_finishPortWrite (done _) p _
  | portRead p a r _ ht => exact ht ▸ upright_arbitrate (upright_respond (done _) p r)
  | commitWrite d acc _ _ ht => exact ht ▸ upright_arbitrate (upright_advanceCommit (done _) d)
  | sequenceWrite d acc _ _ ht => exact ht ▸ upright_arbitrate (upright_completeCommit (done _) d)
  | fillWrite d acc _ _ _ ht => exact ht ▸ upright_arbitrate (upright_advanceFill (done _) d)
  | captureRead p a x _ ht => exact ht ▸ upright_arbitrate (upright_storeCapture (done _) p x)
  | stall p _ ht => exact ht ▸ upright_expireHeld h p
  | tick _ _ ht =>
    exact ht ▸ upright_of_ports (upright_inFreeOrder h _ _ fun _ e hu => upright_takeTimed hu e) rfl rfl
  | monitor d _ ht => exact ht ▸ upright_arbitrate (upright_expireMonitor h d)
  | holdLimit p e _ ht => exact ht ▸ upright_expireContext h p e
  | syncEdge l e _ _ ht => exact ht ▸ upright_arbitrate (upright_takeSyncEdge h l e)
  | faultEdge l _ _ ht => exact ht ▸ upright_arbitrate (upright_takeFaultEdge h l)
  | faultRelease l _ _ ht => exact ht ▸ upright_of_ports h rfl rfl
  | fall _ _ he => rw [he] at ht; cases ht
  | rise v w b _ hl _ => rw [hs] at hl; cases hl
  | ignored _ ht => exact ht ▸ upright_of_ports h rfl rfl
  | frame n u r _ hu ht =>
    have hf : (s.shiftFrame n).Upright := upright_of_ports h rfl rfl
    exact ht ▸ upright_of_ports (upright_managed hf hu) rfl rfl

/-! ### While RESET is low -/

theorem readyFollowsRecord_iff_upright {s : State} (hl : s.resetLow = false) : s.ReadyFollowsRecord ↔ s.Upright := by
  simp only [State.ReadyFollowsRecord, State.Upright, PortUnit.Upright, hl, Bool.not_false, Bool.true_and]

theorem port_powerOn (s : State) (p : Port) : s.powerOn.port p = .inReset := by cases p <;> rfl

/-- At power-on values with RESET low, nothing can happen but the rise of RESET. -/
theorem move_of_quiet {c : Instr} {s t : State} (hl : s.resetLow = true) (hq : s = s.powerOn) (m : Move c s t) :
    t = s ∨ ∃ v w b, t = s.rise v w b := by
  have high : s.resetLow ≠ false := by simp [hl]
  have free : s.mport = none := by rw [hq]; rfl
  have idle : ∀ p, (s.port p).txn.phase = .idle := fun p => by rw [hq, port_powerOn]; rfl
  have off : ∀ d, (s.domain d).state = .disabled := fun d => by rw [hq, domain_powerOn]
  have empty : ∀ p e, s.context p e = .idle := fun p e => by rw [hq, context_powerOn]
  have noGrant : ∀ g, s.mport ≠ some g := fun g => by simp [free]
  cases m with
  | idle ht => exact .inl ht
  | rise v w b _ _ ht => exact .inr ⟨v, w, b, ht⟩
  | accept p acc hf _ => exact absurd (portFree_iff.1 hf).1 high
  | portWrite _ _ _ _ _ hg _ => exact absurd hg (noGrant _)
  | portRead _ _ _ hg _ => exact absurd hg (noGrant _)
  | commitWrite _ _ _ hg _ => exact absurd hg (noGrant _)
  | sequenceWrite _ _ _ hg _ => exact absurd hg (noGrant _)
  | fillWrite _ _ _ hg _ _ => exact absurd hg (noGrant _)
  | captureRead _ _ _ hg _ => exact absurd hg (noGrant _)
  | stall p hd _ => have := stallDue_held hd; rw [idle] at this; cases this
  | monitor d hd _ => have := monitorDue_run hd; rw [off] at this; cases this
  | holdLimit p e hd _ => simp only [State.holdLimitDue, empty, Bool.false_eq_true] at hd
  | tick _ h _ => exact absurd h high
  | syncEdge _ _ _ h _ => exact absurd h high
  | faultEdge _ _ h _ => exact absurd h high
  | faultRelease _ _ h _ => exact absurd h high
  | fall _ h _ => exact absurd h high
  | ignored h _ => exact absurd h high
  | frame _ _ _ h _ _ => exact absurd h high

theorem readyFollowsRecord_powerOn (s : State) : s.powerOn.ReadyFollowsRecord := by
  intro p; rw [port_powerOn]; exact ⟨rfl, fun hc => absurd rfl hc⟩

/-- The rise of RESET from power-on values: READY high at ports that hold no transaction. -/
theorem upright_rise {s : State} (hq : s = s.powerOn) (v : Vector Bool 4) (w : Vector Bool 2) (b : Bool) :
    (s.rise v w b).Upright := by
  have hp : ∀ p, (s.rise v w b).port p = { s.port p with ready := true } := by rintro ⟨⟩ <;> rfl
  intro p; rw [hp, hq, port_powerOn]; exact ⟨rfl, fun hc => absurd rfl hc⟩

/-- Powered on twice is powered on once. -/
theorem quietWhileLow_powerOn (s : State) : s.powerOn.QuietWhileLow := fun _ => rfl

theorem quietWhileLow_of_high {s : State} (hl : s.resetLow = false) : s.QuietWhileLow := fun h => by
  rw [hl] at h; cases h

/-- RESET goes low at RESET_FALL alone. -/
theorem low_of_effect {c : Instr} {s t : State} (hl : s.resetLow = false) (e : Effect c s t) (ht : t.resetLow = true) :
    t = s.abandonAccess.powerOn := by
  have kept : t.resetLow = false → t = s.abandonAccess.powerOn := fun h => by rw [ht] at h; cases h
  cases e with
  | fall _ _ h => exact h
  | steady k => exact kept (k.resetLow.trans hl)
  | access _ _ k => exact kept (k.resetLow.trans hl)
  | commit _ _ _ _ k => exact kept (k.resetLow.trans hl)
  | tick u _ _ k h => exact kept (by rw [h]; exact k.resetLow.trans hl)
  | sync _ _ k => exact kept (k.resetLow.trans hl)
  | fault _ _ k => exact kept (k.resetLow.trans hl)
  | frame _ _ _ k => exact kept (k.resetLow.trans hl)
  | pop _ _ _ _ _ _ h => exact kept (by rw [h]; exact hl)
  | settings _ _ _ _ _ _ _ _ k => exact kept (k.resetLow.trans hl)
  | window _ _ _ _ _ _ _ _ _ _ _ h => exact kept (by rw [h]; exact hl)
  | domain _ _ _ _ _ _ _ _ _ _ h => exact kept (by rw [h]; exact hl)
  | safe _ _ _ _ _ _ _ _ _ h => exact kept (by rw [h]; exact hl)
  | softReset _ _ _ _ _ _ h => exact kept (by rw [h]; exact hl)
  | rise _ _ _ _ _ h => exact kept (by rw [h]; rfl)
  | ignored _ h => exact kept (by rw [h]; exact hl)

/-- The two laws together are kept by every command. -/
theorem exec_keeps_readyAndReset {c : Instr} {s t : State} (hr : s.ReadyFollowsRecord) (hq : s.QuietWhileLow)
    (h : exec c s = .next t) : t.ReadyFollowsRecord ∧ t.QuietWhileLow := by
  have m := move_of_exec h
  cases hs : s.resetLow with
  | true =>
    rcases move_of_quiet hs (hq hs) m with rfl | ⟨v, w, b, rfl⟩
    · exact ⟨hr, hq⟩
    · exact ⟨(readyFollowsRecord_iff_upright rfl).2 (upright_rise (hq hs) v w b), quietWhileLow_of_high rfl⟩
  | false =>
    cases ht : t.resetLow with
    | true =>
      rw [low_of_effect hs (effect_of_exec h) ht]
      exact ⟨readyFollowsRecord_powerOn _, quietWhileLow_powerOn _⟩
    | false =>
      have hu := upright_move ((readyFollowsRecord_iff_upright hs).1 hr) hs ht m
      exact ⟨(readyFollowsRecord_iff_upright ht).2 hu, quietWhileLow_of_high ht⟩

/-- Settles O29: at power-on values only RESET can rise, and with RESET high every move leaves the ports upright. -/
theorem stepKeepsReadyAndReset : Obligations.StepKeepsReadyAndReset := by
  intro s t hr hq ht
  refine step_keeps (P := fun u => u.ReadyFollowsRecord ∧ u.QuietWhileLow) (fun u l hu => ?_)
    (fun c u v hu hv => exec_keeps_readyAndReset hu.1 hu.2 hv) ⟨hr, hq⟩ ht
  exact ⟨hu.1, fun hl => congrArg (fun v : State => { v with pending := l }) (hu.2 hl)⟩

/-! ### The laws right after reset (O23) -/

theorem port_reset (p : Port) : State.reset.port p = {} := by cases p <;> rfl

theorem context_reset (p : Port) (c : ContextId) : State.reset.context p c = .idle := by
  simp [State.context, port_reset]

theorem domain_reset (d : DomainId) : State.reset.domain d = {} := by simp [State.domain, State.reset]

theorem windowsApart_reset : State.reset.WindowsApart := by
  intro i j _ a h; simp [State.window, State.reset, WindowRecord.covers] at h

theorem poolLaw_reset : State.reset.PoolLaw :=
  poolLaw_of_free (fun i => by simp [State.reset]) fun d k => by simp [State.slot, domain_reset]

theorem batchLaw_reset : State.reset.BatchLaw := by
  refine ⟨fun d => ?_, fun w hw => ?_, List.Pairwise.nil, fun p acc hg => ?_, fun p c hc => ?_, fun p c e hc _ => ?_⟩
  · rw [domain_reset]; exact Domain.batchLaw_softReset {}
  · cases hw
  · cases hg
  · rw [context_reset] at hc; cases hc
  · rw [context_reset] at hc; cases hc

/-- Settles O23: nothing is captured, staged, waiting or granted right after reset. -/
theorem lawsHoldAtReset : Obligations.LawsHoldAtReset := by
  have limit : State.reset.LimitInRange := ⟨by decide, by decide⟩
  have ready : State.reset.ReadyFollowsRecord := fun p => by
    rw [port_reset]; exact ⟨rfl, fun hc => absurd rfl hc⟩
  have guarded := guarded_of_no_capture windowsApart_reset fun p c w l ph hc => by rw [context_reset] at hc; cases hc
  exact ⟨rfl, ⟨rfl, by decide⟩, windowsApart_reset, limit, ready, quietWhileLow_of_high rfl, poolLaw_reset, batchLaw_reset,
    captureLaw_of batchLaw_reset guarded⟩

end Sys2Proof.Machine
end

section
/-! SUPPORT. The outcome of a write and the path of a read, clause by clause of R4, R5 and R6 (O36). -/

namespace Sys2Proof.Machine

/-! ### Writes -/

/-- A SAFING domain names the word, the word lies in its STAGED window, and the port is its writer (R6, first case). -/
def State.LockedFor (s : State) (p : Port) (a : Addr) (d : DomainId) : Prop :=
  s.NamedBySafing d a ∧ (s.domain d).cfg.writer = p ∧
    ∃ i, s.InWindow i a ∧ (s.window i).kind = .staged ∧ (s.window i).domain = d

theorem lockedNaming_iff {s : State} (h : s.WindowsApart) (p : Port) (a : Addr) (d : DomainId) :
    s.lockedNaming p a = some d ↔ s.LockedFor p a d := by
  unfold State.lockedNaming State.LockedFor
  split
  · rename_i hc
    rw [covering_none_iff] at hc
    simp only [reduceCtorEq, false_iff]
    rintro ⟨-, -, i, hi, -⟩; exact hc i hi
  · rename_i i hc
    constructor
    · intro he
      split at he
      · rename_i hk
        obtain ⟨hk, hn, hw⟩ := hk
        cases he
        exact ⟨(safingNames_iff s _ a).1 hn, hw, i, (covering_iff h i a).1 hc, hk, rfl⟩
      · cases he
    · rintro ⟨hn, hw, j, hj, hk, rfl⟩
      rw [(covering_iff h j a).2 hj] at hc; cases hc
      rw [if_pos ⟨hk, (safingNames_iff s _ a).2 hn, hw⟩]

theorem any_safingNames_iff (s : State) (a : Addr) :
    (List.finRange 4).any (s.safingNames a) = true ↔ ∃ d, s.NamedBySafing d a := by
  simp only [List.any_eq_true, List.mem_finRange, true_and, safingNames_iff]

/-- Any other word takes the outcome of the table (R4). -/
theorem classifyWrite_unnamed {s : State} {a : Addr} (h : ∀ d, ¬ s.NamedBySafing d a) (p : Port) :
    s.classifyWrite p a = s.writeTable p a := by
  unfold State.classifyWrite
  rw [if_neg fun hn => by obtain ⟨d, hd⟩ := (any_safingNames_iff s a).1 hn; exact h d hd]

/-- A write to a word that SAFING domains name is locked where it is a STAGED write of one of them (R6, first case). -/
theorem classifyWrite_locked {s : State} (h : s.WindowsApart) {p : Port} {a : Addr} {d : DomainId}
    (hd : s.LockedFor p a d) : s.classifyWrite p a = .faultLock d := by
  unfold State.classifyWrite
  rw [if_pos ((any_safingNames_iff s a).2 ⟨d, hd.1⟩), (lockedNaming_iff h p a d).2 hd]

/-- Any other write to a word that SAFING domains name is held under SAFE_FILL (R6, second case). -/
theorem classifyWrite_safeFill {s : State} (h : s.WindowsApart) {p : Port} {a : Addr} (hn : ∃ d, s.NamedBySafing d a)
    (hl : ∀ d, ¬ s.LockedFor p a d) : s.classifyWrite p a = .hold .safeFill := by
  have : s.lockedNaming p a = none := Option.eq_none_iff_forall_ne_some.2 fun d hd => hl d ((lockedNaming_iff h p a d).1 hd)
  unfold State.classifyWrite
  rw [if_pos ((any_safingNames_iff s a).2 hn), this]

theorem writeTable_outside {s : State} {a : Addr} (h : ∀ i, ¬ s.InWindow i a) (p : Port) : s.writeTable p a = .plain := by
  unfold State.writeTable; rw [(covering_none_iff s a).2 h]

theorem writeTable_staged {s : State} (h : s.WindowsApart) {i : WindowId} {a : Addr} (hi : s.InWindow i a)
    (hk : (s.window i).kind = .staged) (p : Port) :
    s.writeTable p a = if (s.domain (s.window i).domain).cfg.writer = p then
        stagedOutcome (s.domain (s.window i).domain).state (s.window i).domain ((s.window i).sealsAt a)
      else .foreignWrite i := by
  unfold State.writeTable; rw [(covering_iff h i a).2 hi]; dsimp only; rw [hk]

theorem writeTable_snapshot {s : State} (h : s.WindowsApart) {i : WindowId} {a : Addr} (hi : s.InWindow i a)
    (hk : (s.window i).kind = .snapshot) (p : Port) :
    s.writeTable p a =
      if (s.window i).writer = p ∧ s.captureAt p.other i = true then .hold .capture else .plain := by
  unfold State.writeTable; rw [(covering_iff h i a).2 hi]; dsimp only; rw [hk]

theorem sealsAt_iff (w : WindowRecord) (a : Addr) :
    w.sealsAt a = true ↔ ∃ o, w.sealOffset = some o ∧ a.toNat = w.base.toNat + o.toNat := by
  unfold WindowRecord.sealsAt; split <;> simp [*]

/-- The writer port's outcome in a STAGED window, by the domain's state. -/
theorem stagedOutcome_spec (st : DomainState) (d : DomainId) (b : Bool) :
    (st = .disabled → stagedOutcome st d b = .plain) ∧ (st = .run → stagedOutcome st d b = .stage d b) ∧
      (st = .stopping → stagedOutcome st d b = .hold .stopping) ∧
      (st = .safing ∨ st = .safed → stagedOutcome st d b = .faultLock d) := by
  cases st <;> simp [stagedOutcome]

/-! ### Reads -/

theorem holds_iff (w : WindowId) (x : Context) : x.holds w = true ↔ ∃ copy t0, x = .held w copy t0 := by
  cases x with
  | idle => simp [Context.holds]
  | capturing v l ph => simp [Context.holds]
  | held v l t0 => simp [Context.holds]

theorem heldContext_none_iff (s : State) (p : Port) (w : WindowId) :
    s.heldContext p w = none ↔ ∀ c copy t0, s.context p c ≠ .held w copy t0 := by
  simp only [State.heldContext, List.find?_eq_none, List.mem_finRange, true_implies, holds_iff, not_exists, ne_eq]

/-- The search takes the lowest HELD context. -/
theorem heldContext_lowest {s : State} {p : Port} {w : WindowId} {c : ContextId} {copy : List Word} {t0 : Tick}
    (h : s.context p c = .held w copy t0) (hu : ∀ e, e < c → ∀ l u, s.context p e ≠ .held w l u) :
    s.heldContext p w = some c := by
  unfold State.heldContext
  rw [List.find?_eq_some_iff_getElem]
  refine ⟨(holds_iff _ _).2 ⟨copy, t0, h⟩, c.val, by simpa using c.isLt, by simp, fun j hj => ?_⟩
  rw [Bool.not_eq_true', ← Bool.not_eq_true, holds_iff]
  rintro ⟨l, u, hh⟩
  exact hu _ (by simpa [Fin.lt_def] using hj) l u hh

theorem classifyRead_outside {s : State} {a : Addr} (h : ∀ i, ¬ s.InWindow i a) (p : Port) :
    s.classifyRead p a = .memory := by
  unfold State.classifyRead; rw [(covering_none_iff s a).2 h]

theorem classifyRead_memory {s : State} (h : s.WindowsApart) {i : WindowId} {a : Addr} (hi : s.InWindow i a) {p : Port}
    (hk : (s.window i).kind = .staged ∨ (s.window i).writer = p) : s.classifyRead p a = .memory := by
  unfold State.classifyRead; rw [(covering_iff h i a).2 hi]; dsimp only; rw [if_pos hk]

/-- The reader port's read of a SNAPSHOT window's lead word captures it (R5). -/
theorem classifyRead_lead {s : State} (h : s.WindowsApart) {i : WindowId} {a : Addr} (hi : s.InWindow i a) {p : Port}
    (hk : (s.window i).kind = .snapshot) (hw : (s.window i).writer ≠ p) (ha : a = (s.window i).base) :
    s.classifyRead p a = .capture i := by
  unfold State.classifyRead; rw [(covering_iff h i a).2 hi]; dsimp only
  rw [if_neg (by simp [hk, hw]), if_pos ha]

/-- The reader port's read of another word is served from a HELD context (R5). -/
theorem classifyRead_held {s : State} (h : s.WindowsApart) {i : WindowId} {a : Addr} (hi : s.InWindow i a) {p : Port}
    (hk : (s.window i).kind = .snapshot) (hw : (s.window i).writer ≠ p) (ha : a ≠ (s.window i).base) {c : ContextId}
    (hc : s.heldContext p i = some c) : s.classifyRead p a = .serve i c := by
  unfold State.classifyRead; rw [(covering_iff h i a).2 hi]; dsimp only
  rw [if_neg (by simp [hk, hw]), if_neg ha, hc]

/-- The reader port's read of another word goes to memory when no context is HELD (R5). -/
theorem classifyRead_unheld {s : State} (h : s.WindowsApart) {i : WindowId} {a : Addr} (hi : s.InWindow i a) {p : Port}
    (hk : (s.window i).kind = .snapshot) (hw : (s.window i).writer ≠ p) (ha : a ≠ (s.window i).base)
    (hc : s.heldContext p i = none) : s.classifyRead p a = .memory := by
  unfold State.classifyRead; rw [(covering_iff h i a).2 hi]; dsimp only
  rw [if_neg (by simp [hk, hw]), if_neg ha, hc]

/-- Settles O36, a clause of R4, R5 or R6 at a time. -/
theorem accessesAreClassified : Obligations.AccessesAreClassified := by
  intro s p a h
  refine ⟨fun d hd => classifyWrite_locked h hd, fun hn hl => classifyWrite_safeFill h hn hl, fun hn => ?_,
    fun ho => classifyRead_outside ho p, fun i hi => ⟨classifyRead_memory h hi, fun hk hw => ?_⟩⟩
  · rw [classifyWrite_unnamed hn]
    refine ⟨fun ho => writeTable_outside ho p, fun i hi => ⟨fun hk => ?_, fun hk => ?_⟩⟩
    · rw [writeTable_staged h hi hk]
      refine ⟨fun hw => if_neg hw, fun hw => ?_⟩
      rw [if_pos hw]
      obtain ⟨disabled, run, stopping, locked⟩ := stagedOutcome_spec (s.domain (s.window i).domain).state
        (s.window i).domain ((s.window i).sealsAt a)
      exact ⟨disabled, fun hr => ⟨_, run hr, sealsAt_iff _ a⟩, stopping, locked⟩
    · rw [writeTable_snapshot h hi hk]
      have captured := captureAt_iff s p.other i
      exact ⟨fun hw hc => if_pos ⟨hw, captured.2 hc⟩, fun _ hc => if_neg fun hh => hc (captured.1 hh.2),
        fun hw => if_neg fun hh => hw hh.1⟩
  · exact ⟨classifyRead_lead h hi hk hw, fun ha =>
      ⟨fun hn => classifyRead_unheld h hi hk hw ha ((heldContext_none_iff s p i).2 hn),
        fun c copy t0 hc hu => classifyRead_held h hi hk hw ha (heldContext_lowest hc hu)⟩⟩

end Sys2Proof.Machine
end

section
/-! SUPPORT. The value of a memory read, lane by lane: the overlays of batches and the safe overlay (O37, O38, O39, O48). -/

namespace Sys2Proof.Machine

/-! ### A word changed lane by lane along a list -/

/-- A lane that no item changes is kept. -/
theorem lane_foldl_of_kept {α : Type} (f : Word → α → Word) (l : Fin 4) (items : List α)
    (h : ∀ m ∈ items, ∀ x, lane (f x m) l = lane x l) (x : Word) : lane (items.foldl f x) l = lane x l := by
  induction items generalizing x with
  | nil => rfl
  | cons m items ih =>
    rw [List.foldl_cons, ih fun n hn => h n (List.mem_cons_of_mem _ hn), h m (List.mem_cons_self ..)]

/-- The last item that gives a lane gives its byte. -/
theorem lane_foldl_of_last {α : Type} (f : Word → α → Word) (l : Fin 4) (older newer : List α) (k : α) (b : Byte)
    (hk : ∀ x, lane (f x k) l = b) (h : ∀ m ∈ newer, ∀ x, lane (f x m) l = lane x l) (x : Word) :
    lane ((older ++ k :: newer).foldl f x) l = b := by
  rw [List.foldl_append, List.foldl_cons, lane_foldl_of_kept f l newer h, hk]

/-! ### The safe overlay (R114) -/

/-- The safe entry gives the lane of the word: enabled, of a SAFING domain, naming the word, the lane in its mask. -/
def State.SafeGives (s : State) (a : Addr) (l : Fin 4) (j : SafeId) : Prop :=
  (s.safeEntry j).enabled = true ∧ (s.safeEntry j).addr = a ∧ (s.domain (s.safeEntry j).domain).state = .safing ∧
    (s.safeEntry j).lanes.getLsbD l.val = true

theorem lane_safeLanes_of_gives {s : State} {a : Addr} {l : Fin 4} {j : SafeId} (h : s.SafeGives a l j) (x : Word) :
    lane (s.safeLanes a x j) l = lane (s.safeEntry j).data l := by
  obtain ⟨he, ha, hs, hm⟩ := h
  unfold State.safeLanes
  rw [if_pos ⟨he, ha, hs⟩, lane_mergeLanes, if_pos hm]

theorem lane_safeLanes_of_not {s : State} {a : Addr} {l : Fin 4} {j : SafeId} (h : ¬ s.SafeGives a l j) (x : Word) :
    lane (s.safeLanes a x j) l = lane x l := by
  unfold State.safeLanes
  dsimp only
  split
  · rename_i hc
    rw [lane_mergeLanes, if_neg fun hm => h ⟨hc.1, hc.2.1, hc.2.2, hm⟩]
  · rfl

theorem lane_safeOverlay_of_none {s : State} {a : Addr} {l : Fin 4} (h : ∀ j, ¬ s.SafeGives a l j) (x : Word) :
    lane (s.safeOverlay a x) l = lane x l :=
  lane_foldl_of_kept _ l _ (fun j _ => lane_safeLanes_of_not (h j)) x

/-- The entries in ascending order, parted at one of them. -/
theorem finRange_parts {n : Nat} (i : Fin n) :
    ∃ older newer, List.finRange n = older ++ i :: newer ∧ ∀ j ∈ newer, i < j := by
  obtain ⟨older, newer, h⟩ := List.append_of_mem (List.mem_finRange i)
  refine ⟨older, newer, h, ?_⟩
  have hp := List.pairwise_lt_finRange n
  rw [h, List.pairwise_append, List.pairwise_cons] at hp
  exact hp.2.1.1

theorem lane_safeOverlay_of_highest {s : State} {a : Addr} {l : Fin 4} {i : SafeId} (h : s.SafeGives a l i)
    (hu : ∀ j, i < j → ¬ s.SafeGives a l j) (x : Word) :
    lane (s.safeOverlay a x) l = lane (s.safeEntry i).data l := by
  obtain ⟨older, newer, hp, hn⟩ := finRange_parts i
  unfold State.safeOverlay
  rw [hp]
  exact lane_foldl_of_last _ l older newer i _ (lane_safeLanes_of_gives h)
    (fun j hj => lane_safeLanes_of_not (hu j (hn j hj))) x

/-- Settles O39: the highest entry is the last the safe overlay takes. -/
theorem safeOverlayComesLast : Obligations.SafeOverlayComesLast :=
  fun _ _ _ _ _ h hu => lane_safeOverlay_of_highest h hu _

/-! ### The overlay of a batch (R56) -/

theorem lane_overlaySlot_of_entry {s : State} {d : DomainId} {a : Addr} {l : Fin 4} {k : SlotId} {j : EntryId}
    {e : StagingEntry} (hj : s.entryFor d k a = some j) (he : s.entries[j] = some e) (hm : e.lanes.getLsbD l.val = true)
    (x : Word) : lane (s.overlaySlot d a x k) l = lane e.data l := by
  unfold State.overlaySlot
  simp only [hj, Option.bind_some, he]
  rw [lane_mergeLanes, if_pos hm]

theorem lane_overlaySlot_of_not {s : State} {d : DomainId} {a : Addr} {l : Fin 4} {k : SlotId}
    (h : ∀ j e, s.entryFor d k a = some j → s.entries[j] = some e → ¬ e.lanes.getLsbD l.val = true) (x : Word) :
    lane (s.overlaySlot d a x k) l = lane x l := by
  unfold State.overlaySlot
  split
  · rfl
  · rename_i e hb
    obtain ⟨j, hj, he⟩ := Option.bind_eq_some_iff.1 hb
    rw [lane_mergeLanes, if_neg (h j e hj he)]

theorem windowOverlay_outside {s : State} {a : Addr} (h : ∀ i, ¬ s.InWindow i a) (p : Port) (x : Word) :
    s.windowOverlay p a x = x := by
  unfold State.windowOverlay; rw [(covering_none_iff s a).2 h]

theorem windowOverlay_staged {s : State} (h : s.WindowsApart) {i : WindowId} {a : Addr} (hi : s.InWindow i a)
    (hk : (s.window i).kind = .staged) (p : Port) (x : Word) :
    s.windowOverlay p a x = s.stagedOverlay p (s.window i).domain a x := by
  unfold State.windowOverlay; rw [(covering_iff h i a).2 hi]; dsimp only; rw [if_pos hk]

theorem windowOverlay_snapshot {s : State} (h : s.WindowsApart) {i : WindowId} {a : Addr} (hi : s.InWindow i a)
    (hk : (s.window i).kind = .snapshot) (p : Port) (x : Word) : s.windowOverlay p a x = x := by
  unfold State.windowOverlay; rw [(covering_iff h i a).2 hi]; dsimp only; rw [if_neg (by simp [hk])]

/-- The owner overlay: the writer port of a RUN or STOPPING domain (R5). -/
theorem stagedOverlay_owner {s : State} {p : Port} {d : DomainId} (hw : (s.domain d).cfg.writer = p)
    (hs : (s.domain d).state = .run ∨ (s.domain d).state = .stopping) (a : Addr) (x : Word) :
    s.stagedOverlay p d a x = s.ownerOverlay d a x := by
  unfold State.stagedOverlay
  rcases hs with hs | hs <;> rw [hs] <;> exact if_pos hw

/-- The foreign overlay: any other port of a domain with a commit under way (R5). -/
theorem stagedOverlay_foreign {s : State} {p : Port} {d : DomainId}
    (h : (s.domain d).state = .safing ∨
      (((s.domain d).state = .run ∨ (s.domain d).state = .stopping) ∧ (s.domain d).cfg.writer ≠ p))
    (a : Addr) (x : Word) : s.stagedOverlay p d a x = s.foreignOverlay d a x := by
  unfold State.stagedOverlay
  rcases h with hs | ⟨hs | hs, hw⟩
  · rw [hs]
  · rw [hs]; exact if_neg hw
  · rw [hs]; exact if_neg hw

theorem stagedOverlay_none {s : State} {d : DomainId} (h : (s.domain d).state = .disabled ∨ (s.domain d).state = .safed)
    (p : Port) (a : Addr) (x : Word) : s.stagedOverlay p d a x = x := by
  unfold State.stagedOverlay
  rcases h with hs | hs <;> rw [hs]

/-! ### The writer port's own bytes (O38) -/

theorem mem_sealedOldestFirst (s : State) (d : DomainId) (k : SlotId) :
    k ∈ s.sealedOldestFirst d ↔ (s.slot d k).state = .sealed := by
  simp only [State.sealedOldestFirst, List.mem_insertionSort, List.mem_filter, List.mem_finRange, true_and,
    decide_eq_true_eq]

theorem sealedOldestFirst_sorted (s : State) (d : DomainId) :
    (s.sealedOldestFirst d).Pairwise fun j k => s.sealAge d k ≤ s.sealAge d j :=
  List.pairwise_insertionSort (fun j k => s.sealAge d k ≤ s.sealAge d j) _

/-- Without a safe entry for the lane, a read shows what memory and the window's overlay give. -/
theorem lane_readValue {s : State} {a : Addr} {l : Fin 4} (h : ∀ j, ¬ s.SafeGives a l j) (p : Port) :
    lane (s.readValue p a) l = lane (s.windowOverlay p a (Memory.readWord s.mem a)) l := lane_safeOverlay_of_none h _

/-- Settles O38: the owner overlay takes the batches in that order, and no safe entry names the word. -/
theorem writerReadsItsNewestBytes : Obligations.WriterReadsItsNewestBytes := by
  intro s p a i d l h hi hk hd hw hs hn
  have safe : ∀ j, ¬ s.SafeGives a l j := fun j ⟨he, ha, hst, _⟩ => hn _ ⟨hst, j, he, rfl, ha⟩
  have value : lane (s.readValue p a) l = lane (s.ownerOverlay d a (Memory.readWord s.mem a)) l := by
    rw [lane_readValue safe, windowOverlay_staged h hi hk, hd, stagedOverlay_owner hw hs]
  refine ⟨mem_sealedOldestFirst s d, sealedOldestFirst_sorted s d, ?_, fun ho => ?_⟩
  · rintro older k newer e ho ⟨j, hj, he, hm⟩ hnewer
    rw [value, State.ownerOverlay, ho]
    exact lane_foldl_of_last _ l older newer k _ (lane_overlaySlot_of_entry hj he hm)
      (fun m hmem => lane_overlaySlot_of_not fun i f hi hf hb => hnewer m hmem f ⟨i, hi, hf, hb⟩) _
  · rw [value, State.ownerOverlay, lane_foldl_of_kept, lane_readWord]
    exact fun k hk => lane_overlaySlot_of_not fun i f hi hf hb => ho k hk f ⟨i, hi, hf, hb⟩

/-! ### A port's read in memory (O48) -/

theorem mem_slotsIn (s : State) (d : DomainId) (st : SlotState) (k : SlotId) :
    k ∈ s.slotsIn d st ↔ (s.slot d k).state = st := by
  simp only [State.slotsIn, List.mem_filter, List.mem_finRange, true_and, decide_eq_true_eq]

theorem slotsIn_unique {s : State} {d : DomainId} {k : SlotId} {st : SlotState} (h : (s.slot d k).state = st)
    (hu : ∀ j, (s.slot d j).state = st → j = k) : s.slotsIn d st = [k] := by
  have hp : (s.slotsIn d st).Perm [k] :=
    (List.perm_ext_iff_of_nodup ((List.nodup_finRange 4).filter _) (List.nodup_singleton k)).2 fun j => by
      exact (mem_slotsIn s d st j).trans ⟨fun hj => List.mem_singleton.2 (hu j hj), fun hj => List.mem_singleton.1 hj ▸ h⟩
  exact List.perm_singleton.1 hp

/-- The slot's batch stages the lane of the word with this entry. -/
def State.Stages (s : State) (d : DomainId) (a : Addr) (l : Fin 4) (k : SlotId) (e : StagingEntry) : Prop :=
  ∃ j ∈ (s.slot d k).entries, s.entries[j] = some e ∧ e.addr = a ∧ e.lanes.getLsbD l.val = true

theorem lane_overlaySlot_of_unstaged {s : State} {d : DomainId} {a : Addr} {l : Fin 4} {k : SlotId}
    (h : ∀ e, ¬ s.Stages d a l k e) (x : Word) : lane (s.overlaySlot d a x k) l = lane x l :=
  lane_overlaySlot_of_not (fun j e hj he hm => by
    obtain ⟨hjk, f, hf, hfa⟩ := entryFor_some hj
    rw [he] at hf; cases hf
    exact h e ⟨j, hjk, he, hfa, hm⟩) x

/-- The one entry of a batch for a word is the one its lookup finds. -/
theorem lane_overlaySlot_of_staged {s : State} {d : DomainId} {a : Addr} {l : Fin 4} {k : SlotId} {e : StagingEntry}
    (h : s.Stages d a l k e) (hu : ∀ i ∈ (s.slot d k).entries, ∀ f, s.entries[i] = some f → f.addr = a → f = e)
    (x : Word) : lane (s.overlaySlot d a x k) l = lane e.data l := by
  obtain ⟨j, hj, he, ha, hm⟩ := h
  cases hx : s.entryFor d k a with
  | none => exact absurd ha (entryFor_none hx j hj e he)
  | some i =>
    obtain ⟨hi, f, hf, hfa⟩ := entryFor_some hx
    obtain rfl := hu i hi f hf hfa
    exact lane_overlaySlot_of_entry hx hf hm x

/-- PORT_READ_COMPLETE: the port answers with the value of this completion, and the arbiter acts (R23). -/
theorem exec_portReadComplete {s : State} {p : Port} {a : Addr} (hg : s.mport = some ⟨.port p, .read a⟩) :
    exec .portReadComplete s = .next
      ({ s with mport := none }.setPort p { s.port p with
        txn := {}, ready := true, response := some (.okayRead (s.readValue p a)) }).arbitrate := by
  show execPortReadComplete s = _
  unfold execPortReadComplete
  rw [hg]
  cases p <;> rfl

/-- Settles O48: the completion's full next state, and the lanes by the covering window and its domain's state. -/
theorem portReadCompletes : Obligations.PortReadCompletes := by
  refine ⟨fun s p a hg => exec_portReadComplete hg, fun s p a l h hsafe => ?_⟩
  have safe : ∀ j, ¬ s.SafeGives a l j := fun j ⟨he, ha, hs, hm⟩ => by rw [hsafe j he ha hs] at hm; cases hm
  refine ⟨fun ho => ?_, fun i hi => ⟨fun hk => ?_, fun hk => ⟨fun hs => ?_, fun hs => ?_⟩⟩⟩
  · rw [lane_readValue safe, windowOverlay_outside ho, lane_readWord]
  · rw [lane_readValue safe, windowOverlay_snapshot h hi hk, lane_readWord]
  · rw [lane_readValue safe, windowOverlay_staged h hi hk, stagedOverlay_none hs, lane_readWord]
  · have value : lane (s.readValue p a) l =
        lane (s.foreignOverlay (s.window i).domain a (Memory.readWord s.mem a)) l := by
      rw [lane_readValue safe, windowOverlay_staged h hi hk, stagedOverlay_foreign hs]
    refine ⟨fun hno => ?_, fun k e hkc hone hst huniq => ?_⟩
    · rw [value, State.foreignOverlay, lane_foldl_of_kept, lane_readWord]
      exact fun k hk => lane_overlaySlot_of_unstaged (hno k ((mem_slotsIn s _ _ k).1 hk))
    · rw [value, State.foreignOverlay, slotsIn_unique hkc hone]
      exact lane_overlaySlot_of_staged hst huniq _

/-! ### A foreign read sees the COMMITTING batch alone (O37) -/

/-- Two states give the foreign overlay of a word alike when their COMMITTING batches of the domain are alike. -/
theorem foreignOverlay_congr {s t : State} {d : DomainId}
    (h : ∀ k, (s.slot d k).state = .committing ∨ (t.slot d k).state = .committing →
      t.slot d k = s.slot d k ∧ ∀ j ∈ (s.slot d k).entries, t.entries[j] = s.entries[j]) (a : Addr) (x : Word) :
    t.foreignOverlay d a x = s.foreignOverlay d a x := by
  have slots : t.slotsIn d .committing = s.slotsIn d .committing := by
    refine List.filter_congr fun k _ => decide_eq_decide.2 ⟨fun hk => ?_, fun hk => ?_⟩
    · rw [← (h k (.inr hk)).1]; exact hk
    · rw [(h k (.inl hk)).1]; exact hk
  unfold State.foreignOverlay
  rw [slots]
  refine List.foldl_ext _ _ x fun y k hk => ?_
  obtain ⟨hslot, hent⟩ := h k (.inl ((mem_slotsIn s d .committing k).1 hk))
  have found : t.entryFor d k a = s.entryFor d k a := by
    unfold State.entryFor
    rw [hslot]
    exact List.find?_congr fun j hj => by unfold State.entryNames; rw [hent j hj]
  unfold State.overlaySlot
  rw [found]
  cases hf : s.entryFor d k a with
  | none => rfl
  | some j => rw [Option.bind_some, Option.bind_some, hent j (entryFor_some hf).1]

theorem safeOverlay_congr {s t : State} (hs : t.safe = s.safe) (hd : ∀ e, (t.domain e).state = (s.domain e).state)
    (a : Addr) (x : Word) : t.safeOverlay a x = s.safeOverlay a x := by
  have entry : ∀ j, t.safeEntry j = s.safeEntry j := fun j => by simp [State.safeEntry, hs]
  exact List.foldl_ext _ _ x fun y j _ => by simp only [State.safeLanes, entry, hd]

theorem response_contexts (s : State) (q p : Port) (v : Vector Context 2) :
    ((s.setPort q { s.port q with contexts := v }).port p).response = (s.port p).response := by
  rw [State.port_setPort]; split
  · subst_vars; rfl
  · rfl

theorem response_setTxn (s : State) (q p : Port) (x : Txn) : ((s.setTxn q x).port p).response = (s.port p).response := by
  rw [State.port_setTxn]; split
  · subst_vars; rfl
  · rfl

theorem response_markGranted (s : State) (r : Requester) (p : Port) :
    ((s.markGranted r).port p).response = (s.port p).response := by
  cases r with
  | fill d => exact congrArg PortUnit.response (port_congr rfl rfl p)
  | commit d => exact congrArg PortUnit.response (port_congr rfl rfl p)
  | capture q => exact response_contexts s q p _
  | port q =>
    exact (congrArg PortUnit.response (port_congr rfl rfl p)).trans
      (response_setTxn s q p { (s.port q).txn with phase := .memory })

/-- The arbiter gives no response. -/
theorem response_arbitrate (s : State) (p : Port) : (s.arbitrate.port p).response = (s.port p).response := by
  unfold State.arbitrate
  split
  · rfl
  · split
    · rfl
    · exact (congrArg PortUnit.response (port_congr rfl rfl p)).trans (response_markGranted s _ p)

/-- The word formed for a foreign read of a STAGED window is the same (R5, R57, R58). -/
theorem readValue_foreign_congr {s t : State} {p : Port} {a : Addr} {i : WindowId} (h : s.WindowsApart)
    (hi : s.InWindow i a) (hk : (s.window i).kind = .staged) (hw : (s.domain (s.window i).domain).cfg.writer ≠ p)
    (htw : (t.domain (s.window i).domain).cfg.writer = (s.domain (s.window i).domain).cfg.writer)
    (hwin : t.windows = s.windows) (hsafe : t.safe = s.safe) (hmem : t.mem = s.mem)
    (hd : ∀ e, (t.domain e).state = (s.domain e).state)
    (hc : ∀ k, (s.slot (s.window i).domain k).state = .committing ∨ (t.slot (s.window i).domain k).state = .committing →
      t.slot (s.window i).domain k = s.slot (s.window i).domain k ∧
        ∀ j ∈ (s.slot (s.window i).domain k).entries, t.entries[j] = s.entries[j]) :
    t.readValue p a = s.readValue p a := by
  have win := window_eq hwin
  have ti : t.InWindow i a := by unfold State.InWindow; rw [win]; exact hi
  have overlay : t.windowOverlay p a (Memory.readWord s.mem a) = s.windowOverlay p a (Memory.readWord s.mem a) := by
    rw [windowOverlay_staged (windowsApart_congr h hwin) ti (win i ▸ hk), windowOverlay_staged h hi hk, win]
    unfold State.stagedOverlay
    rw [hd, htw, foreignOverlay_congr hc]
    cases (s.domain (s.window i).domain).state with
    | run => rw [if_neg hw, if_neg hw]
    | stopping => rw [if_neg hw, if_neg hw]
    | disabled => rfl
    | safing => rfl
    | safed => rfl
  unfold State.readValue
  rw [hmem, overlay, safeOverlay_congr hsafe hd]

/-- Settles O37: the foreign overlay reads the COMMITTING batch alone, and the arbiter leaves responses as they are. -/
theorem foreignReadSeesNoStagedBytes : Obligations.ForeignReadSeesNoStagedBytes := by
  intro s t p a i d hgs hgt h hi hk hd hw htw hwin hsafe hmem hst hc
  subst hd
  refine ⟨_, _, exec_portReadComplete hgs, exec_portReadComplete hgt, ?_⟩
  rw [response_arbitrate, response_arbitrate, State.port_setPort_self, State.port_setPort_self,
    readValue_foreign_congr h hi hk hw htw hwin hsafe hmem hst hc]

end Sys2Proof.Machine
end

section
/-! SUPPORT. The frames of the window table and the reports, byte by byte (O10, O14, O15). -/

namespace Sys2Proof.Machine

/-! ### A frame that is taken -/

theorem frameTaken_of_listening {s : State} (h : s.Listening) : s.frameTaken = true := by
  simp [State.frameTaken, h.1, h.2]

/-- The command of an accepted frame is carried out on the state its frame leaves. -/
theorem carryOut_of_listening {s : State} (h : s.Listening) (n : Nat) (f : State → State × Reply) :
    s.carryOut n f = (f (s.shiftFrame n)).1.answer (f (s.shiftFrame n)).2 := by
  unfold State.carryOut; rw [if_pos (frameTaken_of_listening h)]

/-- A command that changes nothing leaves its reply alone. -/
theorem carryOut_unchanged {s : State} (h : s.Listening) (n : Nat) {f : State → State × Reply} {r : Reply}
    (hf : f (s.shiftFrame n) = (s.shiftFrame n, r)) : s.carryOut n f = s.replied n r := by
  rw [carryOut_of_listening h, hf]; rfl

/-! ### Index bytes (R184) -/

/-- A byte below the bound of a table, taken as an index into it. -/
theorem index_of_eq {n : Nat} {b : Byte} {i : Fin n} (h : b.toNat = i.val) :
    (if hb : b.toNat < n then some (⟨b.toNat, hb⟩ : Fin n) else none) = some i := by
  rw [dif_pos (h ▸ i.isLt)]; exact congrArg some (Fin.ext h)

theorem index_of_le {n : Nat} {b : Byte} (h : n ≤ b.toNat) :
    (if hb : b.toNat < n then some (⟨b.toNat, hb⟩ : Fin n) else none) = none := dif_neg (Nat.not_lt.2 h)

/-! ### Numbers, most significant byte first (R183) -/

/-- Byte `i` of a number, counted from the least significant one. -/
def byteAt (n i : Nat) : Byte := BitVec.ofNat 8 (n / 256 ^ i)

theorem extract_eq_byteAt {w : Nat} (v : BitVec w) (i : Nat) : v.extractLsb' (8 * i) 8 = byteAt v.toNat i := by
  apply BitVec.eq_of_toNat_eq
  simp [byteAt, Nat.shiftRight_eq_div_pow, Nat.pow_mul]

theorem bytes16_eq (v : BitVec 16) : bytes16 v = [byteAt v.toNat 1, byteAt v.toNat 0] := by
  rw [← extract_eq_byteAt, ← extract_eq_byteAt]; rfl

theorem bytes24_eq (v : BitVec 24) : bytes24 v = [byteAt v.toNat 2, byteAt v.toNat 1, byteAt v.toNat 0] := by
  rw [← extract_eq_byteAt, ← extract_eq_byteAt, ← extract_eq_byteAt]; rfl

theorem bytesAddr_eq (a : Addr) : bytesAddr a = [byteAt a.toNat 2, byteAt a.toNat 1, byteAt a.toNat 0] := by
  have : (a.setWidth 24).toNat = a.toNat := by
    rw [BitVec.toNat_setWidth]; exact Nat.mod_eq_of_lt (by have := a.isLt; omega)
  rw [bytesAddr, bytes24_eq, this]

theorem byteAt_zero (n : Nat) : byteAt n 0 = BitVec.ofNat 8 n := by simp [byteAt]

theorem lanes_setWidth_eq (m : Lanes) : m.setWidth 8 = byteAt m.toNat 0 := by
  rw [byteAt_zero, BitVec.ofNat_toNat]

theorem bytes16_setWidth_eq {w : Nat} (v : BitVec w) (h : w ≤ 16) :
    bytes16 (v.setWidth 16) = [byteAt v.toNat 1, byteAt v.toNat 0] := by
  have : (v.setWidth 16).toNat = v.toNat := by
    rw [BitVec.toNat_setWidth]; exact Nat.mod_eq_of_lt (Nat.lt_of_lt_of_le v.isLt (Nat.pow_le_pow_right (by decide) h))
  rw [bytes16_eq, this]

/-! ### The reports (R185) -/

/-- The seal offset field of a report: 0xFFFF where it is absent. -/
def sealNumber : Option Byte → Nat
  | none => 0xFFFF
  | some o => o.toNat

theorem windowKind_code_eq (k : WindowKind) : k.code = if k = .staged then 0 else 1 := by cases k <;> rfl

theorem portCode_eq (p : Port) : portCode p = if p = .a then 0 else 1 := by cases p <;> rfl

theorem windowReport_eq (w : WindowRecord) : w.report =
    [byteOfYes w.enabled, if w.kind = .staged then 0 else 1, byteAt w.base.toNat 2, byteAt w.base.toNat 1,
      byteAt w.base.toNat 0, byteAt w.length.toNat 1, byteAt w.length.toNat 0, byteAt w.domain.val 0,
      byteAt (sealNumber w.sealOffset) 1, byteAt (sealNumber w.sealOffset) 0, if w.writer = .a then 0 else 1,
      byteAt w.holdLimit.toNat 1, byteAt w.holdLimit.toNat 0, byteOfYes w.autoRelease] := by
  unfold WindowRecord.report
  rw [bytesAddr_eq, bytes16_setWidth_eq w.length (by decide), bytes16_eq w.holdLimit, ← byteAt_zero, windowKind_code_eq,
    portCode_eq]
  cases w.sealOffset with
  | none => rfl
  | some o => dsimp only; rw [bytes16_setWidth_eq o (by decide)]; rfl

theorem safeReport_eq (e : SafeEntry) : e.report =
    [byteOfYes e.enabled, byteAt e.domain.val 0, byteAt e.addr.toNat 2, byteAt e.addr.toNat 1, byteAt e.addr.toNat 0,
      lane e.data 3, lane e.data 2, lane e.data 1, lane e.data 0, byteAt e.lanes.toNat 0] := by
  unfold SafeEntry.report
  rw [bytesAddr_eq, lanes_setWidth_eq, ← byteAt_zero]
  rfl

/-- The sync line field of a report: 4 where there is none. -/
def syncLineByte : Option SyncLine → Byte
  | none => 4
  | some l => byteAt l.val 0

/-- The sequence word field of a report: 0xFFFFFF where it is absent. -/
def sequenceNumber : Option Addr → Nat
  | none => 0xFFFFFF
  | some a => a.toNat

theorem syncLineCode_eq (l : Option SyncLine) : syncLineCode l = syncLineByte l := by
  cases l with
  | none => rfl
  | some l => exact (byteAt_zero l.val).symm

theorem edgeCode_eq (e : Edge) : edgeCode e = if e = .rising then 0 else 1 := by cases e <;> rfl

theorem lossPolicy_code_eq (l : LossPolicy) : l.code = if l = .hold then 0 else if l = .commit then 1 else 2 := by
  cases l <;> rfl

theorem exhaustion_code_eq (x : ExhaustionPolicy) : x.code = if x = .stall then 0 else 1 := by cases x <;> rfl

theorem binding_code_eq (b : FaultBinding) :
    b.code = if b = .none then 0 else if b = .fault0 then 1 else if b = .fault1 then 2 else 3 := by cases b <;> rfl

theorem domainRecordReport_eq (r : DomainRecord) : r.report =
    [if r.writer = .a then 0 else 1, syncLineByte r.syncLine, if r.syncEdge = .rising then 0 else 1,
      byteAt r.maxInterval.toNat 1, byteAt r.maxInterval.toNat 0,
      if r.lossPolicy = .hold then 0 else if r.lossPolicy = .commit then 1 else 2,
      if r.exhaustion = .stall then 0 else 1,
      if r.binding = .none then 0 else if r.binding = .fault0 then 1 else if r.binding = .fault1 then 2 else 3,
      byteAt (sequenceNumber r.sequenceWord) 2, byteAt (sequenceNumber r.sequenceWord) 1,
      byteAt (sequenceNumber r.sequenceWord) 0, byteOfYes r.notify] := by
  unfold DomainRecord.report
  rw [bytes16_eq, portCode_eq, syncLineCode_eq, edgeCode_eq, lossPolicy_code_eq, exhaustion_code_eq, binding_code_eq]
  cases r.sequenceWord with
  | none => rfl
  | some a => dsimp only; rw [bytesAddr_eq]; rfl

/-- The slots' part of a GET_DOMAIN report. -/
theorem slotsReport_eq (v : Vector BatchSlot 4) : v.toList.flatMap BatchSlot.stateAndCount =
    v[0].stateAndCount ++ v[1].stateAndCount ++ v[2].stateAndCount ++ v[3].stateAndCount := by
  have : v.toList = [v[0], v[1], v[2], v[3]] := by
    apply List.ext_getElem
    · simp
    · intro i h1 h2
      simp only [Vector.length_toList] at h1
      interval_cases i <;> simp
  rw [this]; simp

theorem stateAndCount_eq (b : BatchSlot) : b.stateAndCount = [b.state.code, byteAt b.entries.length 0] := by
  rw [byteAt_zero]; rfl

theorem domainReport_eq (d : Domain) : d.report = d.cfg.report ++ [d.state.code,
    d.slots[0].state.code, byteAt d.slots[0].entries.length 0, d.slots[1].state.code, byteAt d.slots[1].entries.length 0,
    d.slots[2].state.code, byteAt d.slots[2].entries.length 0, d.slots[3].state.code, byteAt d.slots[3].entries.length 0,
    byteAt d.commitNumber.toNat 1, byteAt d.commitNumber.toNat 0, byteAt d.lastPeriod.toNat 1, byteAt d.lastPeriod.toNat 0,
    byteAt d.longestPeriod.toNat 1, byteAt d.longestPeriod.toNat 0, byteAt d.monitorCount.toNat 1,
    byteAt d.monitorCount.toNat 0] := by
  unfold Domain.report
  rw [slotsReport_eq]
  simp only [stateAndCount_eq, bytes16_eq, List.append_assoc, List.cons_append, List.nil_append]

/-- The rank's part of a GET_BATCH report: three bytes of 0 where there is none. -/
def rankBytes : Option Count → List Byte
  | none => [0, 0, 0]
  | some r => [1, byteAt r.toNat 1, byteAt r.toNat 0]

theorem batchReport_eq (b : BatchSlot) :
    b.report = [b.state.code, byteAt b.entries.length 0] ++ rankBytes b.rank := by
  unfold BatchSlot.report
  rw [stateAndCount_eq]
  cases b.rank with
  | none => rfl
  | some r => dsimp only; rw [bytes16_eq]; rfl

theorem stagingReport_some (e : StagingEntry) : stagingReport (some e) =
    [1, byteAt e.addr.toNat 2, byteAt e.addr.toNat 1, byteAt e.addr.toNat 0, lane e.data 3, lane e.data 2, lane e.data 1,
      lane e.data 0, byteAt e.lanes.toNat 0, byteAt e.domain.val 0, byteAt e.slot.val 0, byteAt e.position 0] := by
  unfold stagingReport
  dsimp only
  rw [bytesAddr_eq, lanes_setWidth_eq, byteAt_zero e.domain.val, byteAt_zero e.slot.val, byteAt_zero e.position]
  rfl

/-! ### The commands that report (O10) -/

theorem exec_getWindow {s : State} (h : s.Listening) {b : Byte} {i : WindowId} (hi : b.toNat = i.val) (tail : Nat) :
    exec (.getWindow b tail) s = .next (s.replied (8 * 3 + tail) (reported (s.window i).report)) :=
  congrArg Host.Outcome.next <| carryOut_unchanged h _ <| by
    have : windowOfByte b = some i := index_of_eq hi
    unfold State.doGetWindow; rw [this]; rfl

theorem exec_getWindow_badIndex {s : State} (h : s.Listening) {b : Byte} (hb : 15 < b.toNat) (tail : Nat) :
    exec (.getWindow b tail) s = .next (s.replied (8 * 3 + tail) (bare .badIndex)) :=
  congrArg Host.Outcome.next <| carryOut_unchanged h _ <| by
    have : windowOfByte b = none := index_of_le hb
    unfold State.doGetWindow; rw [this]

theorem exec_getSafe {s : State} (h : s.Listening) {b : Byte} {i : SafeId} (hi : b.toNat = i.val) (tail : Nat) :
    exec (.getSafe b tail) s = .next (s.replied (8 * 3 + tail) (reported (s.safeEntry i).report)) :=
  congrArg Host.Outcome.next <| carryOut_unchanged h _ <| by
    have : safeOfByte b = some i := index_of_eq hi
    unfold State.doGetSafe; rw [this]; rfl

theorem exec_getSafe_badIndex {s : State} (h : s.Listening) {b : Byte} (hb : 31 < b.toNat) (tail : Nat) :
    exec (.getSafe b tail) s = .next (s.replied (8 * 3 + tail) (bare .badIndex)) :=
  congrArg Host.Outcome.next <| carryOut_unchanged h _ <| by
    have : safeOfByte b = none := index_of_le hb
    unfold State.doGetSafe; rw [this]

theorem exec_getDomain {s : State} (h : s.Listening) {b : Byte} {d : DomainId} (hd : b.toNat = d.val) (tail : Nat) :
    exec (.getDomain b tail) s = .next (s.replied (8 * 3 + tail) (reported (s.domain d).report)) :=
  congrArg Host.Outcome.next <| carryOut_unchanged h _ <| by
    have : domainOfByte b = some d := index_of_eq hd
    unfold State.onDomain; rw [this]; rfl

theorem exec_getDomain_badIndex {s : State} (h : s.Listening) {b : Byte} (hb : 3 < b.toNat) (tail : Nat) :
    exec (.getDomain b tail) s = .next (s.replied (8 * 3 + tail) (bare .badIndex)) :=
  congrArg Host.Outcome.next <| carryOut_unchanged h _ <| by
    have : domainOfByte b = none := index_of_le hb
    unfold State.onDomain; rw [this]

theorem exec_getBatch {s : State} (h : s.Listening) {b c : Byte} {d : DomainId} {k : SlotId} (hd : b.toNat = d.val)
    (hk : c.toNat = k.val) (tail : Nat) :
    exec (.getBatch b c tail) s = .next (s.replied (8 * 4 + tail) (reported (s.slot d k).report)) :=
  congrArg Host.Outcome.next <| carryOut_unchanged h _ <| by
    have hd : domainOfByte b = some d := index_of_eq hd
    have hk : slotOfByte c = some k := index_of_eq hk
    unfold State.doGetBatch; rw [hd, hk]; rfl

theorem exec_getBatch_badIndex {s : State} (h : s.Listening) {b c : Byte} (hb : 3 < b.toNat ∨ 3 < c.toNat) (tail : Nat) :
    exec (.getBatch b c tail) s = .next (s.replied (8 * 4 + tail) (bare .badIndex)) :=
  congrArg Host.Outcome.next <| carryOut_unchanged h _ <| by
    unfold State.doGetBatch
    rcases hb with hb | hb
    · have : domainOfByte b = none := index_of_le hb
      rw [this]
    · have : slotOfByte c = none := index_of_le hb
      rw [this]
      cases domainOfByte b <;> rfl

theorem exec_peekStaging {s : State} (h : s.Listening) {b : Byte} {i : EntryId} (hi : b.toNat = i.val) (tail : Nat) :
    exec (.peekStaging b tail) s = .next (s.replied (8 * 3 + tail) (reported (stagingReport s.entries[i]))) :=
  congrArg Host.Outcome.next <| carryOut_unchanged h _ <| by
    have : entryOfByte b = some i := index_of_eq hi
    unfold State.doPeekStaging; rw [this]; rfl

theorem exec_peekStaging_badIndex {s : State} (h : s.Listening) {b : Byte} (hb : 63 < b.toNat) (tail : Nat) :
    exec (.peekStaging b tail) s = .next (s.replied (8 * 3 + tail) (bare .badIndex)) :=
  congrArg Host.Outcome.next <| carryOut_unchanged h _ <| by
    have : entryOfByte b = none := index_of_le hb
    unfold State.doPeekStaging; rw [this]

/-- Settles O10: each report's layout, and that its command changes only the reply. -/
theorem tablesAndPoolReported : Obligations.TablesAndPoolReported := by
  intro s b c tail h
  refine ⟨fun hb => exec_getWindow_badIndex h hb tail, fun i hi => ?_, fun hb => exec_getSafe_badIndex h hb tail,
    fun i hi => ?_, fun hb => exec_getDomain_badIndex h hb tail, fun d hd => ?_,
    fun hb => exec_getBatch_badIndex h hb tail, fun d k hd hk => ?_, fun hb => exec_peekStaging_badIndex h hb tail,
    fun i hi => ⟨fun hn => ?_, fun e he => ?_⟩⟩
  · rw [exec_getWindow h hi, windowReport_eq]; rfl
  · rw [exec_getSafe h hi, safeReport_eq]; rfl
  · rw [exec_getDomain h hd, domainReport_eq, domainRecordReport_eq]; rfl
  · rw [exec_getBatch h hd hk, batchReport_eq]; rfl
  · rw [exec_peekStaging h hi, hn]; rfl
  · rw [exec_peekStaging h hi, he, stagingReport_some]; rfl

end Sys2Proof.Machine
end

section
/-! SUPPORT. SET_WINDOW: the record it stores and the five checks of R10 in their order (O14, O15). -/

namespace Sys2Proof.Machine

theorem yesOfByte_eq (b : Byte) : yesOfByte b = decide (b ≠ 0) := by
  rw [yesOfByte, bne_eq, decide_not]; rfl

theorem stored_snapshot {w : WindowPayload} (h : w.kind = 1) : w.stored =
    { enabled := yesOfByte w.enabled, kind := .snapshot, base := w.base.setWidth 22, length := w.length.setWidth 9
      writer := if w.writerPort = 1 then .b else .a, holdLimit := w.holdLimit, autoRelease := yesOfByte w.autoRelease } := by
  unfold WindowPayload.stored; rw [if_pos h]

theorem stored_staged {w : WindowPayload} (h : w.kind ≠ 1) : w.stored =
    { enabled := yesOfByte w.enabled, kind := .staged, base := w.base.setWidth 22, length := w.length.setWidth 9
      domain := domainLowBits w.domain, sealOffset := w.sealField.map (·.setWidth 8) } := by
  unfold WindowPayload.stored; rw [if_neg h]

/-- Settles O15, by the kind code. -/
theorem storedWindowRecord : Obligations.StoredWindowRecord := by
  intro w
  refine ⟨fun h => ?_, fun h => ?_⟩
  · rw [stored_snapshot h, yesOfByte_eq, yesOfByte_eq]
  · have offset : w.sealField.map (·.setWidth 8) =
        if w.sealOffset = 0xFFFF then none else some (w.sealOffset.setWidth 8) := by
      unfold WindowPayload.sealField; split <;> rfl
    rw [stored_staged h, yesOfByte_eq, offset]; rfl

/-! ### The checks of R10 -/

/-- A field of an enabled record is out of range (R10, check 2). -/
def OutOfRange (w : WindowPayload) : Prop :=
  w.enabled ≠ 0 ∧
    (1 < w.kind.toNat ∨ 4194303 < w.base.toNat + w.length.toNat - 1 ∨
      (w.kind = 0 ∧ (w.length.toNat < 1 ∨ 256 < w.length.toNat ∨ 3 < w.domain.toNat ∨
        (w.sealOffset ≠ 0xFFFF ∧ w.length.toNat ≤ w.sealOffset.toNat))) ∨
      (w.kind = 1 ∧ (w.length.toNat < 2 ∨ 16 < w.length.toNat ∨ 1 < w.writerPort.toNat)))

theorem windowKindOfCode_none {b : Byte} (h : 1 < b.toNat) : windowKindOfCode b = none := by
  have h0 : b ≠ 0 := by rintro rfl; simp at h
  have h1 : b ≠ 1 := by rintro rfl; simp at h
  unfold windowKindOfCode; rw [if_neg h0, if_neg h1]

theorem byte_cases (b : Byte) : b = 0 ∨ b = 1 ∨ 1 < b.toNat := by
  by_cases h0 : b.toNat = 0
  · exact .inl (BitVec.eq_of_toNat_eq h0)
  · by_cases h1 : b.toNat = 1
    · exact .inr (.inl (BitVec.eq_of_toNat_eq h1))
    · exact .inr (.inr (by omega))

theorem portOfCode_isNone_iff (b : Byte) : (portOfCode b).isNone = true ↔ 1 < b.toNat := by
  rcases byte_cases b with rfl | rfl | h
  · decide
  · decide
  · have h0 : b ≠ 0 := by rintro rfl; simp at h
    have h1 : b ≠ 1 := by rintro rfl; simp at h
    unfold portOfCode; rw [if_neg h0, if_neg h1]; simp [h]

theorem badValue_iff (w : WindowPayload) : w.badValue = true ↔ OutOfRange w := by
  unfold WindowPayload.badValue OutOfRange
  rw [Bool.and_eq_true, yesOfByte_eq, decide_eq_true_eq]
  refine and_congr_right fun _ => ?_
  rcases byte_cases w.kind with hk | hk | hk
  · have code : windowKindOfCode w.kind = some .staged := by rw [hk]; rfl
    have known : ¬ 1 < w.kind.toNat := by rw [hk]; decide
    have other : w.kind ≠ 1 := by rw [hk]; decide
    rw [code]
    by_cases hs : w.sealOffset = 0xFFFF
    · have absent : w.sealField = none := if_pos hs
      simp only [absent, WindowPayload.leavesAddresses, Bool.or_eq_true, decide_eq_true_eq, Bool.false_eq_true]
      tauto
    · have present : w.sealField = some w.sealOffset := if_neg hs
      simp only [present, WindowPayload.leavesAddresses, Bool.or_eq_true, decide_eq_true_eq]
      tauto
  · have code : windowKindOfCode w.kind = some .snapshot := by rw [hk]; rfl
    have known : ¬ 1 < w.kind.toNat := by rw [hk]; decide
    have other : w.kind ≠ 0 := by rw [hk]; decide
    rw [code]
    simp only [WindowPayload.leavesAddresses, Bool.or_eq_true, decide_eq_true_eq, portOfCode_isNone_iff]
    tauto
  · rw [windowKindOfCode_none hk]; simp [hk]

theorem liveStaged_iff (s : State) (w : WindowRecord) :
    s.liveStaged w = true ↔ w.enabled = true ∧ w.kind = .staged ∧ (s.domain w.domain).state ≠ .disabled := by
  simp only [State.liveStaged, Bool.and_eq_true, decide_eq_true_eq]

/-- A capture of the window is in progress at one of the ports (R12). -/
theorem captureAt_either_iff (s : State) (i : WindowId) :
    (s.captureAt .a i || s.captureAt .b i) = true ↔ ∃ p c copy phase, s.context p c = .capturing i copy phase := by
  rw [Bool.or_eq_true, captureAt_iff, captureAt_iff]
  constructor
  · rintro (h | h)
    · exact ⟨.a, h⟩
    · exact ⟨.b, h⟩
  · rintro ⟨p, h⟩
    cases p
    · exact .inl h
    · exact .inr h

/-- An enabled record meets another enabled window or the sequence word of a domain that is not DISABLED (R13). -/
theorem overlaps_iff {s : State} {i : WindowId} {w : WindowRecord} (h : w.enabled = true) :
    s.overlaps i w = true ↔
      (∃ j, j ≠ i ∧ (s.window j).enabled = true ∧ (s.window j).base.toNat < w.base.toNat + w.length.toNat ∧
        w.base.toNat < (s.window j).base.toNat + (s.window j).length.toNat) ∨
      ∃ d q, (s.domain d).state ≠ .disabled ∧ (s.domain d).cfg.sequenceWord = some q ∧ w.base.toNat ≤ q.toNat ∧
        q.toNat < w.base.toNat + w.length.toNat := by
  unfold State.overlaps
  rw [Bool.or_eq_true, List.any_eq_true, List.any_eq_true]
  refine or_congr (exists_congr fun j => ?_) (exists_congr fun d => ?_)
  · simp only [List.mem_finRange, true_and, Bool.and_eq_true, decide_eq_true_eq, rangesMeet, and_assoc]
  · cases hq : (s.domain d).cfg.sequenceWord with
    | none => simp
    | some q => simp [WindowRecord.covers, h]

/-! ### What SET_WINDOW answers (O14) -/

section
variable {s : State} {b : Byte} {w : WindowPayload} {i : WindowId}

theorem doSetWindow_badIndex (hi : windowOfByte b = none) : s.doSetWindow b w = (s, bare .badIndex) := by
  unfold State.doSetWindow; rw [hi]

theorem doSetWindow_badValue (hi : windowOfByte b = some i) (hv : w.badValue = true) :
    s.doSetWindow b w = (s, bare .badValue) := by
  unfold State.doSetWindow; rw [hi]; exact if_pos hv

theorem doSetWindow_busy (hi : windowOfByte b = some i) (hv : ¬ w.badValue = true)
    (hl : s.liveStaged (s.window i) = true ∨ s.liveStaged w.stored = true ∨
      (s.captureAt .a i || s.captureAt .b i) = true) : s.doSetWindow b w = (s, bare .busy) := by
  unfold State.doSetWindow; rw [hi]; dsimp only; rw [if_neg hv]
  by_cases hlive : (s.liveStaged (s.window i) || s.liveStaged w.stored) = true
  · rw [if_pos hlive]
  · rw [if_neg hlive, if_pos]
    rw [Bool.or_eq_true, not_or] at hlive
    exact (hl.resolve_left hlive.1).resolve_left hlive.2

theorem doSetWindow_passed (hi : windowOfByte b = some i) (hv : ¬ w.badValue = true)
    (hl : ¬ s.liveStaged (s.window i) = true) (hw : ¬ s.liveStaged w.stored = true)
    (hc : ¬ (s.captureAt .a i || s.captureAt .b i) = true) :
    s.doSetWindow b w =
      if (w.stored.enabled && s.overlaps i w.stored) = true then (s, bare .overlap)
      else (s.writeWindow i w.stored, bare .ok) := by
  unfold State.doSetWindow; rw [hi]; dsimp only
  rw [if_neg hv, if_neg (by rw [Bool.or_eq_true, not_or]; exact ⟨hl, hw⟩), if_neg hc]

end

/-- A SET_WINDOW that is refused leaves everything but the reply. -/
theorem exec_setWindow_refused {s : State} (h : s.Listening) {b : Byte} {w : WindowPayload} {tail : Nat} {r : Reply}
    (hr : (s.shiftFrame (8 * 17 + tail)).doSetWindow b w = (s.shiftFrame (8 * 17 + tail), r)) :
    exec (.setWindow b w tail) s = .next (s.replied (8 * 17 + tail) r) :=
  congrArg Host.Outcome.next (carryOut_unchanged h _ hr)

/-- The contexts HELD for a window, released (R14). -/
theorem released_eq (i : WindowId) : Context.released i = fun x =>
    match x with
    | .held v copy t0 => if v = i then .idle else .held v copy t0
    | .capturing v copy phase => .capturing v copy phase
    | .idle => .idle := by
  funext x
  cases x with
  | held v copy t0 => simp [Context.released, Context.holds]
  | capturing v copy phase => rfl
  | idle => rfl

/-- Settles O14: the checks in the words of R10, then SET_WINDOW's branch for each. -/
theorem windowRecordWritten : Obligations.WindowRecordWritten := by
  intro s b w tail h
  refine ⟨fun hb => exec_setWindow_refused h (doSetWindow_badIndex (index_of_le hb)), fun i hb => ?_⟩
  have hi : windowOfByte b = some i := index_of_eq hb
  have value := badValue_iff w
  have live := liveStaged_iff (s.shiftFrame (8 * 17 + tail))
  have captured := captureAt_either_iff (s.shiftFrame (8 * 17 + tail)) i
  have meets : (w.stored.enabled && (s.shiftFrame (8 * 17 + tail)).overlaps i w.stored) = true ↔ _ :=
    Bool.and_eq_true_iff.trans (and_congr_right fun he => overlaps_iff he)
  refine ⟨fun hv => ?_, fun hv hbusy => ?_, fun hv hl hw hc hm => ?_, fun hv hl hw hc hm => ?_⟩
  · exact exec_setWindow_refused h (doSetWindow_badValue hi (value.2 hv))
  · refine exec_setWindow_refused h (doSetWindow_busy hi (fun hn => hv (value.1 hn)) ?_)
    exact hbusy.imp (live _).2 (Or.imp (live _).2 captured.2)
  · refine exec_setWindow_refused h ?_
    rw [doSetWindow_passed hi (fun hn => hv (value.1 hn)) (fun hn => hl ((live _).1 hn)) (fun hn => hw ((live _).1 hn))
      (fun hn => hc (captured.1 hn))]
    exact if_pos (meets.2 hm)
  · have done : (s.shiftFrame (8 * 17 + tail)).doSetWindow b w =
        ((s.shiftFrame (8 * 17 + tail)).writeWindow i w.stored, bare .ok) := by
      rw [doSetWindow_passed hi (fun hn => hv (value.1 hn)) (fun hn => hl ((live _).1 hn))
        (fun hn => hw ((live _).1 hn)) (fun hn => hc (captured.1 hn))]
      exact if_neg fun hn => hm (meets.1 hn)
    show Host.Outcome.next (s.carryOut _ _) = _
    rw [carryOut_of_listening h, done]
    unfold State.writeWindow PortUnit.releaseWindow
    rw [released_eq]
    rfl

end Sys2Proof.Machine
end

section
/-! SUPPORT. A classified access at its acceptance and at the release of a hold (O41). -/

namespace Sys2Proof.Machine

/-! ### A port's unit and the other operations -/

theorem setPort_setPort (s : State) (p : Port) (u v : PortUnit) : (s.setPort p u).setPort p v = s.setPort p v := by
  cases p <;> rfl

theorem raise_setPort (s : State) (p : Port) (u : PortUnit) (e : Event) :
    (s.setPort p u).raise e = (s.raise e).setPort p u := by
  have enabled : (s.setPort p u).kindEnabled e.kind = s.kindEnabled e.kind := by cases p <;> rfl
  unfold State.raise
  rw [enabled]
  split
  · cases p <;> rfl
  · rfl

/-- What classification reads: the two tables, the domains and the contexts. -/
structure SameView (s t : State) : Prop where
  windows : t.windows = s.windows
  safe : t.safe = s.safe
  domains : t.domains = s.domains
  contexts : ∀ p, (t.port p).contexts = (s.port p).contexts

section
variable {s t : State} (h : SameView s t)
include h

theorem SameView.domain (d : DomainId) : t.domain d = s.domain d := by simp [State.domain, h.domains]

theorem SameView.covering (a : Addr) : t.covering a = s.covering a := by
  simp only [State.covering, window_eq h.windows]

theorem SameView.safingNames (a : Addr) (d : DomainId) : t.safingNames a d = s.safingNames a d := by
  have entry : ∀ i, t.safeEntry i = s.safeEntry i := fun i => by simp [State.safeEntry, h.safe]
  simp only [State.safingNames, State.named, entry, h.domain]

theorem SameView.captureAt (p : Port) (w : WindowId) : t.captureAt p w = s.captureAt p w := by
  simp only [State.captureAt, h.contexts]

theorem SameView.heldContext (p : Port) (w : WindowId) : t.heldContext p w = s.heldContext p w := by
  simp only [State.heldContext, State.context, h.contexts]

theorem SameView.classifyWrite (p : Port) (a : Addr) : t.classifyWrite p a = s.classifyWrite p a := by
  have names : t.safingNames a = s.safingNames a := funext (h.safingNames a)
  simp only [State.classifyWrite, State.lockedNaming, State.writeTable, h.covering, window_eq h.windows, h.domain,
    h.captureAt, names]

theorem SameView.classifyRead (p : Port) (a : Addr) : t.classifyRead p a = s.classifyRead p a := by
  simp only [State.classifyRead, h.covering, window_eq h.windows, h.heldContext]

end

/-- A port's unit replaced by one with the same contexts is seen alike by classification. -/
theorem sameView_setPort (s : State) (p : Port) (u : PortUnit) (hu : u.contexts = (s.port p).contexts) :
    SameView s (s.setPort p u) := by
  refine ⟨by simp, by simp, by simp, fun q => ?_⟩
  rw [State.port_setPort]; split
  · subst_vars; exact hu
  · rfl

/-! ### The outcomes -/

/-- A hold whose waiting time is under the stall limit only writes the record (R25, R26). -/
theorem hold_of_not_due {s : State} {p : Port} {t0 : Tick} (h0 : (s.port p).txn.startTick.getD s.tick = t0)
    (hl : (s.tick - t0).toNat < s.stallLimit.toNat) (c : HoldCause) :
    s.hold p c = s.setTxn p { (s.port p).txn with phase := .held, cause := some c, startTick := some t0 } := by
  unfold State.hold
  dsimp only
  rw [h0, if_neg]
  simp only [State.stallDue, State.setTxn, State.port_setPort_self, State.waitingTime, State.setPort_tick,
    State.setPort_stallLimit, true_and, decide_eq_true_eq]
  omega

theorem reclassify_plain {s : State} {p : Port} (h : s.classifyWrite p (accessAddr (s.port p).txn.access) = .plain) :
    s.reclassify p = s.setTxn p { (s.port p).txn with phase := .request, cause := none } := by
  unfold State.reclassify; rw [h]; rfl

theorem reclassify_hold {s : State} {p : Port} {c : HoldCause}
    (h : s.classifyWrite p (accessAddr (s.port p).txn.access) = .hold c) : s.reclassify p = s.hold p c := by
  unfold State.reclassify; rw [h]; rfl

theorem reclassify_foreignWrite {s : State} {p : Port} {w : WindowId}
    (h : s.classifyWrite p (accessAddr (s.port p).txn.access) = .foreignWrite w) :
    s.reclassify p = (s.raise (.foreignWrite w p (accessAddr (s.port p).txn.access))).respond p .errorWrite := by
  unfold State.reclassify; rw [h]; rfl

theorem reclassify_faultLock {s : State} {p : Port} {d : DomainId}
    (h : s.classifyWrite p (accessAddr (s.port p).txn.access) = .faultLock d) :
    s.reclassify p = (s.raise (.faultLock d p (accessAddr (s.port p).txn.access))).respond p .errorWrite := by
  unfold State.reclassify; rw [h]; rfl

theorem reclassify_stage {s : State} {p : Port} {d : DomainId} {b : Bool}
    (h : s.classifyWrite p (accessAddr (s.port p).txn.access) = .stage d b) : s.reclassify p = s.arriveStaged p d b := by
  unfold State.reclassify; rw [h]; rfl

/-! ### Acceptance -/

/-- A port that holds no transaction accepts one while RESET is high (R17). -/
theorem exec_accept {s : State} {p : Port} (hl : s.resetLow = false) (hp : (s.port p).txn.phase = .idle) (acc : Access) :
    exec (.transactionAccept p acc) s = .next ((s.accept p acc).takeAccess p acc) :=
  congrArg Host.Outcome.next (if_pos (portFree_iff.2 ⟨hl, hp⟩))

theorem sameView_accept (s : State) (p : Port) (acc : Access) : SameView s (s.accept p acc) :=
  sameView_setPort s p _ rfl

theorem takeAccess_write (s : State) (p : Port) (a : Addr) {m : Lanes} (hm : m ≠ 0) (x : Word) :
    s.takeAccess p (.write a m x) = (s.reclassify p).arbitrate := if_neg hm

@[simp] theorem accept_txn (s : State) (p : Port) (acc : Access) : ((s.accept p acc).port p).txn = { access := acc } := by
  simp [State.accept]

/-- An accepted write is classified as the state before it classifies it. -/
theorem classifyWrite_accept (s : State) (p : Port) (a : Addr) (m : Lanes) (x : Word) :
    (s.accept p (.write a m x)).classifyWrite p (accessAddr ((s.accept p (.write a m x)).port p).txn.access) =
      s.classifyWrite p a := by
  rw [(sameView_accept s p _).classifyWrite, accept_txn]; rfl

/-- An accepted transaction takes the place of the record and the outputs before it. -/
theorem accept_setPort (s : State) (p : Port) (t : Txn) (acc : Access) :
    (s.setPort p { s.port p with txn := t }).accept p acc = s.accept p acc := by
  unfold State.accept; rw [setPort_setPort, State.port_setPort_self]

theorem setTxn_accept (s : State) (p : Port) (acc : Access) (t : Txn) :
    (s.accept p acc).setTxn p t = s.setPort p { s.port p with txn := t, ready := false, response := none } := by
  unfold State.setTxn State.accept; rw [setPort_setPort, State.port_setPort_self]

/-- A refusal at acceptance: the event, and the ERROR response of a port that holds nothing. -/
theorem refuse_accept (s : State) (p : Port) (acc : Access) (e : Event) (r : Response) :
    ((s.accept p acc).raise e).respond p r =
      (s.raise e).setPort p { s.port p with txn := {}, ready := true, response := some r } := by
  unfold State.respond
  rw [port_raise]
  unfold State.accept
  rw [raise_setPort, setPort_setPort, State.port_setPort_self]

theorem accept_read_memory {s : State} {p : Port} {a : Addr} (h : s.classifyRead p a = .memory) :
    (s.accept p (.read a)).takeAccess p (.read a) = (s.setPort p { s.port p with
      txn := { phase := .request, access := .read a }, ready := false, response := none }).arbitrate := by
  show ((s.accept p (.read a)).applyRead p ((s.accept p (.read a)).classifyRead p a)).arbitrate = _
  rw [(sameView_accept s p _).classifyRead, h]
  unfold State.applyRead
  rw [setTxn_accept, accept_txn]

theorem accept_write_plain {s : State} {p : Port} {a : Addr} {m : Lanes} (x : Word) (hm : m ≠ 0)
    (h : s.classifyWrite p a = .plain) :
    (s.accept p (.write a m x)).takeAccess p (.write a m x) = (s.setPort p { s.port p with
      txn := { phase := .request, access := .write a m x }, ready := false, response := none }).arbitrate := by
  rw [takeAccess_write _ p a hm, reclassify_plain ((classifyWrite_accept s p a m x).trans h), setTxn_accept, accept_txn]

theorem accept_write_hold {s : State} {p : Port} {a : Addr} {m : Lanes} (x : Word) {c : HoldCause} (hm : m ≠ 0)
    (hs : 0 < s.stallLimit.toNat) (h : s.classifyWrite p a = .hold c) :
    (s.accept p (.write a m x)).takeAccess p (.write a m x) = (s.setPort p { s.port p with
      txn := { phase := .held, access := .write a m x, cause := some c, startTick := some s.tick }
      ready := false, response := none }).arbitrate := by
  have start : ((s.accept p (.write a m x)).port p).txn.startTick.getD (s.accept p (.write a m x)).tick = s.tick := by
    rw [accept_txn]; exact State.setPort_tick s p _
  have under : ((s.accept p (.write a m x)).tick - s.tick).toNat < (s.accept p (.write a m x)).stallLimit.toNat := by
    have ht : (s.accept p (.write a m x)).tick = s.tick := State.setPort_tick s p _
    have hl : (s.accept p (.write a m x)).stallLimit = s.stallLimit := State.setPort_stallLimit s p _
    rw [ht, hl, BitVec.sub_self]; exact hs
  rw [takeAccess_write _ p a hm, reclassify_hold ((classifyWrite_accept s p a m x).trans h), hold_of_not_due start under,
    setTxn_accept, accept_txn]

theorem accept_write_foreign {s : State} {p : Port} {a : Addr} {m : Lanes} (x : Word) {w : WindowId} (hm : m ≠ 0)
    (h : s.classifyWrite p a = .foreignWrite w) :
    (s.accept p (.write a m x)).takeAccess p (.write a m x) = ((s.raise (.foreignWrite w p a)).setPort p
      { s.port p with txn := {}, ready := true, response := some .errorWrite }).arbitrate := by
  rw [takeAccess_write _ p a hm, reclassify_foreignWrite ((classifyWrite_accept s p a m x).trans h), accept_txn,
    refuse_accept]
  rfl

theorem accept_write_locked {s : State} {p : Port} {a : Addr} {m : Lanes} (x : Word) {d : DomainId} (hm : m ≠ 0)
    (h : s.classifyWrite p a = .faultLock d) :
    (s.accept p (.write a m x)).takeAccess p (.write a m x) = ((s.raise (.faultLock d p a)).setPort p
      { s.port p with txn := {}, ready := true, response := some .errorWrite }).arbitrate := by
  rw [takeAccess_write _ p a hm, reclassify_faultLock ((classifyWrite_accept s p a m x).trans h), accept_txn,
    refuse_accept]
  rfl

/-! ### Staging and ports -/

@[simp] theorem slotIn_setPort (s : State) (p : Port) (u : PortUnit) (d : DomainId) (st : SlotState) :
    (s.setPort p u).slotIn d st = s.slotIn d st := by simp [State.slotIn]

@[simp] theorem freeEntry_setPort (s : State) (p : Port) (u : PortUnit) : (s.setPort p u).freeEntry = s.freeEntry := by
  simp [State.freeEntry]

@[simp] theorem entryFor_setPort (s : State) (p : Port) (u : PortUnit) (d : DomainId) (k : SlotId) (a : Addr) :
    (s.setPort p u).entryFor d k a = s.entryFor d k a := by
  have : (s.setPort p u).entryNames a = s.entryNames a := by funext i; simp [State.entryNames]
  simp [State.entryFor, this]

@[simp] theorem canStage_setPort (s : State) (p : Port) (u : PortUnit) (d : DomainId) (a : Addr) :
    (s.setPort p u).canStage d a = s.canStage d a := by simp [State.canStage]

theorem setSlot_setPort (s : State) (p : Port) (u : PortUnit) (d : DomainId) (k : SlotId) (b : BatchSlot) :
    (s.setPort p u).setSlot d k b = (s.setSlot d k b).setPort p u := by cases p <;> rfl

theorem newEntry_setPort (s : State) (p : Port) (u : PortUnit) (d : DomainId) (k : SlotId) (i : EntryId) (a : Addr)
    (m : Lanes) (x : Word) : (s.setPort p u).newEntry d k i a m x = (s.newEntry d k i a m x).setPort p u := by
  cases p <;> rfl

theorem mergeEntry_setPort (s : State) (p : Port) (u : PortUnit) (i : EntryId) (m : Lanes) (x : Word) :
    (s.setPort p u).mergeEntry i m x = (s.mergeEntry i m x).setPort p u := by
  unfold State.mergeEntry
  rw [State.setPort_entries]
  cases s.entries[i] with
  | none => rfl
  | some e => cases p <;> rfl

theorem stage_setPort (s : State) (p : Port) (u : PortUnit) (d : DomainId) (a : Addr) (m : Lanes) (x : Word) :
    (s.setPort p u).stage d a m x = (s.stage d a m x).setPort p u := by
  unfold State.stage
  rw [slotIn_setPort, slotIn_setPort, freeEntry_setPort]
  cases s.slotIn d .opened with
  | some k =>
    dsimp only
    rw [entryFor_setPort]
    cases s.entryFor d k a with
    | some i => exact mergeEntry_setPort s p u i m x
    | none =>
      cases s.freeEntry with
      | some i => exact newEntry_setPort s p u d k i a m x
      | none => rfl
  | none =>
    cases s.freeEntry with
    | none => rfl
    | some i =>
      cases s.slotIn d .free with
      | none => rfl
      | some k => dsimp only; rw [setSlot_setPort, newEntry_setPort]

theorem sealOpen_setPort (s : State) (p : Port) (u : PortUnit) (d : DomainId) :
    (s.setPort p u).sealOpen d = (s.sealOpen d).setPort p u := by
  unfold State.sealOpen
  rw [slotIn_setPort]
  cases s.slotIn d .opened with
  | none => rfl
  | some k => cases p <;> rfl

theorem stageWrite_setPort (s : State) (p : Port) (u : PortUnit) (d : DomainId) (acc : Access) (b : Bool) :
    (s.setPort p u).stageWrite d acc b = (s.stageWrite d acc b).setPort p u := by
  unfold State.stageWrite
  rw [stage_setPort]
  cases b with
  | true => exact sealOpen_setPort _ p u d
  | false => rfl

/-- A response leaves nothing of the record and the outputs it replaces. -/
theorem respond_setPort (s : State) (p : Port) (u : PortUnit) (hc : u.contexts = (s.port p).contexts)
    (hl : u.lru = (s.port p).lru) (r : Response) : (s.setPort p u).respond p r = s.respond p r := by
  unfold State.respond
  rw [setPort_setPort, State.port_setPort_self]; dsimp only; rw [hc, hl]

/-- A staged write that is staged or refused leaves nothing of the record it stood in. -/
theorem arriveStaged_setPort {s : State} {p : Port} {u : PortUnit} {d : DomainId} (ht : u.txn.access = (s.port p).txn.access)
    (hc : u.contexts = (s.port p).contexts) (hl : u.lru = (s.port p).lru) (b : Bool)
    (h : s.canStage d (accessAddr (s.port p).txn.access) = true ∨ (s.domain d).cfg.exhaustion = .refuse) :
    (s.setPort p u).arriveStaged p d b = s.arriveStaged p d b := by
  unfold State.arriveStaged
  dsimp only
  rw [State.port_setPort_self, ht, canStage_setPort]
  by_cases hs : s.canStage d (accessAddr (s.port p).txn.access) = true
  · have port : ∀ q, (s.stageWrite d (s.port p).txn.access b).port q = s.port q := (poolOnly_stageWrite s d _ b).port
    rw [if_pos hs, if_pos hs, stageWrite_setPort, respond_setPort _ p u (by rw [port, hc]) (by rw [port, hl])]
  · have refuse := h.resolve_left hs
    rw [if_neg hs, if_neg hs, State.domain_setPort, refuse]
    dsimp only
    rw [raise_setPort, respond_setPort _ p u (by rw [port_raise, hc]) (by rw [port_raise, hl])]

theorem arriveStaged_accept {s : State} {p : Port} {acc : Access} {d : DomainId} (ha : (s.port p).txn.access = acc)
    (b : Bool)
    (h : s.canStage d (accessAddr (s.port p).txn.access) = true ∨ (s.domain d).cfg.exhaustion = .refuse) :
    (s.accept p acc).arriveStaged p d b = s.arriveStaged p d b :=
  arriveStaged_setPort (u := { s.port p with txn := { access := acc }, ready := false, response := none }) ha.symm
    rfl rfl b h

/-- A staged write without room joins the waiting list under STALL (R47). -/
theorem arriveStaged_waits {s : State} {p : Port} {d : DomainId}
    (hs : s.canStage d (accessAddr (s.port p).txn.access) = false) (he : (s.domain d).cfg.exhaustion = .stall) (b : Bool) :
    s.arriveStaged p d b =
      (s.joinWaiting { port := p, domain := d, addr := accessAddr (s.port p).txn.access, seals := b }).hold p
        .exhausted := by
  unfold State.arriveStaged
  dsimp only
  rw [if_neg (by simp [hs]), he]

/-- There is no room for a staged write for the word (R39). -/
def State.NoRoom (s : State) (d : DomainId) (a : Addr) : Prop :=
  (∀ k, (s.slot d k).state = .opened → ∀ i ∈ (s.slot d k).entries, ∀ f, s.entries[i] = some f → f.addr ≠ a) ∧
    ((∀ i : EntryId, s.entries[i] ≠ none) ∨ ∀ k, (s.slot d k).state ≠ .opened ∧ (s.slot d k).state ≠ .free)

theorem canStage_of_noRoom {s : State} {d : DomainId} {a : Addr} (h : s.NoRoom d a) : s.canStage d a = false := by
  obtain ⟨unstaged, full⟩ := h
  unfold State.canStage
  cases ho : s.slotIn d .opened with
  | some k =>
    have hk := slotIn_some ho
    have all : ∀ i : EntryId, s.entries[i] ≠ none := full.resolve_right fun hn => (hn k).1 hk
    simp [entryFor_none_of (unstaged k hk), (freeEntry_none_iff s).2 all]
  | none =>
    rcases full with all | none
    · simp [(freeEntry_none_iff s).2 all]
    · simp [(slotIn_none_iff s d .free).2 fun k => (none k).2]

/-- With at most one OPEN batch, room is exactly what staging needs. -/
theorem canStage_of_room {s : State} {d : DomainId} {a : Addr}
    (hone : ∀ j k, (s.slot d j).state = .opened → (s.slot d k).state = .opened → j = k) (h : ¬ s.NoRoom d a) :
    s.canStage d a = true := by
  by_contra hn
  refine h ⟨fun k hk i hi f hf ha => hn ?_, ?_⟩
  · have found : (s.entryFor d k a).isSome = true := by
      rw [Option.isSome_iff_ne_none]; exact fun hno => entryFor_none hno i hi f hf ha
    unfold State.canStage
    rw [slotIn_unique hk fun j hj => hone j k hj hk]
    simp [found]
  · by_contra hfull
    rw [not_or] at hfull
    obtain ⟨hfree, hslot⟩ := hfull
    have free : s.freeEntry.isSome = true := by
      rw [Option.isSome_iff_ne_none]; exact fun hno => hfree ((freeEntry_none_iff s).1 hno)
    refine hn ?_
    unfold State.canStage
    cases ho : s.slotIn d .opened with
    | some k => simp [free]
    | none =>
      have slot : (s.slotIn d .free).isSome = true := by
        rw [Option.isSome_iff_ne_none]
        exact fun hno => hslot fun k => ⟨slotIn_none ho k, slotIn_none hno k⟩
      simp [free, slot]

/-! ### The release of a hold -/

section
variable {s : State} {p : Port} {a : Addr} {m : Lanes} {x : Word} {c₀ : HoldCause} {t₀ : Tick}
  (h : (s.port p).txn = { phase := .held, access := .write a m x, cause := some c₀, startTick := some t₀ })
include h

/-- A held write staged or refused at its release is so as the same write accepted now. -/
theorem accept_eq_release {d : DomainId} {b : Bool} (hs : s.classifyWrite p a = .stage d b) (hm : m ≠ 0)
    (hroom : s.canStage d a = true ∨ (s.domain d).cfg.exhaustion = .refuse) (hl : s.resetLow = false) :
    exec (.transactionAccept p (.write a m x)) (s.setPort p { s.port p with txn := {} }) =
      .next (s.reclassify p).arbitrate := by
  have high : (s.setPort p { s.port p with txn := {} }).resetLow = false := (State.setPort_resetLow s p _).trans hl
  have idle : ((s.setPort p { s.port p with txn := {} }).port p).txn.phase = .idle := by rw [State.port_setPort_self]
  have now : (s.accept p (.write a m x)).reclassify p = (s.accept p (.write a m x)).arriveStaged p d b :=
    reclassify_stage ((classifyWrite_accept s p a m x).trans hs)
  have released : s.reclassify p = s.arriveStaged p d b := reclassify_stage (by rw [h]; exact hs)
  have alike : (s.accept p (.write a m x)).arriveStaged p d b = s.arriveStaged p d b :=
    arriveStaged_accept (by rw [h]) b (by rw [h]; exact hroom)
  rw [exec_accept high idle, accept_setPort, takeAccess_write _ p a hm, now, alike, released]

/-- A held write without room under STALL joins the waiting list and stays HELD under EXHAUSTED (R47). -/
theorem release_waits {d : DomainId} {b : Bool} (hs : s.classifyWrite p a = .stage d b) (hroom : s.NoRoom d a)
    (he : (s.domain d).cfg.exhaustion = .stall) (hl : (s.tick - t₀).toNat < s.stallLimit.toNat) :
    s.reclassify p = { (s.setPort p { s.port p with
        txn := { phase := .held, access := .write a m x, cause := some .exhausted, startTick := some t₀ } }) with
      waiting := s.waiting ++ [{ port := p, domain := d, addr := a, seals := b }] } := by
  have full : s.canStage d (accessAddr (s.port p).txn.access) = false := by rw [h]; exact canStage_of_noRoom hroom
  have port : ∀ w, (s.joinWaiting w).port p = s.port p := fun _ => port_congr rfl rfl p
  rw [reclassify_stage (d := d) (b := b) (by rw [h]; exact hs), arriveStaged_waits full he,
    hold_of_not_due (s := s.joinWaiting _) (t0 := t₀) (by rw [port, h]; rfl) hl]
  unfold State.setTxn
  rw [port, h]
  cases p <;> rfl

end

/-- Settles O41: at acceptance and at release a write is classified alike and takes its outcome's one step. -/
theorem classifiedAccessRequestsWaitsOrIsRefused : Obligations.ClassifiedAccessRequestsWaitsOrIsRefused := by
  refine ⟨fun s p a m x hl hp => ⟨fun hr => ?_, fun hm => ⟨fun hw => ?_, fun c hs hw => ?_, fun w hw => ?_, fun d hw => ?_⟩⟩,
    fun s p a m x c₀ t₀ h => ⟨fun hw => ?_, fun c hl hw => ?_, fun w hw => ?_, fun d hw => ?_, fun d b hw => ⟨?_, ?_⟩⟩,
    rfl, rfl, rfl, fun _ => rfl⟩
  · rw [exec_accept hl hp, accept_read_memory hr]
  · rw [exec_accept hl hp, accept_write_plain x hm hw]
  · rw [exec_accept hl hp, accept_write_hold x hm hs hw]
  · rw [exec_accept hl hp, accept_write_foreign x hm hw]; rfl
  · rw [exec_accept hl hp, accept_write_locked x hm hw]; rfl
  · rw [reclassify_plain (by rw [h]; exact hw), h]; rfl
  · rw [reclassify_hold (by rw [h]; exact hw), hold_of_not_due (t0 := t₀) (by rw [h]; rfl) hl, h]; rfl
  · rw [reclassify_foreignWrite (by rw [h]; exact hw), h, raise_setPort]
    unfold State.respond
    rw [port_raise]; rfl
  · rw [reclassify_faultLock (by rw [h]; exact hw), h, raise_setPort]
    unfold State.respond
    rw [port_raise]; rfl
  · intro hone hroom hl hm
    exact accept_eq_release h hw hm (hroom.imp_left (canStage_of_room hone)) hl
  · exact fun hroom he hl => release_waits h hw hroom he hl

end Sys2Proof.Machine
end

section
/-! SUPPORT. Commands whose event cannot arise in the state (O3). -/

namespace Sys2Proof.Machine

/-! ### Acceptances and completions -/

theorem accept_without_event {s : State} {p : Port} (h : s.resetLow = true ∨ (s.port p).txn.phase ≠ .idle) (acc : Access) :
    exec (.transactionAccept p acc) s = .next s := by
  have hf : s.portFree p = false := by
    rcases h with h | h <;> simp [State.portFree, h]
  simp [exec, execTransactionAccept, hf]

theorem portWriteComplete_without_event {s : State} (h : ∀ p a m x, s.mport ≠ some ⟨.port p, .write a m x⟩) :
    exec .portWriteComplete s = .next s := by
  change execPortWriteComplete s = _
  unfold execPortWriteComplete
  split
  · next hg => exact absurd hg (h _ _ _ _)
  · rfl

theorem portReadComplete_without_event {s : State} (h : ∀ p a, s.mport ≠ some ⟨.port p, .read a⟩) :
    exec .portReadComplete s = .next s := by
  change execPortReadComplete s = _
  unfold execPortReadComplete
  split
  · next hg => exact absurd hg (h _ _)
  · rfl

theorem commitWriteComplete_without_event {s : State}
    (h : ∀ d acc, s.mport = some ⟨.commit d, acc⟩ → (s.domain d).commit.phase ≠ .entryWrite) :
    exec .commitWriteComplete s = .next s := by
  change execCommitWriteComplete s = _
  unfold execCommitWriteComplete
  split
  · next hg => rw [if_neg (h _ _ hg)]
  · rfl

theorem sequenceWriteComplete_without_event {s : State}
    (h : ∀ d acc, s.mport = some ⟨.commit d, acc⟩ → (s.domain d).commit.phase ≠ .sequenceWrite) :
    exec .sequenceWriteComplete s = .next s := by
  change execSequenceWriteComplete s = _
  unfold execSequenceWriteComplete
  split
  · next hg => rw [if_neg (h _ _ hg)]
  · rfl

theorem fillWriteComplete_without_event {s : State}
    (h : ∀ d acc, s.mport = some ⟨.fill d, acc⟩ → (s.domain d).fill.phase ≠ .fillWrite) :
    exec .fillWriteComplete s = .next s := by
  change execFillWriteComplete s = _
  unfold execFillWriteComplete
  split
  · next hg => rw [if_neg (h _ _ hg)]
  · rfl

theorem captureReadComplete_without_event {s : State} (h : ∀ p a, s.mport ≠ some ⟨.capture p, .read a⟩) :
    exec .captureReadComplete s = .next s := by
  change execCaptureReadComplete s = _
  unfold execCaptureReadComplete
  split
  · next hg => exact absurd hg (h _ _)
  · rfl

/-! ### Expiries -/

theorem stallDue_iff (s : State) (p : Port) : s.stallDue p = true ↔
    (s.port p).txn.phase = .held ∧ s.stallLimit.toNat ≤ s.waitingTime (s.port p).txn := by
  simp [State.stallDue]

theorem monitorDue_iff (s : State) (d : DomainId) : s.monitorDue d = true ↔
    (s.domain d).state = .run ∧ (s.domain d).cfg.maxInterval ≠ 0 ∧ (s.domain d).monitorPhase = .counting ∧
      (s.domain d).monitorCount = (s.domain d).cfg.maxInterval := by
  simp [State.monitorDue]

theorem holdLimitDue_iff (s : State) (p : Port) (c : ContextId) : s.holdLimitDue p c = true ↔
    ∃ w copy t0, s.context p c = .held w copy t0 ∧ (s.window w).holdLimit ≠ 0 ∧
      (s.window w).holdLimit.toNat ≤ (s.tick - t0).toNat := by
  unfold State.holdLimitDue
  split
  · next w copy t0 hx =>
    rw [decide_eq_true_iff]
    constructor
    · exact fun h => ⟨w, copy, t0, hx, h⟩
    · rintro ⟨w', copy', t', hx', h⟩
      obtain ⟨rfl, rfl, rfl⟩ := Context.held.inj (hx.symm.trans hx')
      exact h
  · next hx =>
    constructor
    · exact fun h => by cases h
    · exact fun ⟨w, copy, t0, h, _⟩ => absurd h (hx w copy t0)

theorem stallTimeout_without_event {s : State} {p : Port}
    (h : (s.port p).txn.phase ≠ .held ∨ s.waitingTime (s.port p).txn < s.stallLimit.toNat) :
    exec (.stallTimeout p) s = .next s := by
  have hd : ¬ s.stallDue p = true := by
    rw [stallDue_iff]
    rintro ⟨hp, hw⟩
    rcases h with h | h
    · exact h hp
    · exact absurd hw (Nat.not_le.mpr h)
  change execStallTimeout p s = _
  unfold execStallTimeout
  rw [if_neg hd]

theorem syncMonitorExpiry_without_event {s : State} {d : DomainId}
    (h : (s.domain d).state ≠ .run ∨ (s.domain d).cfg.maxInterval = 0 ∨ (s.domain d).monitorPhase ≠ .counting ∨
      (s.domain d).monitorCount ≠ (s.domain d).cfg.maxInterval) :
    exec (.syncMonitorExpiry d) s = .next s := by
  have hd : ¬ s.monitorDue d = true := by
    rw [monitorDue_iff]
    rintro ⟨hr, hi, hp, hc⟩
    rcases h with h | h | h | h
    · exact h hr
    · exact hi h
    · exact h hp
    · exact h hc
  change execSyncMonitorExpiry d s = _
  unfold execSyncMonitorExpiry
  rw [if_neg hd]

theorem holdLimitExpiry_without_event {s : State} {p : Port} {c : ContextId}
    (h : ∀ w copy t0, s.context p c = .held w copy t0 →
      (s.window w).holdLimit = 0 ∨ (s.tick - t0).toNat < (s.window w).holdLimit.toNat) :
    exec (.holdLimitExpiry p c) s = .next s := by
  have hd : ¬ s.holdLimitDue p c = true := by
    rw [holdLimitDue_iff]
    rintro ⟨w, copy, t0, hx, hl, ht⟩
    rcases h w copy t0 hx with h | h
    · exact hl h
    · exact absurd ht (Nat.not_le.mpr h)
  change execHoldLimitExpiry p c s = _
  unfold execHoldLimitExpiry
  rw [if_neg hd]

/-! ### Lines and frames -/

theorem syncEdge_without_event {s : State} {l : SyncLine} {e : Edge}
    (h : s.resetLow = true ∨ s.syncLevels[l] = edgeLevel e) : exec (.syncEdge l e) s = .next s := by
  have ho : s.syncEdgeOccurs l e = false := by
    rcases h with h | h <;> simp [State.syncEdgeOccurs, h]
  simp [exec, execSyncEdge, ho]

theorem faultEdge_without_event {s : State} {l : FaultLine} (h : s.resetLow = true ∨ s.faultLevels[l] = false) :
    exec (.faultEdge l) s = .next s := by
  change execFaultEdge l s = _
  unfold execFaultEdge
  rcases h with h | h <;> simp [h]

theorem faultLineRelease_without_event {s : State} {l : FaultLine} (h : s.resetLow = true ∨ s.faultLevels[l] = true) :
    exec (.faultLineRelease l) s = .next s := by
  change execFaultLineRelease l s = _
  unfold execFaultLineRelease
  rcases h with h | h <;> simp [h]

theorem ignoredFrameEnd_without_event {s : State} (h : s.resetLow = true ∨ s.receiver ≠ .ignoring) :
    exec .ignoredFrameEnd s = .next s := by
  change execIgnoredFrameEnd s = _
  unfold execIgnoredFrameEnd
  rcases h with h | h <;> simp [h]

/-- Settles O3, command by command: the test at the head of each meaning fails. -/
theorem eventsThatCannotAriseChangeNothing : Obligations.EventsThatCannotAriseChangeNothing := by
  intro s
  refine ⟨fun p acc h => accept_without_event h acc, portWriteComplete_without_event, portReadComplete_without_event,
    commitWriteComplete_without_event, sequenceWriteComplete_without_event, fillWriteComplete_without_event,
    captureReadComplete_without_event, fun p => stallTimeout_without_event, fun d => syncMonitorExpiry_without_event,
    fun p c => holdLimitExpiry_without_event, fun l => ⟨syncEdge_without_event (e := .rising), syncEdge_without_event (e := .falling)⟩,
    fun l => ⟨faultEdge_without_event, faultLineRelease_without_event⟩, fun h => ?_, fun h v w m => ?_,
    ignoredFrameEnd_without_event⟩
  · simp [exec, execResetFall, execTick, h]
  · simp [exec, execResetRise, h]

end Sys2Proof.Machine
end

section
/-! SUPPORT. Transactions at the ports: a write that enables no lane (O40), the expiries of holds and copies (O49), a
port's write in memory (O47), a lead-word read (O46). -/

namespace Sys2Proof.Machine

/-! ### A write that enables no lane (O40) -/

/-- Settles O40: an accepted write with an empty lane mask is answered before it is classified. -/
theorem zeroLaneWriteAnsweredAtOnce : Obligations.ZeroLaneWriteAnsweredAtOnce := by
  intro s p a x hl hp
  rw [exec_accept hl hp]
  change Host.Outcome.next ((s.accept p (.write a 0 x)).respond p .okayWrite) = _
  unfold State.respond State.accept
  rw [setPort_setPort, State.port_setPort_self]

/-! ### Expiries (O49) -/

theorem leaveWaiting_setPort (s : State) (p q : Port) (u : PortUnit) :
    (s.setPort p u).leaveWaiting q = (s.leaveWaiting q).setPort p u := by cases p <;> rfl

/-- An expiry raises STALL_TIMEOUT and replaces the port's unit (R27). -/
theorem expireHeld_eq (s : State) (p : Port) : s.expireHeld p =
    ((s.leaveWaiting p).raise (.stallTimeout p (accessAddr (s.port p).txn.access) (s.port p).txn.cause)).setPort p
      { s.port p with txn := {}, ready := true, response := some .errorWrite } := by
  unfold State.expireHeld State.respond
  dsimp only
  rw [port_raise, State.port_leaveWaiting]

theorem waitingTime_of_startTick {s : State} {t : Txn} {t0 : Tick} (h : t.startTick = some t0) :
    s.waitingTime t = (s.tick - t0).toNat := by
  unfold State.waitingTime; rw [h]

theorem exec_stallTimeout_due {s : State} {p : Port} {t0 : Tick} (hp : (s.port p).txn.phase = .held)
    (h0 : (s.port p).txn.startTick = some t0) (hl : s.stallLimit.toNat ≤ (s.tick - t0).toNat) :
    exec (.stallTimeout p) s = .next (s.expireHeld p) :=
  congrArg Host.Outcome.next (if_pos ((stallDue_iff s p).2 ⟨hp, by rwa [waitingTime_of_startTick h0]⟩))

/-- A write put in HELD whose waiting time has reached the stall limit expires with its new cause (R27). -/
theorem hold_of_due {s : State} {p : Port} {t0 : Tick} (h0 : (s.port p).txn.startTick = some t0)
    (hl : s.stallLimit.toNat ≤ (s.tick - t0).toNat) (c : HoldCause) :
    s.hold p c = ((s.leaveWaiting p).raise (.stallTimeout p (accessAddr (s.port p).txn.access) (some c))).setPort p
      { s.port p with txn := {}, ready := true, response := some .errorWrite } := by
  unfold State.hold
  dsimp only
  rw [h0, Option.getD_some, if_pos, expireHeld_eq]
  · unfold State.setTxn
    rw [leaveWaiting_setPort, raise_setPort, setPort_setPort, State.port_setPort_self]
  · rw [stallDue_iff, State.port_setTxn, if_pos rfl, waitingTime_of_startTick rfl]
    exact ⟨rfl, by simpa using hl⟩

theorem expireContext_held {s : State} {p : Port} {c : ContextId} {w : WindowId} {copy : List Word} {t0 : Tick}
    (h : s.context p c = .held w copy t0) :
    s.expireContext p c = (s.raise (.snapExpired w p)).setPort p
      { s.port p with contexts := (s.port p).contexts.set c .idle } := by
  unfold State.expireContext State.setContext
  rw [h]
  dsimp only
  rw [port_raise]

/-- Settles O49: each expiry is due by its waiting or held time, and its effect is written out. -/
theorem expiriesEndHoldsAndCopies : Obligations.ExpiriesEndHoldsAndCopies := by
  refine ⟨fun s p t0 hp h0 hl => ?_, fun s p c t0 h0 hl => ⟨reclassify_hold, hold_of_due h0 hl c⟩,
    fun s p c w copy t0 hx hn hl => ?_⟩
  · rw [exec_stallTimeout_due hp h0 hl, expireHeld_eq]
    rfl
  · have due := (holdLimitDue_iff s p c).2 ⟨w, copy, t0, hx, hn, hl⟩
    rw [← Event.snapExpired, ← expireContext_held hx]
    exact congrArg Host.Outcome.next (if_pos due)

/-! ### A port's write in memory (O47) -/

theorem patched_eq (s : State) (a : Addr) (m : Lanes) (x : Word) : s.patched a m x = fun k : Context => match k with
    | .held w copy t0 => Context.held w (if (s.window w).covers a then
        copy.modify (a.toNat - (s.window w).base.toNat) fun old => mergeLanes old x m else copy) t0
    | .capturing w copy phase => .capturing w copy phase
    | .idle => .idle := by
  funext k
  cases k with
  | held w copy t0 => simp only [State.patched, State.windowOffset]; split <;> rfl
  | capturing w copy phase => rfl
  | idle => rfl

theorem writerDone_eq : Context.writerDone = fun k : Context => match k with
    | .capturing w copy .writerWait => Context.capturing w copy .readRequest
    | .capturing w copy .readRequest => .capturing w copy .readRequest
    | .capturing w copy .read => .capturing w copy .read
    | .held w copy t0 => .held w copy t0
    | .idle => .idle := by
  funext k
  cases k with
  | capturing w copy phase => cases phase <;> rfl
  | held w copy t0 => rfl
  | idle => rfl

theorem exec_portWriteComplete {s : State} {p : Port} {a : Addr} {m : Lanes} {x : Word}
    (hg : s.mport = some ⟨.port p, .write a m x⟩) :
    exec .portWriteComplete s = .next
      ((s.completeAccess ⟨.port p, .write a m x⟩).finishPortWrite p (.write a m x)) := by
  change execPortWriteComplete s = _
  unfold execPortWriteComplete
  rw [hg]

/-- A port's write that has completed replaces the two ports' units (R22, R126, R133). -/
theorem finishPortWrite_eq (s : State) (p : Port) (a : Addr) (m : Lanes) (x : Word) :
    s.finishPortWrite p (.write a m x) = ((s.setPort p { s.port p with
        txn := {}, ready := true, response := some .okayWrite
        contexts := (s.port p).contexts.map (s.patched a m x) }).setPort p.other { s.port p.other with
      contexts := (s.port p.other).contexts.map Context.writerDone }).arbitrate := by
  cases p <;> rfl

/-- Settles O47: the SRAM holds the write's lanes, and each port's unit is replaced as `patched` and `writerDone` say. -/
theorem portWriteCompletes : Obligations.PortWriteCompletes := by
  intro s p a m x hg
  refine ⟨Memory.writeWord s.mem a m x, fun hm b l => Memory.readLane_writeWord s.mem a b m x l hm, ?_⟩
  rw [exec_portWriteComplete hg, finishPortWrite_eq, patched_eq, writerDone_eq]
  cases p <;> rfl

/-! ### A lead-word read (O46) -/

theorem chooseContext_held {s : State} {p : Port} {w : WindowId} {c : ContextId} {copy : List Word} {t0 : Tick}
    (hc : s.context p c = .held w copy t0) (hu : ∀ e, e ≠ c → ∀ copy t0, s.context p e ≠ .held w copy t0) :
    s.chooseContext p w = c := by
  unfold State.chooseContext
  rw [heldContext_lowest hc fun e he => hu e (ne_of_lt he)]

theorem find_idle_lowest {s : State} {p : Port} {c : ContextId} (hc : s.context p c = .idle)
    (hu : ∀ e, e < c → s.context p e ≠ .idle) :
    (List.finRange 2).find? (fun c => s.context p c = .idle) = some c := by
  rw [List.find?_eq_some_iff_getElem]
  refine ⟨by simpa using hc, c.val, by simpa using c.isLt, by simp, fun j hj => ?_⟩
  simpa using hu _ (by simpa [Fin.lt_def] using hj)

theorem chooseContext_idle {s : State} {p : Port} {w : WindowId} {c : ContextId} (hc : s.context p c = .idle)
    (hu : ∀ e, e < c → s.context p e ≠ .idle) (hn : ∀ e copy t0, s.context p e ≠ .held w copy t0) :
    s.chooseContext p w = c := by
  unfold State.chooseContext
  rw [(heldContext_none_iff s p w).2 hn, find_idle_lowest hc hu]

theorem chooseContext_lru {s : State} {p : Port} {w : WindowId} (hi : ∀ e, s.context p e ≠ .idle)
    (hn : ∀ e copy t0, s.context p e ≠ .held w copy t0) : s.chooseContext p w = (s.port p).lru := by
  have none_idle : (List.finRange 2).find? (fun c => s.context p c = .idle) = none :=
    List.find?_eq_none.2 fun e _ => by simpa using hi e
  unfold State.chooseContext
  rw [(heldContext_none_iff s p w).2 hn, none_idle]

theorem evict_of_not_held {s : State} {p : Port} {c : ContextId} {w : WindowId}
    (h : ∀ v copy t0, s.context p c = .held v copy t0 → v = w) : s.evict p c w = s := by
  unfold State.evict
  split
  · next v copy t0 hx => rw [if_pos (h v copy t0 hx)]
  · rfl

theorem evict_of_held {s : State} {p : Port} {c : ContextId} {v w : WindowId} {copy : List Word} {t0 : Tick}
    (h : s.context p c = .held v copy t0) (hv : v ≠ w) : s.evict p c w = s.raise (.snapEvicted v p) := by
  unfold State.evict
  rw [h]
  exact if_neg hv

theorem captureOrder_raise (s : State) (e : Event) : (s.raise e).captureOrder = s.captureOrder := by
  unfold State.raise; split <;> rfl

theorem raise_captureOrder (s : State) (l : List Port) (e : Event) :
    ({ s with captureOrder := l } : State).raise e = { s.raise e with captureOrder := l } := by
  unfold State.raise
  split
  · next h => rw [if_pos (show s.kindEnabled e.kind = true from h)]; rfl
  · next h => rw [if_neg (show ¬ s.kindEnabled e.kind = true from h)]

theorem context_accept (s : State) (p q : Port) (acc : Access) (e : ContextId) :
    (s.accept p acc).context q e = s.context q e := by
  unfold State.context; rw [(sameView_accept s p acc).contexts]

theorem chooseContext_accept (s : State) (p : Port) (acc : Access) (w : WindowId) :
    (s.accept p acc).chooseContext p w = s.chooseContext p w := by
  have lru : ((s.accept p acc).port p).lru = (s.port p).lru := by simp [State.accept]
  unfold State.chooseContext
  simp only [(sameView_accept s p acc).heldContext, context_accept, lru]

theorem writeOnItsWay_accept (s : State) (p : Port) (acc : Access) (w : WindowId) :
    (s.accept p acc).writeOnItsWay p.other w = s.writeOnItsWay p.other w := by
  simp [State.writeOnItsWay, State.accept]

/-- A capture that begins replaces the port's unit and joins the capture-order list, after the eviction (R124, R126). -/
theorem beginCapture_eq {s : State} {p : Port} {w : WindowId} {c : ContextId} (hc : s.chooseContext p w = c) :
    s.beginCapture p w = { ((s.evict p c w).setPort p { (s.evict p c w).port p with
        txn := { ((s.evict p c w).port p).txn with phase := .leadWait }
        contexts := ((s.evict p c w).port p).contexts.set c (.capturing w []
          (if s.writeOnItsWay (s.window w).writer w then .writerWait else .readRequest)) }) with
      captureOrder := (s.evict p c w).captureOrder ++ [p] } := by
  unfold State.beginCapture
  dsimp only
  rw [hc]
  unfold State.setTxn State.setContext
  rw [setPort_setPort, State.port_setPort_self, State.setPort_captureOrder]

/-- A lead-word read is accepted: READY low, its capture begun (R24, R124). -/
theorem exec_leadWord {s : State} {p : Port} {a : Addr} {w : WindowId} (hl : s.resetLow = false)
    (hp : (s.port p).txn.phase = .idle) (hr : s.classifyRead p a = .capture w) :
    exec (.transactionAccept p (.read a)) s = .next ((s.accept p (.read a)).beginCapture p w).arbitrate := by
  rw [exec_accept hl hp]
  change Host.Outcome.next
    ((s.accept p (.read a)).applyRead p ((s.accept p (.read a)).classifyRead p a)).arbitrate = _
  rw [(sameView_accept s p _).classifyRead, hr]
  rfl

/-- The state in which the accepted lead-word read's capture of `w` has begun in context `c` (R124, R126). -/
def State.captureBegun (s : State) (p : Port) (a : Addr) (w : WindowId) (c : ContextId) : State :=
  { (s.setPort p { s.port p with
      txn := { phase := .leadWait, access := .read a }, ready := false, response := none
      contexts := (s.port p).contexts.set c
        (.capturing w [] (if s.writeOnItsWay p.other w then .writerWait else .readRequest)) }) with
    captureOrder := s.captureOrder ++ [p] }

section
variable {s : State} {p : Port} {a : Addr} {w : WindowId} {c : ContextId} (hw : (s.window w).writer = p.other)
  (hc : s.chooseContext p w = c)

include hw in
theorem phase_accept : (if (s.accept p (.read a)).writeOnItsWay ((s.accept p (.read a)).window w).writer w then
      CapturePhase.writerWait else .readRequest) =
    if s.writeOnItsWay p.other w then .writerWait else .readRequest := by
  rw [window_eq (sameView_accept s p _).windows, hw, writeOnItsWay_accept]

include hw hc

theorem beginCapture_accept (he : ∀ v copy t0, s.context p c = .held v copy t0 → v = w) :
    (s.accept p (.read a)).beginCapture p w = s.captureBegun p a w c := by
  have kept : (s.accept p (.read a)).evict p c w = s.accept p (.read a) :=
    evict_of_not_held fun v copy t0 hx => he v copy t0 (by rwa [context_accept] at hx)
  rw [beginCapture_eq ((chooseContext_accept s p _ w).trans hc), kept, phase_accept hw]
  unfold State.accept State.captureBegun
  rw [setPort_setPort, State.port_setPort_self, State.setPort_captureOrder]

theorem beginCapture_accept_evicts {v : WindowId} {copy : List Word} {t0 : Tick} (hx : s.context p c = .held v copy t0)
    (hv : v ≠ w) :
    (s.accept p (.read a)).beginCapture p w = (s.captureBegun p a w c).raise (.snapEvicted v p) := by
  have evicted : (s.accept p (.read a)).evict p c w = (s.accept p (.read a)).raise (.snapEvicted v p) :=
    evict_of_held (by rwa [context_accept]) hv
  rw [beginCapture_eq ((chooseContext_accept s p _ w).trans hc), evicted, phase_accept hw]
  unfold State.accept State.captureBegun
  rw [raise_setPort, setPort_setPort, State.port_setPort_self, State.setPort_captureOrder, captureOrder_raise,
    raise_captureOrder (s.setPort p _), raise_setPort]

end

/-- Settles O46: the chosen context by the three cases of R124, and the eviction of R125 in the last. -/
theorem leadWordReadBeginsCapture : Obligations.LeadWordReadBeginsCapture := by
  intro s p a w c hl hp hw hr
  rw [exec_leadWord hl hp hr]
  refine ⟨?_, fun hc hu hn => ?_, ?_⟩
  · rintro ⟨copy, t0, hc⟩ hu
    have same : ∀ v copy t0, s.context p c = .held v copy t0 → v = w := fun v _ _ hx =>
      (Context.held.inj (hc.symm.trans hx)).1.symm
    rw [beginCapture_accept hw (chooseContext_held hc hu) same]
    rfl
  · rw [beginCapture_accept hw (chooseContext_idle hc hu hn) fun v copy t0 hx => absurd (hc.symm.trans hx) (by simp)]
    rfl
  · rintro v rfl ⟨copy, t0, hc⟩ hv hi hn
    rw [beginCapture_accept_evicts hw (chooseContext_lru hi hn) hc hv]
    rfl

end Sys2Proof.Machine
end

section
/-! SUPPORT. The RESET line (O24), RESET_PART (O25) and SET_GLOBAL (O12). -/

namespace Sys2Proof.Machine

/-! ### The RESET line (O24) -/

/-- An access abandoned at the fall of RESET changes the SRAM at most by the granted write, and frees the M-port (R149). -/
theorem abandonAccess_eq (s : State) : ∃ (m : List Host.Cell) (n : Nat),
    (m = s.mem ∨ ∃ r a k x, s.mport = some ⟨r, .write a k x⟩ ∧ m = Memory.writeWord s.mem a k x) ∧
      s.abandonAccess = { s with mem := m, mport := none, freeCount := n } := by
  unfold State.abandonAccess
  split
  · next r a k x hg =>
    refine ⟨_, _, ?_, rfl⟩
    split
    · exact .inr ⟨r, a, k, x, hg, rfl⟩
    · exact .inl rfl
  · exact ⟨s.mem, s.freeCount, .inl rfl, rfl⟩

theorem exec_resetFall {s : State} (hl : s.resetLow = false) :
    exec .resetFall s = .next s.abandonAccess.powerOn := by
  change execResetFall s = _
  unfold execResetFall
  rw [hl]; rfl

theorem exec_resetRise {s : State} (hl : s.resetLow = true) (sync : Vector Bool 4) (fault : Vector Bool 2) (mcs : Bool) :
    exec (.resetRise sync fault mcs) s = .next (s.rise sync fault mcs) := by
  change execResetRise sync fault mcs s = _
  unfold execResetRise
  rw [hl]; rfl

/-- Settles O24: the power-on values over what the abandoned access leaves, and the rise. -/
theorem resetLineFallsAndRises : Obligations.ResetLineFallsAndRises := by
  refine ⟨fun s hl => ?_, fun s sync fault mcs hl => exec_resetRise hl sync fault mcs⟩
  obtain ⟨m, n, hm, he⟩ := abandonAccess_eq s
  refine ⟨m, n, hm, ?_⟩
  rw [exec_resetFall hl, he]
  rfl

/-! ### RESET_PART (O25) -/

theorem resetBusy_iff (s : State) : s.resetBusy = true ↔
    ∃ d, (s.domain d).state = .stopping ∨ (s.domain d).state = .safing ∨ ∃ k, (s.slot d k).state = .committing := by
  have commit : ∀ d, (s.slotIn d .committing).isSome = true ↔ ∃ k, (s.slot d k).state = .committing := fun d => by
    rw [← Option.ne_none_iff_isSome, ne_eq, slotIn_none_iff]
    simp only [ne_eq, not_forall, not_not]
  simp only [State.resetBusy, List.any_eq_true, List.mem_finRange, true_and, Bool.or_eq_true, decide_eq_true_eq, commit,
    or_assoc]

/-- A port at a soft reset, field by field (R31, R138). -/
theorem softReset_eq (u : PortUnit) : u.softReset =
    if u.txn.phase = .idle ∨ u.txn.phase = .memory then { u with contexts := Vector.replicate 2 .idle, lru := 0 }
    else
      { txn := {}, ready := true, contexts := Vector.replicate 2 .idle, lru := 0
        response := some (match u.txn.access with
          | .read _ => .errorRead
          | .write _ _ _ => .errorWrite) } := by
  have error : errorFor u.txn = match u.txn.access with
      | .read _ => .errorRead
      | .write _ _ _ => .errorWrite := by
    unfold errorFor; cases u.txn.access <;> rfl
  unfold PortUnit.softReset PortUnit.endTxn
  rw [error]
  cases u.txn.phase <;> rfl

theorem exec_resetPart {s : State} (h : s.Listening) (tail : Nat) :
    exec (.resetPart tail) s = .next (if s.resetBusy then s.replied (8 * 2 + tail) (bare .busy)
      else s.softReset.replied (8 * 2 + tail) (bare .ok)) := by
  refine congrArg Host.Outcome.next ((carryOut_of_listening h _ _).trans ?_)
  unfold State.doResetPart
  rw [show (s.shiftFrame (8 * 2 + tail)).resetBusy = s.resetBusy from rfl]
  split <;> rfl

/-- Settles O25: the refusal by `resetBusy_iff`, and the effects with each port's end by `softReset_eq`. -/
theorem softResetEndsTheWork : Obligations.SoftResetEndsTheWork := by
  intro s tail h
  dsimp only
  rw [exec_resetPart h, ← resetBusy_iff]
  refine ⟨fun hb => by rw [if_pos hb], fun hb => ?_⟩
  rw [if_neg hb]
  unfold State.softReset
  rw [softReset_eq s.portA, softReset_eq s.portB]
  rfl

/-! ### SET_GLOBAL (O12) -/

theorem irqEnableOfCode_none {b : Byte} (h : 1 < b.toNat) : irqEnableOfCode b = none := by
  have h0 : b ≠ 0 := by rintro rfl; exact absurd h (by decide)
  have h1 : b ≠ 1 := by rintro rfl; exact absurd h (by decide)
  unfold irqEnableOfCode
  rw [if_neg h0, if_neg h1]

theorem irqEnableOfCode_some {b : Byte} (h : b.toNat ≤ 1) : irqEnableOfCode b = some (decide (b = 1)) := by
  rcases byte_cases b with rfl | rfl | hb
  · rfl
  · rfl
  · exact absurd hb (Nat.not_lt.2 h)

theorem globalsOutOfRange_iff (g : GlobalPayload) : globalsOutOfRange g = true ↔
    g.stallLimit.toNat = 0 ∨ 4095 < g.stallLimit.toNat ∨ 4095 < g.mask.toNat := by
  simp [globalsOutOfRange]

theorem doSetGlobal_refused (s : State) {g : GlobalPayload}
    (h : g.stallLimit.toNat = 0 ∨ 4095 < g.stallLimit.toNat ∨ 4095 < g.mask.toNat ∨ 1 < g.irqEnable.toNat) :
    s.doSetGlobal g = (s, bare .badValue) := by
  unfold State.doSetGlobal
  cases he : irqEnableOfCode g.irqEnable with
  | none => rfl
  | some enable =>
    have out : globalsOutOfRange g = true := by
      rw [globalsOutOfRange_iff]
      rcases h with h | h | h | h
      · exact .inl h
      · exact .inr (.inl h)
      · exact .inr (.inr h)
      · rw [irqEnableOfCode_none h] at he; cases he
    exact if_pos out

theorem doSetGlobal_accepted (s : State) {g : GlobalPayload} (h0 : 0 < g.stallLimit.toNat) (h1 : g.stallLimit.toNat ≤ 4095)
    (h2 : g.mask.toNat ≤ 4095) (h3 : g.irqEnable.toNat ≤ 1) :
    s.doSetGlobal g = (s.setGlobals g (decide (g.irqEnable = 1)), bare .ok) := by
  have fits : ¬ globalsOutOfRange g = true := by rw [globalsOutOfRange_iff]; omega
  unfold State.doSetGlobal
  rw [irqEnableOfCode_some h3]
  exact if_neg fits

theorem exec_setGlobal {s : State} (h : s.Listening) (g : GlobalPayload) (tail : Nat) :
    exec (.setGlobal g tail) s = .next (((s.shiftFrame (8 * 7 + tail)).doSetGlobal g).1.answer
      ((s.shiftFrame (8 * 7 + tail)).doSetGlobal g).2) :=
  congrArg Host.Outcome.next (carryOut_of_listening h _ _)

theorem setWidth_toNat {n k : Nat} {v : BitVec n} (h : v.toNat < 2 ^ k) : (v.setWidth k).toNat = v.toNat := by
  rw [BitVec.toNat_setWidth, Nat.mod_eq_of_lt h]

/-! ### The expiries under a changed limit (R29) -/

/-- An expiry at one port leaves the other port's due. -/
theorem stallDue_expireHeld_other {s : State} {p q : Port} (h : q ≠ p) : (s.expireHeld p).stallDue q = s.stallDue q := by
  have k := steady_expireHeld s p
  unfold State.stallDue State.waitingTime
  rw [(onePort_expireHeld s p).port q h, k.tick, k.stallLimit]

/-- Held writes that are due, taken one after another: each is still due when its turn comes. -/
theorem foldl_expireIfDue (l : List Port) {s : State} (hn : l.Nodup) (hd : ∀ p ∈ l, s.stallDue p = true) :
    l.foldl State.expireIfDue s = l.foldl State.expireHeld s := by
  induction l generalizing s with
  | nil => rfl
  | cons p l ih =>
    obtain ⟨hp, hn⟩ := List.nodup_cons.1 hn
    have first : s.expireIfDue p = s.expireHeld p := if_pos (hd p (by simp))
    rw [List.foldl_cons, List.foldl_cons, first]
    refine ih hn fun q hq => ?_
    rw [stallDue_expireHeld_other (by rintro rfl; exact hp hq)]
    exact hd q (by simp [hq])

theorem raise_framed (s : State) (e : Event) (m : List Bool) (r : Option Reply) :
    (s.framed m r).raise e = (s.raise e).framed m r := by
  unfold State.raise
  rw [show (s.framed m r).kindEnabled e.kind = s.kindEnabled e.kind from rfl]
  split <;> rfl

theorem expireHeld_framed (s : State) (p : Port) (m : List Bool) (r : Option Reply) :
    (s.framed m r).expireHeld p = (s.expireHeld p).framed m r := by
  have left : (s.framed m r).leaveWaiting p = (s.leaveWaiting p).framed m r := rfl
  have unit : (s.framed m r).port p = s.port p := by cases p <;> rfl
  rw [expireHeld_eq, expireHeld_eq, left, unit, raise_framed]
  cases p <;> rfl

theorem foldl_expireHeld_framed (l : List Port) (s : State) (m : List Bool) (r : Option Reply) :
    l.foldl State.expireHeld (s.framed m r) = (l.foldl State.expireHeld s).framed m r := by
  induction l generalizing s with
  | nil => rfl
  | cons p l ih => rw [List.foldl_cons, List.foldl_cons, expireHeld_framed, ih]

/-- The expiries of a changed limit, in an order of the writes that are due. -/
theorem expireAllDue_eq (s : State) : ∃ (order : List Port) (n : Nat),
    order.Perm ([Port.a, .b].filter s.stallDue) ∧
      s.expireAllDue = order.foldl State.expireHeld { s with freeCount := n } := by
  have perm := freeOrder_perm ([Port.a, Port.b].filter s.stallDue) s.freeCount
  refine ⟨_, _, perm, foldl_expireIfDue _ (perm.nodup_iff.2 ?_) fun p hp => ?_⟩
  · exact List.Nodup.filter _ (by decide)
  · exact (List.mem_filter.1 (perm.mem_iff.1 hp)).2

/-- Expiries between the frame that is taken and its answer, as expiries before both. -/
theorem answer_foldl_expireHeld (l : List Port) (s : State) (n : Nat) (r : Reply) :
    (l.foldl State.expireHeld (s.framed (shiftOut s.reply n) s.reply)).answer r =
      (l.foldl State.expireHeld s).replied n r := by
  have reply : (l.foldl State.expireHeld s).reply = s.reply := (Steady.foldl steady_expireHeld l s).reply
  rw [foldl_expireHeld_framed]
  unfold State.replied
  rw [reply]
  rfl

section
variable {s : State} {g : GlobalPayload} {tail : Nat} (h : s.Listening) (h0 : 0 < g.stallLimit.toNat)
  (h1 : g.stallLimit.toNat ≤ 4095) (h2 : g.mask.toNat ≤ 4095) (h3 : g.irqEnable.toNat ≤ 1)
include h h0 h1 h2 h3

/-- A SET_GLOBAL that keeps the stall limit writes the settings alone (R175, last paragraph). -/
theorem exec_setGlobal_same (hs : g.stallLimit.toNat = s.stallLimit.toNat) :
    exec (.setGlobal g tail) s =
      .next ((s.writeGlobals g (decide (g.irqEnable = 1))).replied (8 * 7 + tail) (bare .ok)) := by
  have same : g.stallLimit.setWidth 12 = (s.shiftFrame (8 * 7 + tail)).stallLimit :=
    BitVec.eq_of_toNat_eq ((setWidth_toNat (by omega)).trans hs)
  rw [exec_setGlobal h, doSetGlobal_accepted _ h0 h1 h2 h3]
  unfold State.setGlobals
  rw [if_pos same]
  rfl

/-- A SET_GLOBAL that changes the stall limit writes the settings and takes the expiries now due (R29). -/
theorem exec_setGlobal_changed (hs : g.stallLimit.toNat ≠ s.stallLimit.toNat) : ∃ (order : List Port) (n : Nat),
    order.Perm ([Port.a, .b].filter (s.writeGlobals g (decide (g.irqEnable = 1))).stallDue) ∧
      exec (.setGlobal g tail) s = .next ((order.foldl State.expireHeld
        { s.writeGlobals g (decide (g.irqEnable = 1)) with freeCount := n }).replied (8 * 7 + tail) (bare .ok)) := by
  have changed : g.stallLimit.setWidth 12 ≠ (s.shiftFrame (8 * 7 + tail)).stallLimit := fun he =>
    hs (by rw [← setWidth_toNat (k := 12) (v := g.stallLimit) (by omega), he]; rfl)
  obtain ⟨order, n, perm, ho⟩ :=
    expireAllDue_eq ((s.shiftFrame (8 * 7 + tail)).writeGlobals g (decide (g.irqEnable = 1)))
  refine ⟨order, n, perm, ?_⟩
  rw [exec_setGlobal h, doSetGlobal_accepted _ h0 h1 h2 h3]
  unfold State.setGlobals
  rw [if_neg changed, ho]
  exact congrArg Host.Outcome.next
    (answer_foldl_expireHeld order { s.writeGlobals g (decide (g.irqEnable = 1)) with freeCount := n } _ _)

end

/-- A SET_GLOBAL of the settings that stand leaves them and IRQ as they are. -/
theorem writeGlobals_repeated {s : State} {g : GlobalPayload} {enable : Bool}
    (h1 : g.stallLimit.toNat ≤ 4095) (h2 : g.mask.toNat ≤ 4095) (hs : g.stallLimit.toNat = s.stallLimit.toNat)
    (hm : g.mask.toNat = s.mask.toNat) (he : enable = s.irqEnable) (hq : s.IrqFollowsQueue) :
    s.writeGlobals g enable = s := by
  have limit : g.stallLimit.setWidth 12 = s.stallLimit := BitVec.eq_of_toNat_eq ((setWidth_toNat (by omega)).trans hs)
  have mask : g.mask.setWidth 12 = s.mask := BitVec.eq_of_toNat_eq ((setWidth_toNat (by omega)).trans hm)
  unfold State.writeGlobals State.setQueue
  rw [limit, mask, he]
  change { s with irq := s.irqEnable && !s.queue.isEmpty } = s
  rw [← hq.1]

/-- Settles O12: the checks, the settings written, and the expiries where the stall limit changes. -/
theorem globalSettingsWritten : Obligations.GlobalSettingsWritten := by
  intro s g tail h
  refine ⟨fun bad => ?_, fun h0 h1 h2 h3 => ⟨fun hs => ?_, fun hs => ?_, fun hs hm he hq => ?_⟩⟩
  · rw [exec_setGlobal h, doSetGlobal_refused _ bad]
    rfl
  · exact exec_setGlobal_same h h0 h1 h2 h3 hs
  · obtain ⟨order, n, perm, he⟩ := exec_setGlobal_changed (tail := tail) h h0 h1 h2 h3 hs
    have due : (s.writeGlobals g (decide (g.irqEnable = 1))).stallDue = fun p => decide ((s.port p).txn.phase = .held ∧
        g.stallLimit.toNat ≤ s.waitingTime (s.port p).txn) := by
      funext p
      rw [← setWidth_toNat (k := 12) (v := g.stallLimit) (by omega)]
      cases p <;> rfl
    exact ⟨order, n, due ▸ perm, he⟩
  · rw [exec_setGlobal_same h h0 h1 h2 h3 hs, writeGlobals_repeated h1 h2 hs hm he hq]

end Sys2Proof.Machine
end

section
/-! SUPPORT. The arbiter at a free point (O35). -/

namespace Sys2Proof.Machine

theorem arbitrate_busy {s : State} {g : Grant} (h : s.mport = some g) : s.arbitrate = s := by
  unfold State.arbitrate; rw [h]

theorem arbitrate_none {s : State} (h : s.nextGrant = none) : s.arbitrate = s := by
  unfold State.arbitrate
  cases s.mport with
  | some _ => rfl
  | none => rw [h]

theorem arbitrate_grant {s : State} {g : Grant} (hm : s.mport = none) (h : s.nextGrant = some g) :
    s.arbitrate = { s.markGranted g.holder with mport := some g } := by
  unfold State.arbitrate; rw [hm, h]

theorem nextGrant_none_of {s : State} (h : ∀ r ∈ s.arbiterOrder, s.request r = none) : s.nextGrant = none := by
  unfold State.nextGrant
  rw [List.findSome?_eq_none_iff]
  intro r hr
  rw [h r hr]; rfl

/-- The arbiter takes the first requester of its order that has a request (R144). -/
theorem nextGrant_first {s : State} {r : Requester} {acc : Access} {before after : List Requester}
    (ho : s.arbiterOrder = before ++ r :: after) (hb : ∀ q ∈ before, s.request q = none) (hr : s.request r = some acc) :
    s.nextGrant = some ⟨r, acc⟩ := by
  have skipped : before.findSome? (fun q => (s.request q).map fun acc => ({ holder := q, access := acc } : Grant)) = none :=
    List.findSome?_eq_none_iff.2 fun q hq => by rw [hb q hq]; rfl
  unfold State.nextGrant
  rw [ho, List.findSome?_append, skipped, List.findSome?_cons, hr]
  rfl

/-- The order rises by class, and the port not granted last stands before the other (R144, R145). -/
theorem arbiterOrder_sorted (s : State) : s.arbiterOrder.Pairwise fun q r =>
    q.classNumber ≤ r.classNumber ∧ (q = .port s.lastPort → r ≠ .port s.lastPort.other) := by
  have any : ∀ {α : Type} (l : List α), l.Pairwise fun _ _ => True := fun l => List.pairwise_of_forall fun _ _ => trivial
  unfold State.arbiterOrder
  simp [List.pairwise_append, List.pairwise_map, Requester.classNumber, Port.other_ne, or_imp, forall_and, any]

theorem request_commit_phase {s : State} {d : DomainId} {acc : Access} (h : s.request (.commit d) = some acc) :
    (s.domain d).commit.phase = .entryRequest ∨ (s.domain d).commit.phase = .sequenceRequest := by
  change s.commitRequest d = some acc at h
  unfold State.commitRequest at h
  cases hp : (s.domain d).commit.phase <;> simp_all

/-- A commit record at the grant of its request (R87). -/
theorem granted_eq {c : CommitRecord} (h : c.phase = .entryRequest ∨ c.phase = .sequenceRequest) :
    c.granted = { c with phase := if c.phase = .entryRequest then .entryWrite else .sequenceWrite } := by
  unfold CommitRecord.granted
  rcases h with h | h <;> simp [h]

section
variable {s : State} {acc : Access}

theorem arbitrate_fill {d : DomainId} (hm : s.mport = none) (h : s.nextGrant = some ⟨.fill d, acc⟩) :
    (s.arbitrate.domain d).fill = { (s.domain d).fill with phase := .fillWrite } ∧
      s.arbitrate.lastPort = s.lastPort := by
  rw [arbitrate_grant hm h]
  exact ⟨congrArg Domain.fill (s.domain_setDomain_self d _), rfl⟩

theorem arbitrate_commit {d : DomainId} (hm : s.mport = none) (h : s.nextGrant = some ⟨.commit d, acc⟩) :
    (s.arbitrate.domain d).commit = { (s.domain d).commit with
        phase := if (s.domain d).commit.phase = .entryRequest then .entryWrite else .sequenceWrite } ∧
      s.arbitrate.lastPort = s.lastPort := by
  rw [arbitrate_grant hm h, ← granted_eq (request_commit_phase (nextGrant_some h))]
  exact ⟨congrArg Domain.commit (s.domain_setDomain_self d _), rfl⟩

theorem arbitrate_capture {p : Port} (hm : s.mport = none) (h : s.nextGrant = some ⟨.capture p, acc⟩) :
    (∀ c w copy, s.context p c = .capturing w copy .readRequest →
      s.arbitrate.context p c = .capturing w copy .read) ∧ s.arbitrate.lastPort = s.lastPort := by
  rw [arbitrate_grant hm h]
  refine ⟨fun c w copy hc => ?_, s.setPort_lastPort p _⟩
  have unit : ({ s.markGranted (.capture p) with mport := some ⟨.capture p, acc⟩ } : State).context p c =
      (s.context p c).granted := by
    cases p <;> simp [State.context, State.port, State.markGranted, State.setPort]
  rw [unit, hc]
  rfl

theorem arbitrate_port {p : Port} (hm : s.mport = none) (h : s.nextGrant = some ⟨.port p, acc⟩) :
    (s.arbitrate.port p).txn = { (s.port p).txn with phase := .memory } ∧ s.arbitrate.lastPort = p := by
  rw [arbitrate_grant hm h]
  cases p <;> exact ⟨rfl, rfl⟩

end

/-- The last-granted port is granted only where the other port requests nothing (R145). -/
theorem other_port_idle {s : State} {before after : List Requester}
    (ho : s.arbiterOrder = before ++ .port s.lastPort :: after) (hb : ∀ q ∈ before, s.request q = none) :
    s.portRequest s.lastPort.other = none := by
  have listed : Requester.port s.lastPort.other ∈ before ++ .port s.lastPort :: after :=
    ho ▸ by simp [State.arbiterOrder]
  rcases List.mem_append.1 listed with hq | hq
  · exact hb _ hq
  · have sorted := arbiterOrder_sorted s
    rw [ho, List.pairwise_append] at sorted
    rcases List.mem_cons.1 hq with hq | hq
    · exact absurd (Requester.port.inj hq) (Port.other_ne _)
    · exact absurd rfl (((List.pairwise_cons.1 sorted.2.1).1 _ hq).2 rfl)

/-- No pending request of the order lies in a lower class than the one granted (R144). -/
theorem grant_lowest_class {s : State} {r : Requester} {before after : List Requester}
    (ho : s.arbiterOrder = before ++ r :: after) (hb : ∀ q ∈ before, s.request q = none) :
    ∀ q ∈ s.arbiterOrder, s.request q ≠ none → r.classNumber ≤ q.classNumber := by
  intro q hq hr
  have sorted := arbiterOrder_sorted s
  rw [ho, List.pairwise_append] at sorted
  rw [ho] at hq
  rcases List.mem_append.1 hq with hq | hq
  · exact absurd (hb q hq) hr
  · rcases List.mem_cons.1 hq with rfl | hq
    · exact Nat.le_refl _
    · exact ((List.pairwise_cons.1 sorted.2.1).1 q hq).1

/-- Settles O35: the first pending requester of the order is granted, and each class's own phase moves on. -/
theorem arbiterGrantsTheBestClaim : Obligations.ArbiterGrantsTheBestClaim := by
  intro s
  refine ⟨fun p => rfl, rfl, fun g => arbitrate_busy, fun h => arbitrate_none (nextGrant_none_of h),
    fun r acc before after hm ho hb hr => ?_⟩
  have grant := nextGrant_first ho hb hr
  refine ⟨by rw [arbitrate_grant hm grant], grant_lowest_class ho hb, ?_⟩
  cases r with
  | fill d => exact arbitrate_fill hm grant
  | commit d => exact arbitrate_commit hm grant
  | capture p => exact arbitrate_capture hm grant
  | port p =>
    obtain ⟨txn, last⟩ := arbitrate_port hm grant
    refine ⟨txn, last, ?_⟩
    rintro rfl
    exact other_port_idle ho hb

end Sys2Proof.Machine
end

section
/-! SUPPORT. What staging, discards and the examination of the waiting list leave as it was (O21, O59). -/

namespace Sys2Proof.Machine

/-! ### Everything but ports, entries, waiting list and domains -/

/-- From `s` to `t` nothing changed but ports, staging entries, waiting list and domains. -/
def StagingOnly (s t : State) : Prop :=
  t = { s with portA := t.portA, portB := t.portB, entries := t.entries, waiting := t.waiting, domains := t.domains }

theorem StagingOnly.refl (s : State) : StagingOnly s s := rfl

theorem StagingOnly.trans {s t u : State} (h : StagingOnly s t) (k : StagingOnly t u) : StagingOnly s u := by
  unfold StagingOnly at *
  rw [h] at k
  exact k

theorem StagingOnly.foldl {α : Type} {f : State → α → State} (hf : ∀ s x, StagingOnly s (f s x)) (l : List α) (s : State) :
    StagingOnly s (l.foldl f s) := by
  induction l generalizing s with
  | nil => exact .refl s
  | cons x l ih => exact (hf s x).trans (ih _)

section
variable {s t : State} (h : StagingOnly s t)
include h

theorem StagingOnly.queue : t.queue = s.queue := by rw [h]
theorem StagingOnly.irq : t.irq = s.irq := by rw [h]
theorem StagingOnly.mport : t.mport = s.mport := by rw [h]
theorem StagingOnly.startOrder : t.startOrder = s.startOrder := by rw [h]
theorem StagingOnly.fillOrder : t.fillOrder = s.fillOrder := by rw [h]
theorem StagingOnly.windows : t.windows = s.windows := by rw [h]
theorem StagingOnly.safe : t.safe = s.safe := by rw [h]
theorem StagingOnly.mem : t.mem = s.mem := by rw [h]
theorem StagingOnly.tick : t.tick = s.tick := by rw [h]

end

theorem stagingOnly_setPort (s : State) (p : Port) (u : PortUnit) : StagingOnly s (s.setPort p u) := by
  cases p <;> rfl

theorem stagingOnly_terminate (s : State) (p : Port) : StagingOnly s (s.terminate p) :=
  .trans (t := s.leaveWaiting p) rfl (stagingOnly_setPort _ _ _)

theorem stagingOnly_stage (s : State) (d : DomainId) (a : Addr) (m : Lanes) (x : Word) : StagingOnly s (s.stage d a m x) := by
  unfold State.stage State.mergeEntry
  split
  · split
    · split <;> rfl
    · split <;> rfl
  · split <;> rfl

theorem stagingOnly_stageWrite (s : State) (d : DomainId) (acc : Access) (b : Bool) : StagingOnly s (s.stageWrite d acc b) := by
  have sealing : ∀ u : State, StagingOnly u (u.sealOpen d) := fun u => by
    unfold State.sealOpen; split <;> rfl
  unfold State.stageWrite
  dsimp only
  split
  · exact (stagingOnly_stage _ _ _ _ _).trans (sealing _)
  · exact stagingOnly_stage _ _ _ _ _

theorem stagingOnly_freeSlotsIn (s : State) (d : DomainId) (st : SlotState) : StagingOnly s (s.freeSlotsIn d st) := by
  refine .foldl (fun s k => ?_) _ s
  split
  · exact .trans (.foldl (f := fun s i => s.setEntry i none) (fun _ _ => rfl) _ s) rfl
  · exact .refl s

theorem stagingOnly_examineWaiter (s : State) (w : Waiter) : StagingOnly s (s.examineWaiter w) := by
  unfold State.examineWaiter
  split
  · exact .trans (t := s.leaveWaiting w.port) rfl ((stagingOnly_stageWrite _ _ _ _).trans (stagingOnly_setPort _ _ _))
  · exact .refl s

theorem stagingOnly_examineWaiting (s : State) : StagingOnly s s.examineWaiting :=
  .foldl stagingOnly_examineWaiter _ s

/-! ### Staging leaves the other domains -/

theorem domain_stage_other {d e : DomainId} (he : e ≠ d) (s : State) (a : Addr) (m : Lanes) (x : Word) :
    (s.stage d a m x).domain e = s.domain e := by
  have slot : ∀ (u : State) (k : SlotId) (b : BatchSlot), (u.setSlot d k b).domain e = u.domain e := fun u k b =>
    u.domain_setDomain_ne he _
  unfold State.stage State.mergeEntry State.newEntry
  split
  · split
    · split <;> rfl
    · split
      · exact slot _ _ _
      · rfl
  · split
    · exact (slot _ _ _).trans (slot _ _ _)
    · rfl

theorem domain_stageWrite_other {d e : DomainId} (he : e ≠ d) (s : State) (acc : Access) (b : Bool) :
    (s.stageWrite d acc b).domain e = s.domain e := by
  have sealing : ∀ u : State, (u.sealOpen d).domain e = u.domain e := fun u => by
    unfold State.sealOpen
    split
    · rfl
    · exact (State.domain_setDomain_ne _ he _).trans (State.domain_setDomain_ne _ he _)
  unfold State.stageWrite
  dsimp only
  split
  · exact (sealing _).trans (domain_stage_other he _ _ _ _)
  · exact domain_stage_other he _ _ _ _

/-! ### The examination of the waiting list -/

theorem onePort_examineWaiter (s : State) (w : Waiter) : OnePort w.port s (s.examineWaiter w) := by
  unfold State.examineWaiter
  split
  · exact (onePort_leaveWaiting s w.port).trans (((poolOnly_stageWrite _ _ _ _).onePort _).trans (onePort_setPort _ _ _))
  · exact .refl _ s

theorem domain_examineWaiter_other (s : State) {w : Waiter} {d : DomainId} (h : w.domain ≠ d) :
    (s.examineWaiter w).domain d = s.domain d := by
  unfold State.examineWaiter
  split
  · exact (State.domain_respond _ _ _ _).trans (domain_stageWrite_other h.symm _ _ _)
  · rfl

theorem waiting_examineWaiter_subset (s : State) (w : Waiter) : ∀ v ∈ (s.examineWaiter w).waiting, v ∈ s.waiting := by
  intro v hv
  unfold State.examineWaiter at hv
  split at hv
  · rw [State.respond_waiting, (poolOnly_stageWrite _ _ _ _).waiting, State.leaveWaiting_waiting] at hv
    exact (List.mem_filter.1 hv).1
  · exact hv

theorem port_examineWaiting {s : State} {p : Port} (h : ∀ w ∈ s.waiting, w.port ≠ p) :
    s.examineWaiting.port p = s.port p := by
  unfold State.examineWaiting
  generalize s.waiting = l at h
  induction l generalizing s with
  | nil => rfl
  | cons w l ih =>
    exact (ih fun v hv => h v (by simp [hv])).trans ((onePort_examineWaiter s w).port p (h w (by simp)).symm)

theorem domain_examineWaiting {s : State} {d : DomainId} (h : ∀ w ∈ s.waiting, w.domain ≠ d) :
    s.examineWaiting.domain d = s.domain d := by
  unfold State.examineWaiting
  generalize s.waiting = l at h
  induction l generalizing s with
  | nil => rfl
  | cons w l ih => exact (ih fun v hv => h v (by simp [hv])).trans (domain_examineWaiter_other s (h w (by simp)))

theorem waiting_examineWaiting_subset (s : State) : ∀ v ∈ s.examineWaiting.waiting, v ∈ s.waiting := by
  have fold : ∀ (l : List Waiter) (u : State), ∀ v ∈ (l.foldl State.examineWaiter u).waiting, v ∈ u.waiting := by
    intro l
    induction l with
    | nil => exact fun u v hv => hv
    | cons w l ih => exact fun u v hv => waiting_examineWaiter_subset u w v (ih _ v hv)
  exact fold s.waiting s

/-! ### Freeing the batches of a state -/

/-- Freeing a domain's batches writes nothing of any domain but the slots. -/
theorem domain_freeSlotsIn (s : State) (d e : DomainId) (st : SlotState) :
    (s.freeSlotsIn d st).domain e = { s.domain e with slots := ((s.freeSlotsIn d st).domain e).slots } := by
  have one : ∀ (u : State) (k : SlotId), (u.freeSlot d k).domain e =
      { u.domain e with slots := ((u.freeSlot d k).domain e).slots } := fun u k => by
    have entries : ∀ (l : List EntryId) (v : State), (l.foldl (fun s i => s.setEntry i none) v).domain e = v.domain e := by
      intro l
      induction l with
      | nil => exact fun v => rfl
      | cons i l ih => exact fun v => ih _
    unfold State.freeSlot
    rw [State.domain_setSlot]
    split
    · subst_vars; rw [entries]
    · rw [entries]
  unfold State.freeSlotsIn
  generalize List.finRange 4 = l
  induction l generalizing s with
  | nil => rfl
  | cons k l ih =>
    rw [List.foldl_cons, ih]
    split
    · rw [one s k]
    · rfl

theorem domain_freeSlotsIn_other {d e : DomainId} (h : e ≠ d) (s : State) (st : SlotState) :
    (s.freeSlotsIn d st).domain e = s.domain e := by
  have slots : ((s.freeSlotsIn d st).domain e).slots = (s.domain e).slots := by
    apply Vector.ext
    intro k hk
    have slot := slot_freeSlotsIn s d e st ⟨k, hk⟩
    rw [if_neg (by simp [h])] at slot
    exact slot
  rw [domain_freeSlotsIn, slots]

/-- The entries of a batch in the state are FREE once the batches of that state are freed. -/
theorem entry_freeSlotsIn {s : State} {d : DomainId} {k : SlotId} {st : SlotState} {i : EntryId}
    (hk : (s.slot d k).state = st) (hi : i ∈ (s.slot d k).entries) : (s.freeSlotsIn d st).entries[i] = none := by
  have fold : ∀ (l : List SlotId) (u : State),
      u.entries[i] = none ∨ (k ∈ l ∧ (u.slot d k).state = st ∧ i ∈ (u.slot d k).entries) →
      (l.foldl (fun s j => if (s.slot d j).state = st then s.freeSlot d j else s) u).entries[i] = none := by
    intro l
    induction l with
    | nil => exact fun u h => h.resolve_right fun hc => by simp at hc
    | cons j l ih =>
      intro u h
      refine ih _ ?_
      dsimp only
      by_cases hj : (u.slot d j).state = st
      · rw [if_pos hj, entries_freeSlot, slot_freeSlot]
        rcases h with hn | ⟨hm, hs, hi⟩
        · exact .inl (by rw [hn, ite_self])
        · by_cases hjk : k = j
          · exact .inl (if_pos (hjk ▸ hi))
          · rw [if_neg fun hc : d = d ∧ k = j => hjk hc.2]
            exact .inr ⟨(List.mem_cons.1 hm).resolve_left hjk, hs, hi⟩
      · rw [if_neg hj]
        rcases h with hn | ⟨hm, hs, hi⟩
        · exact .inl hn
        · exact .inr ⟨(List.mem_cons.1 hm).resolve_left (by rintro rfl; exact hj hs), hs, hi⟩
  exact fold _ s (.inr ⟨List.mem_finRange k, hk, hi⟩)

end Sys2Proof.Machine
end

section
/-! SUPPORT. What a STOP makes of the writes that wait (O21). -/

namespace Sys2Proof.Machine

/-! ### What the arbiter leaves -/

/-- What a grant leaves of the state that a STOP has written. -/
structure Arbitrated (s t : State) : Prop where
  waiting : t.waiting = s.waiting
  startOrder : t.startOrder = s.startOrder
  state : ∀ d, (t.domain d).state = (s.domain d).state
  slot : ∀ d k, t.slot d k = s.slot d k
  ready : ∀ p, (t.port p).ready = (s.port p).ready
  response : ∀ p, (t.port p).response = (s.port p).response
  txn : ∀ p, (t.port p).txn = (s.port p).txn ∨
    ((s.port p).txn.phase = .request ∧ (t.port p).txn = { (s.port p).txn with phase := .memory })

theorem Arbitrated.refl (s : State) : Arbitrated s s :=
  ⟨rfl, rfl, fun _ => rfl, fun _ _ => rfl, fun _ => rfl, fun _ => rfl, fun _ => .inl rfl⟩

/-- A domain whose commit or fill moves on keeps its state and slots. -/
theorem arbitrated_setDomain (s : State) (d : DomainId) (x : Domain) (hs : x.state = (s.domain d).state)
    (hk : x.slots = (s.domain d).slots) : Arbitrated s (s.setDomain d x) := by
  refine ⟨rfl, rfl, fun e => ?_, fun e k => ?_, fun p => by simp, fun p => by simp, fun p => .inl (by simp)⟩
  · rw [State.domain_setDomain]; split
    · subst_vars; exact hs
    · rfl
  · rw [State.slot_setDomain]; split
    · subst_vars; rw [hk]; rfl
    · rfl

theorem arbitrated_markGranted {s : State} {r : Requester} {acc : Access} (h : s.request r = some acc) :
    Arbitrated s (s.markGranted r) := by
  cases r with
  | fill d => exact arbitrated_setDomain s d _ rfl rfl
  | commit d => exact arbitrated_setDomain s d _ rfl rfl
  | capture p =>
    have unit : ∀ q, ((s.markGranted (.capture p)).port q).ready = (s.port q).ready ∧
        ((s.markGranted (.capture p)).port q).response = (s.port q).response ∧
        ((s.markGranted (.capture p)).port q).txn = (s.port q).txn := fun q => by
      cases p <;> cases q <;> exact ⟨rfl, rfl, rfl⟩
    exact ⟨by simp [State.markGranted], by simp [State.markGranted], fun d => by simp [State.markGranted],
      fun d k => by simp [State.markGranted], fun q => (unit q).1, fun q => (unit q).2.1, fun q => .inl (unit q).2.2⟩
  | port p =>
    have request : (s.port p).txn.phase = .request := by
      change s.portRequest p = some acc at h
      unfold State.portRequest at h
      by_contra hn
      rw [if_neg hn] at h
      cases h
    have dom : ∀ d, (s.markGranted (.port p)).domain d = s.domain d := fun d => by cases p <;> rfl
    refine ⟨by cases p <;> rfl, by cases p <;> rfl, fun d => by rw [dom], fun d k => by unfold State.slot; rw [dom],
      fun q => by cases p <;> cases q <;> rfl, fun q => by cases p <;> cases q <;> rfl, fun q => ?_⟩
    rcases Port.eq_or_other p q with rfl | rfl
    · exact .inr ⟨request, by cases q <;> rfl⟩
    · exact .inl (by cases p <;> rfl)

theorem arbitrated (s : State) : Arbitrated s s.arbitrate := by
  unfold State.arbitrate
  split
  · exact .refl s
  · split
    · exact .refl s
    · next g hg =>
      obtain ⟨w, o, st, sl, re, rs, tx⟩ := arbitrated_markGranted (nextGrant_some hg)
      exact ⟨w, o, st, sl, re, rs, tx⟩

theorem arbitrated_answer (s : State) (r : Reply) : Arbitrated s (s.arbitrate.answer r) := by
  obtain ⟨waiting, startOrder, state, slot, ready, response, txn⟩ := arbitrated s
  exact ⟨waiting, startOrder, state, slot, ready, response, txn⟩

/-- A port that requests nothing keeps its record over a grant. -/
theorem Arbitrated.txn_kept {s t : State} (h : Arbitrated s t) {p : Port} (hp : (s.port p).txn.phase ≠ .request) :
    (t.port p).txn = (s.port p).txn := (h.txn p).resolve_right fun hc => hp hc.1

/-! ### The waiters of a domain -/

theorem waiter_of_port {s : State} (h : s.BatchLaw) {v w : Waiter} (hv : v ∈ s.waiting) (hw : w ∈ s.waiting)
    (hp : v.port = w.port) : v = w := by
  have symm : Std.Symm fun v w : Waiter => v.port ≠ w.port := ⟨fun _ _ => Ne.symm⟩
  by_contra hne
  exact h.waitersApart.forall hv hw hne hp

/-- A domain has one waiter at most, on its writer port (R47). -/
theorem waiter_of_domain {s : State} (h : s.BatchLaw) {v w : Waiter} (hv : v ∈ s.waiting) (hw : w ∈ s.waiting)
    (hd : v.domain = w.domain) : v = w :=
  waiter_of_port h hv hw ((h.waiters v hv).2.1.symm.trans (hd ▸ (h.waiters w hw).2.1))

theorem waiterOf_eq {s : State} (h : s.BatchLaw) {w : Waiter} (hw : w ∈ s.waiting) : s.waiterOf w.domain = some w := by
  cases hv : s.waiterOf w.domain with
  | none => exact absurd rfl (waiterOf_none hv w hw)
  | some v =>
    obtain ⟨hm, hd⟩ := waiterOf_some hv
    rw [waiter_of_domain h hm hw hd]

/-! ### The pool's part of a STOP (R53) -/

/-- The state after the waiter of the stopping domain has become a STOPPING hold and its OPEN batch is discarded. -/
def State.stopFreed (s : State) (d : DomainId) : State := ((s.enterStopping d).waiterToStopping d).freeSlotsIn d .opened

theorem discardAtStop_eq (s : State) (d : DomainId) :
    (s.enterStopping d).discardAtStop d = (s.stopFreed d).examineWaiting := rfl

theorem waiterToStopping_of {s : State} (h : s.BatchLaw) {w : Waiter} (hw : w ∈ s.waiting) :
    s.waiterToStopping w.domain =
      (s.leaveWaiting w.port).setTxn w.port { (s.port w.port).txn with cause := some .stopping } := by
  unfold State.waiterToStopping
  rw [waiterOf_eq h hw]

section
variable {s : State} {d : DomainId} (h : s.BatchLaw)
include h

theorem waiting_stopFreed : (∀ v ∈ (s.stopFreed d).waiting, v ∈ s.waiting ∧ v.domain ≠ d) ∧
    ∀ v ∈ s.waiting, v.domain ≠ d → v ∈ (s.stopFreed d).waiting := by
  have list : (s.stopFreed d).waiting = (s.waiterToStopping d).waiting := by
    unfold State.stopFreed State.enterStopping
    rw [(poolOnly_freeSlotsIn _ _ _).waiting, waiterToStopping_setDomain]
    rfl
  rw [list]
  refine ⟨fun v hv => ⟨?_, (waiterToStopping_spec h d).2.1 v hv⟩, fun v hv hd => ?_⟩
  · unfold State.waiterToStopping at hv
    split at hv
    · exact hv
    · rw [State.setTxn_waiting, State.leaveWaiting_waiting] at hv
      exact (List.mem_filter.1 hv).1
  · unfold State.waiterToStopping
    split
    · exact hv
    · next w hw =>
      obtain ⟨hm, hwd⟩ := waiterOf_some hw
      rw [State.setTxn_waiting, State.leaveWaiting_waiting]
      refine List.mem_filter.2 ⟨hv, decide_eq_true fun hp => hd ?_⟩
      rw [waiter_of_port h hv hm hp, hwd]

theorem waitersApart_stopFreed : (s.stopFreed d).waiting.Pairwise fun v w => v.port ≠ w.port := by
  unfold State.stopFreed State.enterStopping
  rw [(poolOnly_freeSlotsIn _ _ _).waiting, waiterToStopping_setDomain]
  exact (waiterToStopping_spec h d).1.waitersApart

/-- The stopping domain's own waiter: STOPPING, off the list. -/
theorem port_stopFreed_waiter {w : Waiter} (hw : w ∈ s.waiting) :
    (s.stopFreed w.domain).port w.port =
      { s.port w.port with txn := { (s.port w.port).txn with cause := some .stopping } } := by
  unfold State.stopFreed State.enterStopping
  rw [(poolOnly_freeSlotsIn _ _ _).port, waiterToStopping_setDomain, State.port_setDomain, waiterToStopping_of h hw]
  unfold State.setTxn
  rw [State.port_setPort_self, State.port_leaveWaiting]

omit h in
/-- The domain is STOPPING, its OPEN batch gone. -/
theorem domain_stopFreed : ∃ v : Vector BatchSlot 4,
    (s.stopFreed d).domain d = { s.domain d with state := .stopping, monitorPhase := .stopped, slots := v } := by
  unfold State.stopFreed
  refine ⟨(((s.enterStopping d).waiterToStopping d).freeSlotsIn d .opened |>.domain d).slots, ?_⟩
  rw [domain_freeSlotsIn]
  unfold State.enterStopping
  rw [waiterToStopping_setDomain, State.domain_setDomain_self]

theorem slot_waiterToStopping (e : DomainId) (k : SlotId) :
    ((s.enterStopping d).waiterToStopping d).slot e k = s.slot e k := by
  unfold State.enterStopping
  rw [waiterToStopping_setDomain, State.slot_setDomain]
  split
  · subst_vars; rfl
  · unfold State.slot; rw [(waiterToStopping_spec h d).2.2]

theorem slot_stopFreed (e : DomainId) (k : SlotId) :
    (s.stopFreed d).slot e k = if e = d ∧ (s.slot e k).state = .opened then {} else s.slot e k := by
  unfold State.stopFreed
  rw [slot_freeSlotsIn, slot_waiterToStopping h]

/-- The entries of the OPEN batch are FREE. -/
theorem entry_stopFreed {k : SlotId} (hk : (s.slot d k).state = .opened) {i : EntryId} (hi : i ∈ (s.slot d k).entries) :
    (s.stopFreed d).entries[i] = none :=
  entry_freeSlotsIn (k := k) (by rwa [slot_waiterToStopping h]) (by rwa [slot_waiterToStopping h])

theorem state_stopFreed_other {e : DomainId} (he : e ≠ d) : ((s.stopFreed d).domain e).state = (s.domain e).state := by
  unfold State.stopFreed State.enterStopping
  rw [(poolOnly_freeSlotsIn _ _ _).state, waiterToStopping_setDomain, State.domain_setDomain_ne _ he,
    (waiterToStopping_spec h d).2.2]

omit h in
theorem stagingOnly_stopFreed : StagingOnly s (s.stopFreed d) := by
  unfold State.stopFreed State.enterStopping
  rw [waiterToStopping_setDomain]
  refine .trans ?_ (stagingOnly_freeSlotsIn _ _ _)
  refine .trans (t := s.waiterToStopping d) ?_ rfl
  unfold State.waiterToStopping
  split
  · exact .refl s
  · exact .trans (t := s.leaveWaiting _) rfl (stagingOnly_setPort _ _ _)

/-! ### After the examination of the waiting list -/

/-- No waiter of the list is the stopping domain's, so the examination leaves the domain. -/
theorem domain_stopExamined : (s.stopFreed d).examineWaiting.domain d = (s.stopFreed d).domain d :=
  domain_examineWaiting fun v hv => ((waiting_stopFreed h).1 v hv).2

theorem slot_stopExamined (k : SlotId) :
    (s.stopFreed d).examineWaiting.slot d k = if (s.slot d k).state = .opened then {} else s.slot d k := by
  have slot := slot_stopFreed (d := d) h d k
  unfold State.slot at *
  rw [domain_stopExamined h, slot]
  simp

theorem state_stopExamined : ((s.stopFreed d).examineWaiting.domain d).state = .stopping := by
  obtain ⟨v, hv⟩ := domain_stopFreed (s := s) (d := d)
  rw [domain_stopExamined h, hv]

theorem writer_stopExamined : ((s.stopFreed d).examineWaiting.domain d).cfg.writer = (s.domain d).cfg.writer := by
  obtain ⟨v, hv⟩ := domain_stopFreed (s := s) (d := d)
  rw [domain_stopExamined h, hv]

/-- A slot in a state other than FREE and OPEN stands as before the STOP. -/
theorem slotState_stopExamined {k : SlotId} {st : SlotState} (h1 : st ≠ .free) (h2 : st ≠ .opened) :
    ((s.stopFreed d).examineWaiting.slot d k).state = st ↔ (s.slot d k).state = st := by
  rw [slot_stopExamined h]
  split
  · next ho => rw [ho]; exact ⟨fun hc => absurd hc.symm h1, fun hc => absurd hc.symm h2⟩
  · rfl

theorem sealAge_stopExamined {k : SlotId} (hk : (s.slot d k).state = .sealed) :
    (s.stopFreed d).examineWaiting.sealAge d k = s.sealAge d k := by
  obtain ⟨v, hv⟩ := domain_stopFreed (s := s) (d := d)
  have slot := slot_stopExamined (d := d) h k
  rw [if_neg (by rw [hk]; decide)] at slot
  unfold State.sealAge
  rw [slot, domain_stopExamined h, hv]

theorem isOldestSealed_stopExamined {k : SlotId} (hk : s.IsOldestSealed d k) :
    (s.stopFreed d).examineWaiting.IsOldestSealed d k := by
  obtain ⟨hs, ho⟩ := hk
  refine ⟨(slotState_stopExamined h (by decide) (by decide)).2 hs, fun j hj hjs => ?_⟩
  have hjs := (slotState_stopExamined h (by decide) (by decide)).1 hjs
  rw [sealAge_stopExamined h hjs, sealAge_stopExamined h hs]
  exact ho j hj hjs

theorem port_stopExamined_waiter {w : Waiter} (hw : w ∈ s.waiting) :
    (s.stopFreed w.domain).examineWaiting.port w.port =
      { s.port w.port with txn := { (s.port w.port).txn with cause := some .stopping } } := by
  rw [port_examineWaiting fun v hv hp => ?_, port_stopFreed_waiter h hw]
  obtain ⟨hm, hd⟩ := (waiting_stopFreed h).1 v hv
  exact hd (by rw [waiter_of_port h hm hw hp])

end

end Sys2Proof.Machine
end

section
/-! SUPPORT. How a stopping domain goes on, and what becomes of the writes that waited (O21). -/

namespace Sys2Proof.Machine

/-! ### How a stopping domain goes on (R65, R66) -/

theorem awaitOrContinue_waits {s : State} {d : DomainId} {k : SlotId} (hk : (s.slot d k).state = .committing) :
    s.awaitOrContinue d = s := by
  unfold State.awaitOrContinue
  cases hn : s.slotIn d .committing with
  | none => exact absurd hk (slotIn_none hn k)
  | some _ => rfl

theorem awaitOrContinue_starts {s : State} {d : DomainId} {k : SlotId} (hn : ∀ j, (s.slot d j).state ≠ .committing)
    (hk : s.oldestSealed d = some k) : s.awaitOrContinue d = s.startCommit d k false := by
  unfold State.awaitOrContinue State.continueStop
  rw [(slotIn_none_iff s d .committing).2 hn, hk]

theorem awaitOrContinue_ends {s : State} {d : DomainId} (hn : ∀ j, (s.slot d j).state ≠ .committing)
    (hk : s.oldestSealed d = none) : s.awaitOrContinue d = s.reachDisabled d := by
  unfold State.awaitOrContinue State.continueStop
  rw [(slotIn_none_iff s d .committing).2 hn, hk]

theorem port_startCommit (s : State) (d : DomainId) (k : SlotId) (p : Port) :
    (s.startCommit d k false).port p = s.port p := by
  rw [startCommit_eq]
  exact port_congr rfl rfl p

theorem domain_startCommit (s : State) (d : DomainId) (k : SlotId) :
    (s.startCommit d k false).domain d = (s.domain d).committing k := by
  rw [startCommit_eq]
  exact s.domain_setDomain_self d _

theorem state_startCommit (s : State) (d : DomainId) (k : SlotId) :
    ((s.startCommit d k false).domain d).state = (s.domain d).state := by
  rw [domain_startCommit]
  rfl

theorem slotState_startCommit (s : State) (d : DomainId) (k : SlotId) :
    ((s.startCommit d k false).slot d k).state = .committing := by
  unfold State.slot
  rw [domain_startCommit]
  simp [Domain.committing]

theorem mem_startOrder_startCommit (s : State) (d : DomainId) (k : SlotId) : d ∈ (s.startCommit d k false).startOrder := by
  rw [startCommit_eq]
  exact List.mem_append_right _ (List.mem_singleton_self d)

/-! ### The end of a stop (R66, R67) -/

/-- The stopping domain in DISABLED, its STOP_DONE raised, its STOPPING hold not yet released. -/
def State.stopEnded (s : State) (d : DomainId) : State :=
  (s.setDomain d { s.domain d with state := .disabled }).raise (.stopDone d)

theorem reachDisabled_eq (s : State) (d : DomainId) : s.reachDisabled d =
    if (s.stopEnded d).stoppingHold d then (s.stopEnded d).reclassify ((s.stopEnded d).domain d).cfg.writer
    else s.stopEnded d := rfl

theorem port_stopEnded (s : State) (d : DomainId) (p : Port) : (s.stopEnded d).port p = s.port p := by
  unfold State.stopEnded; rw [port_raise, State.port_setDomain]

theorem waiting_stopEnded (s : State) (d : DomainId) : (s.stopEnded d).waiting = s.waiting := by
  unfold State.stopEnded; rw [waiting_raise]; rfl

theorem domain_stopEnded (s : State) (d e : DomainId) :
    (s.stopEnded d).domain e = if e = d then { s.domain d with state := .disabled } else s.domain e := by
  unfold State.stopEnded
  rw [domain_raise, State.domain_setDomain]

/-- A write that classification stages lies in a window of the domain (R4). -/
theorem classifyWrite_stage_covering {s : State} {p : Port} {a : Addr} {d : DomainId} {b : Bool}
    (h : s.classifyWrite p a = .stage d b) : ∃ i, s.covering a = some i ∧ (s.window i).domain = d := by
  unfold State.classifyWrite at h
  split at h
  · split at h <;> cases h
  · unfold State.writeTable at h
    split at h
    · cases h
    · next i hi =>
      refine ⟨i, hi, ?_⟩
      split at h
      · split at h
        · unfold stagedOutcome at h
          split at h <;> cases h
          rfl
        · cases h
      · split at h <;> cases h

/-- The STOPPING hold of a DISABLED domain is not staged when it is released: its word lies in a window of that domain. -/
theorem not_staged_of_stoppingHold {s : State} {d : DomainId} (h : s.stoppingHold d = true)
    (hd : (s.domain d).state = .disabled) (p : Port) (e : DomainId) (b : Bool) :
    s.classifyWrite p (accessAddr (s.port (s.domain d).cfg.writer).txn.access) ≠ .stage e b := by
  intro hs
  obtain ⟨i, hi, he⟩ := classifyWrite_stage_covering hs
  unfold State.stoppingHold at h
  dsimp only at h
  rw [hi] at h
  simp only [Bool.and_eq_true, decide_eq_true_eq] at h
  obtain ⟨-, -, hw⟩ := h
  have run := (classifyWrite_stage hs).1
  rw [← he, hw, hd] at run
  cases run

theorem waiting_expireHeld_subset (s : State) (p : Port) : ∀ v ∈ (s.expireHeld p).waiting, v ∈ s.waiting := by
  intro v hv
  rw [expireHeld_eq, State.setPort_waiting, waiting_raise, State.leaveWaiting_waiting] at hv
  exact (List.mem_filter.1 hv).1

/-- A write classified again joins the waiting list only where it is staged. -/
theorem waiting_reclassify_subset {s : State} {p : Port}
    (h : ∀ e b, s.classifyWrite p (accessAddr (s.port p).txn.access) ≠ .stage e b) :
    ∀ v ∈ (s.reclassify p).waiting, v ∈ s.waiting := by
  intro v hv
  cases ho : s.classifyWrite p (accessAddr (s.port p).txn.access) with
  | plain => rw [reclassify_plain ho] at hv; simpa using hv
  | stage e b => exact absurd ho (h e b)
  | hold c =>
    rw [reclassify_hold ho] at hv
    unfold State.hold at hv
    dsimp only at hv
    split at hv
    · simpa using waiting_expireHeld_subset _ _ v hv
    · simpa using hv
  | faultLock e => rw [reclassify_faultLock ho] at hv; simpa using hv
  | foreignWrite i => rw [reclassify_foreignWrite ho] at hv; simpa using hv

theorem waiting_reachDisabled_subset (s : State) (d : DomainId) : ∀ v ∈ (s.reachDisabled d).waiting, v ∈ s.waiting := by
  intro v hv
  rw [reachDisabled_eq] at hv
  split at hv
  · next hh =>
    have disabled : ((s.stopEnded d).domain d).state = .disabled := by rw [domain_stopEnded, if_pos rfl]
    have kept := waiting_reclassify_subset (fun e b => not_staged_of_stoppingHold hh disabled _ e b) v hv
    rwa [waiting_stopEnded] at kept
  · rwa [waiting_stopEnded] at hv

theorem waiting_awaitOrContinue_subset (s : State) (d : DomainId) :
    ∀ v ∈ (s.awaitOrContinue d).waiting, v ∈ s.waiting := by
  intro v hv
  unfold State.awaitOrContinue State.continueStop at hv
  split at hv
  · exact hv
  · split at hv
    · rw [startCommit_eq] at hv; exact hv
    · exact waiting_reachDisabled_subset s d v hv

/-- A port that holds nothing is not the one released. -/
theorem port_awaitOrContinue {s : State} {p : Port} (hp : (s.port p).txn.phase ≠ .held) (d : DomainId) :
    (s.awaitOrContinue d).port p = s.port p := by
  unfold State.awaitOrContinue State.continueStop
  split
  · rfl
  · split
    · exact port_startCommit s d _ p
    · rw [reachDisabled_eq]
      split
      · next hh =>
        have other : p ≠ ((s.stopEnded d).domain d).cfg.writer := by
          rintro rfl
          exact hp (port_stopEnded s d _ ▸ (stoppingHold_held hh).1)
        rw [(onePort_reclassify _ _).port p other, port_stopEnded]
      · exact port_stopEnded s d p

/-- The end of a stop requests the M-port for the STOPPING hold, where its word lies in a STAGED window of the domain and no
SAFING domain names it (R67). -/
theorem reachDisabled_requests {s : State} (ha : s.WindowsApart) {d : DomainId} {p : Port} {a : Addr} {m : Lanes} {x : Word}
    (hw : (s.domain d).cfg.writer = p) (hp : (s.port p).txn.phase = .held) (hc : (s.port p).txn.cause = some .stopping)
    (hx : (s.port p).txn.access = .write a m x) (hn : ∀ e, e ≠ d → ¬ s.NamedBySafing e a)
    {i : WindowId} (hi : s.InWindow i a) (hk : (s.window i).kind = .staged) (hd : (s.window i).domain = d) :
    s.reachDisabled d = (s.stopEnded d).setTxn p { (s.port p).txn with phase := .request, cause := none } := by
  have steady : (s.stopEnded d).windows = s.windows ∧ (s.stopEnded d).safe = s.safe := by
    unfold State.stopEnded
    exact ⟨(steady_raise _ _).windows, (steady_raise _ _).safe⟩
  have windows := window_eq steady.1
  have safe : ∀ j, (s.stopEnded d).safeEntry j = s.safeEntry j := fun j => by simp only [State.safeEntry, steady.2]
  have apart : (s.stopEnded d).WindowsApart := windowsApart_congr ha steady.1
  have inside : (s.stopEnded d).InWindow i a := by unfold State.InWindow; rw [windows]; exact hi
  have self : (s.stopEnded d).domain d = { s.domain d with state := .disabled } := by rw [domain_stopEnded, if_pos rfl]
  have writer : ((s.stopEnded d).domain d).cfg.writer = p := by rw [self]; exact hw
  have held : (s.stopEnded d).stoppingHold d = true := by
    rw [stoppingHold_iff apart, writer, port_stopEnded, hx]
    exact ⟨hp, hc, i, inside, by rw [windows]; exact hk, by rw [windows]; exact hd⟩
  have unnamed : ∀ e, ¬ (s.stopEnded d).NamedBySafing e a := by
    rintro e ⟨hs, j, hj⟩
    rw [domain_stopEnded] at hs
    split at hs
    · cases hs
    · next he => exact hn e he ⟨hs, j, by rwa [safe] at hj⟩
  have plain : (s.stopEnded d).classifyWrite p (accessAddr ((s.stopEnded d).port p).txn.access) = .plain := by
    rw [port_stopEnded, hx]
    change (s.stopEnded d).classifyWrite p a = .plain
    rw [classifyWrite_unnamed unnamed, writeTable_staged apart inside (by rw [windows]; exact hk), windows, hd, self,
      if_pos hw]
    rfl
  rw [reachDisabled_eq, if_pos held, writer, reclassify_plain plain, port_stopEnded]

/-! ### Room for a waiter -/

/-- A FREE entry and an OPEN or FREE slot are room for any write of the domain (R39). -/
theorem canStage_of_free {s : State} {d : DomainId} {a : Addr} {i : EntryId} (hi : s.entries[i] = none) {j : SlotId}
    (hj : (s.slot d j).state = .opened ∨ (s.slot d j).state = .free) : s.canStage d a = true := by
  have entry : s.freeEntry.isSome = true :=
    Option.ne_none_iff_isSome.1 fun hn => (freeEntry_none_iff s).1 hn i hi
  unfold State.canStage
  cases ho : s.slotIn d .opened with
  | some k => simp [entry]
  | none =>
    have free : (s.slotIn d .free).isSome = true :=
      Option.ne_none_iff_isSome.1 fun hn => slotIn_none hn j (hj.resolve_left (slotIn_none ho j))
    simp [entry, free]

theorem examineWaiter_granted {s : State} {w : Waiter} (h : s.canStage w.domain w.addr = true) : s.examineWaiter w =
    ((s.leaveWaiting w.port).stageWrite w.domain (s.port w.port).txn.access w.seals).respond w.port .okayWrite := by
  unfold State.examineWaiter
  rw [if_pos h]

theorem examineWaiting_single {s : State} {w : Waiter} (h : s.waiting = [w]) : s.examineWaiting = s.examineWaiter w := by
  unfold State.examineWaiting
  rw [h]
  rfl

theorem list_eq_singleton {l : List Waiter} {v : Waiter} (hp : l.Pairwise fun v w => v.port ≠ w.port) (hv : v ∈ l)
    (hl : ∀ w ∈ l, w = v) : l = [v] := by
  match l with
  | [] => cases hv
  | [w] => rw [hl w (by simp)]
  | w :: x :: l =>
    have apart := (List.pairwise_cons.1 hp).1 x (by simp)
    rw [hl w (by simp), hl x (by simp)] at apart
    exact absurd rfl apart

/-! ### What a STOP leaves (O21) -/

section
variable {s : State} {d : DomainId} (h : s.BatchLaw)
include h

theorem waiting_stopDomain {v : Waiter} (hv : v ∈ (s.stopDomain d).waiting) : v ∈ s.waiting ∧ v.domain ≠ d :=
  (waiting_stopFreed h).1 v
    (waiting_examineWaiting_subset _ v (waiting_awaitOrContinue_subset (s.stopFreed d).examineWaiting d v hv))

/-- The waiter of the stopping domain is off the list. -/
theorem waiter_left {w : Waiter} (hw : w ∈ s.waiting) (hd : w.domain = d) :
    ∀ v ∈ (s.stopDomain d).waiting, v.port ≠ w.port := by
  intro v hv hp
  obtain ⟨hm, hn⟩ := waiting_stopDomain h hv
  exact hn (by rw [waiter_of_port h hm hw hp, hd])

theorem no_committing_stopExamined (hn : ∀ k, (s.slot d k).state ≠ .committing) (k : SlotId) :
    ((s.stopFreed d).examineWaiting.slot d k).state ≠ .committing := fun hc =>
  hn k ((slotState_stopExamined h (by decide) (by decide)).1 hc)

/-- With a batch left to commit the domain is STOPPING, and every port stands as after the examination. -/
theorem stopDomain_stays (hk : ∃ k, (s.slot d k).state = .committing ∨ (s.slot d k).state = .sealed) :
    ((s.stopDomain d).domain d).state = .stopping ∧
      ∀ p, (s.stopDomain d).port p = (s.stopFreed d).examineWaiting.port p := by
  by_cases hc : ∃ k, (s.slot d k).state = .committing
  · obtain ⟨k, hc⟩ := hc
    have waits : s.stopDomain d = (s.stopFreed d).examineWaiting :=
      awaitOrContinue_waits ((slotState_stopExamined h (by decide) (by decide)).2 hc)
    rw [waits]
    exact ⟨state_stopExamined h, fun p => rfl⟩
  · have hn : ∀ k, (s.slot d k).state ≠ .committing := fun k hk => hc ⟨k, hk⟩
    obtain ⟨k, hk⟩ := hk
    have sealed := (slotState_stopExamined h (by decide) (by decide)).2 (hk.resolve_left (hn k))
    cases ho : (s.stopFreed d).examineWaiting.oldestSealed d with
    | none => exact absurd sealed (oldestSealed_none ho k)
    | some j =>
      have starts : s.stopDomain d = (s.stopFreed d).examineWaiting.startCommit d j false :=
        awaitOrContinue_starts (no_committing_stopExamined h hn) ho
      rw [starts]
      refine ⟨?_, port_startCommit _ d j⟩
      rw [state_startCommit, state_stopExamined h]

/-- With no commit in flight the oldest SEALED batch starts its commit. -/
theorem stopDomain_commits (hn : ∀ k, (s.slot d k).state ≠ .committing) {k : SlotId} (hk : s.IsOldestSealed d k) :
    ((s.stopDomain d).slot d k).state = .committing ∧ d ∈ (s.stopDomain d).startOrder := by
  have starts : s.stopDomain d = (s.stopFreed d).examineWaiting.startCommit d k false :=
    awaitOrContinue_starts (no_committing_stopExamined h hn) (oldestSealed_of (isOldestSealed_stopExamined h hk))
  rw [starts]
  exact ⟨slotState_startCommit _ d k, mem_startOrder_startCommit _ d k⟩

/-- With nothing left to commit the domain is DISABLED and its waiter's plain write requests the M-port. -/
theorem stopDomain_releases (hn : ∀ k, (s.slot d k).state ≠ .committing ∧ (s.slot d k).state ≠ .sealed)
    (ha : s.WindowsApart) {w : Waiter} (hw : w ∈ s.waiting) (hd : w.domain = d) {a : Addr} {m : Lanes} {x : Word}
    (hx : (s.port w.port).txn.access = .write a m x) (hs : ∀ e, ¬ s.NamedBySafing e a)
    {i : WindowId} (hi : s.InWindow i a) (hk : (s.window i).kind = .staged) (hid : (s.window i).domain = d) :
    ((s.stopDomain d).domain d).state = .disabled ∧
      ((s.stopDomain d).port w.port).txn = { (s.port w.port).txn with phase := .request, cause := none } := by
  subst hd
  have only : StagingOnly s (s.stopFreed w.domain).examineWaiting :=
    stagingOnly_stopFreed.trans (stagingOnly_examineWaiting _)
  have windows := window_eq only.windows
  have ends : s.stopDomain w.domain = (s.stopFreed w.domain).examineWaiting.reachDisabled w.domain :=
    awaitOrContinue_ends (no_committing_stopExamined h fun k => (hn k).1) ((oldestSealed_none_iff _ _).2 fun k hc =>
      (hn k).2 ((slotState_stopExamined h (by decide) (by decide)).1 hc))
  have unit := port_stopExamined_waiter h hw
  obtain ⟨-, hwriter, hheld, -⟩ := h.waiters w hw
  have unnamed : ∀ e, e ≠ w.domain → ¬ (s.stopFreed w.domain).examineWaiting.NamedBySafing e a := by
    rintro e he ⟨hst, j, hj⟩
    rw [(noNewCommit_examineWaiting _).state, state_stopFreed_other h he] at hst
    have entry : (s.stopFreed w.domain).examineWaiting.safeEntry j = s.safeEntry j := by
      unfold State.safeEntry; rw [only.safe]
    exact hs e ⟨hst, j, entry ▸ hj⟩
  have inside : (s.stopFreed w.domain).examineWaiting.InWindow i a := by
    unfold State.InWindow; rw [windows]; exact hi
  have writer := (writer_stopExamined (d := w.domain) h).trans hwriter
  have apart : (s.stopFreed w.domain).examineWaiting.WindowsApart := windowsApart_congr ha only.windows
  rw [ends]
  generalize (s.stopFreed w.domain).examineWaiting = u at *
  rw [reachDisabled_requests apart writer (by rw [unit]; exact hheld) (by rw [unit]) (by rw [unit]; exact hx) unnamed
    inside (by rw [windows]; exact hk) (by rw [windows]; exact hid), unit]
  refine ⟨?_, ?_⟩
  · rw [State.domain_setTxn, domain_stopEnded, if_pos rfl]
  · rw [State.port_setTxn, if_pos rfl]

/-- The one waiter left is granted when the discard of the OPEN batch frees an entry and its domain has a slot (R48). -/
theorem stopDomain_grants {v : Waiter} (hv : v ∈ s.waiting) (hd : v.domain ≠ d)
    (hone : ∀ w ∈ s.waiting, w.domain = d ∨ w = v)
    {k : SlotId} (hk : (s.slot d k).state = .opened) {i : EntryId} (hi : i ∈ (s.slot d k).entries)
    {j : SlotId} (hj : (s.slot v.domain j).state = .opened ∨ (s.slot v.domain j).state = .free) :
    ((s.stopDomain d).port v.port).txn = {} ∧ ((s.stopDomain d).port v.port).ready = true ∧
      ((s.stopDomain d).port v.port).response = some .okayWrite ∧
      ∀ w ∈ (s.stopDomain d).waiting, w.port ≠ v.port := by
  have list : (s.stopFreed d).waiting = [v] := by
    refine list_eq_singleton (waitersApart_stopFreed h) ((waiting_stopFreed h).2 v hv hd) fun w hw => ?_
    obtain ⟨hm, hn⟩ := (waiting_stopFreed h).1 w hw
    exact (hone w hm).resolve_left hn
  have slot : (s.stopFreed d).slot v.domain j = s.slot v.domain j := by
    rw [slot_stopFreed h, if_neg fun hc => hd hc.1]
  have room : (s.stopFreed d).canStage v.domain v.addr = true :=
    canStage_of_free (entry_stopFreed h hk hi) (by rwa [slot])
  have examined : (s.stopFreed d).examineWaiting = (((s.stopFreed d).leaveWaiting v.port).stageWrite v.domain
      ((s.stopFreed d).port v.port).txn.access v.seals).respond v.port .okayWrite := by
    rw [examineWaiting_single list, examineWaiter_granted room]
  have granted : (s.stopFreed d).examineWaiting.port v.port = { (s.stopFreed d).port v.port with
      txn := {}, ready := true, response := some .okayWrite } := by
    rw [examined, State.port_respond, if_pos rfl, (poolOnly_stageWrite _ _ _ _).port, State.port_leaveWaiting]
  have kept : (s.stopDomain d).port v.port = (s.stopFreed d).examineWaiting.port v.port :=
    port_awaitOrContinue (by rw [discardAtStop_eq, granted]; exact nofun) d
  rw [kept, granted]
  refine ⟨rfl, rfl, rfl, fun w hw hp => ?_⟩
  have left := waiting_awaitOrContinue_subset (s.stopFreed d).examineWaiting d w hw
  rw [examined, State.respond_waiting, (poolOnly_stageWrite _ _ _ _).waiting, State.leaveWaiting_waiting] at left
  simpa [hp] using (List.mem_filter.1 left).2

end

/-! ### The command STOP -/

theorem exec_stop {s : State} (h : s.Listening) {b : Byte} {d : DomainId} (hb : b.toNat = d.val)
    (hd : (s.domain d).state = .run) (tail : Nat) :
    exec (.stop b tail) s =
      .next (((s.shiftFrame (8 * 3 + tail)).stopDomain d).arbitrate.answer (bare .accepted)) := by
  have run : ((s.shiftFrame (8 * 3 + tail)).domain d).state = .run := hd
  refine congrArg Host.Outcome.next ((carryOut_of_listening h _ _).trans ?_)
  unfold State.onDomain
  rw [show domainOfByte b = some d from index_of_eq hb]
  dsimp only
  unfold State.doStop
  rw [run]

theorem shiftFrame_batchLaw {s : State} (h : s.BatchLaw) (n : Nat) : (s.shiftFrame n).BatchLaw :=
  batchLaw_congr h rfl rfl rfl rfl rfl

/-- Settles O21: the waiter of the stopping domain by what is left to commit, and the other waiter by the entries that the
discard frees. -/
theorem stopTurnsTheWaiterIntoAStoppingHold : Obligations.StopTurnsTheWaiterIntoAStoppingHold := by
  intro s b tail d hl h hb hd
  obtain ⟨t, exec, reply, arb⟩ : ∃ t, exec (.stop b tail) s = .next t ∧ t.reply = some (bare .accepted) ∧
      Arbitrated ((s.shiftFrame (8 * 3 + tail)).stopDomain d) t :=
    ⟨_, exec_stop hl hb hd tail, rfl, arbitrated_answer _ _⟩
  have hu := shiftFrame_batchLaw h (8 * 3 + tail)
  refine ⟨t, exec, reply, ?_⟩
  refine ⟨fun w hw hwd => ⟨by rw [arb.waiting]; exact waiter_left hu hw hwd, fun hk => ⟨?_, fun k hn hk => ?_, ?_⟩,
    fun hn ha a m x hx hs ⟨i, hi, hik, hid⟩ => ?_⟩, fun v hv hvd hone ⟨k, hk, he⟩ ⟨j, hj⟩ => ?_⟩
  · rw [arb.state]
    exact (stopDomain_stays hu hk).1
  · rw [arb.slot, arb.startOrder]
    exact stopDomain_commits hu hn hk
  · subst hwd
    have unit := ((stopDomain_stays hu hk).2 w.port).trans (port_stopExamined_waiter hu hw)
    have held : ((s.shiftFrame (8 * 3 + tail)).port w.port).txn.phase = .held := (hu.waiters w hw).2.2.1
    rw [arb.txn_kept (by rw [unit]; simp [held]), unit]
    rfl
  · obtain ⟨disabled, record⟩ := stopDomain_releases hu hn ha hw hwd hx hs hi hik hid
    refine ⟨(arb.state d).trans disabled, ?_⟩
    rcases arb.txn w.port with hk | ⟨-, hk⟩
    · exact ⟨.request, .inl rfl, hk.trans record⟩
    · exact ⟨.memory, .inr rfl, hk.trans (by rw [record]; rfl)⟩
  · obtain ⟨i, hi⟩ := List.exists_mem_of_ne_nil _ he
    obtain ⟨record, ready, response, left⟩ := stopDomain_grants hu hv hvd hone hk hi hj
    refine ⟨?_, (arb.ready _).trans ready, (arb.response _).trans response, by rw [arb.waiting]; exact left⟩
    rw [arb.txn_kept (by rw [record]; decide), record]

end Sys2Proof.Machine
end

section
/-! SUPPORT. Fault acceptances step by step: the discards of each domain, and its end after the examination (O59). -/

namespace Sys2Proof.Machine

/-- A port whose write has ended with ERROR (R30). -/
def PortUnit.refused (u : PortUnit) : PortUnit := { u with txn := {}, ready := true, response := some .errorWrite }

theorem port_terminate (s : State) (p q : Port) :
    (s.terminate p).port q = if q = p then (s.port p).refused else s.port q := by
  unfold State.terminate
  rw [State.port_respond]
  simp only [State.port_leaveWaiting]
  rfl

/-! ### The discards of one domain (R104, steps 2 and 3) -/

theorem takeFault_eq (s : State) (d : DomainId) : s.takeFault d =
    (((s.terminateWaiter d).setDomain d { s.domain d with state := .safing, monitorPhase := .stopped }).freeSlotsIn d
      .opened).freeSlotsIn d .sealed := by
  rw [← terminateWaiter_setDomain]; rfl

theorem terminateWaiter_of {s : State} (h : s.BatchLaw) {w : Waiter} (hw : w ∈ s.waiting) :
    s.terminateWaiter w.domain = s.terminate w.port := by
  unfold State.terminateWaiter
  rw [waiterOf_eq h hw]

theorem terminateWaiter_none {s : State} {d : DomainId} (h : ∀ w ∈ s.waiting, w.domain ≠ d) :
    s.terminateWaiter d = s := by
  unfold State.terminateWaiter
  cases hw : s.waiterOf d with
  | none => rfl
  | some w => exact absurd (waiterOf_some hw).2 (h w (waiterOf_some hw).1)

theorem domain_terminateWaiter (s : State) (d e : DomainId) : (s.terminateWaiter d).domain e = s.domain e := by
  unfold State.terminateWaiter
  split
  · exact State.domain_respond _ _ _ _
  · rfl

theorem stagingOnly_setDomain (s : State) (d : DomainId) (x : Domain) : StagingOnly s (s.setDomain d x) := rfl

theorem stagingOnly_takeFault (s : State) (d : DomainId) : StagingOnly s (s.takeFault d) := by
  have waiter : StagingOnly s (s.terminateWaiter d) := by
    unfold State.terminateWaiter
    split
    · exact stagingOnly_terminate _ _
    · exact .refl s
  rw [takeFault_eq]
  exact ((waiter.trans (stagingOnly_setDomain _ _ _)).trans (stagingOnly_freeSlotsIn _ _ _)).trans (stagingOnly_freeSlotsIn _ _ _)

theorem port_takeFault (s : State) (d : DomainId) (p : Port) : (s.takeFault d).port p = (s.terminateWaiter d).port p := by
  rw [takeFault_eq, (poolOnly_freeSlotsIn _ _ _).port, (poolOnly_freeSlotsIn _ _ _).port, State.port_setDomain]

theorem waiting_takeFault (s : State) (d : DomainId) : (s.takeFault d).waiting = (s.terminateWaiter d).waiting := by
  rw [takeFault_eq, (poolOnly_freeSlotsIn _ _ _).waiting, (poolOnly_freeSlotsIn _ _ _).waiting]
  rfl

/-- What the discards of the domains of `l` leave: each in SAFING without OPEN and SEALED batches, its waiter ended; the
rest of the part as it was. -/
structure FaultsTaken (l : List DomainId) (s u : State) : Prop where
  domain : ∀ d ∈ l, ∃ v : Vector BatchSlot 4,
    u.domain d = { s.domain d with state := .safing, monitorPhase := .stopped, slots := v }
  slot : ∀ d ∈ l, ∀ k, u.slot d k =
    if (s.slot d k).state = .opened ∨ (s.slot d k).state = .sealed then {} else s.slot d k
  other : ∀ e, e ∉ l → u.domain e = s.domain e
  waiting : ∀ v, v ∈ u.waiting ↔ v ∈ s.waiting ∧ v.domain ∉ l
  ended : ∀ w ∈ s.waiting, w.domain ∈ l → u.port w.port = (s.port w.port).refused
  port : ∀ p, (∀ w ∈ s.waiting, w.domain ∈ l → w.port ≠ p) → u.port p = s.port p

theorem waiting_terminateWaiter {s : State} (h : s.BatchLaw) (d : DomainId) (v : Waiter) :
    v ∈ (s.terminateWaiter d).waiting ↔ v ∈ s.waiting ∧ v.domain ≠ d := by
  by_cases hw : ∃ w ∈ s.waiting, w.domain = d
  · obtain ⟨w, hw, rfl⟩ := hw
    rw [terminateWaiter_of h hw]
    unfold State.terminate
    rw [State.respond_waiting, State.leaveWaiting_waiting, List.mem_filter, decide_eq_true_eq]
    refine and_congr_right fun hv => not_congr ⟨fun hp => by rw [waiter_of_port h hv hw hp], fun hd => ?_⟩
    rw [waiter_of_domain h hv hw hd]
  · have none : ∀ w ∈ s.waiting, w.domain ≠ d := fun w hm hd => hw ⟨w, hm, hd⟩
    rw [terminateWaiter_none none]
    exact ⟨fun hv => ⟨hv, none v hv⟩, And.left⟩

theorem faultsTaken_one {s : State} (h : s.BatchLaw) (d : DomainId) : FaultsTaken [d] s (s.takeFault d) := by
  constructor
  case domain =>
    intro e he
    obtain rfl := List.mem_singleton.1 he
    refine ⟨((s.takeFault e).domain e).slots, ?_⟩
    rw [takeFault_eq, domain_freeSlotsIn, domain_freeSlotsIn, State.domain_setDomain_self]
  case slot =>
    intro e he k
    obtain rfl := List.mem_singleton.1 he
    rw [takeFault_eq, slot_freeSlotsIn, slot_freeSlotsIn, State.slot_setDomain, if_pos rfl]
    change (if e = e ∧ (if e = e ∧ (s.slot e k).state = .opened then ({} : BatchSlot) else s.slot e k).state = .sealed
      then {} else if e = e ∧ (s.slot e k).state = .opened then {} else s.slot e k) = _
    cases hs : (s.slot e k).state <;> simp [hs]
  case other =>
    intro e he
    have hne : e ≠ d := fun hc => he (List.mem_singleton.2 hc)
    rw [takeFault_eq, domain_freeSlotsIn_other hne, domain_freeSlotsIn_other hne, State.domain_setDomain_ne _ hne,
      domain_terminateWaiter]
  case waiting =>
    intro v
    rw [waiting_takeFault, waiting_terminateWaiter h, List.mem_singleton]
  case ended =>
    intro w hw hd
    obtain rfl := List.mem_singleton.1 hd
    rw [port_takeFault, terminateWaiter_of h hw, port_terminate, if_pos rfl]
  case port =>
    intro p hp
    rw [port_takeFault]
    by_cases hw : ∃ w ∈ s.waiting, w.domain = d
    · obtain ⟨w, hw, rfl⟩ := hw
      rw [terminateWaiter_of h hw, port_terminate, if_neg (hp w hw (List.mem_singleton_self _)).symm]
    · rw [terminateWaiter_none fun w hm hd => hw ⟨w, hm, hd⟩]

theorem FaultsTaken.cons {s t u : State} {d : DomainId} {l : List DomainId} (h : s.BatchLaw) (hd : d ∉ l)
    (h1 : FaultsTaken [d] s t) (h2 : FaultsTaken l t u) : FaultsTaken (d :: l) s u := by
  have self : u.domain d = t.domain d := h2.other d hd
  have rest : ∀ e ∈ l, t.domain e = s.domain e := fun e he =>
    h1.other e fun hc => hd (List.mem_singleton.1 hc ▸ he)
  constructor
  case domain =>
    intro e he
    rcases List.mem_cons.1 he with rfl | he
    · rw [self]; exact h1.domain e (List.mem_singleton_self e)
    · rw [← rest e he]; exact h2.domain e he
  case slot =>
    intro e he k
    rcases List.mem_cons.1 he with rfl | he
    · rw [State.slot, self]; exact h1.slot e (List.mem_singleton_self e) k
    · have := h2.slot e he k
      rwa [show t.slot e k = s.slot e k by rw [State.slot, rest e he]; rfl] at this
  case other =>
    intro e he
    rw [List.mem_cons, not_or] at he
    rw [h2.other e he.2, h1.other e fun hc => he.1 (List.mem_singleton.1 hc)]
  case waiting =>
    intro v
    rw [h2.waiting, h1.waiting, List.mem_singleton, List.mem_cons, not_or, and_assoc]
  case ended =>
    intro w hw hwd
    rcases List.mem_cons.1 hwd with rfl | hwd
    · rw [h2.port w.port fun v hv _ hp => ?_, h1.ended w hw (List.mem_singleton_self _)]
      obtain ⟨hm, hn⟩ := (h1.waiting v).1 hv
      exact hn (List.mem_singleton.2 (by rw [waiter_of_port h hm hw hp]))
    · have hne : w.domain ≠ d := fun hc => hd (hc ▸ hwd)
      rw [h2.ended w ((h1.waiting w).2 ⟨hw, fun hc => hne (List.mem_singleton.1 hc)⟩) hwd, h1.port w.port fun v hv hvd hp => ?_]
      rw [waiter_of_port h hv hw hp] at hvd
      exact hne (List.mem_singleton.1 hvd)
  case port =>
    intro p hp
    rw [h2.port p fun w hw hwd => hp w ((h1.waiting w).1 hw).1 (List.mem_cons_of_mem _ hwd),
      h1.port p fun w hw hwd => hp w hw (List.mem_singleton.1 hwd ▸ List.mem_cons_self)]

theorem FaultsTaken.nil (s : State) : FaultsTaken [] s s :=
  ⟨nofun, nofun, fun _ _ => rfl, fun v => by simp, fun _ _ hd => (nomatch hd), fun _ _ => rfl⟩

/-- The discards of several domains, one after another (R103). -/
theorem faultsTaken_foldl (l : List DomainId) (hl : l.Nodup) {s : State} (h : s.BatchLaw)
    (hd : ∀ d ∈ l, (s.domain d).state.acceptsFault = true) : FaultsTaken l s (l.foldl State.takeFault s) := by
  induction l generalizing s with
  | nil => exact .nil s
  | cons d l ih =>
    obtain ⟨hn, hl⟩ := List.nodup_cons.1 hl
    have h1 := faultsTaken_one h d
    have law : (s.takeFault d).BatchLaw := batchLaw_discardAtFault h d (hd d List.mem_cons_self)
    rw [List.foldl_cons]
    generalize s.takeFault d = t at h1 law
    refine .cons h hn h1 (ih hl law fun e he => ?_)
    rw [h1.other e fun hc => hn (List.mem_singleton.1 hc ▸ he)]
    exact hd e (List.mem_cons_of_mem _ he)

/-! ### The end of one domain's acceptance (R104, steps 4 and 5) -/

/-- The domain after its fill has begun, or been left PENDING (R110, R112). -/
def State.faultSettled (s : State) (d : DomainId) : Domain :=
  if s.commitInFlight d then { s.domain d with fill := { phase := .pending } }
  else
    match s.nextSafe d 0 with
    | some j => { s.domain d with fill := { phase := .fillRequest, next := j } }
    | none => { s.domain d with fill := {}, state := .safed }

/-- The domain's fill begins with a request (R110). -/
def State.fillRequests (s : State) (d : DomainId) : Bool := !s.commitInFlight d && (s.nextSafe d 0).isSome

theorem fillOrPend_domain (s : State) (d e : DomainId) :
    (s.fillOrPend d).domain e = if e = d then s.faultSettled d else s.domain e := by
  unfold State.fillOrPend State.faultSettled State.openFill
  split
  · exact s.domain_setDomain d e _
  · cases s.nextSafe d 0 with
    | none => exact s.domain_setDomain d e _
    | some j => exact s.domain_setDomain d e _

theorem fillOrPend_fillOrder (s : State) (d : DomainId) :
    (s.fillOrPend d).fillOrder = if s.commitInFlight d then s.fillOrder
      else if (s.nextSafe d 0).isSome then s.fillOrder ++ [d] else s.fillOrder.filter (· ≠ d) := by
  unfold State.fillOrPend State.openFill
  split
  · rfl
  · cases s.nextSafe d 0 <;> rfl

theorem fillOrPend_only (s : State) (d : DomainId) :
    StagingOnly { s with fillOrder := (s.fillOrPend d).fillOrder } (s.fillOrPend d) := by
  unfold State.fillOrPend State.openFill
  split
  · rfl
  · cases s.nextSafe d 0 <;> rfl

theorem fillOrPend_port (s : State) (d : DomainId) (p : Port) : (s.fillOrPend d).port p = s.port p := by
  unfold State.fillOrPend State.openFill
  split
  · exact port_congr rfl rfl p
  · cases s.nextSafe d 0 <;> exact port_congr rfl rfl p

theorem terminateStopping_only (s : State) (d : DomainId) : StagingOnly s (s.terminateStopping d) := by
  unfold State.terminateStopping
  split
  · exact stagingOnly_terminate _ _
  · exact .refl s

theorem port_terminateStopping (s : State) (d : DomainId) (p : Port) : (s.terminateStopping d).port p =
    if s.stoppingHold d = true ∧ (s.domain d).cfg.writer = p then (s.port p).refused else s.port p := by
  unfold State.terminateStopping
  by_cases hh : s.stoppingHold d = true
  · rw [if_pos hh, port_terminate]
    by_cases hp : (s.domain d).cfg.writer = p
    · subst hp; simp [hh]
    · rw [if_neg (Ne.symm hp), if_neg fun hc => hp hc.2]
  · rw [if_neg hh, if_neg fun hc => hh hc.1]

/-- What an end of an acceptance reads besides domains: the SAFE table. -/
theorem faultSettled_congr {s t : State} {d : DomainId} (hd : t.domain d = s.domain d) (hs : t.safe = s.safe) :
    t.faultSettled d = s.faultSettled d ∧ t.commitInFlight d = s.commitInFlight d ∧ t.nextSafe d 0 = s.nextSafe d 0 := by
  have flight : t.commitInFlight d = s.commitInFlight d := by unfold State.commitInFlight; rw [hd]
  have next : t.nextSafe d 0 = s.nextSafe d 0 := by unfold State.nextSafe State.safeEntry; rw [hs]
  refine ⟨?_, flight, next⟩
  unfold State.faultSettled
  rw [flight, next, hd]

/-- Two domains do not hold the same port's write under STOPPING: its word lies in one window. -/
theorem stoppingHold_unique {s : State} {d e : DomainId} (hd : s.stoppingHold d = true) (he : s.stoppingHold e = true)
    (hw : (s.domain d).cfg.writer = (s.domain e).cfg.writer) : d = e := by
  unfold State.stoppingHold at hd he
  dsimp only at hd he
  rw [hw] at hd
  simp only [Bool.and_eq_true] at hd he
  obtain ⟨-, hd⟩ := hd
  obtain ⟨-, he⟩ := he
  split at hd
  · cases hd
  · next i hi =>
    rw [hi] at he
    rw [decide_eq_true_eq] at hd he
    exact hd.2.symm.trans he.2

/-- What the ends of the acceptances of the domains of `l` leave: each with its fill begun or PENDING, its STOPPING hold
ended; the rest of the part as it was. -/
structure FaultsSettled (l : List DomainId) (s u : State) : Prop where
  only : StagingOnly { s with fillOrder := u.fillOrder } u
  domain : ∀ d ∈ l, u.domain d = s.faultSettled d
  other : ∀ e, e ∉ l → u.domain e = s.domain e
  ended : ∀ d ∈ l, s.stoppingHold d = true → u.port (s.domain d).cfg.writer = (s.port (s.domain d).cfg.writer).refused
  port : ∀ p, (∀ d ∈ l, s.stoppingHold d = true → (s.domain d).cfg.writer ≠ p) → u.port p = s.port p
  kept : ∀ d, d ∉ l → d ∈ s.fillOrder → d ∈ u.fillOrder
  joined : ∀ d ∈ l, s.fillRequests d = true → d ∈ u.fillOrder
  fillOrder : (∀ d ∈ l, d ∉ s.fillOrder) → u.fillOrder = s.fillOrder ++ l.filter s.fillRequests

theorem fillOrder_settleFault (s : State) (d : DomainId) :
    (s.settleFault d).fillOrder = if s.commitInFlight d then s.fillOrder
      else if (s.nextSafe d 0).isSome then s.fillOrder ++ [d] else s.fillOrder.filter (· ≠ d) := by
  have only := terminateStopping_only s d
  obtain ⟨-, flight, next⟩ := faultSettled_congr (terminateStopping_domain s d d) only.safe
  unfold State.settleFault
  rw [fillOrPend_fillOrder, flight, next, only.fillOrder]

theorem port_settleFault (s : State) (d : DomainId) (p : Port) : (s.settleFault d).port p =
    if s.stoppingHold d = true ∧ (s.domain d).cfg.writer = p then (s.port p).refused else s.port p := by
  unfold State.settleFault
  rw [fillOrPend_port, port_terminateStopping]

theorem domain_settleFault (s : State) (d e : DomainId) :
    (s.settleFault d).domain e = if e = d then s.faultSettled d else s.domain e := by
  unfold State.settleFault
  rw [fillOrPend_domain, terminateStopping_domain,
    (faultSettled_congr (terminateStopping_domain s d d) (terminateStopping_only s d).safe).1]

theorem StagingOnly.withFillOrder {s t : State} {l k : List DomainId} (h : StagingOnly { s with fillOrder := l } t) :
    StagingOnly { s with fillOrder := k } { t with fillOrder := k } := by
  unfold StagingOnly at *
  rw [h]

theorem settleFault_only (s : State) (d : DomainId) :
    StagingOnly { s with fillOrder := (s.settleFault d).fillOrder } (s.settleFault d) := by
  exact (terminateStopping_only s d).withFillOrder.trans (fillOrPend_only _ d)

theorem faultsSettled_one (s : State) (d : DomainId) : FaultsSettled [d] s (s.settleFault d) := by
  have order := fillOrder_settleFault s d
  constructor
  case only => exact settleFault_only s d
  case domain =>
    intro e he
    obtain rfl := List.mem_singleton.1 he
    rw [domain_settleFault, if_pos rfl]
  case other =>
    intro e he
    rw [domain_settleFault, if_neg fun hc => he (List.mem_singleton.2 hc)]
  case ended =>
    intro e he hh
    obtain rfl := List.mem_singleton.1 he
    rw [port_settleFault, if_pos ⟨hh, rfl⟩]
  case port =>
    intro p hp
    rw [port_settleFault, if_neg fun hc => hp d (List.mem_singleton_self d) hc.1 hc.2]
  case kept =>
    intro e he hm
    have hne : e ≠ d := fun hc => he (List.mem_singleton.2 hc)
    rw [order]
    split
    · exact hm
    · split
      · exact List.mem_append_left _ hm
      · exact List.mem_filter.2 ⟨hm, decide_eq_true hne⟩
  case joined =>
    intro e he hr
    obtain rfl := List.mem_singleton.1 he
    simp only [State.fillRequests, Bool.and_eq_true, Bool.not_eq_true'] at hr
    rw [order, hr.1, hr.2]
    exact List.mem_append_right _ (List.mem_singleton_self e)
  case fillOrder =>
    intro hn
    have hd := hn d (List.mem_singleton_self d)
    rw [order]
    unfold State.fillRequests
    cases hf : s.commitInFlight d <;> cases hs : (s.nextSafe d 0).isSome <;> simp [hf, hs]
    rintro e he rfl
    exact hd he

theorem stoppingHold_congr {s t : State} {e : DomainId} (hd : (t.domain e).cfg.writer = (s.domain e).cfg.writer)
    (hw : t.windows = s.windows)
    (hp : t.port (s.domain e).cfg.writer = s.port (s.domain e).cfg.writer) : t.stoppingHold e = s.stoppingHold e := by
  have covering : ∀ a, t.covering a = s.covering a := fun a => by simp only [State.covering, window_eq hw]
  unfold State.stoppingHold
  simp only [hd, hp, covering, window_eq hw]

/-- A port that holds no write has no STOPPING hold. -/
theorem not_stoppingHold_refused {s : State} {d : DomainId} {u : PortUnit}
    (h : s.port (s.domain d).cfg.writer = u.refused) : s.stoppingHold d = false := by
  rw [← Bool.not_eq_true]
  intro hh
  have held := (stoppingHold_held hh).1
  rw [h] at held
  cases held

/-- The end of one acceptance leaves the STOPPING holds of the other domains. -/
theorem stoppingHold_settled {s t : State} {d e : DomainId} (h : FaultsSettled [d] s t) (he : e ∉ [d]) :
    t.stoppingHold e = s.stoppingHold e := by
  have same := h.other e he
  by_cases hx : s.stoppingHold d = true ∧ (s.domain d).cfg.writer = (s.domain e).cfg.writer
  · obtain ⟨hh, hw⟩ := hx
    have ended := h.ended d (List.mem_singleton_self d) hh
    rw [hw, ← same] at ended
    rw [not_stoppingHold_refused ended, eq_comm, ← Bool.not_eq_true]
    exact fun hs => he (List.mem_singleton.2 (stoppingHold_unique hh hs hw).symm)
  · refine stoppingHold_congr (by rw [same]) h.only.windows (h.port _ fun f hf hh hw => hx ?_)
    obtain rfl := List.mem_singleton.1 hf
    exact ⟨hh, hw⟩

theorem FaultsSettled.cons {s t u : State} {d : DomainId} {l : List DomainId} (hd : d ∉ l)
    (h1 : FaultsSettled [d] s t) (h2 : FaultsSettled l t u) : FaultsSettled (d :: l) s u := by
  have hne : ∀ e ∈ l, e ∉ [d] := fun e he hc => hd (List.mem_singleton.1 hc ▸ he)
  have rest : ∀ e ∈ l, t.domain e = s.domain e := fun e he => h1.other e (hne e he)
  have view : ∀ e ∈ l, t.faultSettled e = s.faultSettled e ∧ t.fillRequests e = s.fillRequests e := fun e he => by
    obtain ⟨settled, flight, next⟩ := faultSettled_congr (rest e he) h1.only.safe
    refine ⟨settled, ?_⟩
    unfold State.fillRequests
    rw [flight, next]
  have hold : ∀ e ∈ l, t.stoppingHold e = s.stoppingHold e := fun e he =>
    stoppingHold_settled h1 (hne e he)
  have apart : ∀ e ∈ l, s.stoppingHold e = true → s.stoppingHold d = true →
      (s.domain d).cfg.writer ≠ (s.domain e).cfg.writer :=
    fun e he hh hs hw => hd (stoppingHold_unique hs hh hw ▸ he)
  constructor
  case only => exact h1.only.withFillOrder.trans h2.only
  case domain =>
    intro e he
    rcases List.mem_cons.1 he with rfl | he
    · rw [h2.other e hd, h1.domain e (List.mem_singleton_self e)]
    · rw [h2.domain e he, (view e he).1]
  case other =>
    intro e he
    rw [List.mem_cons, not_or] at he
    rw [h2.other e he.2, h1.other e fun hc => he.1 (List.mem_singleton.1 hc)]
  case ended =>
    intro e he hh
    rcases List.mem_cons.1 he with rfl | he
    · rw [h2.port _ fun f hf hs hw => ?_, h1.ended e (List.mem_singleton_self e) hh]
      rw [rest f hf] at hw
      exact apart f hf (hold f hf ▸ hs) hh hw.symm
    · have done := h2.ended e he ((hold e he).trans hh)
      rw [rest e he] at done
      rw [done, h1.port _ fun f hf hs => List.mem_singleton.1 hf ▸ apart e he hh (List.mem_singleton.1 hf ▸ hs)]
  case port =>
    intro p hp
    rw [h2.port p fun e he hs => rest e he ▸ hp e (List.mem_cons_of_mem _ he) (hold e he ▸ hs),
      h1.port p fun e he hs => hp e (List.mem_singleton.1 he ▸ List.mem_cons_self) hs]
  case kept =>
    intro e he hm
    rw [List.mem_cons, not_or] at he
    exact h2.kept e he.2 (h1.kept e (fun hc => he.1 (List.mem_singleton.1 hc)) hm)
  case joined =>
    intro e he hr
    rcases List.mem_cons.1 he with rfl | he
    · exact h2.kept e hd (h1.joined e (List.mem_singleton_self e) hr)
    · exact h2.joined e he ((view e he).2.trans hr)
  case fillOrder =>
    intro hn
    have first := h1.fillOrder fun e he => hn e (List.mem_singleton.1 he ▸ List.mem_cons_self)
    have absent : ∀ e ∈ l, e ∉ t.fillOrder := fun e he hc => by
      rw [first] at hc
      rcases List.mem_append.1 hc with hc | hc
      · exact hn e (List.mem_cons_of_mem _ he) hc
      · exact hne e he (List.mem_filter.1 hc).1
    rw [h2.fillOrder absent, first, List.append_assoc, List.filter_congr fun e he => (view e he).2, ← List.filter_append]
    rfl

theorem FaultsSettled.nil (s : State) : FaultsSettled [] s s :=
  ⟨rfl, nofun, fun _ _ => rfl, nofun, fun _ _ => rfl, fun _ _ => id, nofun, fun _ => by simp⟩

/-- The ends of several domains' acceptances, one after another (R103). -/
theorem faultsSettled_foldl (l : List DomainId) (hl : l.Nodup) (s : State) :
    FaultsSettled l s (l.foldl State.settleFault s) := by
  induction l generalizing s with
  | nil => exact .nil s
  | cons d l ih =>
    obtain ⟨hn, hl⟩ := List.nodup_cons.1 hl
    exact .cons hn (faultsSettled_one s d) (ih hl _)

end Sys2Proof.Machine
end

section
/-! SUPPORT. Fault acceptances at one event: the records, and what all the steps leave together (O59). -/

namespace Sys2Proof.Machine

/-! ### The records (R104, R155) -/

theorem raises_freeCount (l : List Event) (s : State) (n : Nat) :
    l.foldl State.raise { s with freeCount := n } = { l.foldl State.raise s with freeCount := n } := by
  have one : ∀ (u : State) (e : Event), ({ u with freeCount := n } : State).raise e = { u.raise e with freeCount := n } := by
    intro u e
    by_cases he : u.kindEnabled e.kind = true
    · rw [State.raise, State.raise, if_pos he, if_pos (show State.kindEnabled { u with freeCount := n } e.kind = true from he)]
      rfl
    · rw [State.raise, State.raise, if_neg he, if_neg (show ¬ State.kindEnabled { u with freeCount := n } e.kind = true from he)]
  induction l generalizing s with
  | nil => rfl
  | cons e l ih => rw [List.foldl_cons, List.foldl_cons, one, ih]

/-- Records raised write the queue and IRQ alone. -/
theorem raises_eq (l : List Event) (s : State) :
    l.foldl State.raise s = { s with queue := (l.foldl State.raise s).queue, irq := (l.foldl State.raise s).irq } := by
  have one : ∀ (u : State) (e : Event), u.raise e = { u with queue := (u.raise e).queue, irq := (u.raise e).irq } := by
    intro u e
    unfold State.raise
    split <;> rfl
  induction l generalizing s with
  | nil => rfl
  | cons e l ih =>
    rw [List.foldl_cons, ih, one s e]

/-- The records of acceptances at one event: in one list, each domain's in its own order. -/
theorem raiseMerged_eq (s : State) {ds : List DomainId} (hn : ds.Nodup) (events : DomainId → List Event) :
    ∃ (merged : List (DomainId × Event)) (n : Nat),
      (∀ d, (merged.filter fun x => x.1 = d).map Prod.snd = if d ∈ ds then events d else []) ∧
      s.raiseMerged ds events = { s with
        queue := ((merged.map Prod.snd).foldl State.raise s).queue
        irq := ((merged.map Prod.snd).foldl State.raise s).irq
        freeCount := n } := by
  refine ⟨(freeMerge ds events s.freeCount).1, (freeMerge ds events s.freeCount).2, freeMerge_spec ds events _ hn, ?_⟩
  unfold State.raiseMerged
  dsimp only
  rw [raises_freeCount]
  exact congrArg (fun u : State => ({ u with freeCount := (freeMerge ds events s.freeCount).2 } : State)) (raises_eq _ s)

theorem nextSafe_none_iff (s : State) (d : DomainId) :
    s.nextSafe d 0 = none ↔ ∀ j, ¬ ((s.safeEntry j).enabled = true ∧ (s.safeEntry j).domain = d) := by
  unfold State.nextSafe
  rw [List.find?_eq_none]
  simp only [List.mem_finRange, true_implies, Nat.zero_le, true_and, Bool.and_eq_true, decide_eq_true_eq]
  exact forall_congr' fun j => not_congr And.comm

/-- The search takes the lowest enabled entry of the domain. -/
theorem nextSafe_lowest {s : State} {d : DomainId} {j : SafeId} (hj : (s.safeEntry j).enabled = true ∧ (s.safeEntry j).domain = d)
    (hu : ∀ i, i < j → ¬ ((s.safeEntry i).enabled = true ∧ (s.safeEntry i).domain = d)) : s.nextSafe d 0 = some j := by
  unfold State.nextSafe
  rw [List.find?_eq_some_iff_getElem]
  refine ⟨by simp [hj], j.val, by simp, by simp, fun i hi => ?_⟩
  have := hu ⟨i, hi.trans j.isLt⟩ (Fin.lt_def.2 hi)
  simp only [List.getElem_finRange, Bool.not_eq_true', Bool.and_eq_false_imp, decide_eq_true_eq]
  rintro ⟨-, hd⟩
  exact Bool.not_eq_true _ ▸ fun he => this ⟨he, hd⟩

/-! ### All the steps (R52, R104) -/

/-- The acceptances are the records, the discards in some order, one examination, and the ends in some order. -/
theorem acceptFaults_steps (s : State) {ds : List DomainId} (hn : ds.Nodup) (hd : ds ≠ []) (notice : DomainId → List Event) :
    ∃ (merged : List (DomainId × Event)) (n m : Nat) (l k : List DomainId), l.Perm ds ∧ k.Perm ds ∧
      (∀ d, (merged.filter fun x => x.1 = d).map Prod.snd = if d ∈ ds then s.faultEvents notice d else []) ∧
      s.acceptFaults ds notice =
        let noted := { s with
          queue := ((merged.map Prod.snd).foldl State.raise s).queue
          irq := ((merged.map Prod.snd).foldl State.raise s).irq
          freeCount := n }
        let t := k.foldl State.settleFault { (l.foldl State.takeFault noted).examineWaiting with freeCount := m }
        { t with fillOrder := ascendTail s.fillOrder.length t.fillOrder } := by
  obtain ⟨merged, n, hm, he⟩ := raiseMerged_eq s hn (s.faultEvents notice)
  rw [acceptFaults_eq s notice hd, he]
  exact ⟨merged, _, _, _, _, freeOrder_perm ds _, freeOrder_perm ds _, hm, rfl⟩

/-- What the discards of the domains and the one examination leave of `s`. -/
structure FaultsDiscarded (ds : List DomainId) (s u : State) : Prop where
  domain : ∀ d ∈ ds, ∃ v : Vector BatchSlot 4,
    u.domain d = { s.domain d with state := .safing, monitorPhase := .stopped, slots := v }
  slot : ∀ d ∈ ds, ∀ k, u.slot d k =
    if (s.slot d k).state = .opened ∨ (s.slot d k).state = .sealed then {} else s.slot d k
  other : ∀ e, e ∉ ds → (u.domain e).state = (s.domain e).state ∧ (u.domain e).commit = (s.domain e).commit ∧
    (u.domain e).fill = (s.domain e).fill
  ended : ∀ w ∈ s.waiting, w.domain ∈ ds → u.port w.port = (s.port w.port).refused
  port : ∀ p, (∀ w ∈ s.waiting, w.port ≠ p) → u.port p = s.port p
  mport : u.mport = s.mport
  fillOrder : u.fillOrder = s.fillOrder
  windows : u.windows = s.windows
  safe : u.safe = s.safe

theorem stagingOnly_faultsTaken (l : List DomainId) (s : State) :
    StagingOnly s (l.foldl State.takeFault s).examineWaiting :=
  (StagingOnly.foldl stagingOnly_takeFault l s).trans (stagingOnly_examineWaiting _)

theorem faultsDiscarded {ds l : List DomainId} (hl : l.Perm ds) (hn : ds.Nodup) {s : State} (h : s.BatchLaw)
    (hd : ∀ d ∈ ds, (s.domain d).state.acceptsFault = true) :
    FaultsDiscarded ds s (l.foldl State.takeFault s).examineWaiting := by
  have taken := faultsTaken_foldl l (hl.nodup_iff.2 hn) h fun d hm => hd d (hl.mem_iff.1 hm)
  have only := stagingOnly_faultsTaken l s
  generalize l.foldl State.takeFault s = t at taken only
  have mem : ∀ {d}, d ∈ l ↔ d ∈ ds := hl.mem_iff
  have left : ∀ {d}, d ∈ ds → t.examineWaiting.domain d = t.domain d := fun hm =>
    domain_examineWaiting fun w hw hc => ((taken.waiting w).1 hw).2 (hc ▸ mem.2 hm)
  have keeps := noNewCommit_examineWaiting t
  constructor
  case domain => exact fun d hm => left hm ▸ taken.domain d (mem.2 hm)
  case slot => exact fun d hm k => by rw [State.slot, left hm]; exact taken.slot d (mem.2 hm) k
  case other =>
    intro e he
    have same := taken.other e fun hc => he (mem.1 hc)
    exact ⟨(keeps.state e).trans (by rw [same]), (keeps.commit e).trans (by rw [same]), (keeps.fill e).trans (by rw [same])⟩
  case ended =>
    intro w hw hm
    rw [port_examineWaiting fun v hv hp => ?_, taken.ended w hw (mem.2 hm)]
    obtain ⟨hv, hout⟩ := (taken.waiting v).1 hv
    exact hout (mem.2 (waiter_of_port h hv hw hp ▸ hm))
  case port =>
    intro p hp
    rw [port_examineWaiting fun v hv => hp v ((taken.waiting v).1 hv).1, taken.port p fun w hw _ => hp w hw]
  case mport => exact only.mport
  case fillOrder => exact only.fillOrder
  case windows => exact only.windows
  case safe => exact only.safe

/-- The records raised first and the count of free values are no part of this. -/
theorem FaultsDiscarded.of_noted {ds : List DomainId} {s u : State} {q : List EventRecord} {i : Bool} {n m : Nat}
    (h : FaultsDiscarded ds { s with queue := q, irq := i, freeCount := n } u) :
    FaultsDiscarded ds s { u with freeCount := m } :=
  ⟨h.domain, h.slot, h.other, h.ended, h.port, h.mport, h.fillOrder, h.windows, h.safe⟩

/-! ### One accepting domain afterwards -/

theorem commitInFlight_iff (s : State) (d : DomainId) :
    s.commitInFlight d = true ↔ (s.domain d).commit.phase ≠ .idle := by
  simp [State.commitInFlight]

theorem faultSettled_pending {s : State} {d : DomainId} (h : (s.domain d).commit.phase ≠ .idle) :
    s.faultSettled d = { s.domain d with fill := { phase := .pending } } :=
  if_pos ((commitInFlight_iff s d).2 h)

theorem faultSettled_request {s : State} {d : DomainId} (h : ¬ (s.domain d).commit.phase ≠ .idle) {j : SafeId}
    (hj : s.nextSafe d 0 = some j) :
    s.faultSettled d = { s.domain d with fill := { phase := .fillRequest, next := j } } := by
  unfold State.faultSettled
  rw [if_neg fun hc => h ((commitInFlight_iff s d).1 hc), hj]

theorem faultSettled_safed {s : State} {d : DomainId} (h : ¬ (s.domain d).commit.phase ≠ .idle)
    (hj : s.nextSafe d 0 = none) : s.faultSettled d = { s.domain d with fill := {}, state := .safed } := by
  unfold State.faultSettled
  rw [if_neg fun hc => h ((commitInFlight_iff s d).1 hc), hj]

/-- Only the fill record and the state are written, and the state is not RUN afterwards if it was not before. -/
theorem faultSettled_writes (s : State) (d : DomainId) : ∃ (f : FillRecord) (st : DomainState),
    s.faultSettled d = { s.domain d with fill := f, state := st } ∧ (st = (s.domain d).state ∨ st = .safed) := by
  unfold State.faultSettled
  split
  · exact ⟨_, _, rfl, .inl rfl⟩
  · split
    · exact ⟨_, _, rfl, .inl rfl⟩
    · exact ⟨_, _, rfl, .inr rfl⟩

theorem fillRequests_iff (s : State) (d : DomainId) : s.fillRequests d = true ↔
    ¬ (s.domain d).commit.phase ≠ .idle ∧ ∃ j, (s.safeEntry j).enabled = true ∧ (s.safeEntry j).domain = d := by
  have next : (s.nextSafe d 0).isSome = true ↔ ∃ j, (s.safeEntry j).enabled = true ∧ (s.safeEntry j).domain = d := by
    rw [← Option.ne_none_iff_isSome, ne_eq, nextSafe_none_iff]
    simp only [not_forall, not_not]
  unfold State.fillRequests
  rw [Bool.and_eq_true, next, Bool.not_eq_true', ← Bool.not_eq_true, commitInFlight_iff]

/-! ### The fill-order list (R111) -/

theorem mem_ascendTail (n : Nat) (l : List DomainId) (d : DomainId) : d ∈ ascendTail n l ↔ d ∈ l := by
  unfold ascendTail
  have parts : d ∈ l.take n ++ l.drop n ↔ d ∈ l := by rw [List.take_append_drop]
  rw [List.mem_append] at parts
  rw [List.mem_append, List.mem_filter, decide_eq_true_eq, ← parts]
  exact or_congr_right (and_iff_right (List.mem_finRange d))

theorem ascendTail_append (l k : List DomainId) :
    ascendTail l.length (l ++ k) = l ++ (List.finRange 4).filter fun d => d ∈ k := by
  unfold ascendTail
  rw [List.take_left, List.drop_left]

/-! ### All that the acceptances leave -/

/-- The port's write waits for the domain. -/
def State.WaitsFor (s : State) (d : DomainId) (p : Port) : Prop := ∃ w ∈ s.waiting, w.domain = d ∧ w.port = p

/-- The port's write is held under STOPPING for a word in a STAGED window of the domain, whose writer port it is. -/
def State.StopsFor (s : State) (d : DomainId) (p : Port) : Prop :=
  (s.domain d).cfg.writer = p ∧ (s.port p).txn.phase = .held ∧ (s.port p).txn.cause = some .stopping ∧
    ∃ i, s.InWindow i (accessAddr (s.port p).txn.access) ∧ (s.window i).kind = .staged ∧ (s.window i).domain = d

theorem stopsFor_iff {s : State} (h : s.WindowsApart) (d : DomainId) (p : Port) :
    s.StopsFor d p ↔ (s.domain d).cfg.writer = p ∧ s.stoppingHold d = true := by
  rw [stoppingHold_iff h]
  refine and_congr_right fun hw => ?_
  rw [hw]

/-- What acceptances at one event leave of the state: the discards, then each domain settled. -/
structure FaultsAccepted (ds : List DomainId) (s t : State) : Prop where
  domain : ∀ d ∈ ds, ∃ u : State, FaultsDiscarded ds s u ∧ t.domain d = u.faultSettled d
  other : ∀ e, e ∉ ds → (t.domain e).state = (s.domain e).state ∧ (t.domain e).commit = (s.domain e).commit ∧
    (t.domain e).fill = (s.domain e).fill
  refused : ∀ d ∈ ds, ∀ p, s.WaitsFor d p ∨ s.StopsFor d p → t.port p = (s.port p).refused
  joined : ∀ d ∈ ds, s.fillRequests d = true → d ∈ t.fillOrder
  fillOrder : (∀ d ∈ ds, d ∉ s.fillOrder) → ∃ joined : List DomainId, t.fillOrder = s.fillOrder ++ joined ∧
    joined.Pairwise (· < ·) ∧ ∀ d, d ∈ joined ↔ d ∈ ds ∧ s.fillRequests d = true
  mport : t.mport = s.mport

section
variable {ds : List DomainId} {s u t : State} (h : FaultsDiscarded ds s u)
include h

theorem FaultsDiscarded.commit {d : DomainId} (hd : d ∈ ds) : (u.domain d).commit = (s.domain d).commit := by
  obtain ⟨v, hv⟩ := h.domain d hd
  rw [hv]

theorem FaultsDiscarded.writer {d : DomainId} (hd : d ∈ ds) : (u.domain d).cfg.writer = (s.domain d).cfg.writer := by
  obtain ⟨v, hv⟩ := h.domain d hd
  rw [hv]

theorem FaultsDiscarded.nextSafe (d : DomainId) : u.nextSafe d 0 = s.nextSafe d 0 := by
  unfold State.nextSafe State.safeEntry; rw [h.safe]

theorem FaultsDiscarded.fillRequests {d : DomainId} (hd : d ∈ ds) : u.fillRequests d = s.fillRequests d := by
  unfold State.fillRequests State.commitInFlight
  rw [h.commit hd, h.nextSafe]

/-- A STOPPING hold is untouched by the discards: it is no waiter. -/
theorem FaultsDiscarded.stopping (hb : s.BatchLaw) (ha : s.WindowsApart) {d : DomainId} (hd : d ∈ ds) {p : Port}
    (hp : s.StopsFor d p) : u.port p = s.port p ∧ (u.domain d).cfg.writer = p ∧ u.stoppingHold d = true := by
  obtain ⟨hw, hold⟩ := (stopsFor_iff ha d p).1 hp
  obtain ⟨-, -, cause, -⟩ := hp
  have same : u.port p = s.port p := h.port p fun w hm hc => by
    obtain ⟨-, -, -, exhausted⟩ := hb.waiters w hm
    rw [hc, cause] at exhausted
    cases exhausted
  refine ⟨same, (h.writer hd).trans hw, ?_⟩
  rw [stoppingHold_congr (h.writer hd) h.windows (by rw [hw]; exact same)]
  exact hold

/-- The ends of the acceptances after the discards, with the tail of the fill-order list in ascending order. -/
theorem faultsAccepted_of (hb : s.BatchLaw) (ha : s.WindowsApart) {k : List DomainId} (hk : k.Perm ds)
    (hs : FaultsSettled k u t) :
    FaultsAccepted ds s { t with fillOrder := ascendTail s.fillOrder.length t.fillOrder } := by
  have mem : ∀ {d}, d ∈ k ↔ d ∈ ds := hk.mem_iff
  constructor
  case domain => exact fun d hd => ⟨u, h, hs.domain d (mem.2 hd)⟩
  case other =>
    intro e he
    have same : t.domain e = u.domain e := hs.other e fun hc => he (mem.1 hc)
    obtain ⟨state, commit, fill⟩ := h.other e he
    refine ⟨Eq.trans (congrArg Domain.state same) state, Eq.trans (congrArg Domain.commit same) commit,
      Eq.trans (congrArg Domain.fill same) fill⟩
  case refused =>
    rintro d hd p (⟨w, hw, hwd, rfl⟩ | hp)
    · have ended := h.ended w hw (hwd ▸ hd)
      refine Eq.trans (port_congr rfl rfl _) ((hs.port w.port fun e he hh hc => ?_).trans ended)
      rw [not_stoppingHold_refused (hc ▸ ended)] at hh
      cases hh
    · obtain ⟨same, writer, hold⟩ := h.stopping hb ha hd hp
      have ended := hs.ended d (mem.2 hd) hold
      rw [writer, same] at ended
      exact Eq.trans (port_congr rfl rfl _) ended
  case joined =>
    intro d hd hr
    exact (mem_ascendTail _ _ d).2 (hs.joined d (mem.2 hd) ((h.fillRequests hd).trans hr))
  case fillOrder =>
    intro hn
    have order : t.fillOrder = s.fillOrder ++ k.filter u.fillRequests :=
      (hs.fillOrder fun d hd => h.fillOrder ▸ hn d (mem.1 hd)).trans (by rw [h.fillOrder])
    refine ⟨(List.finRange 4).filter fun d => d ∈ k.filter u.fillRequests, ?_, ?_, fun d => ?_⟩
    · change ascendTail s.fillOrder.length t.fillOrder = _
      rw [order, ascendTail_append]
    · exact (List.pairwise_lt_finRange 4).filter _
    · rw [List.mem_filter, decide_eq_true_eq, List.mem_filter, mem]
      refine (and_iff_right (List.mem_finRange d)).trans (and_congr_right fun hd => ?_)
      rw [h.fillRequests hd]
  case mport => exact hs.only.mport.trans h.mport

end

theorem faultsAccepted_nil (s : State) : FaultsAccepted [] s s :=
  ⟨nofun, fun _ _ => ⟨rfl, rfl, rfl⟩, nofun, nofun, fun _ => ⟨[], by simp, .nil, fun d => by simp⟩, rfl⟩

/-- What acceptances at one event leave, and the records they raise. -/
theorem acceptFaults_spec {s : State} (hb : s.BatchLaw) (ha : s.WindowsApart) {ds : List DomainId} (hn : ds.Nodup)
    (hd : ∀ d ∈ ds, (s.domain d).state.acceptsFault = true) (notice : DomainId → List Event) :
    FaultsAccepted ds s (s.acceptFaults ds notice) ∧ ∃ merged : List (DomainId × Event),
      (∀ d, (merged.filter fun x => x.1 = d).map Prod.snd = if d ∈ ds then s.faultEvents notice d else []) ∧
      (s.acceptFaults ds notice).queue = ((merged.map Prod.snd).foldl State.raise s).queue ∧
      (s.acceptFaults ds notice).irq = ((merged.map Prod.snd).foldl State.raise s).irq := by
  by_cases he : ds = []
  · subst he
    exact ⟨faultsAccepted_nil s, [], fun d => by simp, rfl, rfl⟩
  · obtain ⟨merged, n, m, l, k, hl, hk, hm, steps⟩ := acceptFaults_steps s hn he notice
    have law : State.BatchLaw { s with
        queue := ((merged.map Prod.snd).foldl State.raise s).queue
        irq := ((merged.map Prod.snd).foldl State.raise s).irq
        freeCount := n } := batchLaw_congr hb rfl rfl rfl rfl rfl
    rw [steps]
    generalize hq : ((merged.map Prod.snd).foldl State.raise s).queue = q at law ⊢
    generalize hi : ((merged.map Prod.snd).foldl State.raise s).irq = i at law ⊢
    have discarded := (faultsDiscarded hl hn law hd).of_noted (m := m)
    have only := stagingOnly_faultsTaken l { s with queue := q, irq := i, freeCount := n }
    dsimp only
    generalize (l.foldl State.takeFault { s with queue := q, irq := i, freeCount := n }).examineWaiting = v at discarded only ⊢
    have queue : v.queue = q := only.queue
    have irq : v.irq = i := only.irq
    have settled := faultsSettled_foldl k (hk.nodup_iff.2 hn) { v with freeCount := m }
    generalize k.foldl State.settleFault { v with freeCount := m } = t at settled ⊢
    exact ⟨faultsAccepted_of discarded hb ha hk settled, merged, hm, settled.only.queue.trans (queue.trans hq.symm),
      settled.only.irq.trans (irq.trans hi.symm)⟩

end Sys2Proof.Machine
end

section
/-! SUPPORT. The records of an acceptance, what it leaves of one domain, and the obligation (O59). -/

namespace Sys2Proof.Machine

/-! ### The records of one domain (R104) -/

theorem waiterLock_eq {s : State} {d : DomainId} {l : List Event}
    (some : ∀ p, s.WaitsFor d p → l = [s.lockEvent d p]) (none : (∀ p, ¬ s.WaitsFor d p) → l = []) : s.waiterLock d = l := by
  unfold State.waiterLock
  cases hw : s.waiterOf d with
  | some w => exact (some w.port ⟨w, (waiterOf_some hw).1, (waiterOf_some hw).2, rfl⟩).symm
  | none => exact (none fun p ⟨w, hm, hd, _⟩ => waiterOf_none hw w hm hd).symm

theorem stoppingLock_eq {s : State} (h : s.WindowsApart) {d : DomainId} {l : List Event}
    (some : ∀ p, s.StopsFor d p → l = [s.lockEvent d p]) (none : (∀ p, ¬ s.StopsFor d p) → l = []) :
    s.stoppingLock d = l := by
  unfold State.stoppingLock
  split
  case isTrue hold => exact (some _ ((stopsFor_iff h d _).2 ⟨rfl, hold⟩)).symm
  case isFalse hold => exact (none fun p hp => hold ((stopsFor_iff h d p).1 hp).2).symm

theorem fillEvents_eq {s : State} {d : DomainId} {l : List Event}
    (done : ¬ (s.domain d).commit.phase ≠ .idle ∧ (∀ j, ¬ ((s.safeEntry j).enabled = true ∧ (s.safeEntry j).domain = d)) →
      l = [.safeDone d])
    (none : (s.domain d).commit.phase ≠ .idle ∨ (∃ j, (s.safeEntry j).enabled = true ∧ (s.safeEntry j).domain = d) → l = []) :
    (if s.commitInFlight d = true then [] else s.fillEvents d) = l := by
  unfold State.fillEvents
  split
  case isTrue flight => exact (none (.inl ((commitInFlight_iff s d).1 flight))).symm
  case isFalse flight =>
    rw [commitInFlight_iff] at flight
    cases hj : s.nextSafe d 0 with
    | none => exact (done ⟨flight, (nextSafe_none_iff s d).1 hj⟩).symm
    | some j =>
      refine (none (.inr ?_)).symm
      by_contra hc
      rw [(nextSafe_none_iff s d).2 (not_exists.1 hc)] at hj
      cases hj

/-! ### One accepting domain, settled after the discards that left `u` of `s` -/

section
variable {ds : List DomainId} {s u t : State} {d : DomainId} (h : FaultsDiscarded ds s u) (hd : d ∈ ds)
  (hy : t.domain d = u.faultSettled d)
include h hd hy

theorem FaultsDiscarded.slot_settled (k : SlotId) :
    ((s.slot d k).state = .committing → t.slot d k = s.slot d k) ∧
      ((s.slot d k).state ≠ .committing → (t.slot d k).state = .free) := by
  have same : t.slot d k = u.slot d k := by
    obtain ⟨f, st, hf, -⟩ := faultSettled_writes u d
    rw [State.slot, hy, hf]; rfl
  rw [same, h.slot d hd k]
  cases hs : (s.slot d k).state <;> simp [hs]

theorem FaultsDiscarded.kept_settled :
    (t.domain d).cfg = (s.domain d).cfg ∧ (t.domain d).commit = (s.domain d).commit ∧
      (t.domain d).commitNumber = (s.domain d).commitNumber ∧ (t.domain d).sealCount = (s.domain d).sealCount ∧
      (t.domain d).lastPeriod = (s.domain d).lastPeriod ∧ (t.domain d).longestPeriod = (s.domain d).longestPeriod ∧
      (t.domain d).periodCount = (s.domain d).periodCount ∧ (t.domain d).monitorCount = (s.domain d).monitorCount := by
  obtain ⟨f, st, hf, -⟩ := faultSettled_writes u d
  obtain ⟨v, hv⟩ := h.domain d hd
  rw [hy, hf, hv]
  exact ⟨rfl, rfl, rfl, rfl, rfl, rfl, rfl, rfl⟩

theorem FaultsDiscarded.stopped_settled : (t.domain d).monitorPhase = .stopped ∧ (t.domain d).state ≠ .run := by
  obtain ⟨f, st, hf, hst⟩ := faultSettled_writes u d
  obtain ⟨v, hv⟩ := h.domain d hd
  rw [hy, hf, hv]
  rw [hv] at hst
  refine ⟨rfl, ?_⟩
  rcases hst with rfl | rfl <;> nofun

theorem FaultsDiscarded.pending_settled (hc : (s.domain d).commit.phase ≠ .idle) :
    (t.domain d).state = .safing ∧ (t.domain d).fill.phase = .pending := by
  obtain ⟨v, hv⟩ := h.domain d hd
  rw [hy, faultSettled_pending (by rwa [h.commit hd]), hv]
  exact ⟨rfl, rfl⟩

theorem FaultsDiscarded.request_settled (hc : ¬ (s.domain d).commit.phase ≠ .idle) {j : SafeId}
    (hj : s.nextSafe d 0 = some j) :
    (t.domain d).state = .safing ∧ (t.domain d).fill = { phase := .fillRequest, next := j } := by
  obtain ⟨v, hv⟩ := h.domain d hd
  rw [hy, faultSettled_request (by rwa [h.commit hd]) ((h.nextSafe d).trans hj), hv]
  exact ⟨rfl, rfl⟩

theorem FaultsDiscarded.safed_settled (hc : ¬ (s.domain d).commit.phase ≠ .idle) (hj : s.nextSafe d 0 = none) :
    (t.domain d).state = .safed ∧ (t.domain d).fill = {} := by
  rw [hy, faultSettled_safed (by rwa [h.commit hd]) ((h.nextSafe d).trans hj)]
  exact ⟨rfl, rfl⟩

end

theorem acceptsFault_of {x : DomainState} (h : x = .disabled ∨ x = .run ∨ x = .stopping) : x.acceptsFault = true := by
  rcases h with rfl | rfl | rfl <;> rfl

/-- Settles O59: the acceptances are the discards of every domain, one examination and the end of every domain, each step
touching its own domain and the ports whose writes it ends. -/
theorem faultAcceptanceLeavesNothingStaged : Obligations.FaultAcceptanceLeavesNothingStaged := by
  intro s ds notice hb ha hn hd
  have accepts : ∀ d ∈ ds, (s.domain d).state.acceptsFault = true := fun d hm => acceptsFault_of (hd d hm)
  have law := batchLaw_acceptFaults hb ds notice hn accepts
  have steady := steady_acceptFaults s ds notice
  obtain ⟨after, merged, hm, queue, irq⟩ := acceptFaults_spec hb ha hn accepts notice
  generalize s.acceptFaults ds notice = t at law steady after queue irq
  intro t' mine inFlight waits stops
  refine ⟨fun d hds => ?_, fun absent => ?_, fun d hds p hp => ?_,
    fun ended stopped done he hs hf => ⟨merged, fun d => ?_, queue, irq⟩,
    after.other, steady.mem, steady.windows, steady.safe, steady.tick, after.mport⟩
  case refine_1 =>
    obtain ⟨u, left, hy⟩ := after.domain d hds
    obtain ⟨monitor, notRun⟩ := left.stopped_settled hds hy
    refine ⟨monitor, left.slot_settled hds hy, no_waiter law notRun, left.kept_settled hds hy, left.pending_settled hds hy,
      fun j hc hj hlow => ?_, fun hc hno => left.safed_settled hds hy hc ((nextSafe_none_iff s d).2 hno)⟩
    obtain ⟨state, fill⟩ := left.request_settled hds hy hc (nextSafe_lowest hj hlow)
    exact ⟨state, fill, after.joined d hds ((fillRequests_iff s d).2 ⟨hc, j, hj⟩)⟩
  case refine_2 =>
    obtain ⟨joined, order, ascending, member⟩ := after.fillOrder absent
    exact ⟨joined, order, ascending, fun d => (member d).trans (and_congr_right fun _ => fillRequests_iff s d)⟩
  case refine_3 =>
    have refused : t.port p = (s.port p).refused := after.refused d hds p hp
    change (t.port p).txn = {} ∧ (t.port p).ready = true ∧ (t.port p).response = some .errorWrite
    rw [refused]
    exact ⟨rfl, rfl, rfl⟩
  case refine_4 =>
    have events : s.faultEvents notice d = notice d ++ ended d ++ stopped d ++ done d := by
      unfold State.faultEvents
      rw [waiterLock_eq (he d).1 (he d).2, stoppingLock_eq ha (hs d).1 (hs d).2, fillEvents_eq (hf d).1 (hf d).2]
    rw [hm d, events]

end Sys2Proof.Machine
end

section
/-! SUPPORT. Every move keeps the laws of the staging pool and Law 4 (O30, O31). -/

namespace Sys2Proof.Machine

/-! ### Operations of a move that leave entries and slots as they are -/

/-- Entries and domains alone make the pool. -/
theorem samePool_congr {s t : State} (he : t.entries = s.entries) (hd : t.domains = s.domains) : SamePool s t :=
  ⟨he, fun d k => by simp [State.slot, State.domain, hd]⟩

theorem keepsPool_congr {s t : State} (he : t.entries = s.entries) (hd : t.domains = s.domains) : KeepsPool s t :=
  (samePool_congr he hd).keeps

theorem samePool_foldl {α : Type} {f : State → α → State} (hf : ∀ s x, SamePool s (f s x)) (l : List α) (s : State) :
    SamePool s (l.foldl f s) := by
  induction l generalizing s with
  | nil => exact .refl s
  | cons x l ih => exact (hf s x).trans (ih _)

theorem samePool_inFreeOrder {α : Type} (s : State) (l : List α) {f : State → α → State}
    (hf : ∀ s x, SamePool s (f s x)) : SamePool s (s.inFreeOrder l f) := by
  have counted : SamePool s { s with freeCount := (freeOrder l s.freeCount).2 } := samePool_congr rfl rfl
  exact counted.trans (samePool_foldl hf _ _)

theorem samePool_expireIfDue (s : State) (p : Port) : SamePool s (s.expireIfDue p) := by
  unfold State.expireIfDue
  split
  · exact samePool_expireHeld s p
  · exact .refl s

theorem samePool_setGlobals (s : State) (g : GlobalPayload) (b : Bool) : SamePool s (s.setGlobals g b) := by
  have written : SamePool s (s.writeGlobals g b) := ⟨rfl, fun _ _ => rfl⟩
  unfold State.setGlobals
  split
  · exact written
  · exact written.trans (samePool_inFreeOrder _ _ samePool_expireIfDue)

theorem samePool_expireContext (s : State) (p : Port) (c : ContextId) : SamePool s (s.expireContext p c) := by
  unfold State.expireContext
  split
  · exact (samePool_raise _ _).trans (samePool_setPort _ _ _)
  · exact .refl s

theorem samePool_finishPortWrite (s : State) (p : Port) (acc : Access) : SamePool s (s.finishPortWrite p acc) :=
  (((samePool_setPort s p _).trans (samePool_setPort _ p _)).trans (samePool_setPort _ p.other _)).trans
    (samePool_arbitrate _)

theorem samePool_advanceTick (s : State) : SamePool s s.advanceTick := by
  refine ⟨rfl, fun d k => ?_⟩
  have ticked : s.advanceTick.domain d = (s.domain d).ticked := by simp [State.domain, State.advanceTick]
  unfold State.slot
  rw [ticked]
  unfold Domain.ticked
  split <;> rfl

/-! ### Laws 1 to 3 through every move -/

theorem poolLaw_softReset (s : State) : s.softReset.PoolLaw :=
  poolLaw_of_free (fun i => by simp [State.softReset]) fun d k => by
    unfold State.slot
    rw [domain_softReset]
    simp [Domain.softReset]

theorem poolLaw_powerOn (s : State) : s.powerOn.PoolLaw :=
  poolLaw_of_free (fun i => by simp [State.powerOn]) fun d k => by
    unfold State.slot
    rw [domain_powerOn]
    simp

theorem keepsPool_managed {c : Instr} {s t : State} (m : Managed c s t) : KeepsPool s t := by
  cases m with
  | same ht => exact ht ▸ .refl s
  | settings g b _ ht => exact ht ▸ (samePool_setGlobals s g b).keeps
  | pop q ht => exact ht ▸ keepsPool_congr rfl rfl
  | softReset _ ht => exact ht ▸ fun _ => poolLaw_softReset s
  | window i w _ _ _ ht => exact ht ▸ keepsPool_congr rfl rfl
  | domain d x _ _ ht => exact ht ▸ SamePool.keeps (samePool_setDomain s d _ rfl)
  | start d _ ht => exact ht ▸ SamePool.keeps (samePool_setDomain s d _ rfl)
  | stop d _ ht => exact ht ▸ (keepsPool_stopDomain s d).trans (samePool_arbitrate _).keeps
  | sealBatch d _ ht => exact ht ▸ keepsPool_sealOpen s d
  | sync d ht => exact ht ▸ (keepsPool_syncEvent s d).trans (samePool_arbitrate _).keeps
  | safe i x _ ht => exact ht ▸ keepsPool_congr rfl rfl
  | arm d _ ht => exact ht ▸ SamePool.keeps (samePool_setDomain s d _ rfl)

theorem keepsPool_takeAccess (s : State) (p : Port) (acc : Access) : KeepsPool s (s.takeAccess p acc) := by
  unfold State.takeAccess
  split
  · exact ((samePool_applyRead s p _).trans (samePool_arbitrate _)).keeps
  · split
    · exact (samePool_respond s p _).keeps
    · exact (keepsPool_reclassify s p).trans (samePool_arbitrate _).keeps

theorem keepsPool_takeTimed (s : State) (e : TimedEvent) : KeepsPool s (s.takeTimed e) := by
  unfold State.takeTimed
  split
  · cases e with
    | stall p => exact (samePool_expireHeld s p).keeps
    | monitor d => exact (keepsPool_expireMonitor s d).trans (samePool_arbitrate _).keeps
    | holdLimit p c => exact (samePool_expireContext s p c).keeps
  · exact .refl s

theorem keepsPool_takeSyncEdge (s : State) (l : SyncLine) (e : Edge) : KeepsPool s (s.takeSyncEdge l e) :=
  .trans (t := { s with syncLevels := s.syncLevels.set l (edgeLevel e) }) (keepsPool_congr rfl rfl)
    ((keepsPool_inFreeOrder _ _ keepsPool_syncEvent).trans (keepsPool_congr rfl rfl))

theorem keepsPool_takeFaultEdge (s : State) (l : FaultLine) : KeepsPool s (s.takeFaultEdge l) :=
  .trans (t := { s with faultLevels := s.faultLevels.set l false }) (keepsPool_congr rfl rfl)
    (keepsPool_acceptFaults _ _ _)

theorem keepsPool_move {c : Instr} {s t : State} (m : Move c s t) : KeepsPool s t := by
  have done : ∀ g, KeepsPool s (s.completeAccess g) := fun g => keepsPool_congr rfl rfl
  have free : ∀ u : State, KeepsPool u u.arbitrate := fun u => (samePool_arbitrate u).keeps
  cases m with
  | idle ht => exact ht ▸ .refl s
  | accept p acc _ ht => exact ht ▸ (samePool_setPort s p _).keeps.trans (keepsPool_takeAccess _ p acc)
  | portWrite p a m x _ _ ht => exact ht ▸ (done _).trans (samePool_finishPortWrite _ p _).keeps
  | portRead p a r _ ht => exact ht ▸ (done _).trans ((samePool_respond _ p r).keeps.trans (free _))
  | commitWrite d acc _ _ ht => exact ht ▸ (done _).trans ((keepsPool_advanceCommit _ d).trans (free _))
  | sequenceWrite d acc _ _ ht => exact ht ▸ (done _).trans ((keepsPool_completeCommit _ d).trans (free _))
  | fillWrite d acc _ _ _ ht => exact ht ▸ (done _).trans ((keepsPool_advanceFill _ d).trans (free _))
  | captureRead p a x _ ht => exact ht ▸ (done _).trans ((keepsPool_storeCapture _ p x).trans (free _))
  | stall p _ ht => exact ht ▸ (samePool_expireHeld s p).keeps
  | tick _ _ ht => exact ht ▸ (keepsPool_inFreeOrder s _ keepsPool_takeTimed).trans (samePool_advanceTick _).keeps
  | monitor d _ ht => exact ht ▸ (keepsPool_expireMonitor s d).trans (free _)
  | holdLimit p e _ ht => exact ht ▸ (samePool_expireContext s p e).keeps
  | syncEdge l e _ _ ht => exact ht ▸ (keepsPool_takeSyncEdge s l e).trans (free _)
  | faultEdge l _ _ ht => exact ht ▸ (keepsPool_takeFaultEdge s l).trans (free _)
  | faultRelease l _ _ ht => exact ht ▸ keepsPool_congr rfl rfl
  | fall _ _ ht => exact ht ▸ fun _ => poolLaw_powerOn _
  | rise v w b _ _ ht => exact ht ▸ keepsPool_congr rfl rfl
  | ignored _ ht => exact ht ▸ keepsPool_congr rfl rfl
  | frame n u r _ hu ht =>
    exact ht ▸ ((keepsPool_congr rfl rfl : KeepsPool s (s.shiftFrame n)).trans (keepsPool_managed hu)).trans
      (keepsPool_congr rfl rfl)

/-- Settles O30: every move is made of operations that leave the pool alone and of the four that keep its laws. -/
theorem stepKeepsPoolLaw : Obligations.StepKeepsPoolLaw := by
  intro s t
  exact step_keeps (fun s l => keepsPool_congr (s := s) (t := { s with pending := l }) rfl rfl)
    fun _ _ _ hs he => keepsPool_move (move_of_exec he) hs

/-- Settles O31: every move keeps Law 4 with what carries it. -/
theorem stepKeepsBatchLaw : Obligations.StepKeepsBatchLaw := by
  intro s t
  exact step_keeps (fun _ _ hs => batchLaw_congr hs rfl rfl rfl rfl rfl)
    fun _ _ _ hs he => batchLaw_move hs (move_of_exec he)

end Sys2Proof.Machine
end

section
/-! SUPPORT. A staged write, at its acceptance and from the waiting list, and the seal (O19, O42, O43, O44). -/

namespace Sys2Proof.Machine

/-! ### Staging (R40, R41) -/

/-- A domain replaced by one with other slots: what its slots are. -/
theorem slot_withSlots (s : State) (d : DomainId) (k j : SlotId) (b : BatchSlot) :
    (s.setDomain d { s.domain d with slots := (s.domain d).slots.set k b }).slot d j =
      if j = k then b else s.slot d j :=
  (s.slot_setSlot d d k j b).trans (by simp)

/-- The state after a write merged into entry `j` (R40). -/
def State.mergedInto (s : State) (j : EntryId) (e : StagingEntry) (m : Lanes) (x : Word) : State :=
  { s with entries := s.entries.set j (some { e with data := mergeLanes e.data x m, lanes := e.lanes ||| m }) }

/-- The batch `b` at slot `k` takes the next new word of domain `d`: it is the OPEN batch, which has no entry for the word,
or the lowest FREE slot of a domain without an OPEN batch (R41). -/
def State.BatchTakes (s : State) (d : DomainId) (a : Addr) (k : SlotId) (b : BatchSlot) : Prop :=
  ((s.slot d k).state = .opened ∧ (∀ i, (s.slot d i).state = .opened → i = k) ∧
      (∀ i ∈ (s.slot d k).entries, ∀ f, s.entries[i] = some f → f.addr ≠ a) ∧ b = s.slot d k) ∨
    ((∀ i, (s.slot d i).state ≠ .opened) ∧ (s.slot d k).state = .free ∧
      (∀ i, i < k → (s.slot d i).state ≠ .free) ∧ b = BatchSlot.vacant)

/-- The state after a write took entry `j` at the tail of batch `b` at slot `k` (R41). -/
def State.newEntryAt (s : State) (d : DomainId) (k : SlotId) (b : BatchSlot) (j : EntryId) (a : Addr) (m : Lanes)
    (x : Word) : State :=
  { (s.setDomain d { s.domain d with
      slots := (s.domain d).slots.set k { b with state := .opened, entries := b.entries ++ [j] } }) with
    entries := s.entries.set j (some { addr := a, data := maskedData x m, lanes := m, domain := d, slot := k,
                                       position := b.entries.length }) }

theorem stage_merges {s : State} {d : DomainId} {a : Addr} {k : SlotId} {j : EntryId} {e : StagingEntry}
    (hk : s.slotIn d .opened = some k) (hj : s.entryFor d k a = some j) (he : s.entries[j] = some e) (m : Lanes)
    (x : Word) : s.stage d a m x = s.mergedInto j e m x := by
  unfold State.stage
  rw [hk]
  dsimp only
  rw [hj]
  dsimp only
  unfold State.mergeEntry
  rw [he]
  rfl

theorem stage_takes {s : State} {d : DomainId} {a : Addr} {k : SlotId} {b : BatchSlot} {j : EntryId}
    (hb : s.BatchTakes d a k b) (hj : s.freeEntry = some j) (m : Lanes) (x : Word) :
    s.stage d a m x = s.newEntryAt d k b j a m x := by
  unfold State.stage State.newEntryAt
  rcases hb with ⟨opened, only, unstaged, rfl⟩ | ⟨unopened, free, lowest, rfl⟩
  · rw [slotIn_unique opened only]
    dsimp only
    rw [entryFor_none_of unstaged, hj]
    dsimp only
    have same : ({ s.slot d k with state := .opened, entries := (s.slot d k).entries ++ [j] } : BatchSlot) =
        { s.slot d k with entries := (s.slot d k).entries ++ [j] } := by rw [← opened]
    rw [same]
    rfl
  · rw [(slotIn_none_iff s d .opened).2 unopened, hj, slotIn_lowest free lowest]
    simp [State.newEntry, State.setSlot, State.setDomain, State.setEntry, State.domain, State.slot, BatchSlot.vacant]

/-- A batch that takes a new word is OPEN afterwards, and the only one of its domain. -/
theorem slotIn_newEntryAt {s : State} {d : DomainId} {a : Addr} {k : SlotId} {b : BatchSlot} (hb : s.BatchTakes d a k b)
    (j : EntryId) (m : Lanes) (x : Word) : (s.newEntryAt d k b j a m x).slotIn d .opened = some k := by
  have slot : ∀ i, (s.newEntryAt d k b j a m x).slot d i =
      if i = k then { b with state := .opened, entries := b.entries ++ [j] } else s.slot d i := fun i =>
    slot_withSlots s d k i _
  refine slotIn_unique (by rw [slot, if_pos rfl]) fun i hi => ?_
  by_contra hne
  rw [slot, if_neg hne] at hi
  rcases hb with ⟨-, only, -⟩ | ⟨unopened, -⟩
  · exact hne (only i hi)
  · exact unopened i hi

theorem canStage_merges {s : State} {d : DomainId} {a : Addr} {k : SlotId} {j : EntryId}
    (hk : s.slotIn d .opened = some k) (hj : s.entryFor d k a = some j) : s.canStage d a = true := by
  unfold State.canStage
  rw [hk]
  simp [hj]

theorem canStage_takes {s : State} {d : DomainId} {a : Addr} {k : SlotId} {b : BatchSlot} {j : EntryId}
    (hb : s.BatchTakes d a k b) (hj : s.freeEntry = some j) : s.canStage d a = true := by
  unfold State.canStage
  rcases hb with ⟨opened, only, -⟩ | ⟨unopened, free, lowest, -⟩
  · rw [slotIn_unique opened only]
    simp [hj]
  · rw [(slotIn_none_iff s d .opened).2 unopened]
    simp [hj, slotIn_lowest free lowest]

/-- A staged write is its staging, sealed at a seal word (R43). -/
theorem stageWrite_eq {s u : State} {d : DomainId} {a : Addr} {m : Lanes} {x : Word} {k : SlotId}
    (hu : s.stage d a m x = u) (hk : u.slotIn d .opened = some k) (seals : Bool) :
    s.stageWrite d (.write a m x) seals = if seals then u.slotSealed d k else u := by
  show (if seals then (s.stage d a m x).sealOpen d else s.stage d a m x) = _
  rw [hu, sealOpen_eq hk]

theorem lane_maskedData (x : Word) (m : Lanes) (l : Fin 4) :
    lane (maskedData x m) l = if m.getLsbD l.val then lane x l else 0 := by
  have zero : lane 0 l = 0 := by simp [lane]
  rw [← zero]
  exact lane_mergeLanes 0 x m l

/-! ### Acceptance (R42, R46, R47) -/

section
variable {s : State} {p : Port} {a : Addr} {m : Lanes} {d : DomainId} {seals : Bool} (hl : s.resetLow = false)
  (hp : (s.port p).txn.phase = .idle) (hm : m ≠ 0) (hs : s.classifyWrite p a = .stage d seals)
include hl hp hm hs

/-- An accepted write that is classified as staged arrives as one. -/
theorem exec_accept_staged (x : Word) : exec (.transactionAccept p (.write a m x)) s =
    .next ((s.accept p (.write a m x)).arriveStaged p d seals).arbitrate := by
  rw [exec_accept hl hp, takeAccess_write _ p a hm, reclassify_stage ((classifyWrite_accept s p a m x).trans hs)]

theorem exec_accept_granted (x : Word) (hc : s.canStage d a = true) : exec (.transactionAccept p (.write a m x)) s =
    .next ((s.stageWrite d (.write a m x) seals).setPort p
      { s.port p with txn := {}, ready := true, response := some .okayWrite }).arbitrate := by
  have room : (s.accept p (.write a m x)).canStage d (accessAddr (.write a m x)) = true := (canStage_setPort ..).trans hc
  rw [exec_accept_staged hl hp hm hs]
  unfold State.arriveStaged
  dsimp only
  rw [accept_txn, if_pos room]
  unfold State.accept
  rw [stageWrite_setPort]
  unfold State.respond
  rw [setPort_setPort, State.port_setPort_self]

theorem exec_accept_refused (x : Word) (hn : s.NoRoom d a) (he : (s.domain d).cfg.exhaustion = .refuse) :
    exec (.transactionAccept p (.write a m x)) s = .next ((s.raise (.refusedFull d p a)).setPort p
      { s.port p with txn := {}, ready := true, response := some .errorWrite }).arbitrate := by
  have full : ¬ (s.accept p (.write a m x)).canStage d (accessAddr (.write a m x)) = true := by
    rw [Bool.not_eq_true]
    exact (canStage_setPort ..).trans (canStage_of_noRoom hn)
  have policy : ((s.accept p (.write a m x)).domain d).cfg.exhaustion = .refuse := by
    unfold State.accept
    rw [State.domain_setPort, he]
  rw [exec_accept_staged hl hp hm hs]
  unfold State.arriveStaged
  dsimp only
  rw [accept_txn, if_neg full, policy]
  dsimp only
  rw [refuse_accept]
  rfl

theorem exec_accept_waits (x : Word) (hn : s.NoRoom d a) (h0 : 0 < s.stallLimit.toNat)
    (he : (s.domain d).cfg.exhaustion = .stall) : exec (.transactionAccept p (.write a m x)) s = .next
      ((s.joinWaiting { port := p, domain := d, addr := a, seals := seals }).setPort p { s.port p with
        txn := { phase := .held, access := .write a m x, cause := some .exhausted, startTick := some s.tick }
        ready := false, response := none }).arbitrate := by
  have txn := accept_txn s p (.write a m x)
  have full : (s.accept p (.write a m x)).canStage d (accessAddr ((s.accept p (.write a m x)).port p).txn.access) = false := by
    rw [txn]
    exact (canStage_setPort ..).trans (canStage_of_noRoom hn)
  have policy : ((s.accept p (.write a m x)).domain d).cfg.exhaustion = .stall := by
    unfold State.accept
    rw [State.domain_setPort, he]
  have joined : ∀ w, ((s.accept p (.write a m x)).joinWaiting w).port p = (s.accept p (.write a m x)).port p :=
    fun w => State.port_joinWaiting _ w p
  have tick : (s.accept p (.write a m x)).tick = s.tick := State.setPort_tick s p _
  have limit : (s.accept p (.write a m x)).stallLimit = s.stallLimit := State.setPort_stallLimit s p _
  rw [exec_accept_staged hl hp hm hs, arriveStaged_waits full policy,
    hold_of_not_due (t0 := s.tick) (by rw [joined, txn, State.joinWaiting_tick, tick]; rfl)
      (by rw [State.joinWaiting_tick, State.joinWaiting_stallLimit, tick, limit, BitVec.sub_self]; exact h0)]
  rw [joined, txn]
  cases p <;> rfl

end

/-! ### The examination of a waiter (R48) -/

/-- A waiter with room is staged in the state it left, and its port answers OKAY. -/
theorem examineWaiter_staged {s : State} {w : Waiter} {m : Lanes} {x : Word}
    (hw : (s.port w.port).txn.access = .write w.addr m x) (hc : s.canStage w.domain w.addr = true) :
    s.examineWaiter w = ((s.leaveWaiting w.port).stageWrite w.domain (.write w.addr m x) w.seals).setPort w.port
      { s.port w.port with txn := {}, ready := true, response := some .okayWrite } := by
  rw [examineWaiter_granted hc, hw]
  unfold State.respond
  rw [(poolOnly_stageWrite _ _ _ _).port, State.port_leaveWaiting]

theorem examineWaiter_full {s : State} {w : Waiter} (hn : s.NoRoom w.domain w.addr) : s.examineWaiter w = s :=
  if_neg (by simp [canStage_of_noRoom hn])

/-! ### The obligations -/

/-- Settles O42: the entry for the word is the one the search finds, and the seal takes the batch it stands in. -/
theorem stagedWriteMerges : Obligations.StagedWriteMerges := by
  intro s p a m x d seals k j e hl hp hm hs opened only hj he ha word
  have hk := slotIn_unique opened only
  have hf := entryFor_unique hj he ha word
  refine ⟨mergeLanes e.data x m, lane_mergeLanes e.data x m, ?_⟩
  rw [exec_accept_granted hl hp hm hs x (canStage_merges hk hf), stageWrite_eq (stage_merges hk hf he m x) (k := k) hk]
  rfl

/-- Settles O43: the batch that takes the word is OPEN afterwards, so that a seal write seals it. -/
theorem stagedWriteTakesANewEntry : Obligations.StagedWriteTakesANewEntry := by
  intro s p a m x d seals k j hl hp hm hs hj lowest b hb
  have free := freeEntry_lowest hj lowest
  refine ⟨maskedData x m, lane_maskedData x m, ?_⟩
  rw [exec_accept_granted hl hp hm hs x (canStage_takes hb free),
    stageWrite_eq (stage_takes hb free m x) (slotIn_newEntryAt hb j m x)]
  rfl

/-- Settles O44: the two policies at an acceptance without room, and the three outcomes of an examined waiter. -/
theorem stagedWriteWithoutRoom : Obligations.StagedWriteWithoutRoom := by
  refine ⟨fun s p a m x d seals hl hp hm h0 hs unstaged full => ⟨fun he => ?_, fun he => ?_⟩, fun _ => rfl,
    fun s w m x hw => ⟨fun k j e opened only hj he ha word => ?_, fun k j b hj lowest hb => ?_,
      fun unstaged full => ?_⟩⟩
  · exact exec_accept_refused hl hp hm hs x ⟨unstaged, full⟩ he
  · exact exec_accept_waits hl hp hm hs x ⟨unstaged, full⟩ h0 he
  · have hk := slotIn_unique opened only
    have hf := entryFor_unique hj he ha word
    refine ⟨mergeLanes e.data x m, lane_mergeLanes e.data x m, ?_⟩
    rw [examineWaiter_staged hw (canStage_merges hk hf),
      stageWrite_eq (stage_merges (s := s.leaveWaiting w.port) hk hf he m x) (k := k) hk]
    rfl
  · have free := freeEntry_lowest hj lowest
    refine ⟨maskedData x m, lane_maskedData x m, ?_⟩
    rw [examineWaiter_staged hw (canStage_takes hb free),
      stageWrite_eq (stage_takes (s := s.leaveWaiting w.port) hb free m x)
        (slotIn_newEntryAt (s := s.leaveWaiting w.port) hb j m x)]
    rfl
  · exact examineWaiter_full ⟨unstaged, full⟩

/-! ### SEAL (R44, R68) -/

section
variable {s : State} (h : s.Listening) {b : Byte} (tail : Nat)
include h

theorem exec_sealBatch_badIndex (hb : 3 < b.toNat) :
    exec (.sealBatch b tail) s = .next (s.replied (8 * 3 + tail) (bare .badIndex)) := by
  refine congrArg Host.Outcome.next (carryOut_unchanged h _ ?_)
  unfold State.onDomain
  rw [show domainOfByte b = none from index_of_le hb]

/-- What an accepted SEAL of a domain leaves, and its reply. -/
theorem exec_sealBatch {d : DomainId} (hb : b.toNat = d.val) {u : State} {r : Reply}
    (hd : (s.shiftFrame (8 * 3 + tail)).doSeal d = (u, r)) : exec (.sealBatch b tail) s = .next (u.answer r) := by
  refine congrArg Host.Outcome.next ((carryOut_of_listening h _ _).trans ?_)
  unfold State.onDomain
  rw [show domainOfByte b = some d from index_of_eq hb]
  dsimp only
  rw [hd]

end

theorem doSeal_outside {s : State} {d : DomainId} (hd : (s.domain d).state ≠ .run) : s.doSeal d = (s, bare .state) :=
  if_neg hd

theorem doSeal_empty {s : State} {d : DomainId} (hd : (s.domain d).state = .run) (hk : s.slotIn d .opened = none) :
    s.doSeal d = (s, bare .empty) := by
  unfold State.doSeal
  rw [if_pos hd, hk]

theorem doSeal_open {s : State} {d : DomainId} {k : SlotId} (hd : (s.domain d).state = .run)
    (hk : s.slotIn d .opened = some k) : s.doSeal d = (s.slotSealed d k, bare .ok) := by
  unfold State.doSeal
  rw [if_pos hd, sealOpen_eq hk, hk]

/-- Settles O19, a check of R44 at a time. -/
theorem sealSealsTheOpenBatch : Obligations.SealSealsTheOpenBatch := by
  refine fun s b tail h => ⟨exec_sealBatch_badIndex h tail, fun d hb => ⟨fun hd => ?_, fun hd none => ?_,
    fun k hd opened only => ?_⟩⟩
  · exact exec_sealBatch h tail hb (doSeal_outside hd)
  · exact exec_sealBatch h tail hb (doSeal_empty hd ((slotIn_none_iff s d .opened).2 none))
  · exact exec_sealBatch h tail hb (doSeal_open (s := s.shiftFrame _) hd (slotIn_unique opened only))

end Sys2Proof.Machine
end

section
/-! SUPPORT. Edges and releases of the fault lines (O60). -/

namespace Sys2Proof.Machine

theorem names_iff (b : FaultBinding) (l : FaultLine) :
    b.names l = true ↔ b = .both ∨ (b = .fault0 ∧ l = 0) ∨ (b = .fault1 ∧ l = 1) := by
  cases b <;> simp [FaultBinding.names]

theorem acceptsFault_iff (x : DomainState) : x.acceptsFault = true ↔ x = .disabled ∨ x = .run ∨ x = .stopping := by
  cases x <;> simp [DomainState.acceptsFault]

theorem mem_faultedDomains (s : State) (l : FaultLine) (d : DomainId) : d ∈ s.faultedDomains l ↔
    ((s.domain d).cfg.binding = .both ∨ ((s.domain d).cfg.binding = .fault0 ∧ l = 0) ∨
      ((s.domain d).cfg.binding = .fault1 ∧ l = 1)) ∧
    ((s.domain d).state = .disabled ∨ (s.domain d).state = .run ∨ (s.domain d).state = .stopping) := by
  simp only [State.faultedDomains, List.mem_filter, List.mem_finRange, true_and, Bool.and_eq_true, names_iff,
    acceptsFault_iff]

/-- An edge takes the level as low and is a fault of every bound domain that accepts one. -/
theorem exec_faultEdge {s : State} {l : FaultLine} (hl : s.resetLow = false) (hf : s.faultLevels[l] = true) :
    exec (.faultEdge l) s = .next (({ s with faultLevels := s.faultLevels.set l false } : State).acceptFaults
      (s.faultedDomains l) fun d => [.faultTaken d (faultLineCause l)]).arbitrate :=
  congrArg Host.Outcome.next (if_pos (by simp [hl, hf]))

/-- The steps of several acceptances in the order of the rules: records, discards, one examination, ends (R52, R104). -/
theorem acceptFaults_ordered (s : State) {ds : List DomainId} (hd : ds ≠ []) (notice : DomainId → List Event) :
    ∃ (first second : List DomainId) (m n : Nat), first.Perm ds ∧ second.Perm ds ∧
      let noted := s.raiseMerged ds (s.faultEvents notice)
      let discarded := first.foldl State.takeFault { noted with freeCount := m }
      let t := second.foldl State.settleFault { discarded.examineWaiting with freeCount := n }
      s.acceptFaults ds notice = { t with fillOrder := ascendTail s.fillOrder.length t.fillOrder } :=
  ⟨_, _, _, _, freeOrder_perm ds _, freeOrder_perm ds _, acceptFaults_eq s notice hd⟩

/-- Settles O60: the domains that accept are those of `faultedDomains`, and their steps follow the rules' order. -/
theorem faultEdgeReachesEveryBoundDomain : Obligations.FaultEdgeReachesEveryBoundDomain := by
  refine ⟨fun s l hl hf => ⟨fun none => ?_, fun ⟨d, hd⟩ => ?_⟩, fun s l hl hf => ?_⟩
  · have nobody : s.faultedDomains l = [] :=
      List.eq_nil_iff_forall_not_mem.2 fun d hd => none d ((mem_faultedDomains s l d).1 hd)
    rw [exec_faultEdge hl hf, nobody, acceptFaults_nil]
  · have somebody : s.faultedDomains l ≠ [] := List.ne_nil_of_mem ((mem_faultedDomains s l d).2 hd)
    exact ⟨s.faultedDomains l, (faultedDomains_spec s l).1, mem_faultedDomains s l, exec_faultEdge hl hf,
      acceptFaults_ordered _ somebody _⟩
  · exact congrArg Host.Outcome.next (if_pos (by simp [hl, hf]))

end Sys2Proof.Machine
end

section
/-! SUPPORT. The completion of a commit (O51). -/

namespace Sys2Proof.Machine

/-! ### The steps of R93 -/

/-- A record raised writes the queue and IRQ alone. -/
theorem raise_eq (s : State) (e : Event) :
    s.raise e = { s with queue := (s.raise e).queue, irq := (s.raise e).irq } := raises_eq [e] s

theorem StagingOnly.expiryStarts {s t : State} (h : StagingOnly s t) : t.expiryStarts = s.expiryStarts := by rw [h]

theorem setDomain_setDomain (s : State) (d : DomainId) (x y : Domain) :
    (s.setDomain d x).setDomain d y = s.setDomain d y := by
  simp [State.setDomain]

/-- The committed write stored, the number raised and the batch freed (R93, steps 1 and 2, before the examination). -/
def State.commitStored (s : State) (d : DomainId) (a : Addr) (m : Lanes) (x : Word) : State :=
  ({ s with mem := Memory.writeWord s.mem a m x, mport := none
            entries := s.entriesFreed d (s.domain d).commit.slot } : State).setDomain d
    { s.domain d with
      commitNumber := (s.domain d).commitNumber + 1
      slots := (s.domain d).slots.set (s.domain d).commit.slot .vacant }

/-- The state from which the controller continues (R93, after step 4). -/
def State.commitLeft (s : State) (d : DomainId) (a : Addr) (m : Lanes) (x : Word) : State :=
  let freed := (s.commitStored d a m x).examineWaiting
  let noted := if (s.domain d).cfg.notify then freed.raise (.commitDone d ((s.domain d).commitNumber + 1)) else freed
  { (noted.setDomain d { noted.domain d with commit := {} }) with
    startOrder := s.startOrder.filter fun e => e ≠ d, expiryStarts := s.expiryStarts.filter fun e => e ≠ d }

theorem freeSlot_raiseNumber (s : State) (d : DomainId) (k : SlotId) : (s.raiseNumber d).freeSlot d k =
    ({ s with entries := s.entriesFreed d k } : State).setDomain d
      { s.domain d with commitNumber := (s.domain d).commitNumber + 1, slots := (s.domain d).slots.set k .vacant } := by
  have number : (s.raiseNumber d).domain d = { s.domain d with commitNumber := (s.domain d).commitNumber + 1 } :=
    s.domain_setDomain_self d _
  have slot : (s.raiseNumber d).slot d k = s.slot d k := by
    unfold State.slot
    rw [number]
  have entries : (s.raiseNumber d).entriesFreed d k = s.entriesFreed d k := by
    unfold State.entriesFreed
    rw [slot]
    rfl
  rw [freeSlot_eq, number, entries]
  unfold State.raiseNumber
  rw [setDomain_setDomain]
  rfl

section
variable {s : State} {d : DomainId} {a : Addr} {m : Lanes} {x : Word} {g : Grant} (hg : g.access = .write a m x)

include hg in
theorem freeCommitted_completed : ((s.completeAccess g).raiseNumber d).freeCommitted d =
    (s.commitStored d a m x).examineWaiting := by
  have slot : (((s.completeAccess g).raiseNumber d).domain d).commit.slot = (s.domain d).commit.slot := by
    unfold State.raiseNumber
    rw [State.domain_setDomain_self]
    rfl
  unfold State.freeCommitted
  rw [slot, freeSlot_raiseNumber]
  unfold State.completeAccess State.commitStored
  rw [hg]
  rfl

/-- The examination leaves what the completion reads and writes afterwards. -/
theorem cfg_commitExamined : ((s.commitStored d a m x).examineWaiting.domain d).cfg = (s.domain d).cfg := by
  rw [(steady_examineWaiting _).cfg, State.commitStored, State.domain_setDomain_self]

theorem number_commitExamined :
    ((s.commitStored d a m x).examineWaiting.domain d).commitNumber = (s.domain d).commitNumber + 1 := by
  rw [(steady_examineWaiting _).number, State.commitStored, State.domain_setDomain_self]

theorem state_commitExamined : ((s.commitStored d a m x).examineWaiting.domain d).state = (s.domain d).state := by
  rw [(noNewCommit_examineWaiting _).state, State.commitStored, State.domain_setDomain_self]

theorem startOrder_commitExamined : (s.commitStored d a m x).examineWaiting.startOrder = s.startOrder := by
  rw [(stagingOnly_examineWaiting _).startOrder, State.commitStored, State.setDomain_startOrder]

theorem expiryStarts_commitExamined : (s.commitStored d a m x).examineWaiting.expiryStarts = s.expiryStarts := by
  rw [(stagingOnly_examineWaiting _).expiryStarts, State.commitStored, State.setDomain_expiryStarts]

/-- Steps 3 and 4 of R93: COMMIT_DONE where it is asked for, and the end of the record and of the place in the lists. -/
theorem leaveStart_notifyCommit (u : State) (d : DomainId) : (u.notifyCommit d).leaveStart d =
    { ((u.notifyCommit d).setDomain d { (u.notifyCommit d).domain d with commit := {} }) with
      startOrder := u.startOrder.filter fun e => e ≠ d, expiryStarts := u.expiryStarts.filter fun e => e ≠ d } := by
  have lists : (u.notifyCommit d).startOrder = u.startOrder ∧ (u.notifyCommit d).expiryStarts = u.expiryStarts := by
    rcases notifyCommit_eq u d with e | e
    · rw [e]
      exact ⟨rfl, rfl⟩
    · rw [e, raise_eq]
      exact ⟨rfl, rfl⟩
  obtain ⟨starts, expiries⟩ := lists
  rw [← starts, ← expiries]
  rfl

include hg in
theorem completeCommit_eq :
    (s.completeAccess g).completeCommit d = (s.commitLeft d a m x).continueAfter d := by
  unfold State.completeCommit
  rw [freeCommitted_completed hg, leaveStart_notifyCommit, startOrder_commitExamined, expiryStarts_commitExamined]
  unfold State.notifyCommit
  rw [cfg_commitExamined, number_commitExamined]
  rfl

theorem state_commitLeft : ((s.commitLeft d a m x).domain d).state = (s.domain d).state := by
  unfold State.commitLeft
  dsimp only
  refine (congrArg Domain.state (State.domain_setDomain_self _ d _)).trans ?_
  split
  · rw [domain_raise, state_commitExamined]
  · rw [state_commitExamined]

theorem lists_commitLeft : (s.commitLeft d a m x).fillOrder = s.fillOrder ∧ (s.commitLeft d a m x).safe = s.safe := by
  have fills : (s.commitStored d a m x).examineWaiting.fillOrder = s.fillOrder := by
    rw [(stagingOnly_examineWaiting _).fillOrder, State.commitStored, State.setDomain_fillOrder]
  have table : (s.commitStored d a m x).examineWaiting.safe = s.safe := by
    rw [(stagingOnly_examineWaiting _).safe, State.commitStored, State.setDomain_safe]
  rw [← fills, ← table]
  unfold State.commitLeft
  dsimp only
  rw [State.setDomain_fillOrder, State.setDomain_safe]
  split
  · rw [raise_eq]
    exact ⟨rfl, rfl⟩
  · exact ⟨rfl, rfl⟩

theorem nextSafe_congr {s t : State} (h : t.safe = s.safe) (d : DomainId) (i : Nat) :
    t.nextSafe d i = s.nextSafe d i := by
  have entry : ∀ j, t.safeEntry j = s.safeEntry j := fun j => by simp [State.safeEntry, h]
  simp only [State.nextSafe, entry]

/-! ### How the controller continues (R93, step 5) -/

theorem continueAfter_rests
    (h : (s.domain d).state = .run ∨ (s.domain d).state = .disabled ∨ (s.domain d).state = .safed) : s.continueAfter d = s := by
  unfold State.continueAfter
  rcases h with h | h | h <;> rw [h]

theorem continueAfter_stopping (h : (s.domain d).state = .stopping) : s.continueAfter d = s.continueStop d := by
  unfold State.continueAfter
  rw [h]

theorem continueAfter_safing (h : (s.domain d).state = .safing) : s.continueAfter d = s.beginFill d := by
  unfold State.continueAfter
  rw [h]

/-- A completion of the last write of a commit (R87, R92) completes the commit. -/
theorem exec_commitCompletes {c : Instr} (hm : s.mport = some ⟨.commit d, .write a m x⟩)
    (hc : (c = .commitWriteComplete ∧ (s.domain d).commit.phase = .entryWrite ∧
        (s.domain d).commit.entryCount ≤ (s.domain d).commit.next + 1 ∧ (s.domain d).cfg.sequenceWord = none) ∨
      (c = .sequenceWriteComplete ∧ (s.domain d).commit.phase = .sequenceWrite)) :
    exec c s = .next ((s.commitLeft d a m x).continueAfter d).arbitrate := by
  rw [← completeCommit_eq (g := ⟨.commit d, .write a m x⟩) rfl]
  rcases hc with ⟨rfl, phase, last, none⟩ | ⟨rfl, phase⟩
  · have complete : (s.completeAccess ⟨.commit d, .write a m x⟩).advanceCommit d =
        (s.completeAccess ⟨.commit d, .write a m x⟩).completeCommit d := by
      have domain : (s.completeAccess ⟨.commit d, .write a m x⟩).domain d = s.domain d := rfl
      unfold State.advanceCommit
      rw [domain, none]
      exact if_neg (Nat.not_lt.2 last)
    rw [← complete]
    show execCommitWriteComplete s = _
    unfold execCommitWriteComplete
    rw [hm]
    exact congrArg Host.Outcome.next (if_pos phase)
  · show execSequenceWriteComplete s = _
    unfold execSequenceWriteComplete
    rw [hm]
    exact congrArg Host.Outcome.next (if_pos phase)

end

/-- Settles O51: the completing write leads to `commitLeft`, from which the domain's state tells how it goes on. -/
theorem commitCompletes : Obligations.CommitCompletes := by
  intro s c d a m x hm hc
  have done := exec_commitCompletes hm hc
  have state := state_commitLeft (s := s) (d := d) (a := a) (m := m) (x := x)
  obtain ⟨fills, table⟩ := lists_commitLeft (s := s) (d := d) (a := a) (m := m) (x := x)
  refine ⟨fun h => ?_, fun h => ?_, fun h => ⟨fun j hj lowest => ?_, fun none => ?_⟩⟩
  · rw [done, continueAfter_rests (by rwa [state])]
    rfl
  · rw [done, continueAfter_stopping (by rwa [state])]
    rfl
  · have next := (nextSafe_congr table d 0).trans (nextSafe_lowest hj lowest)
    rw [done, continueAfter_safing (by rwa [state]), beginFill_request next, State.joinFill, State.setDomain_fillOrder, fills]
    rfl
  · have next := (nextSafe_congr table d 0).trans ((nextSafe_none_iff s d).2 none)
    have raised : ((s.commitLeft d a m x).raise (.safeDone d)).fillOrder = s.fillOrder := by
      rw [raise_eq]
      exact fills
    rw [done, continueAfter_safing (by rwa [state]), beginFill_empty next, State.enterSafed, State.setDomain_fillOrder,
      raised, domain_raise]
    rfl

end Sys2Proof.Machine
end

section
/-! SUPPORT. The operations of a stop neither read nor write what a frame leaves (O20). -/

namespace Sys2Proof.Machine

section
variable (s : State) (l : List Bool) (r : Option Reply)

theorem port_framed (p : Port) : (s.framed l r).port p = s.port p := by cases p <;> rfl

theorem setPort_framed (p : Port) (u : PortUnit) : (s.framed l r).setPort p u = (s.setPort p u).framed l r := by
  cases p <;> rfl

theorem setTxn_framed (p : Port) (t : Txn) : (s.framed l r).setTxn p t = (s.setTxn p t).framed l r := by
  unfold State.setTxn
  rw [port_framed, setPort_framed]

theorem respond_framed (p : Port) (x : Response) : (s.framed l r).respond p x = (s.respond p x).framed l r := by
  unfold State.respond
  rw [port_framed, setPort_framed]

theorem foldl_framed {α : Type} {f : State → α → State} (hf : ∀ s x, f (s.framed l r) x = (f s x).framed l r)
    (items : List α) : items.foldl f (s.framed l r) = (items.foldl f s).framed l r := by
  induction items generalizing s with
  | nil => rfl
  | cons x items ih => rw [List.foldl_cons, List.foldl_cons, hf, ih]

/-! ### The pool (R39 to R44, R48, R52) -/

theorem stage_framed (d : DomainId) (a : Addr) (m : Lanes) (x : Word) :
    (s.framed l r).stage d a m x = (s.stage d a m x).framed l r := by
  unfold State.stage
  rw [show (s.framed l r).slotIn d .opened = s.slotIn d .opened from rfl,
    show (s.framed l r).slotIn d .free = s.slotIn d .free from rfl, show (s.framed l r).freeEntry = s.freeEntry from rfl]
  cases s.slotIn d .opened with
  | some k =>
    dsimp only
    rw [show (s.framed l r).entryFor d k a = s.entryFor d k a from rfl]
    cases s.entryFor d k a with
    | some i =>
      dsimp only
      unfold State.mergeEntry
      rw [show (s.framed l r).entries[i] = s.entries[i] from rfl]
      cases s.entries[i] <;> rfl
    | none => cases s.freeEntry <;> rfl
  | none =>
    cases s.freeEntry with
    | none => rfl
    | some i => cases s.slotIn d .free <;> rfl

theorem sealOpen_framed (d : DomainId) : (s.framed l r).sealOpen d = (s.sealOpen d).framed l r := by
  unfold State.sealOpen
  rw [show (s.framed l r).slotIn d .opened = s.slotIn d .opened from rfl]
  cases s.slotIn d .opened <;> rfl

theorem stageWrite_framed (d : DomainId) (acc : Access) (b : Bool) :
    (s.framed l r).stageWrite d acc b = (s.stageWrite d acc b).framed l r := by
  unfold State.stageWrite
  rw [stage_framed]
  cases b with
  | true => exact sealOpen_framed _ l r d
  | false => rfl

theorem freeSlotsIn_framed (d : DomainId) (st : SlotState) :
    (s.framed l r).freeSlotsIn d st = (s.freeSlotsIn d st).framed l r := by
  refine foldl_framed s l r (fun u k => ?_) _
  rw [freeSlot_eq, freeSlot_eq, show (u.framed l r).slot d k = u.slot d k from rfl]
  split <;> rfl

theorem examineWaiting_framed : (s.framed l r).examineWaiting = s.examineWaiting.framed l r := by
  refine foldl_framed s l r (fun u w => ?_) _
  unfold State.examineWaiter
  rw [show (u.framed l r).canStage w.domain w.addr = u.canStage w.domain w.addr from rfl, port_framed,
    show (u.framed l r).leaveWaiting w.port = (u.leaveWaiting w.port).framed l r from rfl, stageWrite_framed, respond_framed]
  split <;> rfl

/-! ### A write classified again (R26) -/

theorem hold_framed (p : Port) (c : HoldCause) : (s.framed l r).hold p c = (s.hold p c).framed l r := by
  have due : ∀ u : State, (u.framed l r).stallDue p = u.stallDue p := fun u => by
    unfold State.stallDue
    rw [port_framed]
    rfl
  unfold State.hold
  dsimp only
  rw [port_framed, show (s.framed l r).tick = s.tick from rfl, setTxn_framed, due, expireHeld_framed]
  split <;> rfl

theorem arriveStaged_framed (p : Port) (d : DomainId) (b : Bool) :
    (s.framed l r).arriveStaged p d b = (s.arriveStaged p d b).framed l r := by
  unfold State.arriveStaged
  dsimp only
  rw [port_framed, stageWrite_framed, respond_framed]
  generalize (s.port p).txn.access = acc
  rw [show (s.framed l r).canStage d (accessAddr acc) = s.canStage d (accessAddr acc) from rfl,
    show (s.framed l r).domain d = s.domain d from rfl]
  split
  · rfl
  · split
    · rw [raise_framed, respond_framed]
    · exact hold_framed (s.joinWaiting _) l r p _

theorem reclassify_framed (p : Port) : (s.framed l r).reclassify p = (s.reclassify p).framed l r := by
  have view : SameView s (s.framed l r) := ⟨rfl, rfl, rfl, fun q => by rw [port_framed]⟩
  unfold State.reclassify
  rw [port_framed, view.classifyWrite]
  cases s.classifyWrite p (accessAddr (s.port p).txn.access) with
  | plain => unfold State.applyWrite; dsimp only; rw [port_framed, setTxn_framed]
  | stage d b => exact arriveStaged_framed s l r p d b
  | hold c => exact hold_framed s l r p c
  | faultLock d => unfold State.applyWrite; dsimp only; rw [port_framed, raise_framed, respond_framed]
  | foreignWrite w => unfold State.applyWrite; dsimp only; rw [port_framed, raise_framed, respond_framed]

/-! ### The stop (R53, R65, R66) -/

theorem waiterToStopping_framed (d : DomainId) :
    (s.framed l r).waiterToStopping d = (s.waiterToStopping d).framed l r := by
  unfold State.waiterToStopping
  rw [show (s.framed l r).waiterOf d = s.waiterOf d from rfl]
  cases s.waiterOf d with
  | none => rfl
  | some w =>
    dsimp only
    rw [port_framed]
    exact setTxn_framed (s.leaveWaiting w.port) l r w.port _

theorem reachDisabled_framed (d : DomainId) : (s.framed l r).reachDisabled d = (s.reachDisabled d).framed l r := by
  have ended : (s.framed l r).stopEnded d = (s.stopEnded d).framed l r :=
    raise_framed (s.setDomain d { s.domain d with state := .disabled }) _ l r
  rw [reachDisabled_eq, reachDisabled_eq, ended]
  generalize s.stopEnded d = u
  have waits : (u.framed l r).stoppingHold d = u.stoppingHold d := by
    unfold State.stoppingHold
    rw [port_framed]
    rfl
  rw [waits, reclassify_framed]
  split <;> rfl

theorem awaitOrContinue_framed (d : DomainId) : (s.framed l r).awaitOrContinue d = (s.awaitOrContinue d).framed l r := by
  unfold State.awaitOrContinue State.continueStop
  rw [show (s.framed l r).slotIn d .committing = s.slotIn d .committing from rfl,
    show (s.framed l r).oldestSealed d = s.oldestSealed d from rfl, reachDisabled_framed]
  cases s.slotIn d .committing with
  | some _ => rfl
  | none => cases s.oldestSealed d <;> rfl

theorem stopDomain_framed (d : DomainId) : (s.framed l r).stopDomain d = (s.stopDomain d).framed l r := by
  unfold State.stopDomain State.discardAtStop
  rw [show (s.framed l r).enterStopping d = (s.enterStopping d).framed l r from rfl, waiterToStopping_framed,
    freeSlotsIn_framed, examineWaiting_framed, awaitOrContinue_framed]

theorem arbitrate_framed : (s.framed l r).arbitrate = s.arbitrate.framed l r := by
  have pending : (s.framed l r).nextGrant = s.nextGrant := by
    have request : (s.framed l r).request = s.request := funext fun q => by
      cases q with
      | fill d => rfl
      | commit d => rfl
      | capture p => cases p <;> rfl
      | port p => cases p <;> rfl
    unfold State.nextGrant
    rw [request]
    rfl
  have granted : ∀ q, (s.framed l r).markGranted q = (s.markGranted q).framed l r := fun q => by
    cases q with
    | fill d => rfl
    | commit d => rfl
    | capture p => cases p <;> rfl
    | port p => cases p <;> rfl
  unfold State.arbitrate
  rw [pending, show (s.framed l r).mport = s.mport from rfl]
  cases s.mport with
  | some g => rfl
  | none =>
    cases s.nextGrant with
    | none => rfl
    | some g => dsimp only; rw [granted]; rfl

end

/-- An accepted STOP: the stop of the state before the frame, and the reply. -/
theorem exec_stop_replied {s : State} (h : s.Listening) {b : Byte} {d : DomainId} (hb : b.toNat = d.val)
    (hd : (s.domain d).state = .run) (tail : Nat) :
    exec (.stop b tail) s = .next ((s.stopDomain d).arbitrate.replied (8 * 3 + tail) (bare .accepted)) := by
  have framed : s.shiftFrame (8 * 3 + tail) = s.framed (shiftOut s.reply (8 * 3 + tail)) s.reply := rfl
  have reply : (s.stopDomain d).arbitrate.reply = s.reply :=
    (steady_arbitrate _).reply.trans (steady_stopDomain s d).reply
  rw [exec_stop h hb hd, framed, stopDomain_framed, arbitrate_framed]
  generalize (s.stopDomain d).arbitrate = t at reply ⊢
  unfold State.replied
  rw [reply]
  rfl

end Sys2Proof.Machine
end

section
/-! SUPPORT. STOP in any state with one waiter and one OPEN batch of the domain at most (O20). -/

namespace Sys2Proof.Machine

/-! ### The discards of a STOP (R52, R53) -/

theorem freeSlots_unused {s : State} {d : DomainId} {st : SlotState} (l : List SlotId)
    (h : ∀ k ∈ l, (s.slot d k).state ≠ st) :
    l.foldl (fun s k => if (s.slot d k).state = st then s.freeSlot d k else s) s = s := by
  induction l with
  | nil => rfl
  | cons k l ih => rw [List.foldl_cons, if_neg (h k (by simp)), ih fun j hj => h j (by simp [hj])]

/-- Where one slot alone is in the state, freeing that state's batches frees the slot. -/
theorem freeSlotsIn_only {s : State} {d : DomainId} {k : SlotId} {st : SlotState} (hst : st ≠ .free)
    (hk : (s.slot d k).state = st) (only : ∀ j, (s.slot d j).state = st → j = k) : s.freeSlotsIn d st = s.freeSlot d k := by
  have others : ∀ j, j ≠ k → (s.slot d j).state ≠ st := fun j hj hs => hj (only j hs)
  have freed : ∀ j, ((s.freeSlot d k).slot d j).state ≠ st := fun j hj => by
    rw [slot_freeSlot] at hj
    split at hj
    · exact hst hj.symm
    · next hne => exact hne ⟨rfl, only j hj⟩
  obtain ⟨before, after, parts⟩ := List.append_of_mem (List.mem_finRange k)
  have once : k ∉ before ++ after := (List.nodup_cons.1 (List.nodup_middle.1 (parts ▸ List.nodup_finRange 4))).1
  unfold State.freeSlotsIn
  rw [parts, List.foldl_append, freeSlots_unused before fun j hj => others j ?_, List.foldl_cons, if_pos hk,
    freeSlots_unused after fun j _ => freed j]
  rintro rfl
  exact once (List.mem_append_left _ hj)

/-- A domain without a waiter, or with the waiter `w` alone, whose write becomes a STOPPING hold off the list: the state `u`
afterwards (R53). -/
def State.WaiterStopped (s u : State) (d : DomainId) : Prop :=
  ((∀ w ∈ s.waiting, w.domain ≠ d) ∧ u = s) ∨
    (∃ w ∈ s.waiting, w.domain = d ∧ (∀ x ∈ s.waiting, x.domain = d → x = w) ∧
      u = { s.setPort w.port { s.port w.port with
              txn := { (s.port w.port).txn with cause := some .stopping } } with
            waiting := s.waiting.filter fun x => x.port ≠ w.port })

/-- The domain STOPPING and its OPEN batch, if it has one, discarded: the state `v` after `u` (R52, R65). -/
def State.OpenDiscarded (s u v : State) (d : DomainId) : Prop :=
  (v = u.setDomain d { s.domain d with state := .stopping, monitorPhase := .stopped } ∧
      ∀ k, (s.slot d k).state ≠ .opened) ∨
    (∃ k, (s.slot d k).state = .opened ∧ (∀ j, (s.slot d j).state = .opened → j = k) ∧
      v = { (u.setDomain d { s.domain d with
              state := .stopping, monitorPhase := .stopped, slots := (s.domain d).slots.set k .vacant }) with
            entries := s.entriesFreed d k })

section
variable {s u v : State} {d : DomainId}

theorem waiterToStopping_eq (h : s.WaiterStopped u d) : s.waiterToStopping d = u := by
  unfold State.waiterToStopping
  rcases h with ⟨none, rfl⟩ | ⟨w, hw, hd, only, rfl⟩
  · cases hx : u.waiterOf d with
    | none => rfl
    | some x => exact absurd (waiterOf_some hx).2 (none x (waiterOf_some hx).1)
  · cases hx : s.waiterOf d with
    | none => exact absurd hd (waiterOf_none hx w hw)
    | some x =>
      obtain ⟨hm, hxd⟩ := waiterOf_some hx
      rw [only x hm hxd]
      dsimp only
      unfold State.setTxn
      rw [State.port_leaveWaiting]
      cases w.port <;> rfl

theorem waiting_waiterStopped (h : s.WaiterStopped u d) : ∀ w ∈ u.waiting, w.domain ≠ d := by
  rcases h with ⟨none, rfl⟩ | ⟨w, -, -, only, rfl⟩
  · exact none
  · intro x hx hd
    obtain ⟨hm, hp⟩ := List.mem_filter.1 hx
    exact of_decide_eq_true hp (by rw [only x hm hd])

theorem stopFreed_eq (hu : s.waiterToStopping d = u) (hv : s.OpenDiscarded u v d) : s.stopFreed d = v := by
  have entries : u.entries = s.entries := hu ▸ (samePool_waiterToStopping s d).entries
  unfold State.stopFreed State.enterStopping
  rw [waiterToStopping_setDomain, hu]
  have slot : ∀ k, (u.setDomain d { s.domain d with state := .stopping, monitorPhase := .stopped }).slot d k = s.slot d k :=
    fun k => by rw [State.slot_setDomain, if_pos rfl]; rfl
  rcases hv with ⟨rfl, none⟩ | ⟨k, opened, only, rfl⟩
  · exact freeSlots_unused _ fun k _ => by rw [slot]; exact none k
  · rw [freeSlotsIn_only (k := k) (by decide) (by rw [slot]; exact opened) fun j hj => only j (by rwa [slot] at hj),
      freeSlot_eq, State.domain_setDomain_self, setDomain_setDomain]
    unfold State.entriesFreed
    rw [slot, State.setDomain_entries, entries]

end

/-! ### After the examination of the waiting list -/

theorem waiting_stopFreed_eq (s : State) (d : DomainId) : (s.stopFreed d).waiting = (s.waiterToStopping d).waiting := by
  unfold State.stopFreed State.enterStopping
  rw [(poolOnly_freeSlotsIn _ _ _).waiting, waiterToStopping_setDomain, State.setDomain_waiting]

theorem slot_stopFreed_self (s : State) (d : DomainId) (k : SlotId) :
    (s.stopFreed d).slot d k = if (s.slot d k).state = .opened then {} else s.slot d k := by
  have slot : ((s.enterStopping d).waiterToStopping d).slot d k = s.slot d k :=
    ((samePool_waiterToStopping _ d).slots d k).trans ((samePool_setDomain s d _ (by rfl)).slots d k)
  unfold State.stopFreed
  rw [slot_freeSlotsIn, slot]
  simp only [true_and]

section
variable {s : State} {d : DomainId} (hw : ∀ w ∈ (s.stopFreed d).waiting, w.domain ≠ d)
include hw

/-- No waiter is the stopping domain's, so the examination leaves the domain. -/
theorem slot_examined (k : SlotId) :
    (s.stopFreed d).examineWaiting.slot d k = if (s.slot d k).state = .opened then {} else s.slot d k := by
  rw [← slot_stopFreed_self]
  unfold State.slot
  rw [domain_examineWaiting hw]

theorem slotState_examined {k : SlotId} {st : SlotState} (h1 : st ≠ .free) (h2 : st ≠ .opened) :
    ((s.stopFreed d).examineWaiting.slot d k).state = st ↔ (s.slot d k).state = st := by
  rw [slot_examined hw]
  split
  · next ho => rw [ho]; exact ⟨fun hc => absurd hc.symm h1, fun hc => absurd hc.symm h2⟩
  · rfl

theorem sealAge_examined {k : SlotId} (hk : (s.slot d k).state = .sealed) :
    (s.stopFreed d).examineWaiting.sealAge d k = s.sealAge d k := by
  obtain ⟨v, hv⟩ := domain_stopFreed (s := s) (d := d)
  unfold State.sealAge
  rw [slot_examined hw, if_neg (by rw [hk]; decide), domain_examineWaiting hw, hv]

theorem isOldestSealed_examined {k : SlotId} (hk : s.IsOldestSealed d k) :
    (s.stopFreed d).examineWaiting.IsOldestSealed d k := by
  obtain ⟨hs, oldest⟩ := hk
  refine ⟨(slotState_examined hw (by decide) (by decide)).2 hs, fun j hj hjs => ?_⟩
  have hjs := (slotState_examined hw (by decide) (by decide)).1 hjs
  rw [sealAge_examined hw hjs, sealAge_examined hw hs]
  exact oldest j hj hjs

/-- A commit in flight is waited for (R65). -/
theorem stopDomain_waits {k : SlotId} (hk : (s.slot d k).state = .committing) :
    s.stopDomain d = (s.stopFreed d).examineWaiting :=
  awaitOrContinue_waits ((slotState_examined hw (by decide) (by decide)).2 hk)

/-- Without one the oldest SEALED batch starts its commit (R65, R88). -/
theorem stopDomain_starts (none : ∀ j, (s.slot d j).state ≠ .committing) {k : SlotId} (hk : s.IsOldestSealed d k) :
    s.stopDomain d = { ((s.stopFreed d).examineWaiting.setDomain d
        (((s.stopFreed d).examineWaiting.domain d).committing k)) with startOrder := s.startOrder ++ [d] } := by
  have order : (s.stopFreed d).examineWaiting.startOrder = s.startOrder :=
    (stagingOnly_stopFreed.trans (stagingOnly_examineWaiting _)).startOrder
  have unstarted : ∀ j, ((s.stopFreed d).examineWaiting.slot d j).state ≠ .committing := fun j hj =>
    none j ((slotState_examined hw (by decide) (by decide)).1 hj)
  rw [← order, ← startCommit_eq]
  exact awaitOrContinue_starts unstarted (oldestSealed_of (isOldestSealed_examined hw hk))

/-- Without a SEALED batch either, the domain reaches DISABLED (R65, R66). -/
theorem stopDomain_ends (none : ∀ j, (s.slot d j).state ≠ .committing ∧ (s.slot d j).state ≠ .sealed) :
    s.stopDomain d = (s.stopFreed d).examineWaiting.reachDisabled d := by
  refine awaitOrContinue_ends (fun j hj => (none j).1 ?_) ((oldestSealed_none_iff _ d).2 fun j hj => (none j).2 ?_)
  · exact (slotState_examined hw (by decide) (by decide)).1 hj
  · exact (slotState_examined hw (by decide) (by decide)).1 hj

omit hw in
/-- The hold that ends with the stop, in the windows of the state before it (R67). -/
theorem stoppingHold_stopEnded {t : State} (ha : s.WindowsApart) (windows : t.windows = s.windows) {p : Port}
    (hp : (t.domain d).cfg.writer = p) : (t.stopEnded d).stoppingHold d = true ↔
      (t.port p).txn.phase = .held ∧ (t.port p).txn.cause = some .stopping ∧
        ∃ i, s.InWindow i (accessAddr (t.port p).txn.access) ∧ (s.window i).kind = .staged ∧ (s.window i).domain = d := by
  have ended : (t.stopEnded d).windows = s.windows := by
    rw [← windows, State.stopEnded, raise_eq]
    rfl
  have writer : ((t.stopEnded d).domain d).cfg.writer = p := by rw [domain_stopEnded, if_pos rfl, ← hp]
  rw [stoppingHold_iff (windowsApart_congr ha ended), writer, port_stopEnded]
  simp only [State.InWindow, window_eq ended]

end

/-! ### The command STOP -/

theorem exec_stop_badIndex {s : State} (h : s.Listening) {b : Byte} (hb : 3 < b.toNat) (tail : Nat) :
    exec (.stop b tail) s = .next (s.replied (8 * 3 + tail) (bare .badIndex)) := by
  refine congrArg Host.Outcome.next (carryOut_unchanged h _ ?_)
  unfold State.onDomain
  rw [show domainOfByte b = none from index_of_le hb]

theorem exec_stop_unchanged {s : State} (h : s.Listening) {b : Byte} {d : DomainId} (hb : b.toNat = d.val) {r : Reply}
    (tail : Nat) (hd : (s.shiftFrame (8 * 3 + tail)).doStop d = (s.shiftFrame (8 * 3 + tail), r)) :
    exec (.stop b tail) s = .next (s.replied (8 * 3 + tail) r) := by
  refine congrArg Host.Outcome.next (carryOut_unchanged h _ ?_)
  unfold State.onDomain
  rw [show domainOfByte b = some d from index_of_eq hb]
  exact hd

theorem doStop_stopping {s : State} {d : DomainId} (hd : (s.domain d).state = .stopping) : s.doStop d = (s, bare .busy) := by
  unfold State.doStop
  rw [hd]

theorem doStop_outside {s : State} {d : DomainId}
    (hd : (s.domain d).state = .disabled ∨ (s.domain d).state = .safing ∨ (s.domain d).state = .safed) :
    s.doStop d = (s, bare .state) := by
  unfold State.doStop
  rcases hd with hd | hd | hd <;> rw [hd]

/-- Settles O20: the given `u` and `v` are the steps up to the discard, and the batches left tell how the stop goes on. -/
theorem stopEndsAtTheLastBatch : Obligations.StopEndsAtTheLastBatch := by
  refine fun s b tail h => ⟨fun hb => exec_stop_badIndex h hb tail, fun d hb => ⟨fun hd => ?_, fun hd => ?_,
    fun run u v hu hv => ?_⟩⟩
  · exact exec_stop_unchanged h hb tail (doStop_stopping (s := s.shiftFrame _) hd)
  · exact exec_stop_unchanged h hb tail (doStop_outside (s := s.shiftFrame _) hd)
  · have stopped := waiterToStopping_eq hu
    have freed : s.stopFreed d = v := stopFreed_eq stopped hv
    have hw : ∀ w ∈ (s.stopFreed d).waiting, w.domain ≠ d := by
      rw [waiting_stopFreed_eq, stopped]
      exact waiting_waiterStopped hu
    have replied := exec_stop_replied h hb run tail
    subst freed
    refine ⟨fun ⟨k, hk⟩ => ?_, fun k none hk => ?_, fun none ha => ?_⟩
    · rw [replied, stopDomain_waits hw hk]
      rfl
    · rw [replied, stopDomain_starts hw none hk]
      rfl
    · have windows := (stagingOnly_stopFreed.trans (stagingOnly_examineWaiting (s.stopFreed d))).windows
      have writer : ((s.stopFreed d).examineWaiting.domain d).cfg.writer = (s.domain d).cfg.writer := by
        obtain ⟨v, hv⟩ := domain_stopFreed (s := s) (d := d)
        rw [domain_examineWaiting hw, hv]
      have ended : (((s.stopFreed d).examineWaiting.stopEnded d).domain d).cfg.writer = (s.domain d).cfg.writer := by
        rw [domain_stopEnded, if_pos rfl, writer]
      have waits := stoppingHold_stopEnded ha windows writer
      rw [replied, stopDomain_ends hw none, reachDisabled_eq]
      refine ⟨fun held => ?_, fun free => ?_⟩
      · rw [if_pos (waits.2 held), ended]
        rfl
      · rw [if_neg fun hh => free (waits.1 hh)]
        rfl

end Sys2Proof.Machine
end

section
/-! SUPPORT. The commit decision, at a sync event and at the expiry of a sync monitor (O56, O57, O58). -/

namespace Sys2Proof.Machine

/-! ### What the decision reads of a state -/

/-- The domain's batches stand in `t` as in `s`, and so does the count that orders them (R38). -/
structure SameBatches (s t : State) (d : DomainId) : Prop where
  slots : (t.domain d).slots = (s.domain d).slots
  count : (t.domain d).sealCount = (s.domain d).sealCount

theorem SameBatches.of_domain {s t : State} {d : DomainId} (h : t.domain d = s.domain d) : SameBatches s t d := by
  constructor <;> rw [h]

theorem sameBatches_setDomain {s t : State} {d : DomainId} {x : Domain} (hs : x.slots = (s.domain d).slots)
    (hc : x.sealCount = (s.domain d).sealCount) : SameBatches s (t.setDomain d x) d := by
  constructor <;> rwa [State.domain_setDomain_self]

section
variable {s t : State} {d : DomainId} (h : SameBatches s t d)
include h

theorem SameBatches.slotIn (st : SlotState) : t.slotIn d st = s.slotIn d st := by
  unfold State.slotIn State.slot
  rw [h.slots]

theorem SameBatches.oldestSealed : t.oldestSealed d = s.oldestSealed d := by
  unfold State.oldestSealed State.sealedOldestFirst State.sealAge State.slot
  rw [h.slots, h.count]

/-! ### The three outcomes of R72 -/

theorem commitDecision_overruns {k : SlotId} (hk : (s.slot d k).state = .committing) (b : Bool) :
    t.commitDecision d b = t.raise (.syncOverrun d) := by
  unfold State.commitDecision
  rw [h.slotIn]
  cases hx : s.slotIn d .committing with
  | none => exact absurd hk (slotIn_none hx k)
  | some j => rfl

theorem commitDecision_starts (none : ∀ j, (s.slot d j).state ≠ .committing) {k : SlotId}
    (hk : s.oldestSealed d = some k) (b : Bool) : t.commitDecision d b = t.startCommit d k b := by
  unfold State.commitDecision
  rw [h.slotIn, h.oldestSealed, (slotIn_none_iff s d .committing).2 none, hk]

theorem commitDecision_rests (none : ∀ k, (s.slot d k).state ≠ .committing ∧ (s.slot d k).state ≠ .sealed) (b : Bool) :
    t.commitDecision d b = t := by
  unfold State.commitDecision
  rw [h.slotIn, h.oldestSealed, (slotIn_none_iff s d .committing).2 fun k => (none k).1,
    (oldestSealed_none_iff s d).2 fun k => (none k).2]

end

end Sys2Proof.Machine
end

section
/-! SUPPORT. SYNC commands and the edges of the sync lines (O56, O57). -/

namespace Sys2Proof.Machine

/-! ### One sync event (R71, R72, R73) -/

/-- The domain's period recorded and its monitor restarted (R71). -/
def State.recorded (s : State) (d : DomainId) : State := s.setDomain d (s.domain d).recordPeriod

theorem sameBatches_recorded (s : State) (d : DomainId) : SameBatches s (s.recorded d) d :=
  sameBatches_setDomain rfl rfl

theorem syncEvent_run {s : State} {d : DomainId} (hd : (s.domain d).state = .run) :
    s.syncEvent d = (s.recorded d).commitDecision d false := by
  unfold State.syncEvent
  rw [hd]
  rfl

theorem syncEvent_outside {s : State} {d : DomainId} (hd : (s.domain d).state ≠ .run) : s.syncEvent d = s := by
  unfold State.syncEvent
  cases hx : (s.domain d).state with
  | run => exact absurd hx hd
  | disabled => rfl
  | stopping => rfl
  | safing => rfl
  | safed => rfl

/-! ### Commands whose payload begins with a domain number (R184) -/

section
variable {s : State} (h : s.Listening) {b : Byte}
include h

theorem carryOut_badIndex (hb : 3 < b.toNat) (n : Nat) (f : State → DomainId → State × Reply) :
    s.carryOut n (fun s => s.onDomain b (f s)) = s.replied n (bare .badIndex) := by
  refine carryOut_unchanged h n ?_
  unfold State.onDomain
  rw [show domainOfByte b = none from index_of_le hb]

/-- A command of a domain leaves what it makes of the state its frame leaves, and its reply. -/
theorem carryOut_onDomain {d : DomainId} (hb : b.toNat = d.val) (n : Nat) {f : State → DomainId → State × Reply}
    {u : State} {r : Reply} (hf : f (s.shiftFrame n) d = (u, r)) :
    s.carryOut n (fun s => s.onDomain b (f s)) = u.answer r := by
  rw [carryOut_of_listening h]
  unfold State.onDomain
  rw [show domainOfByte b = some d from index_of_eq hb]
  dsimp only
  rw [hf]

end

/-! ### The command SYNC (R69) -/

theorem commitDecision_framed (s : State) (l : List Bool) (r : Option Reply) (d : DomainId) (b : Bool) :
    (s.framed l r).commitDecision d b = (s.commitDecision d b).framed l r := by
  have frame : SameBatches s (s.framed l r) d := .of_domain rfl
  unfold State.commitDecision
  rw [frame.slotIn, frame.oldestSealed, raise_framed]
  cases s.slotIn d .committing with
  | some k => rfl
  | none =>
    cases s.oldestSealed d with
    | none => rfl
    | some k => cases b <;> rfl

theorem doSync_outside {s : State} {d : DomainId} (hd : (s.domain d).state ≠ .run) : s.doSync d = (s, bare .ok) :=
  if_neg hd

theorem doSync_framed {s : State} {d : DomainId} (hd : (s.domain d).state = .run) (l : List Bool) (r : Option Reply) :
    (s.framed l r).doSync d = (((s.recorded d).commitDecision d false).arbitrate.framed l r, bare .ok) := by
  have run : ((s.framed l r).domain d).state = .run := hd
  unfold State.doSync
  rw [if_pos run, syncEvent_run run, show (s.framed l r).recorded d = (s.recorded d).framed l r from rfl,
    commitDecision_framed, arbitrate_framed]

/-- A SYNC of a RUN domain: the sync event of the state before the frame, and the reply. -/
theorem exec_sync_run {s : State} (h : s.Listening) {b : Byte} {d : DomainId} (hb : b.toNat = d.val)
    (hd : (s.domain d).state = .run) (tail : Nat) :
    exec (.sync b tail) s =
      .next (((s.recorded d).commitDecision d false).arbitrate.replied (8 * 3 + tail) (bare .ok)) := by
  have reply : ((s.recorded d).commitDecision d false).arbitrate.reply = s.reply :=
    (steady_arbitrate _).reply.trans (steady_commitDecision (s.recorded d) d false).reply
  refine congrArg _ ((carryOut_onDomain h hb _ (doSync_framed hd (shiftOut s.reply (8 * 3 + tail)) s.reply)).trans ?_)
  generalize ((s.recorded d).commitDecision d false).arbitrate = t at reply ⊢
  unfold State.replied
  rw [reply]
  rfl

/-- Settles O56: the batches stand after the recording as before it, and they tell what the decision does. -/
theorem syncEventRecordsAndDecides : Obligations.SyncEventRecordsAndDecides := by
  refine fun s b tail h => ⟨fun hb => congrArg _ (carryOut_badIndex h hb _ State.doSync), fun d hb => ⟨fun hd =>
    congrArg _ (carryOut_onDomain h hb (8 * 3 + tail) (doSync_outside hd)), fun hd => ?_⟩⟩
  have replied := exec_sync_run h hb hd tail
  have batches := sameBatches_recorded s d
  refine ⟨fun ⟨k, hk⟩ => ?_, fun none => ?_, fun k none hk => ?_⟩
  · rw [replied, commitDecision_overruns batches hk]
    rfl
  · rw [replied, commitDecision_rests batches none]
    rfl
  · rw [replied, commitDecision_starts batches none (oldestSealed_of hk), startCommit_eq]
    rfl

end Sys2Proof.Machine
end

section
/-! SUPPORT. The edges of the sync lines: several sync events at one edge (O57). -/

namespace Sys2Proof.Machine

/-! ### Records raised by states with the same queue -/

/-- What raising a record reads and writes stands in `t` as in `s`. -/
structure SameFlags (s t : State) : Prop where
  mask : t.mask = s.mask
  tick : t.tick = s.tick
  irqEnable : t.irqEnable = s.irqEnable
  queue : t.queue = s.queue
  irq : t.irq = s.irq

theorem SameFlags.refl (s : State) : SameFlags s s := ⟨rfl, rfl, rfl, rfl, rfl⟩

theorem SameFlags.trans {s t u : State} (h : SameFlags s t) (k : SameFlags t u) : SameFlags s u :=
  ⟨k.mask.trans h.mask, k.tick.trans h.tick, k.irqEnable.trans h.irqEnable, k.queue.trans h.queue, k.irq.trans h.irq⟩

theorem SameFlags.raise {s t : State} (h : SameFlags s t) (e : Event) : SameFlags (s.raise e) (t.raise e) := by
  unfold State.raise State.kindEnabled
  rw [h.mask]
  split
  · refine ⟨h.mask, h.tick, h.irqEnable, ?_, ?_⟩
    · rw [State.setQueue_queue, State.setQueue_queue, h.queue, h.tick]
    · rw [State.setQueue_irq, State.setQueue_irq, h.queue, h.tick, h.irqEnable]
  · exact h

theorem SameFlags.raises {s t : State} (h : SameFlags s t) (l : List Event) :
    SameFlags (l.foldl State.raise s) (l.foldl State.raise t) := by
  induction l generalizing s t with
  | nil => exact h
  | cons e l ih => exact ih (h.raise e)

/-! ### What a sync event makes of its domain -/

/-- The domain's sync event raises SYNC_OVERRUN (R72). -/
def State.overruns (s : State) (d : DomainId) : Bool :=
  decide ((s.domain d).state = .run) && (s.slotIn d .committing).isSome

/-- The domain's sync event starts a commit (R72). -/
def State.startsCommit (s : State) (d : DomainId) : Bool :=
  decide ((s.domain d).state = .run) && (s.slotIn d .committing).isNone && (s.oldestSealed d).isSome

/-- The domain after its sync event (R71, R72, R73, R88). -/
def State.synced (s : State) (d : DomainId) : Domain :=
  if (s.domain d).state = .run then
    if s.startsCommit d then (s.oldestSealed d).elim (s.domain d).recordPeriod (s.domain d).recordPeriod.committing
    else (s.domain d).recordPeriod
  else s.domain d

theorem slotIn_isSome_iff (s : State) (d : DomainId) (st : SlotState) :
    (s.slotIn d st).isSome = true ↔ ∃ k, (s.slot d k).state = st := by
  rw [Option.isSome_iff_ne_none, ne_eq, slotIn_none_iff]
  exact not_forall_not

theorem oldestSealed_isSome_iff (s : State) (d : DomainId) :
    (s.oldestSealed d).isSome = true ↔ ∃ k, (s.slot d k).state = .sealed := by
  rw [Option.isSome_iff_ne_none, ne_eq, oldestSealed_none_iff]
  exact not_forall_not

theorem overruns_iff (s : State) (d : DomainId) :
    s.overruns d = true ↔ (s.domain d).state = .run ∧ ∃ k, (s.slot d k).state = .committing := by
  rw [State.overruns, Bool.and_eq_true, decide_eq_true_eq, slotIn_isSome_iff]

theorem startsCommit_iff (s : State) (d : DomainId) : s.startsCommit d = true ↔
    (s.domain d).state = .run ∧ (∀ k, (s.slot d k).state ≠ .committing) ∧ ∃ k, (s.slot d k).state = .sealed := by
  rw [State.startsCommit, Bool.and_eq_true, Bool.and_eq_true, decide_eq_true_eq, Option.isNone_iff_eq_none, slotIn_none_iff,
    oldestSealed_isSome_iff, and_assoc]

theorem synced_outside {s : State} {d : DomainId} (hd : (s.domain d).state ≠ .run) : s.synced d = s.domain d := if_neg hd

theorem synced_recorded {s : State} {d : DomainId} (hd : (s.domain d).state = .run) (hn : ¬ s.startsCommit d = true) :
    s.synced d = (s.domain d).recordPeriod := (if_pos hd).trans (if_neg hn)

theorem synced_committing {s : State} {d : DomainId} {k : SlotId} (hs : s.startsCommit d = true)
    (hk : s.oldestSealed d = some k) : s.synced d = (s.domain d).recordPeriod.committing k := by
  unfold State.synced
  rw [if_pos ((startsCommit_iff s d).1 hs).1, if_pos hs, hk]
  rfl

section
variable {s t : State} {d : DomainId} (h : t.domain d = s.domain d)
include h

theorem overruns_congr : t.overruns d = s.overruns d := by
  unfold State.overruns
  rw [h, (SameBatches.of_domain h).slotIn]

theorem startsCommit_congr : t.startsCommit d = s.startsCommit d := by
  unfold State.startsCommit
  rw [h, (SameBatches.of_domain h).slotIn, (SameBatches.of_domain h).oldestSealed]

theorem synced_congr : t.synced d = s.synced d := by
  unfold State.synced
  rw [h, startsCommit_congr h, (SameBatches.of_domain h).oldestSealed]

end

/-! ### Sync events of several domains, one after another -/

/-- From `s` to `t` the domains of `l` have taken a sync event in the order of `l`. -/
structure SyncsTaken (l : List DomainId) (s t : State) : Prop where
  only : t = { s with domains := t.domains, startOrder := t.startOrder, queue := t.queue, irq := t.irq }
  domain : ∀ d, t.domain d = if d ∈ l then s.synced d else s.domain d
  starts : t.startOrder = s.startOrder ++ l.filter s.startsCommit
  flags : SameFlags (((l.filter s.overruns).map Event.syncOverrun).foldl State.raise s) t

theorem SyncsTaken.nil (s : State) : SyncsTaken [] s s :=
  ⟨rfl, fun _ => rfl, (List.append_nil _).symm, .refl s⟩

theorem domain_recorded (s : State) (d e : DomainId) :
    (s.recorded d).domain e = if e = d then (s.domain d).recordPeriod else s.domain e := s.domain_setDomain d e _

theorem domain_startCommit_recorded (s : State) (d e : DomainId) (k : SlotId) :
    ((s.recorded d).startCommit d k false).domain e =
      if e = d then (s.domain d).recordPeriod.committing k else s.domain e := by
  rw [startCommit_eq]
  refine (State.domain_setDomain _ d e _).trans ?_
  rw [domain_recorded, domain_recorded, if_pos rfl]
  split <;> rfl

theorem sameFlags_recorded (s : State) (d : DomainId) : SameFlags s (s.recorded d) := ⟨rfl, rfl, rfl, rfl, rfl⟩

/-- What there is to show of one sync event. -/
theorem syncsTaken_of {s t : State} {d : DomainId}
    (only : t = { s with domains := t.domains, startOrder := t.startOrder, queue := t.queue, irq := t.irq })
    (domain : ∀ e, t.domain e = if e = d then s.synced d else s.domain e)
    (starts : t.startOrder = s.startOrder ++ if s.startsCommit d then [d] else [])
    (flags : SameFlags (if s.overruns d then s.raise (.syncOverrun d) else s) t) : SyncsTaken [d] s t := by
  refine ⟨only, fun e => ?_, by rw [starts, List.filter_singleton, Bool.cond_eq_ite], ?_⟩
  · rw [domain]
    by_cases he : e = d
    · rw [if_pos he, if_pos (List.mem_singleton.2 he), he]
    · rw [if_neg he, if_neg (mt List.mem_singleton.1 he)]
  · rw [List.filter_singleton, Bool.cond_eq_ite]
    split at flags
    · next ho => rwa [if_pos ho]
    · next ho => rwa [if_neg ho]

/-- One sync event, by the state of the domain and the outcome of R72. -/
theorem syncsTaken_one (s : State) (d : DomainId) : SyncsTaken [d] s (s.syncEvent d) := by
  have batches := sameBatches_recorded s d
  by_cases hd : (s.domain d).state = .run
  · rw [syncEvent_run hd]
    by_cases hc : ∃ k, (s.slot d k).state = .committing
    · obtain ⟨k, hk⟩ := hc
      have late : s.overruns d = true := (overruns_iff s d).2 ⟨hd, k, hk⟩
      have kept : ¬ s.startsCommit d = true := fun hs => ((startsCommit_iff s d).1 hs).2.1 k hk
      rw [commitDecision_overruns batches hk]
      refine syncsTaken_of (by rw [raise_eq]; rfl) (fun e => ?_) ?_ ?_
      · rw [domain_raise, domain_recorded, synced_recorded hd kept]
      · rw [if_neg kept, List.append_nil, raise_eq]
        rfl
      · rw [if_pos late]
        exact (sameFlags_recorded s d).raise _
    · have none : ∀ k, (s.slot d k).state ≠ .committing := fun k hk => hc ⟨k, hk⟩
      have quiet : ¬ s.overruns d = true := fun ho => hc ((overruns_iff s d).1 ho).2
      cases hx : s.oldestSealed d with
      | some k =>
        have starts : s.startsCommit d = true := (startsCommit_iff s d).2 ⟨hd, none, k, oldestSealed_some hx⟩
        rw [commitDecision_starts batches none hx]
        refine syncsTaken_of (by rw [startCommit_eq]; rfl) (fun e => ?_) ?_ ?_
        · rw [domain_startCommit_recorded, synced_committing starts hx]
        · rw [if_pos starts, startCommit_eq]
          rfl
        · rw [if_neg quiet, startCommit_eq]
          exact ⟨rfl, rfl, rfl, rfl, rfl⟩
      | none =>
        have unsealed := (oldestSealed_none_iff s d).1 hx
        have kept : ¬ s.startsCommit d = true := fun hs =>
          not_exists.2 unsealed ((startsCommit_iff s d).1 hs).2.2
        rw [commitDecision_rests batches fun k => ⟨none k, unsealed k⟩]
        refine syncsTaken_of rfl (fun e => ?_) ?_ ?_
        · rw [domain_recorded, synced_recorded hd kept]
        · rw [if_neg kept, List.append_nil]
          rfl
        · rw [if_neg quiet]
          exact sameFlags_recorded s d
  · have kept : ¬ s.startsCommit d = true := fun hs => hd ((startsCommit_iff s d).1 hs).1
    have quiet : ¬ s.overruns d = true := fun ho => hd ((overruns_iff s d).1 ho).1
    rw [syncEvent_outside hd]
    refine syncsTaken_of rfl (fun e => ?_) ?_ ?_
    · rw [synced_outside hd]
      split
      · next he => rw [he]
      · rfl
    · rw [if_neg kept, List.append_nil]
    · rw [if_neg quiet]
      exact .refl s

/-- The event of one more domain leaves what the others' events read. -/
theorem SyncsTaken.cons {s t u : State} {d : DomainId} {l : List DomainId} (hd : d ∉ l) (one : SyncsTaken [d] s t)
    (rest : SyncsTaken l t u) : SyncsTaken (d :: l) s u := by
  have others : ∀ e ∈ l, t.domain e = s.domain e := fun e he => by
    rw [one.domain, if_neg]
    rintro hm
    exact hd (List.mem_singleton.1 hm ▸ he)
  have starts : l.filter t.startsCommit = l.filter s.startsCommit :=
    List.filter_congr fun e he => startsCommit_congr (others e he)
  have overs : l.filter t.overruns = l.filter s.overruns := List.filter_congr fun e he => overruns_congr (others e he)
  have parts : ∀ p : DomainId → Bool, (d :: l).filter p = [d].filter p ++ l.filter p := fun p => List.filter_append [d] l
  refine ⟨?_, fun e => ?_, ?_, ?_⟩
  · rw [rest.only, one.only]
  · rw [rest.domain]
    by_cases he : e ∈ l
    · rw [if_pos he, if_pos (List.mem_cons_of_mem d he), synced_congr (others e he)]
    · rw [if_neg he, one.domain]
      by_cases hm : e = d
      · rw [if_pos (List.mem_singleton.2 hm), if_pos (List.mem_cons.2 (.inl hm))]
      · rw [if_neg (mt List.mem_singleton.1 hm), if_neg fun h => (List.mem_cons.1 h).elim hm he]
  · rw [rest.starts, one.starts, starts, parts, List.append_assoc]
  · rw [parts, List.map_append, List.foldl_append, ← overs]
    exact (one.flags.raises _).trans rest.flags

theorem syncsTaken_foldl (l : List DomainId) (hl : l.Nodup) (s : State) : SyncsTaken l s (l.foldl State.syncEvent s) := by
  induction l generalizing s with
  | nil => exact .nil s
  | cons d l ih =>
    obtain ⟨hd, hl⟩ := List.nodup_cons.1 hl
    exact (syncsTaken_one s d).cons hd (ih hl _)

/-! ### An edge (R70, R89) -/

theorem mem_syncedDomains (s : State) (l : SyncLine) (e : Edge) (d : DomainId) :
    d ∈ s.syncedDomains l e ↔ (s.domain d).cfg.syncLine = some l ∧ (s.domain d).cfg.syncEdge = e := by
  simp only [State.syncedDomains, List.mem_filter, List.mem_finRange, true_and, decide_eq_true_eq]

theorem syncedDomains_nodup (s : State) (l : SyncLine) (e : Edge) : (s.syncedDomains l e).Nodup :=
  (List.nodup_finRange 4).filter _

theorem exec_syncEdge {s : State} {l : SyncLine} {e : Edge} (hl : s.resetLow = false) (he : s.syncLevels[l] ≠ edgeLevel e) :
    exec (.syncEdge l e) s = .next (s.takeSyncEdge l e).arbitrate :=
  congrArg Host.Outcome.next (if_pos (by simp only [State.syncEdgeOccurs, hl, decide_eq_true he]; rfl))

/-- The state whose level of the line is taken at an edge, with a count of free values. -/
def State.levelTaken (s : State) (l : SyncLine) (e : Edge) (n : Nat) : State :=
  { s with syncLevels := s.syncLevels.set l (edgeLevel e), freeCount := n }

/-- An edge takes the level, and the domains that name it take their sync events in some order; the part of the start-order
list that they joined is then put in ascending order. -/
theorem takeSyncEdge_steps (s : State) (l : SyncLine) (e : Edge) : ∃ (order : List DomainId) (n : Nat) (t : State),
    order.Nodup ∧ (∀ d, d ∈ order ↔ (s.domain d).cfg.syncLine = some l ∧ (s.domain d).cfg.syncEdge = e) ∧
      SyncsTaken order (s.levelTaken l e n) t ∧
      s.takeSyncEdge l e = { t with
        startOrder := s.startOrder ++ (List.finRange 4).filter (fun d => d ∈ order.filter s.startsCommit) } := by
  have perm := freeOrder_perm (s.syncedDomains l e) s.freeCount
  have nodup := perm.nodup_iff.2 (syncedDomains_nodup s l e)
  have taken := syncsTaken_foldl _ nodup (s.levelTaken l e (freeOrder (s.syncedDomains l e) s.freeCount).2)
  refine ⟨_, _, _, nodup, fun d => perm.mem_iff.trans (mem_syncedDomains s l e d), taken, ?_⟩
  have joined : _ = s.startOrder ++ (freeOrder (s.syncedDomains l e) s.freeCount).1.filter s.startsCommit := taken.starts
  rw [← ascendTail_append, ← joined]
  rfl

/-- Settles O57: the events of the naming domains in any order leave each domain `synced`, the commits they start joined and
their overruns noted. -/
theorem syncEdgeReachesEveryNamingDomain : Obligations.SyncEdgeReachesEveryNamingDomain := by
  intro s l e hl he takes commits recorded
  obtain ⟨order, n, t, nodup, names, taken, edge⟩ := takeSyncEdge_steps s l e
  have starting : ∀ d, d ∈ order.filter s.startsCommit ↔ commits d := fun d => by
    rw [List.mem_filter, names, startsCommit_iff]
    exact and_left_comm.trans and_assoc.symm
  have overrunning : ∀ d, d ∈ order.filter s.overruns ↔ takes d ∧ ∃ j, (s.slot d j).state = .committing := fun d => by
    rw [List.mem_filter, names, overruns_iff]
    exact and_left_comm.trans and_assoc.symm
  have occurs : s.syncLevels[l] ≠ edgeLevel e := by
    rw [he]
    cases e <;> decide
  refine ⟨s.takeSyncEdge l e, exec_syncEdge hl occurs, ?_⟩
  rw [edge]
  have inOrder : ∀ d, takes d → d ∈ order := fun d hd => (names d).2 hd.2
  have one : ∀ d ∈ order, t.domain d = s.synced d := fun d hd => (taken.domain d).trans (if_pos hd)
  refine ⟨by rw [taken.only]; rfl, by rw [taken.only]; cases e <;> rfl, fun d hd => ?_, fun d hd hn => ?_,
    fun d k hc hk => ?_, ⟨_, rfl, ?_, fun d => ?_⟩,
    ⟨order.filter s.overruns, nodup.filter _, overrunning, ?_⟩⟩
  · show t.domain d = s.domain d
    by_cases hm : d ∈ order
    · rw [one d hm, synced_outside fun run => hd ⟨run, (names d).1 hm⟩]
    · exact (taken.domain d).trans (if_neg hm)
  · exact (one d (inOrder d hd)).trans
      (synced_recorded hd.1 fun hs => hn ((starting d).1 (List.mem_filter.2 ⟨inOrder d hd, hs⟩)))
  · exact (one d (inOrder d hc.1)).trans
      (synced_committing ((List.mem_filter.1 ((starting d).2 hc)).2) (oldestSealed_of hk))
  · exact (List.pairwise_lt_finRange 4).filter _
  · rw [List.mem_filter, decide_eq_true_eq, starting]
    exact and_iff_right (List.mem_finRange d)
  · have noted := (SameFlags.raises (s := s) (t := s.levelTaken l e n) ⟨rfl, rfl, rfl, rfl, rfl⟩
      ((order.filter s.overruns).map Event.syncOverrun)).trans taken.flags
    rw [List.foldl_map] at noted
    exact ⟨noted.queue, noted.irq⟩

end Sys2Proof.Machine
end

section
/-! SUPPORT. Ticks and the expiry of a sync monitor (O55, O58). -/

namespace Sys2Proof.Machine

/-! ### Ticks (R76, R150) -/

theorem exec_tick {s : State} (hl : s.resetLow = false) : exec .tick s = .next s.takeDue.advanceTick :=
  congrArg Host.Outcome.next (if_neg (by simp [hl]))

/-- No expiry is taken at a tick where none is due. -/
theorem takeDue_none {s : State} (stall : ∀ p, s.stallDue p = false) (monitor : ∀ d, s.monitorDue d = false)
    (holdLimit : ∀ p c, s.holdLimitDue p c = false) : s.takeDue = s := by
  have due : allTimed.filter s.timedDue = [] := List.filter_eq_nil_iff.2 fun e _ => by
    cases e with
    | stall p => exact Bool.not_eq_true _ ▸ stall p
    | monitor d => exact Bool.not_eq_true _ ▸ monitor d
    | holdLimit p c => exact Bool.not_eq_true _ ▸ holdLimit p c
  unfold State.takeDue
  rw [due]
  rfl

theorem satSucc_eq_ite (c : Count) : satSucc c = if c = 65535 then 65535 else c + 1 := by
  unfold satSucc
  split
  · assumption
  · rfl

/-- The counts of a domain after a tick, where one that stands at its end stays (R62, R76). -/
theorem ticked_eq (x : Domain) : x.ticked = if x.state = .run then { x with
      periodCount := if x.periodCount = 65535 then 65535 else x.periodCount + 1
      monitorCount := if x.monitorPhase = .counting ∧ x.monitorCount ≠ 65535 then x.monitorCount + 1 else x.monitorCount }
    else x := by
  have monitor : (if x.monitorPhase = .counting then satSucc x.monitorCount else x.monitorCount) =
      if x.monitorPhase = .counting ∧ x.monitorCount ≠ 65535 then x.monitorCount + 1 else x.monitorCount := by
    unfold satSucc
    by_cases hc : x.monitorPhase = .counting
    · by_cases hm : x.monitorCount = 65535
      · rw [if_pos hc, if_pos hm, if_neg fun h => h.2 hm]
      · rw [if_pos hc, if_neg hm, if_pos ⟨hc, hm⟩]
    · rw [if_neg hc, if_neg fun h => hc h.1]
  unfold Domain.ticked
  rw [satSucc_eq_ite, monitor]

/-- Settles O55: whatever expiries are taken first, they leave the counter; where none is due they leave the state. -/
theorem tickCounts : Obligations.TickCounts := by
  refine fun s hl => ⟨⟨_, exec_tick hl, ?_⟩, fun stall monitor holdLimit => ?_⟩
  · exact congrArg (· + 1) (steady_takeDue s).tick
  · rw [exec_tick hl, takeDue_none stall monitor holdLimit, State.advanceTick, show Domain.ticked = _ from funext ticked_eq]

/-! ### The expiry of a sync monitor (R77) -/

theorem exec_syncMonitorExpiry {s : State} {d : DomainId} (hd : s.monitorDue d = true) :
    exec (.syncMonitorExpiry d) s = .next (s.expireMonitor d).arbitrate :=
  congrArg Host.Outcome.next (if_pos hd)

/-- SYNC_LOST is raised and the domain then written (R78, R79). -/
def State.syncLost (s : State) (d : DomainId) (x : Domain) : State := (s.raise (.syncLost d)).setDomain d x

theorem expireMonitor_hold {s : State} {d : DomainId} (h : (s.domain d).cfg.lossPolicy = .hold) :
    s.expireMonitor d = s.syncLost d { s.domain d with monitorPhase := .lapsed } := by
  unfold State.expireMonitor
  rw [h]
  dsimp only
  rw [domain_raise]
  rfl

theorem expireMonitor_commit {s : State} {d : DomainId} (h : (s.domain d).cfg.lossPolicy = .commit) :
    s.expireMonitor d = (s.syncLost d { s.domain d with monitorCount := 0 }).commitDecision d true := by
  unfold State.expireMonitor
  rw [h]
  dsimp only
  rw [domain_raise]
  rfl

theorem expireMonitor_safe {s : State} {d : DomainId} (h : (s.domain d).cfg.lossPolicy = .safe) :
    s.expireMonitor d = s.acceptFaults s.safeExpiries fun e => [.syncLost e, .faultTaken e .syncLoss] := by
  unfold State.expireMonitor
  rw [h]

theorem mem_safeExpiries (s : State) (d : DomainId) : d ∈ s.safeExpiries ↔
    ((s.domain d).state = .run ∧ (s.domain d).cfg.maxInterval ≠ 0 ∧ (s.domain d).monitorPhase = .counting ∧
      (s.domain d).monitorCount = (s.domain d).cfg.maxInterval) ∧ (s.domain d).cfg.lossPolicy = .safe := by
  simp only [State.safeExpiries, List.mem_filter, List.mem_finRange, true_and, Bool.and_eq_true, decide_eq_true_eq,
    monitorDue_iff]

/-- Where no other domain joined by an expiry at the tick, the domain joins at the tail (R89). -/
theorem joinExpiry_nil (d : DomainId) (l : List DomainId) : joinExpiry [] d l = l ++ [d] := by
  induction l with
  | nil => rfl
  | cons x l ih =>
    unfold joinExpiry
    rw [if_neg fun h => List.not_mem_nil h.1, ih, List.cons_append]

/-- Settles O58, by the loss policy; under COMMIT the batches stand as before the expiry and tell what the decision does. -/
theorem syncMonitorExpires : Obligations.SyncMonitorExpires := by
  intro s d due hd lost restarted
  have expires := exec_syncMonitorExpiry ((monitorDue_iff s d).2 hd)
  refine ⟨fun hold => ?_, fun commit => ?_, fun safe => ⟨s.safeExpiries, ?_, mem_safeExpiries s, ?_⟩⟩
  · rw [expires, expireMonitor_hold hold]
    rfl
  · have decision : exec (.syncMonitorExpiry d) s = .next (restarted.commitDecision d true).arbitrate := by
      rw [expires, expireMonitor_commit commit]
      rfl
    have batches : SameBatches s restarted d := sameBatches_setDomain rfl rfl
    have lists : restarted.startOrder = s.startOrder ∧ restarted.expiryStarts = s.expiryStarts := by
      show lost.startOrder = _ ∧ lost.expiryStarts = _
      rw [show lost = _ from raise_eq s _]
      exact ⟨rfl, rfl⟩
    refine ⟨fun ⟨k, hk⟩ => ?_, fun none => ?_, fun k none hk => ⟨?_, fun alone => ?_⟩⟩
    · rw [decision, commitDecision_overruns batches hk]
      rfl
    · rw [decision, commitDecision_rests batches none]
    · rw [decision, commitDecision_starts batches none (oldestSealed_of hk), startCommit_expiry_eq, lists.1, lists.2]
    · rw [alone, joinExpiry_nil]
  · exact (List.pairwise_lt_finRange 4).filter _
  · rw [expires, expireMonitor_safe safe]
    rfl

end Sys2Proof.Machine
end

section
/-! SUPPORT. The end of a stop, and the commands that start and arm a domain (O18, O52). -/

namespace Sys2Proof.Machine

/-! ### The end of a stop (R66, R67) -/

/-- Settles O52: the oldest SEALED batch starts its commit; without one the domain is DISABLED, and its STOPPING hold ends. -/
theorem stopContinuesOrEnds : Obligations.StopContinuesOrEnds := by
  refine fun s d ha => ⟨fun k hk => ?_, fun none => ?_⟩
  · unfold State.continueStop
    rw [oldestSealed_of hk]
    exact startCommit_eq s d k
  · have ends : s.continueStop d = s.reachDisabled d := by
      unfold State.continueStop
      rw [(oldestSealed_none_iff s d).2 none]
    have waits := stoppingHold_stopEnded ha (t := s) (d := d) rfl rfl
    have writer : ((s.stopEnded d).domain d).cfg.writer = (s.domain d).cfg.writer := by
      rw [domain_stopEnded, if_pos rfl]
    rw [ends, reachDisabled_eq, writer]
    exact ⟨fun held => if_pos (waits.2 held), fun free => if_neg fun hh => free (waits.1 hh)⟩

/-! ### START and ARM (R64, R118) -/

theorem faultActive_iff (s : State) (d : DomainId) : s.faultActive d = true ↔
    (((s.domain d).cfg.binding = .fault0 ∨ (s.domain d).cfg.binding = .both) ∧ s.faultLevels[0] = false) ∨
      (((s.domain d).cfg.binding = .fault1 ∨ (s.domain d).cfg.binding = .both) ∧ s.faultLevels[1] = false) := by
  have line : ∀ l : FaultLine, ((s.domain d).cfg.binding.names l && !s.faultLevels[l]) = true ↔
      (s.domain d).cfg.binding.names l = true ∧ s.faultLevels[l] = false := fun l => by
    rw [Bool.and_eq_true, Bool.not_eq_true']
  unfold State.faultActive
  rw [List.any_eq_true]
  simp only [List.mem_finRange, true_and, line, Fin.exists_fin_two]
  cases (s.domain d).cfg.binding <;> simp [FaultBinding.names]

theorem sequenceInWindow_iff (s : State) (d : DomainId) : s.sequenceInWindow d = true ↔
    ∃ q i, (s.domain d).cfg.sequenceWord = some q ∧ s.InWindow i q := by
  unfold State.sequenceInWindow
  cases (s.domain d).cfg.sequenceWord with
  | none => exact ⟨fun h => (Bool.false_ne_true h).elim, fun ⟨_, _, h, _⟩ => nomatch h⟩
  | some a =>
    dsimp only
    rw [Option.isSome_iff_ne_none, ne_eq, covering_none_iff]
    constructor
    · intro h
      obtain ⟨i, hi⟩ := not_forall_not.1 h
      exact ⟨a, i, rfl, hi⟩
    · rintro ⟨q, i, hq, hi⟩ h
      exact h i (Option.some.inj hq ▸ hi)

section
variable {s : State} {d : DomainId}

theorem doStart_state (hd : (s.domain d).state ≠ .disabled) : s.doStart d = (s, bare .state) := if_pos hd

theorem doStart_faultActive (hd : (s.domain d).state = .disabled) (hf : s.faultActive d = true) :
    s.doStart d = (s, bare .faultActive) := (if_neg (not_not.2 hd)).trans (if_pos hf)

theorem doStart_badValue (hd : (s.domain d).state = .disabled) (hf : ¬ s.faultActive d = true)
    (hw : s.sequenceInWindow d = true) : s.doStart d = (s, bare .badValue) :=
  (if_neg (not_not.2 hd)).trans ((if_neg hf).trans (if_pos hw))

theorem doStart_ok (hd : (s.domain d).state = .disabled) (hf : ¬ s.faultActive d = true)
    (hw : ¬ s.sequenceInWindow d = true) : s.doStart d = (s.setDomain d (s.domain d).started, bare .ok) :=
  (if_neg (not_not.2 hd)).trans ((if_neg hf).trans (if_neg hw))

theorem doArm_state (hd : (s.domain d).state ≠ .safed) : s.doArm d = (s, bare .state) := if_pos hd

theorem doArm_faultActive (hd : (s.domain d).state = .safed) (hf : s.faultActive d = true) :
    s.doArm d = (s, bare .faultActive) := (if_neg (not_not.2 hd)).trans (if_pos hf)

theorem doArm_ok (hd : (s.domain d).state = .safed) (hf : ¬ s.faultActive d = true) :
    s.doArm d = (s.setDomain d { s.domain d with state := .disabled }, bare .ok) :=
  (if_neg (not_not.2 hd)).trans (if_neg hf)

end

/-- Settles O18, a check of R64 and of R118 at a time: the frame changes nothing that they read. -/
theorem domainStartedAndArmed : Obligations.DomainStartedAndArmed := by
  refine fun s b tail h => ⟨fun hb => ⟨congrArg _ (carryOut_badIndex h hb _ State.doStart),
    congrArg _ (carryOut_badIndex h hb _ State.doArm)⟩, fun d hb => ?_⟩
  have start : ∀ {u r}, (s.shiftFrame (8 * 3 + tail)).doStart d = (u, r) → exec (.start b tail) s = .next (u.answer r) :=
    fun hf => congrArg _ (carryOut_onDomain h hb _ hf)
  have arm : ∀ {u r}, (s.shiftFrame (8 * 3 + tail)).doArm d = (u, r) → exec (.arm b tail) s = .next (u.answer r) :=
    fun hf => congrArg _ (carryOut_onDomain h hb _ hf)
  have active := faultActive_iff (s.shiftFrame (8 * 3 + tail)) d
  have inWindow := sequenceInWindow_iff (s.shiftFrame (8 * 3 + tail)) d
  refine ⟨fun hd => ?_, fun hd hf => ?_, fun hd hf hw => ?_, fun hd hf hw => ?_, fun hd => ?_, fun hd hf => ?_,
    fun hd hf => ?_⟩
  · exact start (doStart_state hd)
  · exact start (doStart_faultActive hd (active.2 hf))
  · exact start (doStart_badValue hd (mt active.1 hf) (inWindow.2 hw))
  · exact start (doStart_ok hd (mt active.1 hf) (mt inWindow.1 hw))
  · exact arm (doArm_state hd)
  · exact arm (doArm_faultActive hd (active.2 hf))
  · exact arm (doArm_ok hd (mt active.1 hf))

end Sys2Proof.Machine
end

section
/-! SUPPORT. SET_DOMAIN: the codes of the record's fields, and the three checks of R81 in their order (O16). -/

namespace Sys2Proof.Machine

/-! ### The record that a payload codes (R183) -/

/-- A field of the record is out of range (R81, check 2). -/
def RecordOutOfRange (r : DomainPayload) : Prop :=
  1 < r.writerPort.toNat ∨ 4 < r.syncLine.toNat ∨ 1 < r.syncEdge.toNat ∨ 2 < r.lossPolicy.toNat ∨
    1 < r.exhaustionPolicy.toNat ∨ 3 < r.faultBinding.toNat ∨
    (r.sequenceWord ≠ 0xFFFFFF ∧ 4194303 < r.sequenceWord.toNat)

/-- The record that a payload in range codes (R183). -/
def codedRecord (r : DomainPayload) : DomainRecord where
  writer := if r.writerPort = 0 then .a else .b
  syncLine := if h : r.syncLine.toNat < 4 then some ⟨r.syncLine.toNat, h⟩ else none
  syncEdge := if r.syncEdge = 0 then .rising else .falling
  maxInterval := r.maxInterval
  lossPolicy := if r.lossPolicy = 0 then .hold else if r.lossPolicy = 1 then .commit else .safe
  exhaustion := if r.exhaustionPolicy = 0 then .stall else .refuse
  binding := if r.faultBinding = 0 then .none else if r.faultBinding = 1 then .fault0
    else if r.faultBinding = 2 then .fault1 else .both
  sequenceWord := if r.sequenceWord = 0xFFFFFF then none else some (r.sequenceWord.setWidth 22)
  notify := decide (r.notifyCommits ≠ 0)

/-- A byte that is at least `n` is `n` or lies above it. -/
theorem byte_eq_or_above {b : Byte} (n : Nat) (h : n ≤ b.toNat) : b = BitVec.ofNat 8 n ∨ n < b.toNat := by
  rcases Nat.eq_or_lt_of_le h with rfl | h
  · exact .inl (by rw [BitVec.ofNat_toNat, BitVec.setWidth_eq])
  · exact .inr h

theorem byte_ne_of_above {b c : Byte} {n : Nat} (h : n < b.toNat) (hc : c.toNat ≤ n) : b ≠ c := by
  rintro rfl
  exact absurd h (Nat.not_lt.2 hc)

theorem portOfCode_eq (b : Byte) : portOfCode b = if 1 < b.toNat then none else some (if b = 0 then .a else .b) := by
  rcases byte_cases b with rfl | rfl | h
  · rfl
  · rfl
  · rw [portOfCode, if_neg (byte_ne_of_above h (by decide)), if_neg (byte_ne_of_above h (by decide)), if_pos h]

theorem edgeOfCode_eq (b : Byte) :
    edgeOfCode b = if 1 < b.toNat then none else some (if b = 0 then .rising else .falling) := by
  rcases byte_cases b with rfl | rfl | h
  · rfl
  · rfl
  · rw [edgeOfCode, if_neg (byte_ne_of_above h (by decide)), if_neg (byte_ne_of_above h (by decide)), if_pos h]

theorem exhaustionOfCode_eq (b : Byte) :
    exhaustionOfCode b = if 1 < b.toNat then none else some (if b = 0 then .stall else .refuse) := by
  rcases byte_cases b with rfl | rfl | h
  · rfl
  · rfl
  · rw [exhaustionOfCode, if_neg (byte_ne_of_above h (by decide)), if_neg (byte_ne_of_above h (by decide)), if_pos h]

theorem lossPolicyOfCode_eq (b : Byte) : lossPolicyOfCode b =
    if 2 < b.toNat then none else some (if b = 0 then .hold else if b = 1 then .commit else .safe) := by
  rcases byte_cases b with rfl | rfl | h
  · rfl
  · rfl
  · rcases byte_eq_or_above 2 h with rfl | h
    · rfl
    · rw [lossPolicyOfCode, if_neg (byte_ne_of_above h (by decide)), if_neg (byte_ne_of_above h (by decide)),
        if_neg (byte_ne_of_above h (by decide)), if_pos h]

theorem bindingOfCode_eq (b : Byte) : bindingOfCode b = if 3 < b.toNat then none else
    some (if b = 0 then .none else if b = 1 then .fault0 else if b = 2 then .fault1 else .both) := by
  rcases byte_cases b with rfl | rfl | h
  · rfl
  · rfl
  · rcases byte_eq_or_above 2 h with rfl | h
    · rfl
    · rcases byte_eq_or_above 3 h with rfl | h
      · rfl
      · rw [bindingOfCode, if_neg (byte_ne_of_above h (by decide)), if_neg (byte_ne_of_above h (by decide)),
          if_neg (byte_ne_of_above h (by decide)), if_neg (byte_ne_of_above h (by decide)), if_pos h]

theorem syncLineOfCode_eq (b : Byte) : syncLineOfCode b =
    if 4 < b.toNat then none else some (if h : b.toNat < 4 then some ⟨b.toNat, h⟩ else none) := by
  unfold syncLineOfCode
  by_cases hl : b.toNat < 4
  · rw [dif_pos hl, dif_pos hl, if_neg (Nat.lt_asymm hl)]
  · rcases byte_eq_or_above 4 (Nat.not_lt.1 hl) with rfl | h
    · rfl
    · rw [dif_neg hl, dif_neg hl, if_neg (byte_ne_of_above h (by decide)), if_pos h]

theorem sequenceOfField_eq (v : BitVec 24) : sequenceOfField v =
    if v ≠ 0xFFFFFF ∧ 4194303 < v.toNat then none else some (if v = 0xFFFFFF then none else some (v.setWidth 22)) := by
  unfold sequenceOfField
  by_cases hv : v = 0xFFFFFF
  · rw [if_pos hv, if_pos hv, if_neg fun h => h.1 hv]
  · rw [if_neg hv, if_neg hv]
    by_cases hr : v.toNat ≤ 4194303
    · rw [if_pos hr, if_neg fun h => Nat.not_lt.2 hr h.2]
    · rw [if_neg hr, if_pos ⟨hv, Nat.not_le.1 hr⟩]

theorem storedRecord_none {r : DomainPayload} (h : RecordOutOfRange r) : r.stored = none := by
  unfold DomainPayload.stored
  split
  · next hw hl he hp hx hf hs =>
    exfalso
    rw [portOfCode_eq] at hw
    rw [syncLineOfCode_eq] at hl
    rw [edgeOfCode_eq] at he
    rw [lossPolicyOfCode_eq] at hp
    rw [exhaustionOfCode_eq] at hx
    rw [bindingOfCode_eq] at hf
    rw [sequenceOfField_eq] at hs
    rcases h with h | h | h | h | h | h | h
    · rw [if_pos h] at hw; cases hw
    · rw [if_pos h] at hl; cases hl
    · rw [if_pos h] at he; cases he
    · rw [if_pos h] at hp; cases hp
    · rw [if_pos h] at hx; cases hx
    · rw [if_pos h] at hf; cases hf
    · rw [if_pos h] at hs; cases hs
  · rfl

theorem storedRecord_some {r : DomainPayload} (h : ¬ RecordOutOfRange r) : r.stored = some (codedRecord r) := by
  simp only [RecordOutOfRange, not_or] at h
  obtain ⟨hw, hl, he, hp, hx, hf, hs⟩ := h
  rw [DomainPayload.stored, portOfCode_eq, if_neg hw, syncLineOfCode_eq, if_neg hl, edgeOfCode_eq, if_neg he,
    lossPolicyOfCode_eq, if_neg hp, exhaustionOfCode_eq, if_neg hx, bindingOfCode_eq, if_neg hf, sequenceOfField_eq,
    if_neg hs, yesOfByte_eq]
  rfl

/-! ### The checks of R81 -/

section
variable {s : State} {r : DomainPayload} {d : DomainId}

theorem doSetDomain_badValue (hr : RecordOutOfRange r) : s.doSetDomain r d = (s, bare .badValue) := by
  rw [State.doSetDomain, storedRecord_none hr]

theorem doSetDomain_busy (hr : ¬ RecordOutOfRange r) (hd : (s.domain d).state ≠ .disabled) :
    s.doSetDomain r d = (s, bare .busy) := by
  rw [State.doSetDomain, storedRecord_some hr]
  exact if_neg hd

theorem doSetDomain_ok (hr : ¬ RecordOutOfRange r) (hd : (s.domain d).state = .disabled) :
    s.doSetDomain r d = (s.setDomain d { s.domain d with cfg := codedRecord r }, bare .ok) := by
  rw [State.doSetDomain, storedRecord_some hr]
  exact if_pos hd

end

/-- Settles O16, a check of R81 at a time. -/
theorem domainRecordWritten : Obligations.DomainRecordWritten := by
  refine fun s b r tail h => ⟨fun hb => congrArg _ (carryOut_badIndex h hb _ fun s => s.doSetDomain r), fun d hb => ?_⟩
  have writes : ∀ {u x}, (s.shiftFrame (8 * 15 + tail)).doSetDomain r d = (u, x) →
      exec (.setDomain b r tail) s = .next (u.answer x) :=
    fun hf => congrArg _ (carryOut_onDomain h hb (f := fun s => s.doSetDomain r) _ hf)
  refine ⟨fun hr => ?_, fun hr hd => ?_, fun hr hd => ?_⟩
  · exact writes (doSetDomain_badValue hr)
  · exact writes (doSetDomain_busy hr hd)
  · exact writes (doSetDomain_ok hr hd)

end Sys2Proof.Machine
end

section
/-! SUPPORT. The commit engine write by write: what it requests, what each completed entry write leads to (O50), and which
completions raise the commit number (O33). -/

namespace Sys2Proof.Machine

/-! ### What a commit requests (R90, R92) -/

section
variable {s : State} {d : DomainId}

theorem request_commit_entry {i : EntryId} {e : StagingEntry} (phase : (s.domain d).commit.phase = .entryRequest)
    (place : (s.slot d (s.domain d).commit.slot).entries[(s.domain d).commit.next]? = some i)
    (entry : s.entries[i] = some e) : s.request (.commit d) = some (.write e.addr e.lanes e.data) := by
  change s.commitRequest d = _
  unfold State.commitRequest
  dsimp only
  rw [phase]
  dsimp only
  rw [place, Option.bind_some, entry, Option.map_some]

theorem request_commit_sequence {q : Addr} (phase : (s.domain d).commit.phase = .sequenceRequest)
    (word : (s.domain d).cfg.sequenceWord = some q) :
    s.request (.commit d) = some (.write q 0xF (((s.domain d).commitNumber + 1).setWidth 32)) := by
  change s.commitRequest d = _
  unfold State.commitRequest
  dsimp only
  rw [phase]
  dsimp only
  rw [word, Option.map_some]

/-- The sequence word as a number: the commit number plus one, modulo 65536 (R92). -/
theorem toNat_sequenceData (n : Count) : ((n + 1).setWidth 32).toNat = (n.toNat + 1) % 65536 := by
  have fits : (n.toNat + 1) % 65536 < 2 ^ 32 := by omega
  rw [BitVec.toNat_setWidth, BitVec.toNat_add]
  exact Nat.mod_eq_of_lt fits

/-! ### The end of an entry write (R87, R91) -/

theorem advanceCommit_next (more : (s.domain d).commit.next + 1 < (s.domain d).commit.entryCount) :
    s.advanceCommit d = s.setDomain d { s.domain d with
      commit := { (s.domain d).commit with phase := .entryRequest, next := (s.domain d).commit.next + 1 } } :=
  if_pos more

theorem advanceCommit_sequence (last : (s.domain d).commit.entryCount ≤ (s.domain d).commit.next + 1)
    (word : (s.domain d).cfg.sequenceWord ≠ none) :
    s.advanceCommit d = s.setDomain d { s.domain d with
      commit := { (s.domain d).commit with
        phase := .sequenceRequest, next := min ((s.domain d).commit.next + 1) 63 } } := by
  obtain ⟨q, word⟩ := Option.ne_none_iff_exists'.1 word
  unfold State.advanceCommit
  dsimp only
  rw [if_neg (Nat.not_lt.2 last), word]

theorem advanceCommit_completes (last : (s.domain d).commit.entryCount ≤ (s.domain d).commit.next + 1)
    (none : (s.domain d).cfg.sequenceWord = none) : s.advanceCommit d = s.completeCommit d := by
  unfold State.advanceCommit
  dsimp only
  rw [if_neg (Nat.not_lt.2 last), none]

/-- After an entry write the commit completes only behind its last entry and with no sequence word (R91). -/
theorem steady_advanceCommit_or_last (s : State) (d : DomainId) : Steady s (s.advanceCommit d) ∨
    ((s.domain d).commit.entryCount ≤ (s.domain d).commit.next + 1 ∧ (s.domain d).cfg.sequenceWord = none ∧
      s.advanceCommit d = s.completeCommit d) := by
  by_cases more : (s.domain d).commit.next + 1 < (s.domain d).commit.entryCount
  · rw [advanceCommit_next more]
    exact .inl (steady_setDomain s d _ rfl rfl)
  · have last := Nat.not_lt.1 more
    by_cases none : (s.domain d).cfg.sequenceWord = none
    · exact .inr ⟨last, none, advanceCommit_completes last none⟩
    · rw [advanceCommit_sequence last none]
      exact .inl (steady_setDomain s d _ rfl rfl)

theorem exec_commitWriteComplete {acc : Access} (hm : s.mport = some ⟨.commit d, acc⟩)
    (phase : (s.domain d).commit.phase = .entryWrite) :
    exec .commitWriteComplete s = .next ((s.completeAccess ⟨.commit d, acc⟩).advanceCommit d).arbitrate := by
  change execCommitWriteComplete s = _
  unfold execCommitWriteComplete
  rw [hm]
  exact congrArg Host.Outcome.next (if_pos phase)

end

/-- Settles O50: the requests by phase; then the three ways on from an entry write, the next position bounded by 63. -/
theorem commitWritesEntryAfterEntry : Obligations.CommitWritesEntryAfterEntry := by
  refine ⟨fun s d i e => request_commit_entry, fun s d q phase word =>
    ⟨_, toNat_sequenceData _, request_commit_sequence phase word⟩, fun s d a m x hm phase => ?_⟩
  have done := exec_commitWriteComplete hm phase
  have written : (s.completeAccess ⟨.commit d, .write a m x⟩).domain d = s.domain d := rfl
  refine ⟨fun more => ?_, fun last word => ⟨fun below => ?_, fun top => ?_⟩⟩
  · rw [done, advanceCommit_next (s := s.completeAccess _) more]
    rfl
  · have position : min ((s.domain d).commit.next + 1) 63 = (s.domain d).commit.next + 1 := Nat.min_eq_left below
    rw [done, advanceCommit_sequence (s := s.completeAccess _) last word, written, position]
    rfl
  · have position : min ((s.domain d).commit.next + 1) 63 = (s.domain d).commit.next := by omega
    rw [done, advanceCommit_sequence (s := s.completeAccess _) last word, written, position]
    rfl

/-! ### The commit number (R87, R93, R94) -/

theorem number_completeCommit (s : State) (d e : DomainId) : ((s.completeCommit d).domain e).commitNumber =
    if e = d then (s.domain d).commitNumber + 1 else (s.domain e).commitNumber := by
  rw [(steady_completeCommit s d).number, State.raiseNumber, State.domain_setDomain]
  split <;> rfl

/-- A completed commit raises the number of its own domain and of no other. -/
theorem number_completeCommit_cases (s : State) (d e : DomainId) :
    ((s.completeCommit d).domain e).commitNumber = (s.domain e).commitNumber ∨
      (e = d ∧ ((s.completeCommit d).domain e).commitNumber = (s.domain e).commitNumber + 1) := by
  by_cases h : e = d
  · subst h
    exact .inr ⟨rfl, by rw [number_completeCommit, if_pos rfl]⟩
  · exact .inl (by rw [number_completeCommit, if_neg h])

theorem number_arbitrate (s : State) (d : DomainId) : (s.arbitrate.domain d).commitNumber = (s.domain d).commitNumber :=
  (steady_arbitrate s).number d

theorem number_advanceTick (s : State) (d : DomainId) :
    (s.advanceTick.domain d).commitNumber = (s.domain d).commitNumber := by
  have ticked : s.advanceTick.domain d = (s.domain d).ticked := by simp [State.advanceTick, State.domain]
  rw [ticked, ticked_eq]
  split <;> rfl

section
variable {c : Instr} {s t : State}

theorem number_commitWriteComplete (h : exec .commitWriteComplete s = .next t) (d : DomainId) :
    (t.domain d).commitNumber = (s.domain d).commitNumber ∨
    ((t.domain d).commitNumber = (s.domain d).commitNumber + 1 ∧ (∃ acc, s.mport = some ⟨.commit d, acc⟩) ∧
      (s.domain d).commit.phase = .entryWrite ∧ (s.domain d).commit.entryCount ≤ (s.domain d).commit.next + 1 ∧
      (s.domain d).cfg.sequenceWord = none) := by
  change execCommitWriteComplete s = _ at h
  unfold execCommitWriteComplete at h
  split at h
  · rename_i e acc hm
    split at h
    · rename_i phase
      cases h
      rw [number_arbitrate]
      rcases steady_advanceCommit_or_last (s.completeAccess ⟨.commit e, acc⟩) e with same | ⟨last, none, completes⟩
      · exact .inl (same.number d)
      · rw [completes]
        rcases number_completeCommit_cases (s.completeAccess ⟨.commit e, acc⟩) e d with same | ⟨rfl, rises⟩
        · exact .inl same
        · exact .inr ⟨rises, ⟨acc, hm⟩, phase, last, none⟩
    · cases h
      exact .inl rfl
  · cases h
    exact .inl rfl

theorem number_sequenceWriteComplete (h : exec .sequenceWriteComplete s = .next t) (d : DomainId) :
    (t.domain d).commitNumber = (s.domain d).commitNumber ∨
    ((t.domain d).commitNumber = (s.domain d).commitNumber + 1 ∧ (∃ acc, s.mport = some ⟨.commit d, acc⟩) ∧
      (s.domain d).commit.phase = .sequenceWrite) := by
  change execSequenceWriteComplete s = _ at h
  unfold execSequenceWriteComplete at h
  split at h
  · rename_i e acc hm
    split at h
    · rename_i phase
      cases h
      rw [number_arbitrate]
      rcases number_completeCommit_cases (s.completeAccess ⟨.commit e, acc⟩) e d with same | ⟨rfl, rises⟩
      · exact .inl same
      · exact .inr ⟨rises, ⟨acc, hm⟩, phase⟩
    · cases h
      exact .inl rfl
  · cases h
    exact .inl rfl

/-- Every effect but a commit's completion keeps the commit numbers, or is a reset and clears them. -/
theorem number_effect (k : Effect c s t) (hw : c ≠ .commitWriteComplete) (hs : c ≠ .sequenceWriteComplete)
    (d : DomainId) : (t.domain d).commitNumber = (s.domain d).commitNumber ∨
      ((t.domain d).commitNumber = 0 ∧ (c = .resetFall ∨ ∃ n, c = .resetPart n)) := by
  cases k with
  | steady k => exact .inl (k.number d)
  | access _ _ k => exact .inl (k.number d)
  | commit _ _ _ hc _ => exact (hc.elim hw hs).elim
  | tick u _ _ k ht => exact .inl (by rw [ht, number_advanceTick, k.number])
  | sync _ _ k => exact .inl (k.number d)
  | fault _ _ k => exact .inl (k.number d)
  | frame _ _ _ k => exact .inl (k.number d)
  | pop _ _ _ _ _ _ ht => exact .inl (by rw [ht]; rfl)
  | settings _ _ _ _ _ _ _ _ k => exact .inl (k.number d)
  | window _ _ _ _ _ _ _ _ _ _ _ ht => exact .inl (by rw [ht]; rfl)
  | domain m r e _ _ x _ _ _ _ ht =>
    refine .inl ?_
    rw [ht, State.domain_setDomain]
    split
    · subst d
      rfl
    · rfl
  | safe _ _ _ _ _ _ _ _ _ ht => exact .inl (by rw [ht]; rfl)
  | softReset m r n _ hc _ ht =>
    have cleared : t.domain d = (s.domain d).softReset := by rw [ht]; exact domain_softReset s d
    exact .inr ⟨by rw [cleared]; rfl, .inr ⟨n, hc⟩⟩
  | fall hc _ ht => exact .inr ⟨by rw [ht, domain_powerOn], .inl hc⟩
  | rise _ _ _ _ _ ht => exact .inl (by rw [ht]; rfl)
  | ignored _ ht => exact .inl (by rw [ht]; rfl)

end

/-- Settles O33: a number rises where one of the two completions ends a commit, and no other command but a reset moves it. -/
theorem commitNumbersFollowCommits : Obligations.CommitNumbersFollowCommits := by
  intro c s t d h
  by_cases hw : c = .commitWriteComplete
  · subst hw
    exact (number_commitWriteComplete h d).imp_right fun ⟨rises, holder, last⟩ => .inl ⟨rises, holder, .inl ⟨rfl, last⟩⟩
  by_cases hs : c = .sequenceWriteComplete
  · subst hs
    exact (number_sequenceWriteComplete h d).imp_right fun ⟨rises, holder, last⟩ => .inl ⟨rises, holder, .inr ⟨rfl, last⟩⟩
  exact (number_effect (effect_of_exec h) hw hs d).imp_right .inr

end Sys2Proof.Machine
end

section
/-! SUPPORT. SET_SAFE: the entry that a payload codes, and the three checks of R108 in their order (O17). -/

namespace Sys2Proof.Machine

/-! ### The entry that a payload codes (R108, R183) -/

/-- A field of the payload is out of range (R108, check 2). -/
def SafeOutOfRange (e : SafePayload) : Prop :=
  3 < e.domain.toNat ∨ 4194303 < e.addr.toNat ∨ (e.enabled ≠ 0 ∧ e.mask = 0)

/-- The entry of domain `d` that a payload in range codes: data outside the mask is 0. -/
def codedSafe (e : SafePayload) (d : DomainId) : SafeEntry where
  enabled := decide (e.enabled ≠ 0)
  domain := d
  addr := e.addr.setWidth 22
  data := maskedData e.data e.mask
  lanes := e.mask

/-- What check 2 of R108 reads besides the domain number. -/
theorem storedSafe_eq {e : SafePayload} {d : DomainId} (hd : e.domain.toNat = d.val) : e.stored =
    if 4194303 < e.addr.toNat ∨ (e.enabled ≠ 0 ∧ e.mask = 0) then none else some (codedSafe e d) := by
  unfold SafePayload.stored
  rw [show domainOfByte e.domain = some d from index_of_eq hd]
  simp only [yesOfByte_eq, decide_eq_true_eq]
  rfl

theorem storedSafe_none {e : SafePayload} (h : SafeOutOfRange e) : e.stored = none := by
  by_cases hd : 3 < e.domain.toNat
  · unfold SafePayload.stored
    rw [show domainOfByte e.domain = none from index_of_le hd]
  · rw [storedSafe_eq (d := ⟨e.domain.toNat, by omega⟩) rfl]
    exact if_pos (h.resolve_left hd)

theorem storedSafe_some {e : SafePayload} (h : ¬ SafeOutOfRange e) {d : DomainId} (hd : e.domain.toNat = d.val) :
    e.stored = some (codedSafe e d) := by
  rw [storedSafe_eq hd]
  exact if_neg fun bad => h (.inr bad)

/-! ### The checks of R108 -/

section
variable {s : State} {b : Byte} {e : SafePayload}

theorem doSetSafe_badIndex (hb : 31 < b.toNat) : s.doSetSafe b e = (s, bare .badIndex) := by
  unfold State.doSetSafe
  rw [show safeOfByte b = none from index_of_le hb]

variable {i : SafeId} (hb : b.toNat = i.val)
include hb

theorem doSetSafe_badValue (hv : SafeOutOfRange e) : s.doSetSafe b e = (s, bare .badValue) := by
  unfold State.doSetSafe
  rw [show safeOfByte b = some i from index_of_eq hb, storedSafe_none hv]

variable (hv : ¬ SafeOutOfRange e) {d : DomainId} (hd : e.domain.toNat = d.val)
include hv hd

/-- Behind check 2 the states of the stored entry's domain and of the new one's decide. -/
theorem doSetSafe_inRange : s.doSetSafe b e =
    if (s.domain (s.safeEntry i).domain).state = .safing ∨ (s.domain d).state = .safing then (s, bare .busy)
    else ({ s with safe := s.safe.set i (codedSafe e d) }, bare .ok) := by
  unfold State.doSetSafe
  rw [show safeOfByte b = some i from index_of_eq hb, storedSafe_some hv hd]
  rfl

theorem doSetSafe_busy (busy : (s.domain (s.safeEntry i).domain).state = .safing ∨ (s.domain d).state = .safing) :
    s.doSetSafe b e = (s, bare .busy) := by
  rw [doSetSafe_inRange hb hv hd, if_pos busy]

theorem doSetSafe_ok (old : (s.domain (s.safeEntry i).domain).state ≠ .safing) (new : (s.domain d).state ≠ .safing) :
    s.doSetSafe b e = ({ s with safe := s.safe.set i (codedSafe e d) }, bare .ok) := by
  rw [doSetSafe_inRange hb hv hd, if_neg (not_or.2 ⟨old, new⟩)]

end

/-- A SET_SAFE leaves what it makes of the state its frame leaves, and its reply. -/
theorem exec_setSafe {s : State} (h : s.Listening) {b : Byte} {e : SafePayload} {tail : Nat} {u : State} {r : Reply}
    (hr : (s.shiftFrame (8 * 13 + tail)).doSetSafe b e = (u, r)) : exec (.setSafe b e tail) s = .next (u.answer r) := by
  change Host.Outcome.next (s.carryOut _ _) = _
  rw [carryOut_of_listening h, hr]

/-- Settles O17, a check of R108 at a time: the frame changes nothing that they read. -/
theorem safeEntryWritten : Obligations.SafeEntryWritten := by
  refine fun s b e tail h => ⟨fun hb => exec_setSafe h (doSetSafe_badIndex hb), fun i hb => ⟨fun hv => ?_,
    fun hv d hd => ⟨fun busy => ?_, fun old new => ?_⟩⟩⟩
  · exact exec_setSafe h (doSetSafe_badValue hb hv)
  · exact exec_setSafe h (doSetSafe_busy hb hv hd busy)
  · exact ⟨codedSafe e d, rfl, rfl, rfl, rfl, lane_maskedData e.data e.mask,
      exec_setSafe h (doSetSafe_ok hb hv hd old new)⟩

end Sys2Proof.Machine
end

section
/-! SUPPORT. The safe fill entry by entry: what it requests, and what each completed fill write leads to (O53). -/

namespace Sys2Proof.Machine

/-! ### The next entry (R111) -/

section
variable {s : State} {d : DomainId}

theorem nextSafe_behind_none {i : SafeId}
    (absent : ∀ j, i < j → ¬ ((s.safeEntry j).enabled = true ∧ (s.safeEntry j).domain = d)) :
    s.nextSafe d (i.val + 1) = none := by
  refine List.find?_eq_none.2 fun j _ found => ?_
  simp only [Bool.and_eq_true, decide_eq_true_eq] at found
  obtain ⟨⟨behind, domain⟩, enabled⟩ := found
  exact absent j behind ⟨enabled, domain⟩

/-- The search behind an entry takes the lowest enabled entry of the domain there. -/
theorem nextSafe_behind_lowest {i j : SafeId} (behind : i < j)
    (hj : (s.safeEntry j).enabled = true ∧ (s.safeEntry j).domain = d)
    (lowest : ∀ k, i < k → k < j → ¬ ((s.safeEntry k).enabled = true ∧ (s.safeEntry k).domain = d)) :
    s.nextSafe d (i.val + 1) = some j := by
  refine List.find?_eq_some_iff_getElem.2 ⟨?_, j.val, by simp, by simp, fun k hk => ?_⟩
  · simp [hj, Nat.succ_le_of_lt (Fin.lt_def.1 behind)]
  · have skipped := lowest ⟨k, hk.trans j.isLt⟩
    simp only [List.getElem_finRange, Bool.not_eq_true', ← Bool.not_eq_true, Bool.and_eq_true, decide_eq_true_eq]
    rintro ⟨⟨above, domain⟩, enabled⟩
    exact skipped above hk ⟨enabled, domain⟩

theorem request_fill (phase : (s.domain d).fill.phase = .fillRequest) : s.request (.fill d) =
    some (.write (s.safeEntry (s.domain d).fill.next).addr (s.safeEntry (s.domain d).fill.next).lanes
      (s.safeEntry (s.domain d).fill.next).data) := if_pos phase

/-! ### The end of a fill (R112) -/

/-- The write is held under SAFE_FILL for a word that an enabled entry of the domain names. -/
theorem heldForFill_iff (p : Port) : s.heldForFill d p = true ↔
    (s.port p).txn.phase = .held ∧ (s.port p).txn.cause = some .safeFill ∧
      ∃ j, ((s.safeEntry j).enabled = true ∧ (s.safeEntry j).domain = d) ∧
        (s.safeEntry j).addr = accessAddr (s.port p).txn.access := by
  simp only [State.heldForFill, Bool.and_eq_true, decide_eq_true_eq, named_iff, and_assoc]

theorem heldForFill_congr {t : State} (ports : ∀ p, t.port p = s.port p) (table : t.safe = s.safe) :
    t.heldForFill d = s.heldForFill d := by
  have entry : ∀ j, t.safeEntry j = s.safeEntry j := fun j => by rw [State.safeEntry, table, State.safeEntry]
  funext p
  rw [Bool.eq_iff_iff, heldForFill_iff, heldForFill_iff, ports]
  simp only [entry]

/-- The state in which the writes that a fill held are classified again. -/
def State.fillEnded (s : State) (d : DomainId) : State :=
  { ((s.raise (.safeDone d)).setDomain d { s.domain d with fill := {}, state := .safed }) with
    fillOrder := s.fillOrder.filter fun e => e ≠ d }

theorem enterSafed_raise : (s.raise (.safeDone d)).enterSafed d = s.fillEnded d := by
  have list : (s.raise (.safeDone d)).fillOrder = s.fillOrder := by rw [raise_eq]
  unfold State.enterSafed State.fillEnded
  rw [domain_raise, ← list]
  rfl

theorem heldForFill_fillEnded : (s.fillEnded d).heldForFill d = s.heldForFill d := by
  refine heldForFill_congr (fun p => ?_) ?_
  · exact (port_congr rfl rfl p).trans (port_raise s (.safeDone d) p)
  · unfold State.fillEnded
    rw [State.setDomain_safe, raise_eq]

theorem completeFill_eq (s : State) (d : DomainId) : s.completeFill d =
    (s.fillEnded d).inFreeOrder ([Port.a, Port.b].filter (s.heldForFill d)) State.reclassify := by
  unfold State.completeFill
  rw [enterSafed_raise]
  dsimp only
  rw [heldForFill_fillEnded]

/-- A fill that completes releases the writes it held, each once, in an order left open (log entry 3). -/
theorem completeFill_releases (s : State) (d : DomainId) : ∃ (order : List Port) (n : Nat),
    (∀ p, p ∈ order ↔ s.heldForFill d p = true) ∧ order.Nodup ∧
      s.completeFill d = order.foldl State.reclassify { s.fillEnded d with freeCount := n } := by
  have perm := freeOrder_perm ([Port.a, Port.b].filter (s.heldForFill d)) (s.fillEnded d).freeCount
  have ports : ∀ p, p ∈ [Port.a, Port.b] := fun p => by cases p <;> decide
  refine ⟨_, _, fun p => ?_, perm.nodup_iff.2 (List.Nodup.filter _ (by decide)), completeFill_eq s d⟩
  rw [perm.mem_iff, List.mem_filter]
  exact and_iff_right (ports p)

/-! ### A fill write completes (R111, R112) -/

theorem advanceFill_next {j : SafeId} (next : s.nextSafe d ((s.domain d).fill.next.val + 1) = some j) :
    s.advanceFill d = s.setDomain d { s.domain d with fill := { phase := .fillRequest, next := j } } := by
  rw [State.advanceFill, next]

theorem advanceFill_completes (next : s.nextSafe d ((s.domain d).fill.next.val + 1) = none) :
    s.advanceFill d = s.completeFill d := by
  rw [State.advanceFill, next]

theorem exec_fillWriteComplete {acc : Access} (hm : s.mport = some ⟨.fill d, acc⟩)
    (phase : (s.domain d).fill.phase = .fillWrite) :
    exec .fillWriteComplete s = .next ((s.completeAccess ⟨.fill d, acc⟩).advanceFill d).arbitrate := by
  change execFillWriteComplete s = _
  unfold execFillWriteComplete
  rw [hm]
  exact congrArg Host.Outcome.next (if_pos phase)

end

/-- Settles O53: the request by phase; then the next entry behind the one written, or the end of the fill. -/
theorem fillWritesEntryAfterEntry : Obligations.FillWritesEntryAfterEntry := by
  refine ⟨fun s d phase => request_fill phase, fun s d a m x hm phase => ?_⟩
  have done := exec_fillWriteComplete hm phase
  refine ⟨fun j behind hj lowest => ?_, fun none => ?_⟩
  · rw [done, advanceFill_next (s := s.completeAccess _) (nextSafe_behind_lowest behind hj lowest)]
    rfl
  · obtain ⟨order, n, held, nodup, ends⟩ := completeFill_releases (s.completeAccess ⟨.fill d, .write a m x⟩) d
    refine ⟨order, n, fun p => (held p).trans (heldForFill_iff p), nodup, ?_⟩
    rw [done, advanceFill_completes (s := s.completeAccess _) (nextSafe_behind_none none), ends]
    rfl

end Sys2Proof.Machine
end

section
/-! SUPPORT. The snapshot unit: a read served from a HELD copy (O45), and a capture word by word, what it requests and
what each word that memory returns leads to (O54). -/

namespace Sys2Proof.Machine

/-! ### A read served from a copy (R131, R132) -/

/-- A served read replaces the port's unit: the answer, the context used, and the release of the last word. -/
theorem serve_held {s : State} {p : Port} {c : ContextId} {v w : WindowId} {copy : List Word} {t0 : Tick}
    (held : s.context p c = .held v copy t0) {offset : Nat}
    (ho : s.windowOffset w (accessAddr (s.port p).txn.access) = offset) :
    s.serve p w c = s.setPort p { s.port p with
      txn := {}, ready := true, response := some (.okayRead (copy.getD offset 0)), lru := 1 - c
      contexts := if (s.window w).autoRelease = true ∧ offset + 1 = (s.window w).length.toNat then
          (s.port p).contexts.set c .idle
        else (s.port p).contexts } := by
  subst ho
  unfold State.serve
  rw [held]
  dsimp only
  rw [State.window_respond, State.window_useContext]
  split
  · cases p <;> rfl
  · cases p <;> rfl

theorem accept_read_serve {s : State} {p : Port} {a : Addr} {w : WindowId} {c : ContextId}
    (h : s.classifyRead p a = .serve w c) :
    (s.accept p (.read a)).takeAccess p (.read a) = ((s.accept p (.read a)).serve p w c).arbitrate := by
  change ((s.accept p (.read a)).applyRead p ((s.accept p (.read a)).classifyRead p a)).arbitrate = _
  rw [(sameView_accept s p _).classifyRead, h]
  rfl

/-- Settles O45: the accepted read is served from the copy, and its answer replaces the record that it stood in. -/
theorem snapshotReadServed : Obligations.SnapshotReadServed := by
  intro s p a w c copy t0 hl hp hr held
  have accepted : (s.accept p (.read a)).context p c = .held w copy t0 := (context_accept s p p _ c).trans held
  have window : (s.accept p (.read a)).window w = s.window w := window_eq (sameView_accept s p _).windows w
  have offset : (s.accept p (.read a)).windowOffset w (accessAddr ((s.accept p (.read a)).port p).txn.access) =
      a.toNat - (s.window w).base.toNat := by rw [accept_txn, State.windowOffset, window]; rfl
  rw [exec_accept hl hp, accept_read_serve hr, serve_held accepted offset, window]
  unfold State.accept
  rw [setPort_setPort, State.port_setPort_self]

/-! ### The one capture of a port (R122, R127) -/

section
variable {s : State} {p : Port} {c : ContextId} {w : WindowId} {copy : List Word}

theorem isCapturing_iff (x : Context) : x.isCapturing = true ↔ ∃ v l phase, x = .capturing v l phase := by
  cases x <;> simp [Context.isCapturing]

theorem capturing_eq_find (s : State) (p : Port) :
    s.capturing p = (List.finRange 2).find? fun c => (s.context p c).isCapturing := by
  unfold State.capturing
  congr 1
  funext c
  cases s.context p c <;> rfl

/-- The search finds the one CAPTURING context. -/
theorem capturing_of_only {phase : CapturePhase} (hc : s.context p c = .capturing w copy phase)
    (only : ∀ e, e ≠ c → ∀ v l phase, s.context p e ≠ .capturing v l phase) : s.capturing p = some c := by
  rw [capturing_eq_find]
  cases found : (List.finRange 2).find? fun c => (s.context p c).isCapturing with
  | none => exact absurd ((isCapturing_iff _).2 ⟨w, copy, phase, hc⟩) (List.find?_eq_none.1 found c (List.mem_finRange c))
  | some e =>
    have capturing : (s.context p e).isCapturing = true :=
      List.find?_some (p := fun c => (s.context p c).isCapturing) found
    obtain ⟨v, l, phase', he⟩ := (isCapturing_iff _).1 capturing
    exact congrArg some (by_contra fun other => only e other v l phase' he)

/-- The read of the lead word plus the next offset, which wraps as addresses do. -/
theorem request_capture (hc : s.context p c = .capturing w copy .readRequest)
    (only : ∀ e, e ≠ c → ∀ v l phase, s.context p e ≠ .capturing v l phase) :
    s.request (.capture p) = some (.read ((s.window w).base + BitVec.ofNat 22 copy.length)) := by
  change s.captureRequest p = _
  rw [State.captureRequest, capturing_of_only hc only, Option.bind_some, hc]

theorem toNat_captureAddr (base : Addr) (n : Nat) :
    (base + BitVec.ofNat 22 n).toNat = (base.toNat + n) % 4194304 := by
  rw [BitVec.toNat_add, BitVec.toNat_ofNat, Nat.add_mod_mod]

/-! ### The word that a capture read returned (R127, R138) -/

theorem storeCapture_none (ended : ∀ c w copy, s.context p c ≠ .capturing w copy .read) (x : Word) :
    s.storeCapture p x = s := by
  unfold State.storeCapture
  split
  · rfl
  · next c _ =>
    split
    · next w copy hc => exact absurd hc (ended c w copy)
    · rfl

section
variable (hc : s.context p c = .capturing w copy .read)
  (only : ∀ e, e ≠ c → ∀ v l phase, s.context p e ≠ .capturing v l phase)
include hc only

/-- The port's one capture stores the word at the tail of its copy, and goes on or completes. -/
theorem storeCapture_read (x : Word) :
    s.storeCapture p x = if copy.length + 1 < (s.window w).length.toNat then
        s.setContext p c (.capturing w (copy ++ [x]) .readRequest)
      else s.completeCapture p c w (copy ++ [x]) := by
  unfold State.storeCapture
  rw [capturing_of_only hc only]
  dsimp only
  rw [hc]

theorem storeCapture_next (x : Word) (more : copy.length + 1 < (s.window w).length.toNat) :
    s.storeCapture p x = s.setContext p c (.capturing w (copy ++ [x]) .readRequest) :=
  (storeCapture_read hc only x).trans (if_pos more)

theorem storeCapture_last (x : Word) (last : (s.window w).length.toNat ≤ copy.length + 1) :
    s.storeCapture p x = s.completeCapture p c w (copy ++ [x]) :=
  (storeCapture_read hc only x).trans (if_neg (Nat.not_lt.2 last))

end

/-! ### The end of a capture (R128) -/

theorem heldForCapture_iff {q : Port} : s.heldForCapture q w = true ↔
    (s.port q).txn.phase = .held ∧ (s.port q).txn.cause = some .capture ∧
      s.InWindow w (accessAddr (s.port q).txn.access) := by
  simp only [State.heldForCapture, Bool.and_eq_true, decide_eq_true_eq, covers_iff, and_assoc]

/-- The capture's copy HELD and its lead-word read answered, before the write held for it is classified again. -/
def State.captureEnded (s : State) (p : Port) (c : ContextId) (w : WindowId) (copy : List Word) : State :=
  { (s.setPort p { s.port p with
      txn := {}, ready := true, response := some (.okayRead (copy.getD 0 0)), lru := 1 - c
      contexts := (s.port p).contexts.set c (.held w copy s.tick) }) with
    captureOrder := s.captureOrder.filter fun q => q ≠ p }

theorem window_captureEnded (v : WindowId) : (s.captureEnded p c w copy).window v = s.window v := by
  cases p <;> rfl

theorem heldForCapture_captureEnded :
    (s.captureEnded p c w copy).heldForCapture p.other w = s.heldForCapture p.other w := by
  cases p <;> rfl

/-- A capture that completes ends, and a write that the window's writer port holds for it is classified again. -/
theorem completeCapture_eq (writer : (s.window w).writer = p.other) : s.completeCapture p c w copy =
    if s.heldForCapture p.other w then (s.captureEnded p c w copy).reclassify p.other
    else s.captureEnded p c w copy := by
  have ended : State.respond { (s.setContext p c (.held w copy s.tick)).useContext p c with
      captureOrder := ((s.setContext p c (.held w copy s.tick)).useContext p c).captureOrder.filter (· ≠ p) } p
      (.okayRead (copyWord copy 0)) = s.captureEnded p c w copy := by
    cases p <;> rfl
  unfold State.completeCapture
  dsimp only
  rw [ended, window_captureEnded, writer, heldForCapture_captureEnded]

/-! ### A capture read completes (R127) -/

theorem context_completeAccess (g : Grant) (q : Port) (e : ContextId) :
    (s.completeAccess g).context q e = s.context q e := by
  unfold State.context
  rw [port_congr (s := s) (t := s.completeAccess g) rfl rfl q]

theorem heldForCapture_completeAccess (g : Grant) (q : Port) :
    (s.completeAccess g).heldForCapture q w = s.heldForCapture q w := by
  cases q <;> rfl

/-- The word is the one in memory: a read that completes leaves the memory as it was. -/
theorem exec_captureReadComplete {a : Addr} (hg : s.mport = some ⟨.capture p, .read a⟩) :
    exec .captureReadComplete s = .next
      ((s.completeAccess ⟨.capture p, .read a⟩).storeCapture p (Memory.readWord s.mem a)).arbitrate := by
  change execCaptureReadComplete s = _
  unfold execCaptureReadComplete
  rw [hg]
  rfl

end

/-- Settles O54: the request; then a word that no capture waits for, a word with more to come, and the last word. -/
theorem captureReadsWordAfterWord : Obligations.CaptureReadsWordAfterWord := by
  refine ⟨fun s p c w copy hc only => ⟨_, toNat_captureAddr _ _, request_capture hc only⟩, fun s p a hg => ?_⟩
  have kept := context_completeAccess (s := s) ⟨.capture p, .read a⟩ p
  rw [exec_captureReadComplete hg]
  refine ⟨fun ended => ?_, fun c w copy hc only => ?_⟩
  · rw [storeCapture_none fun c => by rw [kept]; exact ended c]
    rfl
  · have reading := (kept c).trans hc
    have one : ∀ e, e ≠ c → ∀ v l phase, (s.completeAccess ⟨.capture p, .read a⟩).context p e ≠ .capturing v l phase :=
      fun e => by rw [kept]; exact only e
    refine ⟨fun more => ?_, fun last writer => ?_⟩
    · rw [storeCapture_next reading one _ more]
      cases p <;> rfl
    · rw [storeCapture_last reading one _ last, completeCapture_eq (s := s.completeAccess _) writer,
        heldForCapture_completeAccess]
      refine ⟨fun waits => ?_, fun quiet => ?_⟩
      · rw [if_pos (heldForCapture_iff.2 waits)]
        cases p <;> rfl
      · rw [if_neg (heldForCapture_iff.not.2 quiet)]
        cases p <;> rfl

end Sys2Proof.Machine
end

section
/-! SUPPORT. The SRAM after any command (R140, R149), and that its list of cells stays canonical (O26). -/

namespace Sys2Proof.Machine

/-- The SRAM changes only by the access that the M-port grants, taken whole: at its completion (R141), or as the write
abandoned at the fall of RESET (R149). -/
theorem mem_effect {c : Instr} {s t : State} (e : Effect c s t) :
    t.mem = s.mem ∨ ∃ g, s.mport = some g ∧ t.mem = Memory.complete s.mem g.access := by
  cases e with
  | access g hg k => exact .inr ⟨g, hg, k.mem⟩
  | commit g _ hg _ k => exact .inr ⟨g, hg, k.mem⟩
  | fall _ _ ht =>
    obtain ⟨m, n, hm, abandoned⟩ := abandonAccess_eq s
    have left : t.mem = m := by rw [ht, abandoned]; rfl
    rcases hm with kept | ⟨r, a, k, x, hg, landed⟩
    · exact .inl (left.trans kept)
    · exact .inr ⟨⟨r, .write a k x⟩, hg, left.trans landed⟩
  | steady k => exact .inl k.mem
  | tick _ _ _ k ht => exact .inl (by rw [ht]; exact k.mem)
  | sync _ _ k => exact .inl k.mem
  | fault _ _ k => exact .inl k.mem
  | frame _ _ _ k => exact .inl k.mem
  | pop _ _ _ _ _ _ ht => exact .inl (by rw [ht]; rfl)
  | settings _ _ _ _ _ _ _ _ k => exact .inl k.mem
  | window _ _ _ _ _ _ _ _ _ _ _ ht => exact .inl (by rw [ht]; rfl)
  | domain _ _ _ _ _ _ _ _ _ _ ht => exact .inl (by rw [ht]; rfl)
  | safe _ _ _ _ _ _ _ _ _ ht => exact .inl (by rw [ht]; rfl)
  | softReset _ _ _ _ _ _ ht => exact .inl (by rw [ht]; rfl)
  | rise _ _ _ _ _ ht => exact .inl (by rw [ht]; rfl)
  | ignored _ ht => exact .inl (by rw [ht])

theorem memoryCanonical_effect {c : Instr} {s t : State} (h : s.MemoryCanonical) (e : Effect c s t) :
    t.MemoryCanonical := by
  unfold State.MemoryCanonical
  rcases mem_effect e with kept | ⟨g, _, completed⟩
  · exact kept ▸ h
  · exact completed ▸ Memory.wf_complete s.mem g.access h

/-- Settles O26: a step leaves the SRAM as it was or with the granted access completed, and a completed access keeps the
canonical form. -/
theorem stepKeepsMemoryCanonical : Obligations.StepKeepsMemoryCanonical := fun _ _ h ht =>
  step_keeps (P := State.MemoryCanonical) (fun _ _ hu => hu)
    (fun _ _ _ hu hv => memoryCanonical_effect hu (effect_of_exec hv)) h ht

end Sys2Proof.Machine
end

section
/-! SUPPORT. The event queue: what an event raised makes of it (O34), the record that POP_EVENT takes from it, byte by byte
(O13), and that every step keeps Law 11 (O27). -/

namespace Sys2Proof.Machine

/-! ### An event raised (R154, R155, R156) -/

@[simp] theorem markTail_concat (l : List EventRecord) (r : EventRecord) :
    markTail (l ++ [r]) = l ++ [{ r with lost := true }] := by
  induction l with
  | nil => rfl
  | cons x l ih => cases l with
    | nil => rfl
    | cons y l => exact congrArg (x :: ·) ih

theorem offered_of_room {q : List EventRecord} (r : EventRecord) (h : q.length < 16) : offered q r = q ++ [r] := if_pos h

theorem offered_of_full {q : List EventRecord} (r : EventRecord) (h : 16 ≤ q.length) : offered q r = markTail q :=
  if_neg (Nat.not_lt.2 h)

theorem raise_disabled {s : State} {e : Event} (h : s.kindEnabled e.kind = false) : s.raise e = s := by
  unfold State.raise; rw [h]; rfl

theorem raise_enabled {s : State} {e : Event} (h : s.kindEnabled e.kind = true) :
    s.raise e = s.setQueue (offered s.queue (e.record s.tick)) := if_pos h

/-- A queue with a tail asserts IRQ wherever the enable is on (R158). -/
theorem setQueue_concat (s : State) (l : List EventRecord) (r : EventRecord) :
    s.setQueue (l ++ [r]) = { s with irq := s.irqEnable, queue := l ++ [r] } := by
  simp [State.setQueue]

/-- Settles O34: the branches of `raise` and `offered`, each leaving a queue with a tail. -/
theorem queueTakesAnEvent : Obligations.QueueTakesAnEvent := by
  refine fun s e => ⟨raise_disabled, fun enabled room => ?_, fun front tail enabled hq full => ?_⟩
  · rw [raise_enabled enabled, offered_of_room _ room, setQueue_concat]
    rfl
  · rw [raise_enabled enabled, offered_of_full _ full, hq, markTail_concat, setQueue_concat]

/-! ### The report of a record (R185) -/

/-- The event kinds in the order of their codes (R185). -/
def eventKinds : List EventKind :=
  [.stallTimeout, .refusedFull, .foreignWrite, .faultLock, .faultTaken, .safeDone, .syncOverrun, .syncLost, .commitDone,
    .stopDone, .snapExpired, .snapEvicted]

theorem eventKinds_code (k : EventKind) : eventKinds[k.code]? = some k := by cases k <;> rfl

/-- The event causes in the order of their codes (R185). -/
def eventCauses : List EventCause := [.exhausted, .stopping, .capture, .safeFill, .fault0, .fault1, .syncLoss]

theorem eventCauses_code (c : EventCause) : eventCauses[c.code.toNat]? = some c := by cases c <;> rfl

/-- A present field's bit in byte 1 of a record's report. -/
def bitNumber (x : Bool) (n : Nat) : Nat := if x then 2 ^ n else 0

/-- The index field of a report: 0 where it is absent. -/
def indexByte : Option WindowId → Byte
  | none => 0
  | some i => byteAt i.val 0

/-- The address field of a report: 0 where it is absent. -/
def addrNumber : Option Addr → Nat
  | none => 0
  | some a => a.toNat

/-- The cause field of a report: 0 where it is absent. -/
def causeNumber : Option EventCause → Nat
  | none => 0
  | some c => c.code.toNat

theorem bytes32_eq (v : BitVec 32) :
    bytes32 v = [byteAt v.toNat 3, byteAt v.toNat 2, byteAt v.toNat 1, byteAt v.toNat 0] := by
  rw [← extract_eq_byteAt, ← extract_eq_byteAt, ← extract_eq_byteAt, ← extract_eq_byteAt]; rfl

theorem presence_eq (r : EventRecord) : r.presence =
    byteAt (bitNumber r.index.isSome 0 + bitNumber r.port.isSome 1 + bitNumber r.addr.isSome 2 +
      bitNumber r.cause.isSome 3 + bitNumber r.lost 7) 0 := by
  have bit (x : Bool) (n : Nat) : BitVec.ofNat 8 (bitNumber x n) = if x then BitVec.ofNat 8 (2 ^ n) else 0 :=
    apply_ite (BitVec.ofNat 8) _ _ _
  simp only [byteAt_zero, BitVec.ofNat_add, bit]
  rfl

theorem index_report (i : Option WindowId) : (i.map fun i => BitVec.ofNat 8 i.val).getD 0 = indexByte i := by
  cases i with
  | none => rfl
  | some i => exact (byteAt_zero i.val).symm

theorem port_report (p : Option Port) : (p.map portCode).getD 0 = if p = some .b then 1 else 0 := by
  cases p with
  | none => rfl
  | some p => cases p <;> rfl

theorem addr_report (a : Option Addr) : (a.getD 0).toNat = addrNumber a := by cases a <;> rfl

theorem cause_report (c : Option EventCause) : (c.map EventCause.code).getD 0 = byteAt (causeNumber c) 0 := by
  cases c with
  | none => rfl
  | some c => cases c <;> rfl

theorem eventReport_eq (r : EventRecord) : r.report =
    [byteAt r.kind.code 0,
      byteAt (bitNumber r.index.isSome 0 + bitNumber r.port.isSome 1 + bitNumber r.addr.isSome 2 +
        bitNumber r.cause.isSome 3 + bitNumber r.lost 7) 0,
      byteAt r.tick.toNat 3, byteAt r.tick.toNat 2, byteAt r.tick.toNat 1, byteAt r.tick.toNat 0,
      indexByte r.index, if r.port = some .b then 1 else 0,
      byteAt (addrNumber r.addr) 2, byteAt (addrNumber r.addr) 1, byteAt (addrNumber r.addr) 0,
      byteAt (causeNumber r.cause) 0] := by
  unfold EventRecord.report
  rw [bytes32_eq, bytesAddr_eq, presence_eq, index_report, port_report, addr_report, cause_report, ← byteAt_zero]
  rfl

/-! ### POP_EVENT (R157) -/

theorem doPopEvent_empty {s : State} (h : s.queue = []) : s.doPopEvent = (s, bare .empty) := by
  unfold State.doPopEvent; rw [h]

theorem doPopEvent_head {s : State} {r : EventRecord} {l : List EventRecord} (h : s.queue = r :: l) :
    s.doPopEvent = (s.setQueue l, reported r.report) := by
  unfold State.doPopEvent; rw [h]

theorem exec_popEvent_empty {s : State} (hs : s.Listening) (tail : Nat) (h : s.queue = []) :
    exec (.popEvent tail) s = .next (s.replied (8 * 2 + tail) (bare .empty)) :=
  congrArg Host.Outcome.next (carryOut_unchanged hs _ (doPopEvent_empty h))

theorem exec_popEvent_head {s : State} (hs : s.Listening) (tail : Nat) {r : EventRecord} {l : List EventRecord}
    (h : s.queue = r :: l) :
    exec (.popEvent tail) s = .next ((s.setQueue l).replied (8 * 2 + tail) (reported r.report)) := by
  have popped : (s.shiftFrame (8 * 2 + tail)).doPopEvent = ((s.shiftFrame (8 * 2 + tail)).setQueue l, reported r.report) :=
    doPopEvent_head h
  change Host.Outcome.next (s.carryOut (8 * 2 + tail) State.doPopEvent) = _
  rw [carryOut_of_listening hs, popped]
  rfl

/-- Settles O13: the two cases of the queue, the head's report spelled out by `eventReport_eq`. -/
theorem popEventTakesTheHead : Obligations.PopEventTakesTheHead := by
  refine fun s tail hs => ⟨exec_popEvent_empty hs tail, fun r rest hq => ?_⟩
  refine ⟨r.kind.code, causeNumber r.cause, eventKinds_code r.kind, ?_, ?_⟩
  · cases r.cause with
    | none => rfl
    | some c => exact eventCauses_code c
  · rw [exec_popEvent_head hs tail hq, eventReport_eq]
    rfl

/-! ### Law 11 (R155, R156, R158) -/

theorem irqFollowsQueue_congr {s t : State} (h : s.IrqFollowsQueue) (hi : t.irq = s.irq)
    (he : t.irqEnable = s.irqEnable) (hq : t.queue = s.queue) : t.IrqFollowsQueue := by
  unfold State.IrqFollowsQueue; rw [hi, he, hq]; exact h

/-- An emptied queue with IRQ released, as a reset leaves it. -/
theorem irqFollowsQueue_of_empty {s : State} (hi : s.irq = false) (hq : s.queue = []) : s.IrqFollowsQueue := by
  unfold State.IrqFollowsQueue; rw [hi, hq]; simp

/-- SET_GLOBAL gives IRQ its level under the new enable and keeps the queue (R175). -/
theorem irqFollowsQueue_writeGlobals {s : State} (h : s.IrqFollowsQueue) (g : GlobalPayload) (b : Bool) :
    (s.writeGlobals g b).IrqFollowsQueue := irqOk_setQueue _ _ h.2

/-- The queue and IRQ are written by events raised, by POP_EVENT, by SET_GLOBAL and by the resets alone. -/
theorem irqFollowsQueue_effect {c : Instr} {s t : State} (h : s.IrqFollowsQueue) (e : Effect c s t) :
    t.IrqFollowsQueue := by
  cases e with
  | steady k => exact k.irq h
  | access _ _ k => exact k.irq (irqFollowsQueue_congr h rfl rfl rfl)
  | commit _ _ _ _ k => exact k.irq (irqFollowsQueue_congr h rfl rfl rfl)
  | tick _ _ _ k ht => rw [ht]; exact irqFollowsQueue_congr (k.irq h) rfl rfl rfl
  | sync _ _ k => exact k.irq (irqFollowsQueue_congr h rfl rfl rfl)
  | fault _ _ k => exact k.irq (irqFollowsQueue_congr h rfl rfl rfl)
  | frame _ _ _ k => exact k.irq (irqFollowsQueue_congr h rfl rfl rfl)
  | pop m r x q _ hq ht =>
    have shorter : q.length ≤ 16 := by
      have := h.2
      rw [hq, List.length_cons] at this
      omega
    rw [ht]
    exact irqFollowsQueue_congr (irqOk_setQueue s q shorter) rfl rfl rfl
  | settings m r g b _ _ _ _ k =>
    exact k.irq (irqFollowsQueue_writeGlobals (irqFollowsQueue_congr h rfl rfl rfl : (s.framed m r).IrqFollowsQueue) g b)
  | window _ _ _ _ _ _ _ _ _ _ _ ht => rw [ht]; exact irqFollowsQueue_congr h rfl rfl rfl
  | domain _ _ _ _ _ _ _ _ _ _ ht => rw [ht]; exact irqFollowsQueue_congr h rfl rfl rfl
  | safe _ _ _ _ _ _ _ _ _ ht => rw [ht]; exact irqFollowsQueue_congr h rfl rfl rfl
  | softReset _ _ _ _ _ _ ht => rw [ht]; exact irqFollowsQueue_of_empty rfl rfl
  | fall _ _ ht => rw [ht]; exact irqFollowsQueue_of_empty rfl rfl
  | rise _ _ _ _ _ ht => rw [ht]; exact irqFollowsQueue_congr h rfl rfl rfl
  | ignored _ ht => rw [ht]; exact irqFollowsQueue_congr h rfl rfl rfl

/-- Settles O27: every effect of a command keeps Law 11, and the queue of commands is no part of it. -/
theorem stepKeepsIrqFollowsQueue : Obligations.StepKeepsIrqFollowsQueue := fun _ _ h ht =>
  step_keeps (P := State.IrqFollowsQueue) (fun _ _ hu => irqFollowsQueue_congr hu rfl rfl rfl)
    (fun _ _ _ hu hv => irqFollowsQueue_effect hu (effect_of_exec hv)) h ht

end Sys2Proof.Machine
end

section
/-! SUPPORT. The bits of frames and replies: what a frame's bits read back as, the checksum byte, and the bits shifted out
(O6). -/

namespace Sys2Proof.Machine

/-! ### Complete bytes (R161) -/

/-- Fewer than eight bits are no complete byte. -/
theorem bytesOfBits_partial {part : List Bool} (h : part.length < 8) : bytesOfBits part = [] :=
  List.eq_nil_of_length_eq_zero (by rw [length_bytesOfBits]; omega)

/-- Bits of 0 spell bytes of 0, as many as whole eights of them. -/
theorem bytesOfBits_replicate (n : Nat) : bytesOfBits (List.replicate n false) = List.replicate (n / 8) 0 := by
  have zeros : ∀ k, List.replicate (8 * k) false = bitsOfBytes (List.replicate k 0) := by
    intro k
    induction k with
    | zero => rfl
    | succ k ih => rw [Nat.mul_succ, Nat.add_comm, List.replicate_add, ih]; rfl
  have small : (List.replicate (n % 8) false).length < 8 := by rw [List.length_replicate]; omega
  calc bytesOfBits (List.replicate n false)
      = bytesOfBits (bitsOfBytes (List.replicate (n / 8) 0) ++ List.replicate (n % 8) false) := by
        rw [← zeros, ← List.replicate_add, Nat.div_add_mod]
    _ = List.replicate (n / 8) 0 := by rw [bytesOfBits_append, bytesOfBits_partial small, List.append_nil]

theorem bytesOfBits_frameBits (l : List Byte) (n : Nat) :
    bytesOfBits (frameBits l n) = l ++ List.replicate (n / 8) 0 := by
  rw [frameBits, bytesOfBits_append, bytesOfBits_replicate]

/-- A frame of complete bytes and one partial byte. -/
theorem bytesOfBits_frameBits_partial (l : List Byte) (rest : Fin 8) : bytesOfBits (frameBits l rest.val) = l := by
  rw [bytesOfBits_frameBits, Nat.div_eq_of_lt rest.isLt, List.replicate_zero, List.append_nil]

/-! ### The order of the bits of a byte (R161) -/

theorem bitsOfByte_eq_map (b : Byte) : bitsOfByte b = (List.finRange 8).map fun i => b.getMsbD i.val := rfl

/-- Bit `i` of the bits of bytes, in the order they travel. -/
theorem getElem?_bitsOfBytes (l : List Byte) {i : Nat} (h : i < 8 * l.length) :
    (bitsOfBytes l)[i]? = some ((l.getD (i / 8) 0).getMsbD (i % 8)) := by
  induction l generalizing i with
  | nil => simp at h
  | cons b l ih =>
    rw [bitsOfBytes_cons]
    rcases Nat.lt_or_ge i 8 with first | later
    · rw [List.getElem?_append_left (by simpa using first), Nat.div_eq_of_lt first, Nat.mod_eq_of_lt first,
        bitsOfByte_eq_map]
      simp [first]
    · obtain ⟨j, rfl⟩ := Nat.exists_eq_add_of_le' later
      rw [List.getElem?_append_right later, length_bitsOfByte, Nat.add_sub_cancel,
        ih (by rw [List.length_cons] at h; omega), Nat.add_div_right j (by decide), Nat.add_mod_right,
        List.getD_cons_succ]

/-- Bit `i` of a frame's bits: those after its complete bytes are 0, as are the bits of a byte 0x00. -/
theorem getElem?_frameBits (l : List Byte) {n i : Nat} (h : i < 8 * l.length + n) :
    (frameBits l n)[i]? = some ((l.getD (i / 8) 0).getMsbD (i % 8)) := by
  rw [frameBits]
  rcases Nat.lt_or_ge i (8 * l.length) with inside | past
  · rw [List.getElem?_append_left (by rwa [length_bitsOfBytes]), getElem?_bitsOfBytes l inside]
  · have zero : l.getD (i / 8) 0 = 0 := List.getD_eq_default _ _ (by omega)
    rw [List.getElem?_append_right (by rwa [length_bitsOfBytes]), zero]
    have inReplicate : i - (bitsOfBytes l).length < n := by rw [length_bitsOfBytes]; omega
    exact (List.getElem?_replicate_of_lt inReplicate).trans (congrArg some BitVec.getMsbD_zero.symm)

/-! ### The bits shifted out (R167) -/

theorem shiftOut_some (r : Reply) (n : Nat) : shiftOut (some r) n = (frameBits r.bytes n).take n := rfl

theorem length_shiftOut (r : Reply) (n : Nat) : (shiftOut (some r) n).length = n := by
  rw [shiftOut_some, List.length_take, length_frameBits]; omega

theorem getElem?_shiftOut (r : Reply) {n i : Nat} (h : i < n) :
    (shiftOut (some r) n)[i]? = some ((r.bytes.getD (i / 8) 0).getMsbD (i % 8)) := by
  rw [shiftOut_some, List.getElem?_take_of_lt h, getElem?_frameBits _ (by omega)]

/-! ### The checksum byte (R163, R166) -/

theorem byteSum_concat (l : List Byte) (b : Byte) : byteSum (l ++ [b]) = byteSum l + b := by
  simp [byteSum, List.foldl_append]

theorem byteSum_withChecksum (l : List Byte) : byteSum (withChecksum l) = 0 := by
  rw [withChecksum, byteSum_concat]; ring

@[simp] theorem length_withChecksum (l : List Byte) : (withChecksum l).length = l.length + 1 := by simp [withChecksum]

/-- The checksum byte is the only one that makes the bytes sum to 0. -/
theorem concat_eq_withChecksum {l : List Byte} {b : Byte} (h : byteSum (l ++ [b]) = 0) : l ++ [b] = withChecksum l := by
  rw [byteSum_concat] at h
  rw [withChecksum, zero_sub, ← eq_neg_of_add_eq_zero_right h]

/-- Settles O6: the bits of bytes read back as those bytes, a reply ends in its checksum byte, and a frame shifts out the
leading bits of the pending reply. -/
theorem partialByteIsDiscarded : Obligations.PartialByteIsDiscarded := by
  refine ⟨fun bytes part h => ?_, fun r => ⟨_, rfl, byteSum_withChecksum _⟩,
    fun r n => ⟨length_shiftOut r n, fun i hi => getElem?_shiftOut r hi⟩⟩
  calc bytesOfBits ((bytes.flatMap fun b => (List.finRange 8).map fun i => b.getMsbD i.val) ++ part)
      = bytesOfBits (bitsOfBytes bytes ++ part) := rfl
    _ = bytes := by rw [bytesOfBits_append, bytesOfBits_partial h, List.append_nil]

end Sys2Proof.Machine
end

section
/-! SUPPORT. What R164 finds of a frame, and the requests of the command table: a frame that is carried out is a request,
its checksum byte, and bytes that are ignored; each request spells the command whose frame it is (O4, O5). -/

namespace Sys2Proof.Machine

/-! ### What R164 finds -/

theorem frameVerdict_unknown {code : Byte} (h : requestLength code = none) (rest : List Byte) :
    frameVerdict (code :: rest) = .unknown := by
  rw [frameVerdict, h]

theorem frameVerdict_known {code : Byte} {n : Nat} (h : requestLength code = some n) (rest : List Byte) :
    frameVerdict (code :: rest) = if rest.length + 1 < n then .short
      else if byteSum ((code :: rest).take n) ≠ 0 then .badCheck else .carriedOut := by
  rw [frameVerdict, h]; rfl

theorem frameVerdict_eq_empty {frame : List Byte} (h : frameVerdict frame = .empty) : frame = [] := by
  cases frame with
  | nil => rfl
  | cons code rest =>
    cases known : requestLength code with
    | none => rw [frameVerdict_unknown known] at h; cases h
    | some n => rw [frameVerdict_known known] at h; split_ifs at h

/-- A request is found to be carried out, whatever bytes follow it. -/
theorem frameVerdict_request {code : Byte} {payload : List Byte} (h : payloadLength code = some payload.length)
    (extra : List Byte) : frameVerdict (withChecksum (code :: payload) ++ extra) = .carriedOut := by
  have length : requestLength code = some (payload.length + 2) := by rw [requestLength, h]; rfl
  have sum : byteSum ((withChecksum (code :: payload) ++ extra).take (payload.length + 2)) = 0 := by
    rw [List.take_left' (by simp), byteSum_withChecksum]
  have long : ¬ (payload ++ [0 - byteSum (code :: payload)] ++ extra).length + 1 < payload.length + 2 := by
    simp
  exact (frameVerdict_known length _).trans ((if_neg long).trans (if_neg (not_not.2 sum)))

/-- A frame that is carried out begins with a request. -/
theorem request_of_carriedOut {frame : List Byte} (h : frameVerdict frame = .carriedOut) :
    ∃ code payload extra, frame = withChecksum (code :: payload) ++ extra ∧
      payloadLength code = some payload.length := by
  cases frame with
  | nil => cases h
  | cons code after =>
    cases known : payloadLength code with
    | none => rw [frameVerdict_unknown (by rw [requestLength, known]; rfl)] at h; cases h
    | some n =>
      rw [frameVerdict_known (n := n + 2) (by rw [requestLength, known]; rfl)] at h
      split_ifs at h with short sum
      have next : n < after.length := by omega
      have request : (code :: after).take (n + 2) = (code :: after.take n) ++ [after[n]] := by
        rw [List.take_succ_cons, List.take_succ_eq_append_getElem next]; rfl
      rw [request, ne_eq, not_not] at sum
      refine ⟨code, after.take n, after.drop (n + 1), ?_, by rw [known, List.length_take, Nat.min_eq_left next.le]⟩
      rw [← concat_eq_withChecksum sum, ← request]
      exact (List.take_append_drop (n + 2) (code :: after)).symm

/-! ### Numbers read back from their bytes (R183) -/

theorem word16_extract (v : BitVec 16) : word16 (v.extractLsb' 8 8) (v.extractLsb' 0 8) = v := by
  rw [word16, BitVec.extractLsb'_append_extractLsb'_eq_extractLsb' (by rfl), BitVec.extractLsb'_eq_self]

theorem word24_extract (v : BitVec 24) :
    word24 (v.extractLsb' 16 8) (v.extractLsb' 8 8) (v.extractLsb' 0 8) = v := by
  rw [word24, BitVec.extractLsb'_append_extractLsb'_eq_extractLsb' (by rfl),
    BitVec.extractLsb'_append_extractLsb'_eq_extractLsb' (by rfl), BitVec.extractLsb'_eq_self]

theorem word32_extract (v : BitVec 32) :
    word32 (v.extractLsb' 24 8) (v.extractLsb' 16 8) (v.extractLsb' 8 8) (v.extractLsb' 0 8) = v := by
  rw [word32, BitVec.extractLsb'_append_extractLsb'_eq_extractLsb' (by rfl),
    BitVec.extractLsb'_append_extractLsb'_eq_extractLsb' (by rfl),
    BitVec.extractLsb'_append_extractLsb'_eq_extractLsb' (by rfl), BitVec.extractLsb'_eq_self]

/-- The byte that ends a number, and the bytes before it. -/
theorem extract_last {w : Nat} (v : BitVec w) (b : Byte) : (v ++ b).extractLsb' 0 8 = b :=
  BitVec.extractLsb'_append_eq_right

theorem extract_before {w : Nat} (v : BitVec w) (b : Byte) (i : Nat) :
    (v ++ b).extractLsb' (i + 8) 8 = v.extractLsb' i 8 := by
  rw [BitVec.extractLsb'_append_eq_of_le (Nat.le_add_left 8 i), Nat.add_sub_cancel]

theorem bytes16_word16 (b1 b0 : Byte) : bytes16 (word16 b1 b0) = [b1, b0] :=
  congrArg₂ (fun x y => [x, y]) ((extract_before b1 b0 0).trans BitVec.extractLsb'_eq_self) (extract_last b1 b0)

theorem bytes24_word24 (b2 b1 b0 : Byte) : bytes24 (word24 b2 b1 b0) = [b2, b1, b0] :=
  calc bytes24 (word24 b2 b1 b0)
      = bytes16 (word16 b2 b1) ++ [(word16 b2 b1 ++ b0).extractLsb' 0 8] :=
        congrArg₂ (fun x y => [x, y, _]) (extract_before _ b0 8) (extract_before _ b0 0)
    _ = [b2, b1, b0] := by rw [bytes16_word16, extract_last]; rfl

theorem bytes32_word32 (b3 b2 b1 b0 : Byte) : bytes32 (word32 b3 b2 b1 b0) = [b3, b2, b1, b0] :=
  calc bytes32 (word32 b3 b2 b1 b0)
      = bytes24 (word24 b3 b2 b1) ++ [(word24 b3 b2 b1 ++ b0).extractLsb' 0 8] := by
        rw [bytes24, ← extract_before _ b0 16, ← extract_before _ b0 8, ← extract_before _ b0 0]; rfl
    _ = [b3, b2, b1, b0] := by rw [bytes24_word24, extract_last]; rfl

/-! ### The command table (R170, R184, R185) -/

theorem decodeRequest_setGlobal (g : GlobalPayload) (tail : Nat) :
    decodeRequest 0x03 g.bytes tail = some (.setGlobal g tail) := by
  change some (Instr.setGlobal ⟨word16 _ _, _, word16 _ _⟩ tail) = _
  rw [word16_extract, word16_extract]

theorem decodeRequest_setWindow (i : Byte) (w : WindowPayload) (tail : Nat) :
    decodeRequest 0x11 (i :: w.bytes) tail = some (.setWindow i w tail) := by
  change some (Instr.setWindow i ⟨_, _, word24 _ _ _, word16 _ _, _, word16 _ _, _, word16 _ _, _⟩ tail) = _
  rw [word24_extract, word16_extract, word16_extract, word16_extract]

theorem decodeRequest_setDomain (d : Byte) (r : DomainPayload) (tail : Nat) :
    decodeRequest 0x21 (d :: r.bytes) tail = some (.setDomain d r tail) := by
  change some (Instr.setDomain d ⟨_, _, _, word16 _ _, _, _, _, word24 _ _ _, _⟩ tail) = _
  rw [word16_extract, word24_extract]

theorem decodeRequest_setSafe (i : Byte) (e : SafePayload) (tail : Nat) :
    decodeRequest 0x31 (i :: e.bytes) tail = some (.setSafe i e tail) := by
  change some (Instr.setSafe i ⟨_, _, word24 _ _ _, word32 _ _ _ _, _⟩ tail) = _
  rw [word24_extract, word32_extract]

/-- The bits of a frame command: those of a frame that R164 does not carry out, kept as it was, or a request of the
command table. -/
inductive FrameOf : Instr → List Bool → Prop where
  | empty (rest : Fin 8) : FrameOf (.emptyFrame rest) (frameBits [] rest.val)
  | unknown (frame : List Byte) (rest : Fin 8) : FrameOf (.unknownCommand frame rest) (frameBits frame rest.val)
  | short (frame : List Byte) (rest : Fin 8) : FrameOf (.shortFrame frame rest) (frameBits frame rest.val)
  | badCheck (frame : List Byte) (rest : Fin 8) : FrameOf (.badCheck frame rest) (frameBits frame rest.val)
  | request {c : Instr} (code : Byte) (payload : List Byte) (tail : Nat)
      (known : payloadLength code = some payload.length) (spelt : decodeRequest code payload tail = some c) :
      FrameOf c (requestFrame code payload tail)

theorem frameOf_encodeFrame {c : Instr} {bits : List Bool} (h : encodeFrame c = some bits) : FrameOf c bits := by
  cases c with
  | emptyFrame rest => cases h; exact .empty rest
  | unknownCommand frame rest => cases h; exact .unknown frame rest
  | shortFrame frame rest => cases h; exact .short frame rest
  | badCheck frame rest => cases h; exact .badCheck frame rest
  | setGlobal g tail => cases h; exact .request _ _ _ rfl (decodeRequest_setGlobal g tail)
  | setWindow i w tail => cases h; exact .request _ _ _ rfl (decodeRequest_setWindow i w tail)
  | setDomain d r tail => cases h; exact .request _ _ _ rfl (decodeRequest_setDomain d r tail)
  | setSafe i e tail => cases h; exact .request _ _ _ rfl (decodeRequest_setSafe i e tail)
  | nop | getGlobal | popEvent | resetPart | getWindow | getDomain | start | stop | sealBatch | sync | getSafe | arm
  | getBatch | peekStaging => cases h; exact .request _ _ _ rfl rfl
  | transactionAccept | portWriteComplete | portReadComplete | commitWriteComplete | sequenceWriteComplete
  | fillWriteComplete | captureReadComplete | stallTimeout | tick | syncMonitorExpiry | holdLimitExpiry | syncEdge
  | faultEdge | resetFall | resetRise | ignoredFrameEnd | faultLineRelease => cases h

/-- A command code is determined by its number. -/
theorem eq_of_toNat {code : Byte} {n : Nat} (h : code.toNat = n) : code = BitVec.ofNat 8 n := by
  rw [← h, BitVec.ofNat_toNat, BitVec.setWidth_eq]

theorem bytes_globalPayload (m1 m0 e l1 l0 : Byte) :
    GlobalPayload.bytes ⟨word16 m1 m0, e, word16 l1 l0⟩ = [m1, m0, e, l1, l0] := by
  rw [GlobalPayload.bytes, bytes16_word16, bytes16_word16]; rfl

theorem bytes_windowPayload (en k b2 b1 b0 l1 l0 d s1 s0 w h1 h0 a : Byte) :
    WindowPayload.bytes ⟨en, k, word24 b2 b1 b0, word16 l1 l0, d, word16 s1 s0, w, word16 h1 h0, a⟩ =
      [en, k, b2, b1, b0, l1, l0, d, s1, s0, w, h1, h0, a] := by
  rw [WindowPayload.bytes, bytes24_word24, bytes16_word16, bytes16_word16, bytes16_word16]; rfl

theorem bytes_domainPayload (w l e m1 m0 lp ep fb s2 s1 s0 n : Byte) :
    DomainPayload.bytes ⟨w, l, e, word16 m1 m0, lp, ep, fb, word24 s2 s1 s0, n⟩ =
      [w, l, e, m1, m0, lp, ep, fb, s2, s1, s0, n] := by
  rw [DomainPayload.bytes, bytes16_word16, bytes24_word24]; rfl

theorem bytes_safePayload (en d a2 a1 a0 d3 d2 d1 d0 m : Byte) :
    SafePayload.bytes ⟨en, d, word24 a2 a1 a0, word32 d3 d2 d1 d0, m⟩ = [en, d, a2, a1, a0, d3, d2, d1, d0, m] := by
  rw [SafePayload.bytes, bytes24_word24, bytes32_word32]; rfl

/-- Every payload of its command's length spells a command that is well formed and whose frame is that request. -/
theorem exists_decodeRequest {code : Byte} {payload : List Byte} (h : payloadLength code = some payload.length)
    (tail : Nat) : ∃ c, decodeRequest code payload tail = some c ∧ c.wellFormed = true ∧
      encodeFrame c = some (requestFrame code payload tail) := by
  obtain ⟨n, byte, rfl⟩ : ∃ (n : Nat) (byte : Fin n → Byte), payload = List.ofFn byte :=
    ⟨_, payload.get, (List.ofFn_get payload).symm⟩
  rw [List.length_ofFn] at h
  unfold payloadLength at h
  split at h
  case h_3 hn => -- SET_GLOBAL
    cases h; obtain rfl := eq_of_toNat hn
    exact ⟨_, rfl, rfl, congrArg (fun l => some (requestFrame 0x03 l tail)) (bytes_globalPayload ..)⟩
  case h_7 hn => -- SET_WINDOW
    cases h; obtain rfl := eq_of_toNat hn
    exact ⟨_, rfl, rfl, congrArg (fun l => some (requestFrame 0x11 (_ :: l) tail)) (bytes_windowPayload ..)⟩
  case h_9 hn => -- SET_DOMAIN
    cases h; obtain rfl := eq_of_toNat hn
    exact ⟨_, rfl, rfl, congrArg (fun l => some (requestFrame 0x21 (_ :: l) tail)) (bytes_domainPayload ..)⟩
  case h_15 hn => -- SET_SAFE
    cases h; obtain rfl := eq_of_toNat hn
    exact ⟨_, rfl, rfl, congrArg (fun l => some (requestFrame 0x31 (_ :: l) tail)) (bytes_safePayload ..)⟩
  case h_19 => cases h -- no command code
  all_goals -- requests of single bytes
    rename_i hn
    cases h; obtain rfl := eq_of_toNat hn
    exact ⟨_, rfl, rfl, rfl⟩

/-! ### Frames read back (R164) -/

theorem decodeFrame_unknown {frame : List Byte} (h : frameVerdict frame = .unknown) (rest : Fin 8) :
    decodeFrame frame rest = .unknownCommand frame rest := by
  unfold decodeFrame; rw [h]

theorem decodeFrame_short {frame : List Byte} (h : frameVerdict frame = .short) (rest : Fin 8) :
    decodeFrame frame rest = .shortFrame frame rest := by
  unfold decodeFrame; rw [h]

theorem decodeFrame_badCheck {frame : List Byte} (h : frameVerdict frame = .badCheck) (rest : Fin 8) :
    decodeFrame frame rest = .badCheck frame rest := by
  unfold decodeFrame; rw [h]

theorem decodeFrame_carriedOut {code : Byte} {after : List Byte} (h : frameVerdict (code :: after) = .carriedOut)
    (rest : Fin 8) : decodeFrame (code :: after) rest =
      let n := (payloadLength code).getD 0
      (decodeRequest code (after.take n) (8 * (after.length - (n + 1)) + rest.val)).getD
        (.unknownCommand (code :: after) rest) := by
  unfold decodeFrame; rw [h]

/-- A request spells its command, whatever bytes and bits follow it: only their number counts. -/
theorem decodeFrame_request {code : Byte} {payload : List Byte} (h : payloadLength code = some payload.length)
    (extra : List Byte) (rest : Fin 8) {c : Instr}
    (spelt : decodeRequest code payload (8 * extra.length + rest.val) = some c) :
    decodeFrame (withChecksum (code :: payload) ++ extra) rest = c := by
  refine (decodeFrame_carriedOut (frameVerdict_request h extra) rest).trans ?_
  change Option.getD (decodeRequest code ((payload ++ [_] ++ extra).take ((payloadLength code).getD 0))
    (8 * ((payload ++ [_] ++ extra).length - ((payloadLength code).getD 0 + 1)) + rest.val)) _ = c
  have ignored : (payload ++ [0 - byteSum (code :: payload)] ++ extra).length - (payload.length + 1) = extra.length := by
    simp only [List.length_append, List.length_singleton]
    omega
  rw [h, Option.getD_some, ignored, List.append_assoc, List.take_left, spelt, Option.getD_some]

theorem decodeBits_frameBits (l : List Byte) (n : Nat) :
    decodeBits (frameBits l n) = decodeFrame (l ++ List.replicate (n / 8) 0) (Fin.ofNat 8 n) := by
  rw [decodeBits, bytesOfBits_frameBits, length_frameBits]
  exact congrArg (decodeFrame _) (Fin.ext (by simp))

theorem decodeBits_frameBits_partial (l : List Byte) (rest : Fin 8) :
    decodeBits (frameBits l rest.val) = decodeFrame l rest := by
  rw [decodeBits_frameBits, Nat.div_eq_of_lt rest.isLt, List.replicate_zero, List.append_nil]
  exact congrArg (decodeFrame l) (Fin.ext (Nat.mod_eq_of_lt rest.isLt))

theorem decodeBits_requestFrame {code : Byte} {payload : List Byte} {tail : Nat} {c : Instr}
    (h : payloadLength code = some payload.length) (spelt : decodeRequest code payload tail = some c) :
    decodeBits (requestFrame code payload tail) = c := by
  rw [requestFrame, decodeBits_frameBits]
  refine decodeFrame_request h _ _ ?_
  rw [List.length_replicate, Fin.val_ofNat, Nat.div_add_mod, spelt]

/-- Settles O4: a frame that is not carried out keeps its bytes, and a request spells its command. -/
theorem decodeOfEncodedFrame : Obligations.DecodeOfEncodedFrame := by
  intro c bits wf encoded
  cases frameOf_encodeFrame encoded with
  | empty rest => exact decodeBits_frameBits_partial [] rest
  | unknown frame rest => rw [decodeBits_frameBits_partial, decodeFrame_unknown (of_decide_eq_true wf)]
  | short frame rest => rw [decodeBits_frameBits_partial, decodeFrame_short (of_decide_eq_true wf)]
  | badCheck frame rest => rw [decodeBits_frameBits_partial, decodeFrame_badCheck (of_decide_eq_true wf)]
  | request code payload tail known spelt => exact decodeBits_requestFrame known spelt

/-- The command of a frame that is not carried out is well formed and keeps the frame. -/
theorem decodeFrame_not_carriedOut {frame : List Byte} (h : frameVerdict frame ≠ .carriedOut) (rest : Fin 8) :
    (decodeFrame frame rest).wellFormed = true ∧
      encodeFrame (decodeFrame frame rest) = some (frameBits frame rest.val) := by
  cases found : frameVerdict frame with
  | empty => rw [frameVerdict_eq_empty found]; exact ⟨rfl, rfl⟩
  | unknown => rw [decodeFrame_unknown found]; exact ⟨decide_eq_true found, rfl⟩
  | short => rw [decodeFrame_short found]; exact ⟨decide_eq_true found, rfl⟩
  | badCheck => rw [decodeFrame_badCheck found]; exact ⟨decide_eq_true found, rfl⟩
  | carriedOut => exact absurd found h

/-- The bits of a frame are those of its complete bytes and those of the partial byte. -/
theorem length_bytes_add_partial (bits : List Bool) :
    8 * (bytesOfBits bits).length + (Fin.ofNat 8 bits.length).val = bits.length := by
  rw [length_bytesOfBits, Fin.val_ofNat, Nat.div_add_mod]

/-- Settles O5: a frame that is not carried out is kept whole, and one that is carried out begins with the request that
its command is encoded by. -/
theorem encodeOfDecodedFrame : Obligations.EncodeOfDecodedFrame := by
  intro bits frame
  have total := length_bytes_add_partial bits
  by_cases verdict : frameVerdict frame = .carriedOut
  · obtain ⟨code, payload, extra, framed, known⟩ := request_of_carriedOut verdict
    obtain ⟨c, spelt, wf, encoded⟩ := exists_decodeRequest known (8 * extra.length + (Fin.ofNat 8 bits.length).val)
    have decoded : decodeBits bits = c := by
      rw [decodeBits, show bytesOfBits bits = _ from framed, decodeFrame_request known extra _ spelt]
    rw [show bytesOfBits bits = _ from framed] at total
    rw [decoded]
    refine ⟨wf, _, encoded, ?_, fun carried => absurd verdict carried, fun code' after n first length _ => ?_⟩
    · rw [requestFrame, length_frameBits]
      simp only [List.length_append, length_withChecksum, List.length_cons] at total ⊢
      omega
    · obtain rfl : code = code' := List.head_eq_of_cons_eq (framed.symm.trans first)
      have request : n = (withChecksum (code :: payload)).length := by
        rw [requestLength, known] at length
        simpa using length.symm
      rw [requestFrame, bytesOfBits_frameBits, framed, List.take_left' request.symm, List.take_left' request.symm]
  · obtain ⟨wf, encoded⟩ := decodeFrame_not_carriedOut verdict (Fin.ofNat 8 bits.length)
    exact ⟨wf, _, encoded, (length_frameBits _ _).trans total, fun _ => bytesOfBits_frameBits_partial _ _,
      fun _ _ _ _ _ carried => absurd carried verdict⟩

end Sys2Proof.Machine
end

section
/-! SUPPORT. Frames that are not carried out (O7), frames that are not taken (O8), and the commands that report the status
summary and the settings (O9). -/

namespace Sys2Proof.Machine

/-! ### Frames that are not carried out (R164) -/

/-- Settles O7: each case of R164 is the one the frame's command says. -/
theorem frameNotCarriedOutOnlyAnswers : Obligations.FrameNotCarriedOutOnlyAnswers := by
  intro s code rest part h bits
  have answered (r : Result) : (s.carryOut bits fun s => (s, bare r)) = s.replied bits (bare r) :=
    carryOut_unchanged h bits rfl
  refine ⟨fun unknown => ?_, fun n known short => ?_, fun n known long sum => ?_, ?_⟩
  · exact congrArg Host.Outcome.next ((if_pos (frameVerdict_unknown unknown rest)).trans (answered .unknown))
  · have verdict : frameVerdict (code :: rest) = .short := (frameVerdict_known known rest).trans (if_pos short)
    exact congrArg Host.Outcome.next ((if_pos verdict).trans (answered .shortFrame))
  · have verdict : frameVerdict (code :: rest) = .badCheck :=
      (frameVerdict_known known rest).trans ((if_neg (Nat.not_lt.2 long)).trans (if_pos sum))
    exact congrArg Host.Outcome.next ((if_pos verdict).trans (answered .badCheck))
  · exact congrArg Host.Outcome.next (if_pos (frameTaken_of_listening h))

/-! ### Frames that are not taken (R162, R168) -/

theorem frameTaken_eq_false {s : State} (h : s.resetLow = true ∨ s.receiver = .ignoring) : s.frameTaken = false := by
  unfold State.frameTaken
  rcases h with low | ignoring
  · rw [low]; rfl
  · rw [ignoring]; simp

theorem carryOut_not_taken {s : State} (h : s.frameTaken = false) (n : Nat) (f : State → State × Reply) :
    s.carryOut n f = s := by
  unfold State.carryOut; rw [h]; rfl

/-- A frame command that is not taken leaves the state as it is. -/
theorem exec_frame_not_taken {c : Instr} {bits : List Bool} {s : State} (encoded : encodeFrame c = some bits)
    (h : s.frameTaken = false) : exec c s = .next s := by
  cases c with
  | emptyFrame rest => exact congrArg Host.Outcome.next (if_neg (by rw [h]; decide))
  | unknownCommand | shortFrame | badCheck =>
    exact congrArg Host.Outcome.next (ite_eq_right_iff.2 fun _ => carryOut_not_taken h _ _)
  | nop | getGlobal | setGlobal | popEvent | resetPart | getWindow | setWindow | getDomain | setDomain | start | stop
  | sealBatch | sync | getSafe | setSafe | arm | getBatch | peekStaging =>
    exact congrArg Host.Outcome.next (carryOut_not_taken h _ _)
  | transactionAccept | portWriteComplete | portReadComplete | commitWriteComplete | sequenceWriteComplete
  | fillWriteComplete | captureReadComplete | stallTimeout | tick | syncMonitorExpiry | holdLimitExpiry | syncEdge
  | faultEdge | resetFall | resetRise | ignoredFrameEnd | faultLineRelease => cases encoded

theorem exec_ignoredFrameEnd {s : State} (high : s.resetLow = false) (ignoring : s.receiver = .ignoring) :
    exec .ignoredFrameEnd s = .next { s with receiver := .idle } :=
  congrArg Host.Outcome.next (if_pos (by rw [high, ignoring]; rfl))

/-- Settles O8: a frame is taken only while RESET is high and the receiver is not IGNORING. -/
theorem framesIgnoredWhileLowOrIgnoring : Obligations.FramesIgnoredWhileLowOrIgnoring :=
  ⟨fun _ _ _ encoded h => exec_frame_not_taken encoded (frameTaken_eq_false h),
    fun _ high ignoring => exec_ignoredFrameEnd high ignoring⟩

/-! ### The status summary and the settings (R172, R173) -/

theorem toList_eq_of_four {α : Type} (v : Vector α 4) : v.toList = [v[0], v[1], v[2], v[3]] := by
  obtain ⟨⟨l⟩, four⟩ := v
  match l, four with
  | [_, _, _, _], _ => rfl

theorem map_domains {α : Type} (s : State) (f : Domain → α) :
    s.domains.toList.map f = [f (s.domain 0), f (s.domain 1), f (s.domain 2), f (s.domain 3)] := by
  rw [toList_eq_of_four]; rfl

theorem statusSummary_eq (s : State) : s.statusSummary =
    [(s.domain 0).state.code, (s.domain 1).state.code, (s.domain 2).state.code, (s.domain 3).state.code,
      BitVec.ofNat 8 (s.entries.toList.countP Option.isSome), BitVec.ofNat 8 s.queue.length,
      (if s.faultLevels[0] then 1 else 0) + (if s.faultLevels[1] then 2 else 0)] := by
  rw [State.statusSummary, map_domains]; rfl

/-- Settles O9: both commands report what the frame found and change nothing else. -/
theorem statusAndSettingsReported : Obligations.StatusAndSettingsReported := by
  intro s tail h
  rw [← statusSummary_eq]
  exact ⟨congrArg Host.Outcome.next (carryOut_unchanged h _ rfl),
    congrArg Host.Outcome.next (carryOut_unchanged h _ rfl)⟩

end Sys2Proof.Machine
end

section
/-! SUPPORT. The layouts of R185 drop no field: each coded field is determined by its bytes, and so is each record (O11). -/

namespace Sys2Proof.Machine

/-! ### Coded fields (R183)

A code that has a decoder, the model's own where it has one, is determined by what that decoder reads back. -/

theorem injective_of_decoded {α β : Type} {code : α → β} {decode : β → Option α} (h : ∀ a, decode (code a) = some a) :
    Function.Injective code := fun a b same =>
  Option.some_injective α ((h a).symm.trans ((congrArg decode same).trans (h b)))

theorem byteOfYes_injective : Function.Injective byteOfYes :=
  injective_of_decoded (decode := fun b => some (yesOfByte b)) fun y => by cases y <;> rfl

theorem windowKindCode_injective : Function.Injective WindowKind.code :=
  injective_of_decoded (decode := windowKindOfCode) fun k => by cases k <;> rfl

theorem portCode_injective : Function.Injective portCode :=
  injective_of_decoded (decode := portOfCode) fun p => by cases p <;> rfl

theorem edgeCode_injective : Function.Injective edgeCode :=
  injective_of_decoded (decode := edgeOfCode) fun e => by cases e <;> rfl

theorem lossPolicyCode_injective : Function.Injective LossPolicy.code :=
  injective_of_decoded (decode := lossPolicyOfCode) fun l => by cases l <;> rfl

theorem exhaustionCode_injective : Function.Injective ExhaustionPolicy.code :=
  injective_of_decoded (decode := exhaustionOfCode) fun x => by cases x <;> rfl

theorem bindingCode_injective : Function.Injective FaultBinding.code :=
  injective_of_decoded (decode := bindingOfCode) fun b => by cases b <;> rfl

theorem syncLineOfCode_syncLineCode : ∀ l : Option SyncLine, syncLineOfCode (syncLineCode l) = some l := by decide

theorem syncLineCode_injective : Function.Injective syncLineCode := injective_of_decoded syncLineOfCode_syncLineCode

theorem eventCauseCode_injective : Function.Injective EventCause.code :=
  injective_of_decoded (decode := fun b => eventCauses[b.toNat]?) eventCauses_code

theorem eventKindByte_injective : Function.Injective fun k : EventKind => BitVec.ofNat 8 k.code :=
  injective_of_decoded (decode := fun b => eventKinds[b.toNat]?) fun k => by cases k <;> rfl

/-- An index of at most 256 values is determined by its byte. -/
theorem indexNumber_injective {n : Nat} (h : n ≤ 256) : Function.Injective fun i : Fin n => BitVec.ofNat 8 i.val := by
  intro i j same
  have numbers := congrArg BitVec.toNat same
  simp only [BitVec.toNat_ofNat] at numbers
  exact Fin.ext (by omega)

/-! ### Numbers (R183) -/

theorem setWidth_injective {w n : Nat} (h : w ≤ n) : Function.Injective (BitVec.setWidth n : BitVec w → BitVec n) :=
  injective_of_decoded (decode := fun u => some (u.setWidth w)) fun v => by
    rw [BitVec.setWidth_setWidth_of_le v h, BitVec.setWidth_eq]

theorem bytes16_injective : Function.Injective bytes16 := by
  intro u v same
  obtain ⟨byte1, rest⟩ := List.cons.inj same
  obtain ⟨byte0, -⟩ := List.cons.inj rest
  rw [← word16_extract u, ← word16_extract v, byte1, byte0]

theorem bytes24_injective : Function.Injective bytes24 := by
  intro u v same
  obtain ⟨byte2, rest⟩ := List.cons.inj same
  obtain ⟨byte1, rest⟩ := List.cons.inj rest
  obtain ⟨byte0, -⟩ := List.cons.inj rest
  rw [← word24_extract u, ← word24_extract v, byte2, byte1, byte0]

theorem bytes32_injective : Function.Injective bytes32 := by
  intro u v same
  obtain ⟨byte3, rest⟩ := List.cons.inj same
  obtain ⟨byte2, rest⟩ := List.cons.inj rest
  obtain ⟨byte1, rest⟩ := List.cons.inj rest
  obtain ⟨byte0, -⟩ := List.cons.inj rest
  rw [← word32_extract u, ← word32_extract v, byte3, byte2, byte1, byte0]

theorem bytesAddr_injective : Function.Injective bytesAddr :=
  bytes24_injective.comp (setWidth_injective (by decide))

/-- A field of a fixed number of bytes stands apart from what follows it. -/
theorem field_append_inj {α : Type} {f : α → List Byte} (hf : Function.Injective f)
    (length : ∀ a b, (f a).length = (f b).length) (a b : α) (k l : List Byte) : f a ++ k = f b ++ l ↔ a = b ∧ k = l :=
  ⟨fun h => have parts := List.append_inj h (length a b)
    ⟨hf parts.1, parts.2⟩, fun ⟨same, rest⟩ => by rw [same, rest]⟩

theorem bytes16_append_inj (u v : BitVec 16) (k l : List Byte) : bytes16 u ++ k = bytes16 v ++ l ↔ u = v ∧ k = l :=
  field_append_inj bytes16_injective (fun _ _ => rfl) u v k l

theorem bytes24_append_inj (u v : BitVec 24) (k l : List Byte) : bytes24 u ++ k = bytes24 v ++ l ↔ u = v ∧ k = l :=
  field_append_inj bytes24_injective (fun _ _ => rfl) u v k l

theorem bytes32_append_inj (u v : BitVec 32) (k l : List Byte) : bytes32 u ++ k = bytes32 v ++ l ↔ u = v ∧ k = l :=
  field_append_inj bytes32_injective (fun _ _ => rfl) u v k l

theorem bytesAddr_append_inj (a b : Addr) (k l : List Byte) : bytesAddr a ++ k = bytesAddr b ++ l ↔ a = b ∧ k = l :=
  field_append_inj bytesAddr_injective (fun _ _ => rfl) a b k l

/-! ### Fields that may be absent (R183, R185) -/

/-- The seal offset field of a window record's report. -/
def sealOffsetField : Option Byte → BitVec 16
  | none => 0xFFFF
  | some o => o.setWidth 16

/-- The sequence word field of a domain record's report. -/
def sequenceWordField : Option Addr → BitVec 24
  | none => 0xFFFFFF
  | some a => a.setWidth 24

theorem sealOffsetField_injective : Function.Injective sealOffsetField := by
  have absent (o : Byte) : o.setWidth 16 ≠ 0xFFFF := by bv_omega
  intro x y same
  cases x with
  | none => cases y with
    | none => rfl
    | some o => exact absurd same.symm (absent o)
  | some o => cases y with
    | none => exact absurd same (absent o)
    | some o' => exact congrArg some (setWidth_injective (by decide) same)

theorem sequenceOfField_sequenceWordField (x : Option Addr) : sequenceOfField (sequenceWordField x) = some x := by
  cases x with
  | none => rfl
  | some a =>
    have absent : a.setWidth 24 ≠ 0xFFFFFF := by bv_omega
    have inRange : (a.setWidth 24).toNat ≤ 4194303 := by bv_omega
    rw [sequenceWordField, sequenceOfField, if_neg absent, if_pos inRange, BitVec.setWidth_setWidth_of_le a (by decide),
      BitVec.setWidth_eq]

theorem sequenceWordField_injective : Function.Injective sequenceWordField :=
  injective_of_decoded sequenceOfField_sequenceWordField

/-- A field that reads its default where it is absent is determined by what it reads and by whether it is present. -/
theorem eq_of_isSome_of_getD {α : Type} {x y : Option α} {d : α} (present : x.isSome = y.isSome)
    (reads : x.getD d = y.getD d) : x = y := by
  cases x with
  | none => cases y with
    | none => rfl
    | some b => cases present
  | some a => cases y with
    | none => cases present
    | some b => exact congrArg some reads

/-- The same of a field reported by a code. -/
theorem eq_of_isSome_of_code {α : Type} {code : α → Byte} (injective : Function.Injective code) {x y : Option α}
    (present : x.isSome = y.isSome) (reads : (x.map code).getD 0 = (y.map code).getD 0) : x = y :=
  Option.map_injective injective
    (eq_of_isSome_of_getD (by rw [Option.isSome_map, Option.isSome_map, present]) reads)

/-! ### The records (R185, R186) -/

theorem windowReport_layout (w : WindowRecord) : w.report =
    byteOfYes w.enabled :: w.kind.code :: (bytesAddr w.base ++ (bytes16 (w.length.setWidth 16) ++
      BitVec.ofNat 8 w.domain.val :: (bytes16 (sealOffsetField w.sealOffset) ++
        portCode w.writer :: (bytes16 w.holdLimit ++ [byteOfYes w.autoRelease])))) := rfl

theorem domainRecordReport_layout (d : DomainRecord) : d.report =
    portCode d.writer :: syncLineCode d.syncLine :: edgeCode d.syncEdge :: (bytes16 d.maxInterval ++
      d.lossPolicy.code :: d.exhaustion.code :: d.binding.code ::
        (bytes24 (sequenceWordField d.sequenceWord) ++ [byteOfYes d.notify])) := by
  cases d with
  | mk _ _ _ _ _ _ _ sequenceWord _ => cases sequenceWord <;> rfl

theorem safeReport_layout (e : SafeEntry) : e.report =
    byteOfYes e.enabled :: BitVec.ofNat 8 e.domain.val :: (bytesAddr e.addr ++
      (bytes32 e.data ++ [e.lanes.setWidth 8])) := rfl

theorem eventReport_layout (r : EventRecord) : r.report =
    BitVec.ofNat 8 r.kind.code :: r.presence :: (bytes32 r.tick ++
      (r.index.map fun i => BitVec.ofNat 8 i.val).getD 0 :: (r.port.map portCode).getD 0 ::
        (bytesAddr (r.addr.getD 0) ++ [(r.cause.map EventCause.code).getD 0])) := rfl

theorem windowReport_injective : Function.Injective WindowRecord.report := by
  intro v w same
  simp only [windowReport_layout, List.cons.injEq, bytesAddr_append_inj, bytes16_append_inj] at same
  obtain ⟨enabled, kind, base, length, domain, sealOffset, writer, holdLimit, autoRelease, -⟩ := same
  exact Eq.mpr (WindowRecord.mk.injEq ..) ⟨byteOfYes_injective enabled, windowKindCode_injective kind, base,
    setWidth_injective (by decide) length, indexNumber_injective (by decide) domain, sealOffsetField_injective sealOffset,
    portCode_injective writer, holdLimit, byteOfYes_injective autoRelease⟩

theorem domainRecordReport_injective : Function.Injective DomainRecord.report := by
  intro v w same
  simp only [domainRecordReport_layout, List.cons.injEq, bytes16_append_inj, bytes24_append_inj] at same
  obtain ⟨writer, syncLine, syncEdge, maxInterval, lossPolicy, exhaustion, binding, sequenceWord, notify, -⟩ := same
  exact Eq.mpr (DomainRecord.mk.injEq ..) ⟨portCode_injective writer, syncLineCode_injective syncLine,
    edgeCode_injective syncEdge, maxInterval, lossPolicyCode_injective lossPolicy, exhaustionCode_injective exhaustion,
    bindingCode_injective binding, sequenceWordField_injective sequenceWord, byteOfYes_injective notify⟩

theorem safeReport_injective : Function.Injective SafeEntry.report := by
  intro v w same
  simp only [safeReport_layout, List.cons.injEq, bytesAddr_append_inj, bytes32_append_inj] at same
  obtain ⟨enabled, domain, addr, data, lanes, -⟩ := same
  exact Eq.mpr (SafeEntry.mk.injEq ..) ⟨byteOfYes_injective enabled, indexNumber_injective (by decide) domain, addr, data,
    setWidth_injective (by decide) lanes⟩

/-- Byte 1 of an event record tells which fields are present and whether records were lost. -/
theorem presence_bits (r : EventRecord) :
    r.presence.getLsbD 0 = r.index.isSome ∧ r.presence.getLsbD 1 = r.port.isSome ∧
      r.presence.getLsbD 2 = r.addr.isSome ∧ r.presence.getLsbD 3 = r.cause.isSome ∧ r.presence.getLsbD 7 = r.lost := by
  unfold EventRecord.presence
  generalize r.index.isSome = index, r.port.isSome = port, r.addr.isSome = addr, r.cause.isSome = cause, r.lost = lost
  revert index port addr cause lost
  decide

theorem eventReport_injective : Function.Injective EventRecord.report := by
  intro v w same
  simp only [eventReport_layout, List.cons.injEq, bytesAddr_append_inj, bytes32_append_inj] at same
  obtain ⟨kind, presence, tick, index, port, addr, cause, -⟩ := same
  obtain ⟨vIndex, vPort, vAddr, vCause, vLost⟩ := presence_bits v
  rw [presence] at vIndex vPort vAddr vCause vLost
  obtain ⟨wIndex, wPort, wAddr, wCause, wLost⟩ := presence_bits w
  exact Eq.mpr (EventRecord.mk.injEq ..) ⟨eventKindByte_injective kind, tick,
    eq_of_isSome_of_code (indexNumber_injective (by decide)) (vIndex.symm.trans wIndex) index,
    eq_of_isSome_of_code portCode_injective (vPort.symm.trans wPort) port,
    eq_of_isSome_of_getD (vAddr.symm.trans wAddr) addr,
    eq_of_isSome_of_code eventCauseCode_injective (vCause.symm.trans wCause) cause, vLost.symm.trans wLost⟩

/-- Settles O11: in each layout every field stands at its place in a code that determines it. -/
theorem reportsDetermineTheirRecords : Obligations.ReportsDetermineTheirRecords :=
  ⟨fun _ _ same => windowReport_injective same, fun _ _ same => domainRecordReport_injective same,
    fun _ _ same => safeReport_injective same, fun _ _ same => eventReport_injective same⟩

end Sys2Proof.Machine
end

section
/-! SUPPORT. The step on a queue of commands (O1), and the power-on values right after reset, block by block (O22). -/

namespace Sys2Proof.Machine

/-! ### The queue of commands -/

theorem step_of_front {s : State} {c : Instr} {rest : List Instr} (front : s.pending = c :: rest) :
    step s = exec c { s with pending := rest } := by
  rw [step, front]

theorem step_of_empty {s : State} (empty : s.pending = []) : step s = .next s := by
  rw [step, empty]

/-- Settles O1: the two cases of the queue. -/
theorem stepRunsFrontCommand : Obligations.StepRunsFrontCommand :=
  ⟨fun _ _ _ => step_of_front rfl, fun _ empty => step_of_empty empty⟩

/-! ### Right after reset

The tables are replicas of one record; ports, contexts and domains at reset are `port_reset`, `context_reset` and
`domain_reset`. -/

theorem window_reset (i : WindowId) : State.reset.window i = {} := Vector.getElem_replicate i.isLt

theorem entry_reset (i : EntryId) : State.reset.entries[i] = none := Vector.getElem_replicate i.isLt

theorem safeEntry_reset (i : SafeId) : State.reset.safeEntry i = {} := Vector.getElem_replicate i.isLt

theorem slot_reset (d : DomainId) (k : SlotId) : State.reset.slot d k = {} := by
  rw [State.slot, domain_reset]
  exact Vector.getElem_replicate k.isLt

/-- Settles O22: the tables by their lookups after reset, and every other block by its field of `State.reset`. -/
theorem resetLeavesPowerOnValues : Obligations.ResetLeavesPowerOnValues := by
  refine ⟨rfl, rfl, fun p => ?_, window_reset, entry_reset, rfl, fun d => ?_, rfl, rfl, rfl, safeEntry_reset, rfl, rfl,
    rfl, rfl, rfl, rfl, rfl, rfl, rfl⟩
  · rw [port_reset]
    exact ⟨rfl, rfl, rfl, rfl, context_reset p, rfl⟩
  · rw [domain_reset]
    exact ⟨rfl, rfl, slot_reset d, rfl, rfl, rfl, rfl, rfl, rfl, rfl, rfl, rfl⟩

end Sys2Proof.Machine
end
